-- ==== Sys2Proof/Word.lean ====
section
/-! DEFINITION. The word types of the Ijarko IJM16: a byte of the line or of the local port, a 16-bit word, and the
ten samples of one character on the line. -/

namespace Sys2Proof

/-- One byte: a character's data, a port byte, a byte of mirror memory. -/
abbrev Byte := BitVec 8

/-- Sixteen bits: a shared address, an offset as carried in a frame, a check code, a layout signature. -/
abbrev Word := BitVec 16

/-- The ten bit times of one character as sampled on the line (R2, R3): bit 0 is the start bit's sample, bits 1 to 8
the data bits 0 to 7, bit 9 the stop bit's. A 0 is dominant, a 1 recessive (R1). -/
abbrev CharSamples := BitVec 10

end Sys2Proof
end

