-- ==== Sys2Proof/Config.lean ====
section
/-! DEFINITION. The fixed quantities of the part (section 0.7 of 00_scope.md and the rules that own each). The spec
leaves no result of a command undefined, so there is no free value here. -/

namespace Sys2Proof.Config

/-- Stations on one line (section 0.7). -/
abbrev stations : Nat := 32
/-- Entries of the window table (R46). -/
abbrev windows : Nat := 16
/-- Bytes of mirror memory (R59). -/
abbrev mirrorBytes : Nat := 16384
/-- GUARDED windows at most (R55). -/
abbrev guardLimit : Nat := 4
/-- Station numbers in one claim queue at most (R93). -/
abbrev claimQueueLimit : Nat := 8
/-- Records of the publication queue at most (R74). -/
abbrev publicationLimit : Nat := 16
/-- Data bytes of one WRITE record at most (R74). -/
abbrev writeDataLimit : Nat := 32
/-- Entries of the control list at most (R78). -/
abbrev controlLimit : Nat := 8
/-- Entries of the inbound queue at most (R60). -/
abbrev inboundLimit : Nat := 4
/-- Entries of the service table at most (R136). -/
abbrev serviceLimit : Nat := 4
/-- Records of the outcome queue at most (R177). -/
abbrev outcomeLimit : Nat := 16
/-- BODYLEN at most (R23). -/
abbrev bodyLimit : Nat := 132
/-- Local read burst at most (R67). -/
abbrev burstLimit : Nat := 32
/-- Failed attempts at which a frame is abandoned (R86). -/
abbrev attemptLimit : Nat := 16
/-- Passes after which a waiting snapshot goes first (R66). -/
abbrev passLimit : Nat := 4
/-- Expiries of a fetch timer that make the copy failed (R134). -/
abbrev expiryLimit : Nat := 4
/-- Objection run that mutes the station (R20). -/
abbrev objectionLimit : Nat := 8
/-- Clean run that ends MUTED (R21). -/
abbrev cleanLimit : Nat := 16
/-- The gap in ct (R8), also the recessive run that ends STUCK (R19). -/
abbrev gapTicks : Nat := 2
/-- The verdict window in ct (R4). -/
abbrev verdictTicks : Nat := 2
/-- The bit times of an objection (R17). -/
abbrev objectionBits : Nat := 12
/-- The silence limit in ct (R16). -/
abbrev silenceTicks : Nat := 40
/-- The slots of one cycle (R9). -/
abbrev slots : Nat := 32
/-- T_announce in ct (R124). -/
abbrev announceTicks : Nat := 2048
/-- T_lost in ct (R125). -/
abbrev lostTicks : Nat := 8192
/-- T_answer in ct (R152). -/
abbrev answerTicks : Nat := 1024
/-- The fetch timer in ct (R134). -/
abbrev fetchTicks : Nat := 4096
/-- One unit of LEASE in ct (R46, R104). -/
abbrev leaseUnit : Nat := 256
/-- The reference a silent line gives (R16). -/
abbrev silentReference : Nat := 31
/-- The HOLD byte of READ (R190). -/
abbrev holdByte : Byte := 0x00
/-- The MARK byte of READ (R190). -/
abbrev markByte : Byte := 0x5A
/-- The byte clocked out after a complete response (R162). -/
abbrev idleByte : Byte := 0xFF

end Sys2Proof.Config
end

