-- ==== Sys2Proof/Syntax.lean ====
section
/-! DEFINITION. The commands of the block: one constructor a row of spec/opcode_table.json, with the operands the
spec's rules give the step. -/

namespace Sys2Proof

/-- A command: one whole and indivisible step of the part (95_what_each_step_holds.md). -/
inductive Instr where
  /-- PIN_RESET: RST# is asserted (R22, R148). -/
  | pinReset
  /-- RST_RELEASE: RST# is released with ID4 to ID0 at `id` and RATE1, RATE0 at `rate` (R22, R148). -/
  | rstRelease (id : BitVec 5) (rate : BitVec 2)
  /-- SYNCHRONISATION_CONDITION: the line has been recessive for one continuous ct after START (R7). -/
  | synchronisationCondition
  /-- FRAME_START: another station's start bit is sensed (R6, R8, R9). -/
  | frameStart
  /-- FRAME_END: the frame on the line ends. `samples` are the characters of the frame as sampled, each of ten bits;
  the list stops where no further start bit appeared (R2, R3, R4). Of a frame this station sent to its length end the
  receiver has its own characters, and `samples` is not read. -/
  | frameEnd (samples : List CharSamples)
  /-- VERDICT_WINDOW_END: the window ends; `samples` are its twenty samples, 1 recessive, apart from this station's
  own objection (R18). -/
  | verdictWindowEnd (samples : BitVec 20)
  /-- GAP_COMPLETE: 2 ct of recessive line after a verdict (R8). -/
  | gapComplete
  /-- SLOT_CYCLE_RESTART: 32 slots have passed with no start bit (R9). -/
  | slotCycleRestart
  /-- TRANSMIT_OPPORTUNITY: the slot this station owns begins (R10). -/
  | transmitOpportunity
  /-- LOST_ARBITRATION: at bit time `bit` of the SENDER character, sent recessive and sensed dominant (R11). -/
  | lostArbitration (bit : Nat)
  /-- LINE_FAULT: a readback mismatch of R12 at bit time `bit` of the frame, counted from its first start bit. -/
  | lineFault (bit : Nat)
  /-- SILENCE_LIMIT: 40 ct of recessive line with L UNKNOWN (R16). -/
  | silenceLimit
  /-- STUCK_LINE: dominant for more than 3 ct outside a frame (R19). -/
  | stuckLine
  /-- STUCK_RELEASE: 2 ct of recessive line in STUCK (R19). -/
  | stuckRelease
  /-- ANNOUNCE_TIMER_EXPIRY: the announce timer reaches 0 (R124). -/
  | announceTimerExpiry
  /-- SILENCE_TIMER_EXPIRY: the silence timer of `station`'s entry reaches 0 (R125). -/
  | silenceTimerExpiry (station : Nat)
  /-- ANSWER_TIMER_EXPIRY: the answer timer reaches 0 (R153). -/
  | answerTimerExpiry
  /-- LEASE_EXPIRY: the lease timer of `window` runs out in HELD (R105). -/
  | leaseExpiry (window : Nat)
  /-- FETCH_TIMER_EXPIRY: the fetch timer of the copy of `window` reaches 0 (R134). -/
  | fetchTimerExpiry (window : Nat)
  /-- APPLICATION_COMPLETE: the granted application of the head inbound entry completes (R62, R63). -/
  | applicationComplete
  /-- ZERO_FILL_COMPLETE: the granted founding zero-fill completes (R70, R143). -/
  | zeroFillComplete
  /-- FILL_READ_COMPLETE: the granted fill read completes (R69). -/
  | fillReadComplete
  /-- SNAPSHOT_DELIVERED: the granted snapshot completes its copy (R67). -/
  | snapshotDelivered
  /-- SELECTION_START: CS# falls (R162, R163). -/
  | selectionStart
  /-- SELECTION_END: CS# rises after `shifted` bytes of the command's response were completely shifted out; for READ
  and READ ON the count begins with the MARK byte (R162, R168, R173). -/
  | selectionEnd (shifted : Nat)
  /-- ILLEGAL_CODE: a code byte that names no command (R162). -/
  | illegalCode (code : Byte)
  /-- STATUS, code 01 (R167). -/
  | status
  /-- READ, code 02 (R168). -/
  | read (address : Word)
  /-- READ ON, code 03 (R168). -/
  | readOn
  /-- READ_DATA_BYTE_OUT: one data byte of the burst is completely shifted out (R168). -/
  | readDataByteOut
  /-- WRITE, code 04, at its second address byte (R169). -/
  | write (address : Word)
  /-- WRITE ON, code 05 (R169). -/
  | writeOn
  /-- WRITE_DATA_BYTE: one data byte of a write command is complete (R169). -/
  | writeDataByte (data : Byte)
  /-- CLAIM, code 06 (R107, R170). -/
  | claim (window : Byte)
  /-- RELEASE, code 07 (R108, R170). -/
  | release (window : Byte)
  /-- TAKE OUTCOME, code 08 (R172). -/
  | takeOutcome
  /-- OUTCOME_REMOVAL: the fifth byte of the latched outcome record is shifted out (R172). -/
  | outcomeRemoval
  /-- TAKE CHANGES, code 09 (R173). -/
  | takeChanges
  /-- READ ROSTER, code 0A (R174). -/
  | readRoster
  /-- READ QUEUE, code 0B (R174). -/
  | readQueue (window : Byte)
  /-- REFETCH, code 0C (R142, R171). -/
  | refetch (window : Byte)
  /-- LOAD ENTRY, code 10, with the nine parameter bytes of R189 in their order (R47, R175). -/
  | loadEntry (index flags policy : Byte) (base : Word) (size owner lease loc : Byte)
  /-- READ ENTRY, code 11 (R174). -/
  | readEntry (index : Byte)
  /-- START, code 12 (R149, R175). -/
  | start
  /-- LEAVE, code 13 (R160, R175). -/
  | leave
  /-- STRAY_DOMINANT_LEVEL: a dominant sample outside a frame and outside SLOTTING (R8). -/
  | strayDominantLevel
  deriving DecidableEq, Repr

end Sys2Proof
end

