-- ==== Sys2Proof/WellFormed.lean ====
section
/-! DEFINITION. Which commands the outside can give: operands within the ranges the spec names. -/

namespace Sys2Proof

/-- The code bytes of the sixteen port commands (R166). -/
def portCodes : List Byte :=
  [0x01, 0x02, 0x03, 0x04, 0x05, 0x06, 0x07, 0x08, 0x09, 0x0A, 0x0B, 0x0C, 0x10, 0x11, 0x12, 0x13]

/-- Operand ranges: a frame has at most 137 characters, and none where this station's own start bit was sensed recessive
(R3, R4, R12); LOST_ARBITRATION is at one of the ten bit times of SENDER (R11), LINE_FAULT within the longest frame (R12);
a station is 0 to 31, a window 0 to 15; a response has at most 33 bytes (MARK and 32 data bytes); an illegal code is none
of R166's. -/
def Instr.wellFormed : Instr → Bool
  | .frameEnd samples => samples.length ≤ 137
  | .lostArbitration bit => bit < 10
  | .lineFault bit => bit < 1370
  | .silenceTimerExpiry station => station < Config.stations
  | .leaseExpiry window => window < Config.windows
  | .fetchTimerExpiry window => window < Config.windows
  | .selectionEnd shifted => shifted ≤ 33
  | .illegalCode code => !portCodes.contains code
  | .pinReset | .rstRelease _ _ | .synchronisationCondition | .frameStart | .verdictWindowEnd _ | .gapComplete
  | .slotCycleRestart | .transmitOpportunity | .silenceLimit | .stuckLine | .stuckRelease | .announceTimerExpiry
  | .answerTimerExpiry | .applicationComplete | .zeroFillComplete | .fillReadComplete | .snapshotDelivered
  | .selectionStart | .status | .read _ | .readOn | .readDataByteOut | .write _ | .writeOn | .writeDataByte _
  | .claim _ | .release _ | .takeOutcome | .outcomeRemoval | .takeChanges | .readRoster | .readQueue _ | .refetch _
  | .loadEntry _ _ _ _ _ _ _ _ | .readEntry _ | .start | .leave | .strayDominantLevel => true

end Sys2Proof
end

