-- ==== Sys2Proof/Decode.lean ====
section
/-! DEFINITION. Decoding. No row of spec/opcode_table.json gives bits, so `decodeTableWord` answers none. The port's
own code and parameter bytes (R166, R189) are read by `decodePort`. -/

namespace Sys2Proof

/-- No row of the table spells a command in bits, so no word decodes. -/
def decodeTableWord (_nbits _w : Nat) : Option Instr := none

/-- Two bytes as a word, high byte first (opening of chapter 12). -/
def wordOf (high low : Byte) : Word := high ++ low

/-- The command that the first bytes of a selection take (R162, R166): the code byte and the command's parameter
bytes, with the bytes that follow. None while the parameters are not complete: the command is not taken yet. -/
def decodePort : List Byte → Option (Instr × List Byte)
  | 0x01 :: rest => some (.status, rest)
  | 0x02 :: high :: low :: rest => some (.read (wordOf high low), rest)
  | 0x02 :: _ => none
  | 0x03 :: rest => some (.readOn, rest)
  | 0x04 :: high :: low :: rest => some (.write (wordOf high low), rest)
  | 0x04 :: _ => none
  | 0x05 :: rest => some (.writeOn, rest)
  | 0x06 :: window :: rest => some (.claim window, rest)
  | 0x06 :: _ => none
  | 0x07 :: window :: rest => some (.release window, rest)
  | 0x07 :: _ => none
  | 0x08 :: rest => some (.takeOutcome, rest)
  | 0x09 :: rest => some (.takeChanges, rest)
  | 0x0A :: rest => some (.readRoster, rest)
  | 0x0B :: window :: rest => some (.readQueue window, rest)
  | 0x0B :: _ => none
  | 0x0C :: window :: rest => some (.refetch window, rest)
  | 0x0C :: _ => none
  | 0x10 :: index :: flags :: policy :: baseHigh :: baseLow :: size :: owner :: lease :: loc :: rest =>
    some (.loadEntry index flags policy (wordOf baseHigh baseLow) size owner lease loc, rest)
  | 0x10 :: _ => none
  | 0x11 :: index :: rest => some (.readEntry index, rest)
  | 0x11 :: _ => none
  | 0x12 :: rest => some (.start, rest)
  | 0x13 :: rest => some (.leave, rest)
  | code :: rest => some (.illegalCode code, rest)
  | [] => none

end Sys2Proof
end

