-- ==== Sys2Proof/Machine/State.lean ====
section
/-! DEFINITION. The state of one IJM16 station, unit by unit as section 0.3 of 00_scope.md divides it, as plain data,
and the state after pin reset. Field comments name the rule that gives the state. -/

namespace Sys2Proof.Machine

/-! ### Named values -/

/-- The station states (R146). -/
inductive StationState where
  | stopped | listening | joining | active | leaving | muted | incompatible
  deriving DecidableEq, Repr

/-- The reasons of a transition (R147). -/
inductive Reason where
  | pinReset | start | reference | joinFailed | founded | census | departed | objections | recovered | signature
  | duplicateId | leave | left | departAbandoned
  deriving DecidableEq, Repr

/-- The line states (R6). -/
inductive LineState where
  | idleGap | slotting | receiving | transmitting | verdict | stuck
  deriving DecidableEq, Repr

/-- A countdown in ct on the station's time base (R5): stopped, running with so much left, or run out. -/
inductive Timer where
  | stopped
  | running (left : Nat)
  | runOut
  deriving DecidableEq, Repr

/-- Write policies (R46). `shared` is the manual's OPEN. -/
inductive Policy where
  | owned | shared | guarded
  deriving DecidableEq, Repr

/-- Roster statuses (R114). -/
inductive RosterStatus where
  | absent | joined | active | foreign
  deriving DecidableEq, Repr

/-- Hold states (R103). `unheld` is the manual's NONE. -/
inductive HoldState where
  | unheld | claiming | waiting | held | expiring
  deriving DecidableEq, Repr

/-- Results of a host command (R164). -/
inductive Result where
  | done | notActive | unmapped | stale | denied | full | redundant | notGuarded | cancelledLocal | wrongState
  | tableError | illegal
  deriving DecidableEq, Repr

/-- Validation tests (R55). -/
inductive TableTest where
  | noWindow | alignment | noOwner | leasePolicy | watchUnmirrored | localRange | localOverlap | tooManyGuarded
  deriving DecidableEq, Repr

/-- A validation detail: the failing test and the entry index, none for NO_WINDOW (R55). -/
structure TableFault where
  test : TableTest
  entry : Option Nat
  deriving DecidableEq, Repr

/-- Reasons carried by an ABANDONED outcome (R178). -/
inductive AbandonReason where
  | attempts | overtaken | leaving | departed | muted
  deriving DecidableEq, Repr

/-- Reasons carried by a LOST_HOLD outcome (R178). -/
inductive LossReason where
  | lease | departed | muted
  deriving DecidableEq, Repr

/-- An outcome record (R178). A tag or position that is absent is `none`. -/
inductive OutcomeRecord where
  | rejected (tag : Byte) (window offset : Nat)
  | abandoned (tag : Byte) (window : Nat) (reason : AbandonReason)
  | granted (tag : Option Byte) (window : Nat)
  | waiting (tag : Option Byte) (window position : Nat)
  | claimRefused (tag : Option Byte) (window : Nat)
  | cancelled (tag : Option Byte) (window : Nat) (position : Option Nat)
  | lostHold (window : Nat) (reason : LossReason)
  | fresh (window : Nat)
  | fetchFailed (window : Nat)
  | state (state : StationState) (reason : Reason)
  deriving DecidableEq, Repr

/-! ### Frames -/

/-- REASON of a RELEASE frame (R25). -/
inductive ReleaseReason where
  | host | lease
  deriving DecidableEq, Repr

/-- REASON of a DEPART frame (R27). -/
inductive DepartReason where
  | silent | leaving
  deriving DecidableEq, Repr

/-- MODE of a PRESENCE frame without a body beyond the signature (R26); CENSUS is a body of its own. -/
inductive PresenceMode where
  | join | founded | announce
  deriving DecidableEq, Repr

/-- The body of a frame, by its kind (R25, R26, R27). -/
inductive Body where
  | write (window offset : Nat) (data : List Byte)
  | claim (window : Nat)
  | release (window : Nat) (reason : ReleaseReason)
  | presence (mode : PresenceMode) (signature : Word)
  | census (signature : Word) (map : List RosterStatus) (groups : List (List Nat))
  | depart (subject : Nat) (reason : DepartReason)
  | fetch (window origin : Nat)
  | fill (window offset requester : Nat) (data : List Byte)
  deriving DecidableEq, Repr

/-- A frame: SENDER and the body (R23). KIND and BODYLEN follow from the body, CHECK from the bytes. -/
structure Frame where
  sender : Nat
  body : Body
  deriving DecidableEq, Repr

/-- One received character: its data byte and its framing mark (R3). -/
structure RxChar where
  data : Byte
  framing : Bool
  deriving DecidableEq, Repr

/-- What the frame receiver holds of the frame on the line (R45). -/
structure RxFrame where
  /-- The characters received, with their framing marks. -/
  chars : List RxChar
  /-- The frame ended by a missing start bit (R4). -/
  short : Bool
  /-- This station is sending the frame, or sent it to its length end. -/
  sending : Bool
  /-- Faulty by framing (R3, R4). -/
  framing : Bool
  /-- Check fault (R24). -/
  check : Bool
  /-- Form fault (R28 to R30). -/
  form : Bool
  /-- The objection decision (R31). -/
  objects : Bool
  deriving DecidableEq, Repr

/-! ### The units -/

/-- RST#, and the straps as sampled at its release (R22, R148). -/
structure Pins where
  rstAsserted : Bool
  station : Nat
  rate : BitVec 2
  deriving DecidableEq, Repr

/-- The line interface (chapter 1). -/
structure Line where
  /-- Line state (R6). -/
  state : LineState
  /-- The reference L, none for UNKNOWN (R14). -/
  reference : Option Nat
  /-- The synchronisation condition after START is not yet met (R7). -/
  awaitSync : Bool
  /-- IDLE-GAP is timing a gap (R8). -/
  gapTiming : Bool
  /-- ct counted in the present line state: the gap, the verdict window, the characters of an own frame, STUCK. -/
  count : Nat
  /-- The silence count (R16). -/
  silence : Nat
  /-- The slot count (R9). -/
  slot : Nat
  /-- This cycle's transmit opportunity has been offered (R10). -/
  offered : Bool
  /-- A dominant level that began no frame has been sensed since the gap ended (R3, R10). -/
  sensed : Bool
  deriving DecidableEq, Repr

/-- The frame receiver and acceptance unit (chapter 2, R20, R21). -/
structure Receiver where
  frame : Option RxFrame
  objectionRun : Nat
  cleanRun : Nat
  deriving DecidableEq, Repr

/-- One window table entry (R46). -/
structure Entry where
  enabled : Bool
  base : Word
  /-- The size code, 0 to 8. -/
  size : Nat
  policy : Policy
  owner : Option Nat
  lease : Byte
  mirrored : Bool
  loc : Byte
  watched : Bool
  deriving DecidableEq, Repr

/-- The window table and its signature (chapter 3). -/
structure Layout where
  table : List Entry
  signature : Word
  deriving DecidableEq, Repr

/-- Kind of an inbound entry; a WRITE entry carries its change mark (R60). -/
inductive InboundKind where
  | write (mark : Bool)
  | fill
  deriving DecidableEq, Repr

/-- An inbound entry (R60). -/
structure Inbound where
  kind : InboundKind
  window : Nat
  offset : Nat
  data : List Byte
  withdrawn : Bool
  deriving DecidableEq, Repr

/-- A fill read: the chunk's window and offset, whether an acceptance has put an entry for the window into the inbound
queue since the request (R69), and whether the chunk is to be discarded at completion (log 40). -/
structure FillRead where
  window : Nat
  offset : Nat
  spoiled : Bool
  discard : Bool
  deriving DecidableEq, Repr

/-- A snapshot: the window, the local address of the first byte, the length, and the pass count (R66, R67). -/
structure Snapshot where
  window : Nat
  address : Nat
  length : Nat
  passes : Nat
  deriving DecidableEq, Repr

/-- What the arbiter's grant is for (R65). A snapshot's grant records whether the copy was FRESH (R168) and whether its
burst is to be discarded (R67); a zero-fill's whether it was ended by a change of state (R71). -/
inductive Grant where
  | application
  | zeroFill (ended : Bool)
  | fillRead (read : FillRead)
  | snapshot (snapshot : Snapshot) (fresh discard : Bool)
  deriving DecidableEq, Repr

/-- Mirror memory, inbound queue, zero-fill and memory arbiter (chapter 4). -/
structure Mirror where
  mem : List Host.Cell
  inbound : List Inbound
  zeroPending : Bool
  holder : Option Grant
  fillReq : Option FillRead
  snapReq : Option Snapshot
  deriving DecidableEq, Repr

/-- Kind of a publication record; a WRITE record carries offset and data (R74). -/
inductive PubKind where
  | write (offset : Nat) (data : List Byte)
  | claim
  | release
  deriving DecidableEq, Repr

/-- A publication record (R74). -/
structure PubRecord where
  kind : PubKind
  tag : Byte
  window : Nat
  selected : Bool
  deriving DecidableEq, Repr

/-- The publication unit (R74, R75). -/
structure Publications where
  queue : List PubRecord
  tagCounter : Byte
  lastTag : Byte
  deriving DecidableEq, Repr

/-- A control list entry: kind and subject (R78). -/
inductive ControlEntry where
  | presence (mode : PresenceMode)
  | census
  | depart (subject : Nat)
  | fetch (window : Nat)
  | release (window : Nat)
  deriving DecidableEq, Repr

/-- The source of an in-flight frame (R81). -/
inductive Source where
  | publication
  | control (entry : ControlEntry)
  | service (window requester : Nat)
  deriving DecidableEq, Repr

/-- The in-flight frame (R81). -/
structure InFlight where
  source : Source
  frame : Frame
  attempts : Nat
  onLine : Bool
  deriving DecidableEq, Repr

/-- The turn flag (R83). -/
inductive Turn where
  | publications | service
  deriving DecidableEq, Repr

/-- The chunk buffer's content (R69). -/
structure Chunk where
  window : Nat
  offset : Nat
  data : List Byte
  current : Bool
  deriving DecidableEq, Repr

/-- The transmit scheduler (chapter 5). -/
structure Scheduler where
  control : List ControlEntry
  inflight : Option InFlight
  turn : Turn
  chunk : Option Chunk
  deriving DecidableEq, Repr

/-- The claim unit's state for one guard position (R54, R93, R103). -/
structure Guard where
  window : Nat
  queue : List Nat
  hold : HoldState
  tag : Option Byte
  lease : Timer
  deriving DecidableEq, Repr

/-- One roster entry (R114). -/
structure RosterEntry where
  status : RosterStatus
  timer : Timer
  deriving DecidableEq, Repr

/-- The roster unit (chapter 7). -/
structure Roster where
  entries : List RosterEntry
  announce : Timer
  deriving DecidableEq, Repr

/-- One copy record (R131). -/
structure Copy where
  fresh : Bool
  accepted : Nat
  applied : Nat
  request : Bool
  timer : Timer
  expiries : Nat
  failed : Bool
  deriving DecidableEq, Repr

/-- One service entry (R136). -/
structure Service where
  window : Nat
  requester : Nat
  next : Nat
  deriving DecidableEq, Repr

/-- The refresh unit (chapter 8). -/
structure Refresh where
  copies : List Copy
  service : List Service
  deriving DecidableEq, Repr

/-- The station controller (R146). `foundingDue` is a founding test put off to the window end (R153), `abandonDue` the
abandonment of a JOIN or own DEPART put off to the window end after a faulted sixteenth attempt (R147). -/
structure Controller where
  state : StationState
  reason : Reason
  censusPending : Bool
  answer : Timer
  foundingDue : Bool
  abandonDue : Bool
  deriving DecidableEq, Repr

/-- The command of the present selection (R162). -/
inductive PortCommand where
  /-- No command taken yet in this selection, or no selection. -/
  | awaiting
  /-- Taken; its response is being shifted out, or is complete. -/
  | complete
  /-- READ or READ ON whose burst is not delivered; `first` is its first address (R168). -/
  | reading (first : Word)
  /-- READ or READ ON delivered: the burst buffer and how many of its data bytes are shifted out; with the last
  result, last detail and continuation address of before the MARK byte, which stand if CS# rises before it (R168). -/
  | burst (data : List Byte) (out : Nat) (result : Result) (detail : Option TableFault) (cont : Word)
  /-- WRITE or WRITE ON taking data bytes (R169). -/
  | writing
  /-- WRITE or WRITE ON after a refused byte (R169). -/
  | refusedWrite
  /-- TAKE OUTCOME with a record latched and not yet removed (R172). -/
  | outcomeLatched
  /-- TAKE CHANGES with the latched windows (R173). -/
  | changesLatched (windows : List Nat)
  deriving DecidableEq, Repr

/-- The local port (chapter 10). -/
structure Port where
  selected : Bool
  statusByte : Byte
  cmd : PortCommand
  /-- The response latched when the command was taken, from its first byte (R162); of a read, from MARK on. -/
  response : List Byte
  lastResult : Result
  lastDetail : Option TableFault
  cont : Word
  deriving DecidableEq, Repr

/-- The reporting unit (chapter 11). -/
structure Report where
  outcomes : List OutcomeRecord
  overflow : Bool
  changes : List Nat
  deriving DecidableEq, Repr

/-- The station and the queue of commands that wait for it, first in first out (log 1). Other stations and the
host show through operands only (log 27). -/
structure State where
  pins : Pins
  line : Line
  rx : Receiver
  layout : Layout
  mirror : Mirror
  pub : Publications
  sched : Scheduler
  claims : List Guard
  roster : Roster
  refresh : Refresh
  ctl : Controller
  port : Port
  report : Report
  pending : List Instr
  deriving DecidableEq, Repr

/-- Why the machine stops. -/
inductive Fault where
  /-- A completing application, zero-fill, fill read or snapshot would touch a local address above 3FFF, which does not
  exist (R59). Raised by APPLICATION_COMPLETE, ZERO_FILL_COMPLETE, FILL_READ_COMPLETE and SNAPSHOT_DELIVERED. Safe: a
  validated table cannot lead there (R55), so no behaviour of the part is lost (log 23). -/
  | noSuchMirrorAddress
  deriving DecidableEq, Repr

/-- Why a command has no meaning. -/
inductive Refusal where
  /-- A command not modelled yet, by its mnemonic. Raised by no arm of `exec`. Safe. -/
  | notModelled (mnemonic : String)
  deriving DecidableEq, Repr

/-! ### Values after pin reset -/

/-- An entry after pin reset (R46). -/
def Entry.reset : Entry where
  enabled := false
  base := 0x0000
  size := 0
  policy := .shared
  owner := none
  lease := 0
  mirrored := false
  loc := 0
  watched := false

/-- A copy record after pin reset (R131). -/
def Copy.reset : Copy where
  fresh := false
  accepted := 0
  applied := 0
  request := false
  timer := .stopped
  expiries := 0
  failed := false

/-- A roster entry after pin reset (R114). -/
def RosterEntry.reset : RosterEntry where
  status := .absent
  timer := .stopped

/-- The line interface in its pin-reset condition (R22). -/
def Line.reset : Line where
  state := .idleGap
  reference := none
  awaitSync := false
  gapTiming := false
  count := 0
  silence := 0
  slot := 0
  offered := false
  sensed := false

/-- The station after pin reset, RST# still asserted (R22, R46, R47, R72, R91, R113, R129, R144, R146, R148, R176,
R177, R180, R181). Values the spec does not give: log 4 and log 5. -/
def State.reset : State where
  pins := { rstAsserted := true, station := 0, rate := 0 }
  line := Line.reset
  rx := { frame := none, objectionRun := 0, cleanRun := 0 }
  layout := { table := List.replicate Config.windows Entry.reset, signature := 0x0000 }
  mirror := { mem := [], inbound := [], zeroPending := false, holder := none, fillReq := none, snapReq := none }
  pub := { queue := [], tagCounter := 0, lastTag := 0 }
  sched := { control := [], inflight := none, turn := .publications, chunk := none }
  claims := []
  roster := { entries := List.replicate Config.stations RosterEntry.reset, announce := .stopped }
  refresh := { copies := List.replicate Config.windows Copy.reset, service := [] }
  ctl := { state := .stopped, reason := .pinReset, censusPending := false, answer := .stopped, foundingDue := false,
           abandonDue := false }
  port := { selected := false, statusByte := 0, cmd := .awaiting, response := [], lastResult := .done,
            lastDetail := none, cont := 0x0000 }
  report := { outcomes := [], overflow := false, changes := [] }
  pending := []

end Sys2Proof.Machine
end

