-- ==== Sys2Proof/Machine/Operands.lean ====
section
/-! DEFINITION. What a window number, a shared address and a station number mean at this station: the window table's
lookups, the decoder, the decoded run, guard positions, local ranges, the write verdict and START's validation
(chapter 3), with the plain reads of the state that the other units use. -/

namespace Sys2Proof.Machine

/-! ### Reads of the state -/

/-- This station's number (R22). -/
def State.station (s : State) : Nat := s.pins.station

/-- The station state (R146). -/
def State.stationState (s : State) : StationState := s.ctl.state

/-- The states that drive the line, object and accept (R1, R31, R34, R146): JOINING, ACTIVE, LEAVING. -/
def StationState.isMember : StationState → Bool
  | .joining | .active | .leaving => true
  | .stopped | .listening | .muted | .incompatible => false

/-- The station is JOINING, ACTIVE or LEAVING. -/
def State.isMember (s : State) : Bool := s.ctl.state.isMember

/-- The station is ACTIVE. -/
def State.isActive (s : State) : Bool := s.ctl.state == .active

/-- JOINING with census pending (R39, R146). -/
def State.awaitsCensus (s : State) : Bool := s.ctl.state == .joining && s.ctl.censusPending

/-- The roster status of a station; a number the roster has no entry for is ABSENT (R114). -/
def State.status (s : State) (n : Nat) : RosterStatus := (s.roster.entries.getD n RosterEntry.reset).status

/-- The window table entry of a window number (R46). -/
def State.entry (s : State) (w : Nat) : Entry := s.layout.table.getD w Entry.reset

/-- The copy record of a window (R131). -/
def State.copy (s : State) (w : Nat) : Copy := s.refresh.copies.getD w Copy.reset

/-- The claim unit's record of a GUARDED window (R54). -/
def State.guardOf (s : State) (w : Nat) : Option Guard := s.claims.find? (·.window == w)

/-- The claim queue of a window; a window without a guard position has none (R54). -/
def State.claimQueue (s : State) (w : Nat) : List Nat := ((s.guardOf w).map (·.queue)).getD []

/-- The hold state of a window (R103). -/
def State.holdOf (s : State) (w : Nat) : HoldState := ((s.guardOf w).map (·.hold)).getD .unheld

/-- This station is in the window's claim queue. -/
def State.inQueue (s : State) (w : Nat) : Bool := (s.claimQueue w).contains s.station

/-! ### Windows -/

/-- The window size in bytes, 64 × 2^code (R46). -/
def Entry.bytes (e : Entry) : Nat := 64 * 2 ^ e.size

/-- The chunk length of the window: 64 bytes for a window of 64, 128 otherwise (R27, R69, R131). -/
def Entry.chunk (e : Entry) : Nat := if e.bytes = 64 then 64 else 128

/-- The first local address of the window's local range (R52). -/
def Entry.localBase (e : Entry) : Nat := e.loc.toNat * 64

/-- Enabled and GUARDED (R54). -/
def Entry.isGuarded (e : Entry) : Bool := e.enabled && e.policy == .guarded

/-- Mirrored at this station: enabled and MIRRORED (R52). -/
def Entry.isMirrored (e : Entry) : Bool := e.enabled && e.mirrored

/-- Watched: mirrored and WATCHED (R52). -/
def Entry.isWatched (e : Entry) : Bool := e.isMirrored && e.watched

/-- The local address lies in the entry's local range (R52). -/
def Entry.ownsLocal (e : Entry) (a : Nat) : Bool :=
  e.isMirrored && e.localBase ≤ a && a < e.localBase + e.bytes

/-- The mirrored windows in increasing window number. -/
def mirroredWindows (table : List Entry) : List Nat :=
  (List.range Config.windows).filter fun w => (table.getD w Entry.reset).isMirrored

/-- The GUARDED windows in increasing window number: the guard positions (R54). -/
def guardWindows (table : List Entry) : List Nat :=
  (List.range Config.windows).filter fun w => (table.getD w Entry.reset).isGuarded

/-! ### The decoder -/

/-- The shared address lies in the enabled window's region (R48). -/
def Entry.contains (e : Entry) (a : Nat) : Bool :=
  e.enabled && e.base.toNat ≤ a && a < e.base.toNat + e.bytes

/-- The lowest-numbered enabled window whose region holds the address, and the offset in it (R49). -/
def decodeIn (table : List Entry) (a : Nat) : Option (Nat × Nat) :=
  (table.findIdx? (·.contains a)).map fun w => (w, a - (table.getD w Entry.reset).base.toNat)

/-- The decoder's answer; in STOPPED every address is unmapped (R49). -/
def State.decode (s : State) (a : Nat) : Option (Nat × Nat) :=
  if s.ctl.state = .stopped then none else decodeIn s.layout.table a

/-- The address and its follower lie in one decoded run (R51). -/
def State.sameRun (s : State) (a : Nat) : Bool :=
  if a = 0xFFFF then false
  else match s.decode a, s.decode (a + 1) with
    | some (w, o), some (w', o') => w == w' && o' == o + 1
    | none, none => true
    | _, _ => false

/-- The number of addresses from `a` to the end of its decoded run, `limit` at most (R51, R168). -/
def State.runLength (s : State) (a : Nat) : Nat → Nat
  | 0 => 0
  | limit + 1 => if s.sameRun a then 1 + s.runLength (a + 1) limit else 1

/-- The burst length of a read that begins at `a`: 1 to 32 (R67, R168). -/
def State.burstLength (s : State) (a : Nat) : Nat := s.runLength a Config.burstLimit

/-- The verdict on a write byte (R53). -/
inductive WriteVerdict where
  | unmapped
  | denied
  | permitted (window offset : Nat)
  deriving DecidableEq, Repr

/-- Whether the policy lets this station's host offer bytes to the window (R53). -/
def State.mayWrite (s : State) (w : Nat) : Bool :=
  match (s.entry w).policy with
  | .shared => true
  | .owned => (s.entry w).owner == some s.station
  | .guarded => match s.holdOf w with
    | .claiming | .waiting | .held => true
    | .unheld | .expiring => false

/-- The decoder's verdict on a byte offered at a shared address (R53). -/
def State.writeVerdict (s : State) (a : Nat) : WriteVerdict :=
  match s.decode a with
  | none => .unmapped
  | some (w, o) => if s.mayWrite w then .permitted w o else .denied

/-- The window of a claim command or of READ QUEUE is enabled and GUARDED (R54); numbers above 15 name no entry. -/
def State.namesGuarded (s : State) (w : Nat) : Bool := (s.entry w).isGuarded

/-! ### Validation at START -/

/-- The local ranges of two entries share an address (R55). -/
def Entry.overlaps (e f : Entry) : Bool :=
  e.localBase < f.localBase + f.bytes && f.localBase < e.localBase + e.bytes

/-- The first test of R55 that fails at enabled entry `i`, or none. -/
def checkEntry (table : List Entry) (i : Nat) : Option TableTest :=
  let e := table.getD i Entry.reset
  if !e.enabled then none
  else if e.base.toNat % e.bytes ≠ 0 then some .alignment
  else if e.policy = .owned ∧ e.owner = none then some .noOwner
  else if e.lease ≠ 0 ∧ e.policy ≠ .guarded then some .leasePolicy
  else if e.watched ∧ ¬ e.mirrored then some .watchUnmirrored
  else if e.mirrored ∧ Config.mirrorBytes < e.localBase + e.bytes then some .localRange
  else if e.mirrored ∧ (List.range i).any (fun j =>
      (table.getD j Entry.reset).isMirrored && e.overlaps (table.getD j Entry.reset)) then some .localOverlap
  else if e.isGuarded ∧ ((List.range (i + 1)).filter fun j => (table.getD j Entry.reset).isGuarded).length = 5 then
    some .tooManyGuarded
  else none

/-- START's validation (R55): none when the table is sound, otherwise the first failing test and its entry. -/
def validate (table : List Entry) : Option TableFault :=
  if !(List.range Config.windows).any fun i => (table.getD i Entry.reset).enabled then
    some { test := .noWindow, entry := none }
  else (List.range Config.windows).findSome? fun i =>
    (checkEntry table i).map fun t => { test := t, entry := some i }

end Sys2Proof.Machine
end

