-- ==== Sys2Proof/Machine/Flags.lean ====
section
/-! DEFINITION. Codes, checks and reported bytes (chapters 3, 10, 11, 12): the CRC, the layout signature, the status
byte, ATTN#, the responses of the local port and the outcome record. -/

namespace Sys2Proof.Machine

/-! ### Bytes -/

/-- A number as one byte. -/
def byteOf (n : Nat) : Byte := BitVec.ofNat 8 n

/-- A number as two bytes, high byte first (opening of chapter 12). -/
def twoBytes (n : Nat) : List Byte := [byteOf (n / 256), byteOf n]

/-- The number two bytes carry, high byte first. -/
def ofTwoBytes (high low : Byte) : Nat := high.toNat * 256 + low.toNat

/-- A truth value as a bit of a byte. -/
def bitOf (b : Bool) : Nat := if b then 1 else 0

/-! ### The check code -/

/-- One bit fed into the CRC register, most significant first (R183). -/
def crcBit (reg : Word) (bit : Bool) : Word :=
  if reg.getLsbD 15 ^^ bit then (reg <<< 1) ^^^ 0x1021 else reg <<< 1

/-- One byte fed into the CRC register (R183). -/
def crcByte (reg : Word) (b : Byte) : Word :=
  [7, 6, 5, 4, 3, 2, 1, 0].foldl (fun r i => crcBit r (b.getLsbD i)) reg

/-- The check code of a byte sequence: preset FFFF, no final inversion (R183). -/
def crc (bytes : List Byte) : Word := bytes.foldl crcByte 0xFFFF

/-! ### The layout signature -/

/-- The policy codes (R57, R184). -/
def Policy.code : Policy → Nat
  | .owned => 1
  | .shared => 2
  | .guarded => 3

/-- The owner code: the number, or FF for none (R184). -/
def ownerCode : Option Nat → Nat
  | some n => n
  | none => 0xFF

/-- The seven bytes of one entry in the signature sequence (R57). -/
def Entry.signatureBytes (e : Entry) (index : Nat) : List Byte :=
  if e.enabled then
    [byteOf index, byteOf e.policy.code] ++ twoBytes e.base.toNat ++ [byteOf e.size,
      if e.policy = .owned then byteOf (ownerCode e.owner) else 0xFF,
      if e.policy = .guarded then e.lease else 0x00]
  else [byteOf index, 0, 0, 0, 0, 0, 0]

/-- The 112-byte sequence of the table (R57). -/
def signatureSequence (table : List Entry) : List Byte :=
  (List.range Config.windows).flatMap fun i => (table.getD i Entry.reset).signatureBytes i

/-- The layout signature (R57). -/
def signatureOf (table : List Entry) : Word := crc (signatureSequence table)

/-! ### Codes of chapter 12 -/

/-- Station state codes (R184). -/
def StationState.code : StationState → Nat
  | .stopped => 0 | .listening => 1 | .joining => 2 | .active => 3 | .leaving => 4 | .muted => 5 | .incompatible => 6

/-- Reason codes (R187). -/
def Reason.code : Reason → Nat
  | .pinReset => 0x00 | .start => 0x01 | .reference => 0x02 | .joinFailed => 0x03 | .founded => 0x04 | .census => 0x05
  | .departed => 0x06 | .objections => 0x07 | .recovered => 0x08 | .signature => 0x09 | .duplicateId => 0x0A
  | .leave => 0x0B | .left => 0x0C | .departAbandoned => 0x0D

/-- Result codes (R187). -/
def Result.code : Result → Nat
  | .done => 0x00 | .notActive => 0x01 | .unmapped => 0x02 | .stale => 0x03 | .denied => 0x04 | .full => 0x05
  | .redundant => 0x06 | .notGuarded => 0x07 | .cancelledLocal => 0x08 | .wrongState => 0x09 | .tableError => 0x0A
  | .illegal => 0x0B

/-- Detail test codes (R187). -/
def TableTest.code : TableTest → Nat
  | .noWindow => 1 | .alignment => 2 | .noOwner => 3 | .leasePolicy => 4 | .watchUnmirrored => 5 | .localRange => 6
  | .localOverlap => 7 | .tooManyGuarded => 8

/-- The two detail bytes: test code and entry index, 00 and FF for none (R187). -/
def detailBytes : Option TableFault → List Byte
  | none => [0x00, 0xFF]
  | some d => [byteOf d.test.code, byteOf (ownerCode d.entry)]

/-- Roster status codes (R184). -/
def RosterStatus.code : RosterStatus → Nat
  | .absent => 0 | .joined => 1 | .active => 2 | .foreign => 3

/-- The roster status a two-bit code names (R184). -/
def RosterStatus.ofCode (n : Nat) : RosterStatus :=
  match n % 4 with
  | 0 => .absent
  | 1 => .joined
  | 2 => .active
  | _ => .foreign

/-- Outcome reason codes of ABANDONED (R188). -/
def AbandonReason.code : AbandonReason → Nat
  | .attempts => 1 | .overtaken => 2 | .leaving => 3 | .departed => 4 | .muted => 5

/-- Outcome reason codes of LOST_HOLD (R188). -/
def LossReason.code : LossReason → Nat
  | .lease => 6 | .departed => 4 | .muted => 5

/-! ### The outcome record -/

/-- The five bytes of a record from its kind code, tag, window and detail (R188). -/
def recordBytes (kind : Nat) (tag : Option Byte) (window : Option Nat) (detail : List Byte) : List Byte :=
  [byteOf (kind + 64 * bitOf tag.isSome + 128 * bitOf window.isSome), tag.getD 0x00, byteOf (ownerCode window)] ++ detail

/-- The record TAKE OUTCOME shifts out (R188). -/
def OutcomeRecord.bytes : OutcomeRecord → List Byte
  | .rejected t w o => recordBytes 1 (some t) (some w) (twoBytes o)
  | .abandoned t w r => recordBytes 2 (some t) (some w) [byteOf r.code, 0x00]
  | .granted t w => recordBytes 3 t (some w) [0x00, 0x00]
  | .waiting t w p => recordBytes 4 t (some w) [byteOf p, 0x00]
  | .claimRefused t w => recordBytes 5 t (some w) [0x08, 0x00]
  | .cancelled t w p => recordBytes 6 t (some w) [byteOf (ownerCode p), 0x00]
  | .lostHold w r => recordBytes 7 none (some w) [byteOf r.code, 0x00]
  | .fresh w => recordBytes 8 none (some w) [0x00, 0x00]
  | .fetchFailed w => recordBytes 9 none (some w) [0x00, 0x00]
  | .state st r => recordBytes 10 none none [byteOf st.code, byteOf r.code]

/-- The NONE record of an empty queue (R178, R188). -/
def noRecordBytes : List Byte := [0x00, 0x00, 0xFF, 0x00, 0x00]

/-! ### The status byte, ATTN# and the responses -/

/-- ATTN# is driven low: the outcome queue or the change set is not empty (R182). -/
def State.attention (s : State) : Bool := !s.report.outcomes.isEmpty || !s.report.changes.isEmpty

/-- The status byte that the fall of CS# latches (R163, R186). -/
def State.statusByteNow (s : State) : Byte :=
  byteOf (s.ctl.state.code + 8 * bitOf s.attention + 16 * bitOf (Config.publicationLimit ≤ s.pub.queue.length)
    + 32 * bitOf (!s.report.outcomes.isEmpty) + 64 * bitOf (!s.report.changes.isEmpty))

/-- The sixteen bytes of the STATUS response (R167, R187). -/
def State.statusResponse (s : State) : List Byte :=
  [byteOf s.ctl.state.code, byteOf s.ctl.reason.code, byteOf s.station, byteOf s.pins.rate.toNat]
    ++ twoBytes s.layout.signature.toNat
    ++ [byteOf s.port.lastResult.code] ++ detailBytes s.port.lastDetail
    ++ [s.pub.lastTag, byteOf s.pub.queue.length, byteOf s.sched.control.length, byteOf s.mirror.inbound.length,
        byteOf s.report.outcomes.length, byteOf s.report.changes.length, byteOf (bitOf s.report.overflow)]

/-- The eight bytes of READ ENTRY (R189). -/
def Entry.portBytes (e : Entry) : List Byte :=
  [byteOf (bitOf e.enabled + 2 * bitOf e.mirrored + 4 * bitOf e.watched), byteOf e.policy.code]
    ++ twoBytes e.base.toNat ++ [byteOf e.size, byteOf (ownerCode e.owner), e.lease, e.loc]

/-- The policy a code names (R184). -/
def Policy.ofCode : Byte → Option Policy
  | 0x01 => some .owned
  | 0x02 => some .shared
  | 0x03 => some .guarded
  | _ => none

/-- The entry that LOAD ENTRY's eight field bytes describe, none when a field names nothing (R47, R184, R189). -/
def Entry.ofPortBytes (flags policy : Byte) (base : Word) (size owner lease loc : Byte) : Option Entry :=
  match Policy.ofCode policy with
  | none => none
  | some p =>
    if 8 < size.toNat then none
    else if 31 < owner.toNat ∧ owner ≠ 0xFF then none
    else some { enabled := flags.getLsbD 0, base := base, size := size.toNat, policy := p,
                owner := if owner = 0xFF then none else some owner.toNat, lease := lease,
                mirrored := flags.getLsbD 1, loc := loc, watched := flags.getLsbD 2 }

/-- The thirty-two roster bytes (R174, R190). -/
def State.rosterResponse (s : State) : List Byte :=
  (List.range Config.stations).map fun n => byteOf (s.status n).code

/-- READ QUEUE's response: the count, then the station numbers head first (R174, R190). -/
def queueResponse (queue : List Nat) : List Byte := byteOf queue.length :: queue.map byteOf

/-- TAKE CHANGES' response: the count, then the windows oldest first (R173, R190). -/
def changesResponse (windows : List Nat) : List Byte := byteOf windows.length :: windows.map byteOf

/-- One ct in microseconds at a line rate (section 0.5, R22). -/
def characterMicros (rate : BitVec 2) : Nat :=
  match rate.toNat with
  | 0 => 80
  | 1 => 40
  | 2 => 20
  | _ => 10

end Sys2Proof.Machine
end

