-- ==== Sys2Proof/Machine/Frames.lean ====
section
/-! DEFINITION. Frames: characters on the line, the bytes a frame is sent as, the frame a receiver reads from bytes, the
form limits, and the objection decision (R2 to R4, R23 to R32, chapter 12). -/

namespace Sys2Proof.Machine

/-! ### Characters -/

/-- A byte as a character on the line: start bit dominant, data least significant bit first, stop bit recessive (R2). -/
def charSamples (b : Byte) : CharSamples := (1#1) ++ b ++ (0#1)

/-- The character's start bit was sampled dominant (R3). -/
def startSampled (c : CharSamples) : Bool := !c.getLsbD 0

/-- The received character: its data bits, and a framing mark when the stop bit was sampled dominant (R3). -/
def rxChar (c : CharSamples) : RxChar := { data := c.extractLsb' 1 8, framing := !c.getLsbD 9 }

/-- The characters up to the first position at which no start bit appeared (R3, R4). -/
def takeStarted (samples : List CharSamples) : List RxChar := (samples.takeWhile startSampled).map rxChar

/-- The length that BODYLEN gives the frame, above 132 taken as 132, once the third character is in (R4). -/
def expectedLength : List RxChar → Option Nat
  | _ :: _ :: len :: _ => some (5 + min len.data.toNat Config.bodyLimit)
  | _ => none

/-- The frame's characters and whether it ended short, by the earlier of the two ends of R4. -/
def locateEnd (chars : List RxChar) : List RxChar × Bool :=
  match expectedLength chars with
  | some n => if n ≤ chars.length then (chars.take n, false) else (chars, true)
  | none => (chars, true)

/-! ### Frames as bytes -/

/-- KIND codes (R184). -/
def Body.kindCode : Body → Byte
  | .write _ _ _ => 0x01
  | .claim _ => 0x02
  | .release _ _ => 0x03
  | .presence _ _ => 0x04
  | .census _ _ _ => 0x04
  | .depart _ _ => 0x05
  | .fetch _ _ => 0x06
  | .fill _ _ _ _ => 0x07

/-- MODE codes (R184). -/
def PresenceMode.code : PresenceMode → Byte
  | .join => 0x01
  | .founded => 0x02
  | .announce => 0x04

/-- REASON codes in RELEASE (R184). -/
def ReleaseReason.code : ReleaseReason → Byte
  | .host => 0x01
  | .lease => 0x02

/-- REASON codes in DEPART (R184). -/
def DepartReason.code : DepartReason → Byte
  | .silent => 0x01
  | .leaving => 0x02

/-- One map byte: four stations, the lowest-numbered in bits 1 and 0 (R185). -/
def mapByte (map : List RosterStatus) (k : Nat) : Byte :=
  byteOf ((map.getD (4 * k) .absent).code + 4 * (map.getD (4 * k + 1) .absent).code
    + 16 * (map.getD (4 * k + 2) .absent).code + 64 * (map.getD (4 * k + 3) .absent).code)

/-- The eight ROSTER MAP bytes (R26, R185). -/
def mapBytes (map : List RosterStatus) : List Byte := (List.range 8).map (mapByte map)

/-- The census groups, each a COUNT and its station numbers head first (R26, R185). -/
def groupBytes (groups : List (List Nat)) : List Byte := groups.flatMap queueResponse

/-- The body characters of a frame (R25 to R27, R185). -/
def Body.bytes : Body → List Byte
  | .write w o data => byteOf w :: twoBytes o ++ data
  | .claim w => [byteOf w]
  | .release w r => [byteOf w, r.code]
  | .presence m sig => m.code :: twoBytes sig.toNat
  | .census sig map groups => 0x03 :: twoBytes sig.toNat ++ mapBytes map ++ groupBytes groups
  | .depart subject r => [byteOf subject, r.code]
  | .fetch w o => byteOf w :: twoBytes o
  | .fill w o requester data => byteOf w :: twoBytes o ++ byteOf requester :: data

/-- SENDER, KIND, BODYLEN and the body: what CHECK is computed over (R23, R24). -/
def Frame.checked (f : Frame) : List Byte :=
  byteOf f.sender :: f.body.kindCode :: byteOf f.body.bytes.length :: f.body.bytes

/-- All characters of the frame as sent, CHECK last, high byte first (R23, R24). -/
def Frame.bytes (f : Frame) : List Byte := f.checked ++ twoBytes (crc f.checked).toNat

/-- The level this station sends at a bit time of the frame, true for recessive (R2). -/
def Frame.sentRecessive (f : Frame) (bit : Nat) : Bool :=
  (charSamples (f.bytes.getD (bit / 10) 0)).getLsbD (bit % 10)

/-- This station sends a dominant level at a bit time of the frame (R2). -/
def Frame.sendsDominant (f : Frame) (bit : Nat) : Bool := bit < 10 * f.bytes.length && !f.sentRecessive bit

/-! ### First-tier form limits -/

/-- REASON of a RELEASE body (R184). -/
def ReleaseReason.ofCode : Byte → Option ReleaseReason
  | 0x01 => some .host
  | 0x02 => some .lease
  | _ => none

/-- The roster map that eight bytes carry (R185). -/
def mapOf (bytes : List Byte) : List RosterStatus :=
  (List.range Config.stations).map fun n =>
    RosterStatus.ofCode ((bytes.getD (n / 4) 0).toNat / 4 ^ (n % 4))

/-- One census group's limits: COUNT 0 to 8, numbers 0 to 31, none twice, each ACTIVE in the map (R30). -/
def groupSound (map : List RosterStatus) (group : List Nat) : Bool :=
  group.length ≤ Config.claimQueueLimit && group.all (· < Config.stations) && group.Nodup
    && group.all fun n => map.getD n .absent == .active

/-- The census groups that a byte list holds, at most `limit`, ending exactly at the end of a group (R30). -/
def parseGroups (map : List RosterStatus) : Nat → List Byte → Option (List (List Nat))
  | _, [] => some []
  | 0, _ :: _ => none
  | limit + 1, count :: rest =>
    let group := (rest.take count.toNat).map BitVec.toNat
    if count.toNat ≤ rest.length ∧ groupSound map group then
      (parseGroups map limit (rest.drop count.toNat)).map (group :: ·)
    else none

/-- A census body after MODE, SIGNATURE and ROSTER MAP have been told apart (R26, R30). -/
def parseCensus (sender : Nat) (sig : Word) (rest : List Byte) : Option Body :=
  let map := mapOf (rest.take 8)
  if 8 ≤ rest.length ∧ map.getD sender .absent = .active then
    (parseGroups map Config.guardLimit (rest.drop 8)).map (.census sig map)
  else none

/-- A PRESENCE body (R26, R28). -/
def parsePresence (sender : Nat) (mode high low : Byte) (rest : List Byte) : Option Body :=
  let sig := high ++ low
  match mode with
  | 0x01 => if rest.isEmpty then some (.presence .join sig) else none
  | 0x02 => if rest.isEmpty then some (.presence .founded sig) else none
  | 0x04 => if rest.isEmpty then some (.presence .announce sig) else none
  | 0x03 => parseCensus sender sig rest
  | _ => none

/-- A DEPART body: LEAVING names its sender, SILENT another station (R28). -/
def parseDepart (sender : Nat) (subject reason : Byte) : Option Body :=
  if 31 < subject.toNat then none
  else match reason with
    | 0x01 => if subject.toNat = sender then none else some (.depart subject.toNat .silent)
    | 0x02 => if subject.toNat = sender then some (.depart subject.toNat .leaving) else none
    | _ => none

/-- A FILL body (R27, R28). -/
def parseFill (sender : Nat) (window high low requester : Byte) (data : List Byte) : Option Body :=
  if window.toNat ≤ 15 ∧ ofTwoBytes high low % 64 = 0 ∧ requester.toNat ≤ 31 ∧ requester.toNat ≠ sender
      ∧ (data.length = 64 ∨ data.length = 128) then
    some (.fill window.toNat (ofTwoBytes high low) requester.toNat data)
  else none

/-- The body of a kind, within the first-tier limits, or none (R28). -/
def parseBody (sender : Nat) (kind : Byte) (body : List Byte) : Option Body :=
  match kind, body with
  | 0x01, w :: high :: low :: data =>
    if w.toNat ≤ 15 ∧ 1 ≤ data.length ∧ data.length ≤ Config.writeDataLimit then
      some (.write w.toNat (ofTwoBytes high low) data) else none
  | 0x02, [w] => if w.toNat ≤ 15 then some (.claim w.toNat) else none
  | 0x03, [w, r] => if w.toNat ≤ 15 then (ReleaseReason.ofCode r).map (.release w.toNat) else none
  | 0x04, mode :: high :: low :: rest => parsePresence sender mode high low rest
  | 0x05, [subject, reason] => parseDepart sender subject reason
  | 0x06, [w, high, low] =>
    if w.toNat ≤ 15 ∧ ofTwoBytes high low % 64 = 0 then some (.fetch w.toNat (ofTwoBytes high low)) else none
  | 0x07, w :: high :: low :: requester :: data => parseFill sender w high low requester data
  | _, _ => none

/-- The frame that the characters carry, or none when they break a first-tier limit (R28, R30). -/
def parseFrame : List Byte → Option Frame
  | sender :: kind :: len :: rest =>
    if sender.toNat ≤ 31 ∧ len.toNat ≤ Config.bodyLimit ∧ rest.length = len.toNat + 2 then
      (parseBody sender.toNat kind (rest.take len.toNat)).map fun b => { sender := sender.toNat, body := b }
    else none
  | _ => none

/-- SENDER as read (R23). -/
def senderOf (chars : List RxChar) : Nat := ((chars.map RxChar.data).headD 0).toNat

/-- The last two characters differ from the code computed over the others (R24). -/
def checkFault (bytes : List Byte) : Bool :=
  bytes.drop (bytes.length - 2) != twoBytes (crc (bytes.take (bytes.length - 2))).toNat

/-! ### Second tier and the census group count -/

/-- The second-tier limits, against the common part of this station's table (R29). -/
def State.secondTier (s : State) : Body → Bool
  | .write w o data => (s.entry w).enabled && o + data.length ≤ (s.entry w).bytes
  | .claim w => (s.entry w).isGuarded
  | .release w _ => (s.entry w).isGuarded
  | .fetch w o => (s.entry w).enabled && o < (s.entry w).bytes
  | .fill w o _ data =>
    (s.entry w).enabled && data.length == (s.entry w).chunk && o + data.length ≤ (s.entry w).bytes
  | .presence _ _ => true
  | .census _ _ _ => true
  | .depart _ _ => true

/-- The fifth census limit: with this station's signature, as many groups as this station has GUARDED windows (R30). -/
def State.groupCountSound (s : State) : Body → Bool
  | .census sig _ groups => sig != s.layout.signature || groups.length == (guardWindows s.layout.table).length
  | _ => true

/-- A frame within the first tier meets the limits that need this station's state. Only a member tests them; the
second tier for senders it holds JOINED or ACTIVE, the group count for all but FOREIGN ones (R29, R30, R31). -/
def State.formSound (s : State) (f : Frame) : Bool :=
  if s.isMember then
    match s.status f.sender with
    | .foreign => true
    | .absent => s.groupCountSound f.body
    | .joined | .active => s.secondTier f.body && s.groupCountSound f.body
  else true

/-- The form test of a frame that has no framing and no check fault (R28 to R30). -/
def State.formFault (s : State) (bytes : List Byte) : Bool :=
  match parseFrame bytes with
  | none => true
  | some f => !s.formSound f

/-! ### Validity, need of a place, objection -/

/-- PRESENCE frames, of any mode (R37). -/
def Body.isPresence : Body → Bool
  | .presence _ _ => true
  | .census _ _ _ => true
  | _ => false

/-- The sender filter lets the frame through (R37). -/
def State.passesFilter (s : State) (sender : Nat) (presence : Bool) : Bool :=
  match s.status sender with
  | .foreign => false
  | .absent => presence
  | .joined | .active => true

/-- A WRITE is valid by the policy of its window (R38). -/
def State.writeValid (s : State) (sender w : Nat) : Bool :=
  match (s.entry w).policy with
  | .shared => true
  | .owned => (s.entry w).owner == some sender
  | .guarded => (s.claimQueue w).head? == some sender

/-- A valid WRITE makes an inbound entry here: mirrored, and not awaiting a census (R39), read at the acceptance as it is at
the objection decision (log 32). -/
def State.writeQueues (s : State) (sender w : Nat) : Bool :=
  s.writeValid sender w && (s.entry w).isMirrored && !s.awaitsCensus

/-- The refresh unit takes a chunk of `w` at `offset` (R140), read at the acceptance as it is at the objection decision
(R33; log 32). -/
def State.takesChunk (s : State) (w offset : Nat) : Bool :=
  !s.awaitsCensus && (s.entry w).isMirrored && !(s.copy w).fresh && (s.copy w).accepted == offset

/-- The frame of another station needs an inbound place here (R32). -/
def State.needsPlace (s : State) (f : Frame) : Bool :=
  f.sender != s.station && s.passesFilter f.sender f.body.isPresence &&
    match f.body with
    | .write w _ _ => s.writeQueues f.sender w
    | .fill w o _ _ => s.takesChunk w o
    | _ => false

/-- This station objects to a frame with the given faults (R31). -/
def State.objectsTo (s : State) (framing check form : Bool) (sender : Nat) (f : Option Frame) : Bool :=
  s.isMember && (framing || check || (form && s.status sender != .foreign)
    || (!form && f.any s.needsPlace && Config.inboundLimit ≤ s.mirror.inbound.length))

/-- What the frame receiver holds at the end of another station's frame (R3, R4, R24, R28 to R31, R45). -/
def State.receiveFrame (s : State) (samples : List CharSamples) : RxFrame :=
  let located := locateEnd (takeStarted samples)
  let chars := located.1
  let bytes := chars.map RxChar.data
  let framing := located.2 || chars.any RxChar.framing
  let check := !located.2 && checkFault bytes
  let form := !framing && !check && s.formFault bytes
  { chars := chars, short := located.2, sending := false, framing := framing, check := check, form := form,
    objects := s.objectsTo framing check form (senderOf chars) (parseFrame bytes) }

end Sys2Proof.Machine
end

