-- ==== Sys2Proof/Machine/Ops.lean ====
section
/-! DEFINITION. The named operations over the state that the commands share: mirror memory, outcome and change
reports, the inbound queue, the memory arbiter, fill reads, publication records and control list offers. -/

namespace Sys2Proof.Machine

/-! ### Mirror memory (R59) -/

/-- Mirror memory: the bytes that are not 00, by rising local address (R59, R72). -/
abbrev Memory := List Host.Cell

/-- The canonical form: addresses strictly rising, within 0000 to 3FFF, no byte listed that an unlisted address reads
as. -/
abbrev Memory.wf (m : Memory) : Prop :=
  m.Pairwise (fun c d => c.1 < d.1) ∧ ∀ c ∈ m, c.1 < Config.mirrorBytes ∧ c.2 ≠ 0

/-- One byte; an unlisted address reads 00, its value after pin reset (R59, R72). -/
def Memory.read : Memory → Nat → Byte
  | [], _ => 0
  | (k, v) :: rest, a => if k = a then v else Memory.read rest a

/-- The list with address `a` holding `b`, in canonical form. -/
def Memory.put : Memory → Nat → Byte → Memory
  | [], a, b => if b = 0 then [] else [(a, b)]
  | (k, v) :: rest, a, b =>
    if a < k then (if b = 0 then (k, v) :: rest else (a, b) :: (k, v) :: rest)
    else if a = k then (if b = 0 then rest else (a, b) :: rest)
    else (k, v) :: Memory.put rest a b

/-- Write one byte; there is no address above 3FFF to write (R59). -/
def Memory.write (m : Memory) (a : Nat) (b : Byte) : Memory :=
  if a < Config.mirrorBytes then m.put a b else m

/-- Write bytes at rising addresses (R62). -/
def Memory.writeBytes (m : Memory) (a : Nat) : List Byte → Memory
  | [] => m
  | b :: rest => (m.write a b).writeBytes (a + 1) rest

/-- Read bytes at rising addresses (R67, R69). -/
def Memory.readBytes (m : Memory) (a n : Nat) : List Byte := (List.range n).map fun i => m.read (a + i)

/-- Keep the bytes whose address is wanted and set every other byte to 00 (R59, R70). -/
def Memory.keep (m : Memory) (wanted : Nat → Bool) : Memory := m.filter fun c => wanted c.1

/-! ### Single records -/

/-- Change the copy record of a window (R131). -/
def State.setCopy (s : State) (w : Nat) (f : Copy → Copy) : State :=
  { s with refresh.copies := s.refresh.copies.set w (f (s.copy w)) }

/-- Change every copy record. -/
def State.mapCopies (s : State) (f : Copy → Copy) : State :=
  { s with refresh.copies := s.refresh.copies.map f }

/-- Change the copy records of the mirrored windows (R133, R143). -/
def State.mapMirrored (s : State) (f : Nat → Copy → Copy) : State :=
  { s with refresh.copies := s.refresh.copies.mapIdx fun w c => if (s.entry w).isMirrored then f w c else c }

/-- Change the claim unit's record of a window (R103). -/
def State.setGuard (s : State) (w : Nat) (f : Guard → Guard) : State :=
  { s with claims := s.claims.map fun g => if g.window = w then f g else g }

/-- Write a roster entry (R114). -/
def State.setEntry (s : State) (n : Nat) (e : RosterEntry) : State :=
  { s with roster.entries := s.roster.entries.set n e }

/-- The silence timer of a station's entry (R114). -/
def State.silenceTimer (s : State) (n : Nat) : Timer := (s.roster.entries.getD n RosterEntry.reset).timer

/-- The timer still counts. -/
def Timer.isRunning : Timer → Bool
  | .running _ => true
  | .stopped | .runOut => false

/-! ### Reports (chapter 11) -/

/-- Post an outcome record, or set overflow when the queue holds 16 (R177, R180). -/
def State.post (s : State) (o : OutcomeRecord) : State :=
  if s.report.outcomes.length < Config.outcomeLimit then { s with report.outcomes := s.report.outcomes ++ [o] }
  else { s with report.overflow := true }

/-- Post records in order (R179). -/
def State.postAll (s : State) (os : List OutcomeRecord) : State := os.foldl State.post s

/-- Enter a window in the change set if it is not there (R181). -/
def State.noteChange (s : State) (w : Nat) : State :=
  if s.report.changes.contains w then s else { s with report.changes := s.report.changes ++ [w] }

/-! ### The memory arbiter (R65, R66) -/

/-- The application asks for the memory: a zero-fill or an inbound entry waits (R62, R70). -/
def State.applicationWaits (s : State) : Bool := s.mirror.zeroPending || !s.mirror.inbound.isEmpty

/-- The apply engine is applying rather than idle (section 4.3). -/
def State.engineApplying (s : State) : Bool :=
  s.applicationWaits || (match s.mirror.holder with | some (.zeroFill _) => true | _ => false)

/-- A waiting snapshot is passed over once more (R66). -/
def State.passSnapshot (s : State) : State :=
  { s with mirror.snapReq := s.mirror.snapReq.map fun q => { q with passes := q.passes + 1 } }

/-- The snapshot is granted; the copy's state at the grant is kept (R66, R168). -/
def State.grantSnapshot (s : State) (q : Snapshot) : State :=
  { s with mirror.snapReq := none, mirror.holder := some (.snapshot q (s.copy q.window).fresh false) }

/-- The application is granted, the zero-fill ahead of the head entry (R66, R70). -/
def State.grantApplication (s : State) : State :=
  if s.mirror.zeroPending then
    { s.passSnapshot with mirror.zeroPending := false, mirror.holder := some (.zeroFill false) }
  else { s.passSnapshot with mirror.holder := some .application }

/-- The fill read is granted (R66). -/
def State.grantFillRead (s : State) (r : FillRead) : State :=
  { s.passSnapshot with mirror.fillReq := none, mirror.holder := some (.fillRead r) }

/-- Grant the free memory by R66: a snapshot passed over 4 times, the application, the fill read, the snapshot. -/
def State.arbitrate (s : State) : State :=
  if s.mirror.holder.isSome then s
  else match s.mirror.snapReq.filter (Config.passLimit ≤ ·.passes) with
    | some q => s.grantSnapshot q
    | none =>
      if s.applicationWaits then s.grantApplication
      else match s.mirror.fillReq with
        | some r => s.grantFillRead r
        | none => match s.mirror.snapReq with
          | some q => s.grantSnapshot q
          | none => s

/-! ### The inbound queue (R60 to R64) -/

/-- A fill read of the window no longer gives a current chunk (R69). -/
def FillRead.spoil (r : FillRead) (w : Nat) : FillRead := if r.window = w then { r with spoiled := true } else r

/-- An entry for the window clears the current mark, before or after the copy of the chunk completes (R69). -/
def State.spoilChunk (s : State) (w : Nat) : State :=
  { s with
    sched.chunk := s.sched.chunk.map fun c => if c.window = w then { c with current := false } else c
    mirror.fillReq := s.mirror.fillReq.map (·.spoil w)
    mirror.holder := match s.mirror.holder with
      | some (.fillRead r) => some (.fillRead (r.spoil w))
      | h => h }

/-- Put an entry at the tail of the inbound queue. The queue never holds a fifth (R60, R61; log 20). -/
def State.enqueue (s : State) (e : Inbound) : State :=
  if s.mirror.inbound.length < Config.inboundLimit then
    { s with mirror.inbound := s.mirror.inbound ++ [e] }.spoilChunk e.window
  else s

/-- Withdraw the entries that `p` holds of: a granted head is marked and finishes, every other is removed (R64). -/
def State.withdraw (s : State) (p : Inbound → Bool) : State :=
  { s with mirror.inbound := match s.mirror.holder, s.mirror.inbound with
    | some .application, e :: rest =>
      (if p e then { e with withdrawn := true } else e) :: rest.filter fun x => !p x
    | _, entries => entries.filter fun x => !p x }

/-- Withdraw every entry (R64). -/
def State.emptyInbound (s : State) : State := s.withdraw fun _ => true

/-- A FILL entry (R64). -/
def Inbound.isFill (e : Inbound) : Bool := e.kind == .fill

/-- A change of state ends the zero-fill: a pending one is dropped, one in progress completes without report (R71). -/
def State.endZeroFill (s : State) : State :=
  { s with mirror.zeroPending := false
           mirror.holder := match s.mirror.holder with
             | some (.zeroFill _) => some (.zeroFill true)
             | h => h }

/-! ### The chunk buffer and fill reads (R69, R84) -/

/-- The chunk buffer holds a current chunk of the entry's next offset (R84). -/
def State.chunkFor (s : State) (e : Service) : Option Chunk :=
  s.sched.chunk.filter fun c => c.current && c.window == e.window && c.offset == e.next

/-- The service entry of a window and requester (R136). -/
def State.serviceOf (s : State) (w r : Nat) : Option Service :=
  s.refresh.service.find? fun e => e.window == w && e.requester == r

/-- A control entry is overtaken (R87). -/
def State.entryOvertaken (s : State) : ControlEntry → Bool
  | .depart p => p != s.station && s.status p == .absent
  | .fetch w => (s.copy w).fresh
  | .release w => !s.inQueue w
  | .presence _ => false
  | .census => false

/-- The service entry whose FILL a selection among these control entries and records could choose: overtaken entries are
dropped before it is made (R83, R87). -/
def State.fillAmong (s : State) (control : List ControlEntry) (queue : List PubRecord) : Option Service :=
  if control.all s.entryOvertaken && (queue.isEmpty || s.sched.turn == .service) then s.refresh.service.head? else none

/-- The service entry whose FILL the next selection could choose, made once the frame in flight has left its source, or
whose FILL is waiting to go again (R84; log 12). -/
def State.nextFill (s : State) : Option Service :=
  if s.isActive then
    match s.sched.inflight with
    | some f => match f.source with
      | .service w r => if f.onLine then none else s.serviceOf w r
      | .publication => s.fillAmong s.sched.control s.pub.queue.tail
      | .control e => s.fillAmong (s.sched.control.erase e) s.pub.queue
    | none => s.fillAmong s.sched.control s.pub.queue
  else none

/-- No fill read is outstanding: none waits and none holds the memory (R65). -/
def State.fillReadIdle (s : State) : Bool :=
  s.mirror.fillReq.isNone && (match s.mirror.holder with | some (.fillRead _) => false | _ => true)

/-- Ask for the chunk of the FILL that could go next, when the inbound queue is empty and no current chunk is held
(R69, R84). -/
def State.requestFill (s : State) : State :=
  match s.nextFill with
  | none => s
  | some e =>
    if s.mirror.inbound.isEmpty && (s.chunkFor e).isNone && s.fillReadIdle && (s.copy e.window).fresh then
      { s with mirror.fillReq := some { window := e.window, offset := e.next, spoiled := false, discard := false } }
    else s

/-- After an event: ask for a chunk if one is due, and grant the memory if it is free (R66, R84). The request comes first,
so that it competes for the memory that the same event frees (log 33). -/
def State.settleMemory (s : State) : State := s.requestFill.arbitrate

/-- Drop the fill read, which no rule names: a waiting one is withdrawn, a granted one completes (R65) and is discarded
(the model's choice, log 40). -/
def State.discardFillRead (s : State) : State :=
  { s with mirror.fillReq := none
           mirror.holder := match s.mirror.holder with
             | some (.fillRead r) => some (.fillRead { r with discard := true })
             | h => h }

/-- Empty the chunk buffer (R69, R71), and drop a fill read waiting or under way for it (log 40). -/
def State.emptyChunk (s : State) : State := { s.discardFillRead with sched.chunk := none }

/-- Clear the service table and the chunk buffer (R71, R144). -/
def State.clearService (s : State) : State := { s.emptyChunk with refresh.service := [] }

/-! ### Publication records (R74 to R76) -/

/-- Make a record at the tail with a new tag; its tag becomes the last tag (R74, R75). -/
def State.makeRecord (s : State) (kind : PubKind) (w : Nat) : State :=
  { s with
    pub.queue := s.pub.queue ++ [{ kind := kind, tag := s.pub.tagCounter, window := w, selected := false }]
    pub.tagCounter := s.pub.tagCounter + 1
    pub.lastTag := s.pub.tagCounter }

/-- The record with a byte joined, when the byte continues it (R76). -/
def PubRecord.join (r : PubRecord) (w o : Nat) (b : Byte) : Option PubRecord :=
  match r.kind with
  | .write offset data =>
    if !r.selected && r.window == w && data.length < Config.writeDataLimit && o == offset + data.length then
      some { r with kind := .write offset (data ++ [b]) }
    else none
  | .claim => none
  | .release => none

/-- The tail record with a byte joined, when there is one that the byte continues (R76). -/
def State.joinedTail (s : State) (w o : Nat) (b : Byte) : Option PubRecord :=
  s.pub.queue.getLast?.bind fun r => r.join w o b

/-- Place a permitted byte: join the tail, make a record, or none for FULL (R76). -/
def State.placeByte (s : State) (w o : Nat) (b : Byte) : Option State :=
  match s.joinedTail w o b with
  | some r => some { s with pub.queue := s.pub.queue.dropLast ++ [r], pub.lastTag := r.tag }
  | none =>
    if s.pub.queue.length < Config.publicationLimit then some (s.makeRecord (.write o [b]) w) else none

/-- A CLAIM record for the window is in the list (R107, R108). -/
def holdsClaim (records : List PubRecord) (w : Nat) : Bool := records.any fun r => r.kind == .claim && r.window == w

/-! ### The control list (R78, R79) -/

/-- Offer an entry: present, admitted at the tail, or refused (R78). -/
def State.offer (s : State) (e : ControlEntry) : State :=
  if s.sched.control.contains e then s
  else if s.sched.control.length < Config.controlLimit then { s with sched.control := s.sched.control ++ [e] }
  else s

/-- The frame leaves its list, queue or service read, and no frame is in flight (R81, R85, R86). -/
def State.leaveSource (s : State) (f : InFlight) : State :=
  match f.source with
  | .publication => { s with pub.queue := s.pub.queue.tail, sched.inflight := none }
  | .control e => { s with sched.control := s.sched.control.erase e, sched.inflight := none }
  | .service _ _ => { s.emptyChunk with sched.inflight := none }

/-- This station is the census answerer (R123). -/
def State.isAnswerer (s : State) : Bool :=
  s.isActive && s.status s.station == .active && (List.range s.station).all fun n => s.status n != .active

/-- The roster holds a JOINED entry (R123). -/
def State.anyJoined (s : State) : Bool := s.roster.entries.any fun e => e.status == .joined

/-- Lease RELEASEs due: windows whose hold is EXPIRING (R106). -/
def State.dueReleases (s : State) : List ControlEntry :=
  (s.claims.filter fun g => g.hold == .expiring).map fun g => .release g.window

/-- PRESENCE frames due: FOUNDED at a station that founded (R154), CENSUS (R123), ANNOUNCE (R124), in the order of R79. -/
def State.duePresence (s : State) : List ControlEntry :=
  (if s.isActive && s.ctl.reason == .founded && s.status s.station == .joined then [.presence .founded] else [])
    ++ (if s.isAnswerer && s.anyJoined then [.census] else [])
    ++ (if s.roster.announce == .runOut then [.presence .announce] else [])

/-- DEPARTs due: peers whose silence timer has run out (R125). -/
def State.dueDeparts (s : State) : List ControlEntry :=
  ((List.range Config.stations).filter fun n => s.silenceTimer n == .runOut).map .depart

/-- FETCHes due: copies whose request is pending, in ACTIVE (R133). -/
def State.dueFetches (s : State) : List ControlEntry :=
  if s.isActive then ((List.range Config.windows).filter fun w => (s.copy w).request).map .fetch else []

/-- The standing conditions' offers in the order of R79; none but in JOINING and ACTIVE (R80). -/
def State.dueOffers (s : State) : List ControlEntry :=
  if s.ctl.state = .joining ∨ s.ctl.state = .active then
    s.dueReleases ++ s.duePresence ++ s.dueDeparts ++ s.dueFetches
  else []

/-- Every unit whose condition stands offers, in the order of R79 (log 30). -/
def State.offerDue (s : State) : State := s.dueOffers.foldl State.offer s

end Sys2Proof.Machine
end

