-- ==== Sys2Proof/Machine/Claims.lean ====
section
/-! DEFINITION. The claim unit (chapter 6): removal and promotion, acceptance of CLAIM and RELEASE, lease expiry, the
host's CLAIM and RELEASE, and the clearing of holds on a change of station state. -/

namespace Sys2Proof.Machine

/-- The lease timer a new holder of the window gets (R104). -/
def State.leaseStart (s : State) (w : Nat) : Timer :=
  if (s.entry w).lease = 0 then .stopped else .running ((s.entry w).lease.toNat * Config.leaseUnit)

/-! ### Removal and promotion (R94) -/

/-- A queue without a station: those behind it move up (R94). -/
def Guard.without (g : Guard) (st : Nat) : Guard := { g with queue := g.queue.erase st }

/-- The removal of `st` makes `me` the head (R94). -/
def Guard.promotes (g : Guard) (st me : Nat) : Bool :=
  g.queue.head? != some me && (g.without st).queue.head? == some me

/-- NONE, no claim tag, lease stopped (R98, R113). -/
def Guard.unhold (g : Guard) : Guard := { g with hold := .unheld, tag := none, lease := .stopped }

/-- The queue of a guard position after the removal, with the promotion of this station in ACTIVE. A removal touches no
other hold, of this station's own too (R94, R104). -/
def State.removeFromGuard (s : State) (st : Nat) (g : Guard) : Guard :=
  if s.isActive && g.promotes st s.station then
    { g.without st with hold := .held, lease := s.leaseStart g.window }
  else g.without st

/-- Remove a station from the queues that `which` names, in guard position order, posting GRANTED for each window this
station is promoted in (R94). -/
def State.removeClaims (s : State) (st : Nat) (which : Guard → Bool) : State :=
  let promoted := s.claims.filter fun g => which g && s.isActive && g.promotes st s.station
  { s with claims := s.claims.map fun g => if which g then s.removeFromGuard st g else g }.postAll
    (promoted.map fun (g : Guard) => .granted g.tag g.window)

/-- Remove a station from every queue (R99, R100, R116). -/
def State.removeAllClaims (s : State) (st : Nat) : State := s.removeClaims st fun _ => true

/-- End this station's hold of every window whose queue it stands in, where its own JOIN takes it from the queues (R103;
log 38). -/
def State.endOwnHolds (s : State) : State :=
  { s with claims := s.claims.map fun g => if s.station ∈ g.queue then g.unhold else g }

/-! ### Acceptance of CLAIM (R95, R96) -/

/-- What a CLAIM meets (R95). -/
inductive ClaimCase where
  | notActive
  | present (position : Nat)
  | full
  | appended (position : Nat)
  deriving DecidableEq, Repr

/-- The first case of R95 that applies to a CLAIM of `sender` on the queue. -/
def State.claimCase (s : State) (sender : Nat) (g : Guard) : ClaimCase :=
  if s.status sender = .joined then .notActive
  else if g.queue.contains sender then .present (g.queue.idxOf sender)
  else if Config.claimQueueLimit ≤ g.queue.length then .full
  else .appended g.queue.length

/-- The tag of the in-flight publication record: the head of the queue (R81). -/
def State.inflightTag (s : State) : Option Byte :=
  match s.sched.inflight with
  | some f => if f.source = .publication then s.pub.queue.head?.map (·.tag) else none
  | none => none

/-- The sender's hold, claim tag and lease after its own CLAIM, in ACTIVE (R96; log 24). -/
def State.heldAfterClaim (s : State) (tag : Option Byte) (case : ClaimCase) (g : Guard) : Guard :=
  match case with
  | .notActive => g
  | .present 0 => { g with hold := if g.hold = .expiring then .expiring else .held, tag := tag }
  | .present (_ + 1) => { g with hold := .waiting, tag := tag, lease := .stopped }
  | .full => { g with hold := .unheld, tag := none, lease := .stopped }
  | .appended 0 => { g with hold := .held, tag := tag, lease := s.leaseStart g.window }
  | .appended (_ + 1) => { g with hold := .waiting, tag := tag, lease := .stopped }

/-- The outcome the sender posts for its own CLAIM (R96). -/
def claimOutcome (tag : Option Byte) (w : Nat) : ClaimCase → List OutcomeRecord
  | .notActive => []
  | .present 0 => [.granted tag w]
  | .present (p + 1) => [.waiting tag w (p + 1)]
  | .full => [.claimRefused tag w]
  | .appended 0 => [.granted tag w]
  | .appended (p + 1) => [.waiting tag w (p + 1)]

/-- The queue after a CLAIM (R95). -/
def Guard.claimed (g : Guard) (sender : Nat) : ClaimCase → Guard
  | .appended _ => { g with queue := g.queue ++ [sender] }
  | .notActive | .present _ | .full => g

/-- An accepted CLAIM that passed the filter (R40, R95, R96, R112). -/
def State.acceptClaim (s : State) (sender : Nat) (sent : Bool) (w : Nat) : State :=
  match s.guardOf w with
  | none => s
  | some g =>
    let case := s.claimCase sender g
    let tag := s.inflightTag
    let queued := s.setGuard w (·.claimed sender case)
    if sent then
      (if s.isActive then queued.setGuard w (s.heldAfterClaim tag case) else queued).postAll (claimOutcome tag w case)
    else queued

/-! ### Acceptance of RELEASE (R97, R98) -/

/-- An own RELEASE ends a hold WAITING, HELD or EXPIRING; CLAIMING stands for the CLAIM record queued (R98, R103;
log 34). -/
def Guard.released (g : Guard) : Guard := if g.hold = .claiming then g else g.unhold

/-- An accepted RELEASE that passed the filter (R40, R97, R98). -/
def State.acceptRelease (s : State) (sender : Nat) (sent : Bool) (w : Nat) : State :=
  let position := (s.claimQueue w).idxOf? sender
  let tag := s.inflightTag
  let removed := s.removeClaims sender (·.window == w)
  if sent then (removed.setGuard w Guard.released).post (.cancelled tag w position) else removed

/-! ### Lease expiry (R105) -/

/-- The lease timer of a window runs out in HELD: EXPIRING and LOST_HOLD with reason LEASE (R105). -/
def State.expireLease (s : State) (w : Nat) : State :=
  match s.guardOf w with
  | none => s
  | some g =>
    if g.hold = .held ∧ g.lease.isRunning then
      ((s.setGuard w fun g => { g with hold := .expiring, lease := .runOut }).post (.lostHold w .lease)).offerDue
    else s

/-! ### Changes of station state (R112, R113) -/

/-- LOST_HOLD for each window that is HELD, in guard position order (R113). -/
def State.lostHolds (s : State) (reason : LossReason) : List OutcomeRecord :=
  (s.claims.filter fun g => g.hold == .held).map fun g => .lostHold g.window reason

/-- Post LOST_HOLD for each HELD window and set every hold to NONE; the queues are kept (R112). -/
def State.dropHolds (s : State) (reason : LossReason) : State :=
  { s with claims := s.claims.map Guard.unhold }.postAll (s.lostHolds reason)

/-- An emptied guard position (R113). -/
def Guard.cleared (g : Guard) : Guard := { g.unhold with queue := [] }

/-- Empty every claim queue and hold without a report (R113). -/
def State.clearClaims (s : State) : State := { s with claims := s.claims.map Guard.cleared }

/-- Claim units of a validated table: one empty record a guard position (R54, R113). -/
def freshGuards (table : List Entry) : List Guard :=
  (guardWindows table).map fun w => { window := w, queue := [], hold := .unheld, tag := none, lease := .stopped }

/-! ### Host CLAIM and RELEASE (R107, R108) -/

/-- The host's CLAIM: the first result of R107 that applies, and its effect on DONE. -/
def State.hostClaim (s : State) (w : Nat) : State × Result :=
  if !s.isActive then (s, .notActive)
  else if !s.namesGuarded w then (s, .notGuarded)
  else if s.inQueue w || holdsClaim s.pub.queue w then (s, .redundant)
  else if Config.publicationLimit ≤ s.pub.queue.length then (s, .full)
  else ((s.makeRecord .claim w).setGuard w fun g => { g with hold := .claiming }, .done)

/-- The unselected CLAIM record of a window (R108). -/
def State.unselectedClaim (s : State) (w : Nat) : Option PubRecord :=
  s.pub.queue.find? fun r => r.kind == .claim && r.window == w && !r.selected

/-- Local cancellation: the record leaves the queue, posts ABANDONED, and the hold becomes NONE (R108). -/
def State.cancelClaim (s : State) (r : PubRecord) : State :=
  ({ s with pub.queue := s.pub.queue.erase r }.post (.abandoned r.tag r.window .overtaken)).setGuard r.window
    fun g => { g with hold := .unheld }

/-- The host's RELEASE: the first case of R108 that applies. -/
def State.hostRelease (s : State) (w : Nat) : State × Result :=
  if !s.isActive then (s, .notActive)
  else if !s.namesGuarded w then (s, .notGuarded)
  else match s.unselectedClaim w with
    | some r => (s.cancelClaim r, .cancelledLocal)
    | none =>
      if !(s.inQueue w || holdsClaim s.pub.queue w) then (s, .redundant)
      else if Config.publicationLimit ≤ s.pub.queue.length then (s, .full)
      else (s.makeRecord .release w, .done)

end Sys2Proof.Machine
end

