-- ==== Sys2Proof/Machine/LifeCycle.lean ====
section
/-! DEFINITION. The station controller (chapter 9): the transitions between the seven station states, each with what it
does to the units whose state it clears, keeps or abandons (R22, R71, R90, R113, R129, R144). -/

namespace Sys2Proof.Machine

/-! ### What transitions do to the units -/

/-- ABANDONED outcomes of records, head first (R89, R90). -/
def abandonedOutcomes (records : List PubRecord) (reason : AbandonReason) : List OutcomeRecord :=
  records.map fun r => .abandoned r.tag r.window reason

/-- Abandon every publication record, head first (R90). -/
def State.abandonQueue (s : State) (reason : AbandonReason) : State :=
  { s with pub.queue := [] }.postAll (abandonedOutcomes s.pub.queue reason)

/-- Empty the control list, the in-flight frame leaving with its source (R90). -/
def State.clearControl (s : State) : State := { s with sched.control := [], sched.inflight := none }

/-- The turn flag at PUBLICATIONS (R83). -/
def State.resetTurn (s : State) : State := { s with sched.turn := .publications }

/-- All entries ABSENT, every silence timer and the announce timer stopped (R129). -/
def State.clearRoster (s : State) : State :=
  { s with roster := { entries := List.replicate Config.stations RosterEntry.reset, announce := .stopped } }

/-- Every copy STALE with both fill points at 0, nothing requested (R144). -/
def State.clearCopies (s : State) : State := s.mapCopies fun _ => Copy.reset

/-- No fetch request, timer stopped, expiry count 0, not failed (R144). -/
def Copy.unfetched (c : Copy) : Copy := { c with request := false, timer := .stopped, expiries := 0, failed := false }

/-- To STOPPED: the accepted fill point goes back to the applied one (R144). -/
def Copy.halted (c : Copy) : Copy := { c.unfetched with accepted := c.applied }

/-- The line interface stops decoding, timing and driving; L is kept (R6, R22). -/
def State.haltLine (s : State) : State :=
  { s with line := { Line.reset with reference := s.line.reference }, rx.frame := none }

/-- An abandonment put off to the window end, met by a transition that leaves the frame in flight as it is: the frame
leaves its source, and causes no transition of its own (R86, R147). -/
def State.dropAbandoned (s : State) : State :=
  if s.ctl.abandonDue then (s.sched.inflight.map s.leaveSource).getD s else s

/-- The controller's own part of a transition: state, reason, census pending set exactly on entry into JOINING, the
answer timer stopped, deferrals ended, and STATE posted (R146, R147). -/
def State.moveTo (s : State) (state : StationState) (reason : Reason) : State :=
  { s with ctl := { state := state, reason := reason, censusPending := decide (state = StationState.joining), answer := .stopped,
                    foundingDue := false, abandonDue := false } }.post (.state state reason)

/-! ### Transitions -/

/-- Entry into JOINING: the announce timer set and the JOIN admitted (R124, R150). -/
def State.enterJoining (s : State) (reason : Reason) : State :=
  ({ s with roster.announce := .running Config.announceTicks }.moveTo .joining reason).offer (.presence .join)

/-- The JOIN is abandoned: back to LISTENING with L UNKNOWN, roster and claim queues empty, the silence count at 0 (R90, R113,
R129, R151; log 29). -/
def State.joinFailed (s : State) : State :=
  { s.clearControl.clearRoster.clearClaims.emptyChunk with line.reference := none, line.silence := 0 }.moveTo .listening .joinFailed

/-- The rejoin path, its six steps in order (R156). A zero-fill still under way ends with it (R143; log 25). -/
def State.rejoin (s : State) (reason : Reason) : State :=
  let abandoned := (s.abandonQueue .departed).clearControl.resetTurn.clearService
  let lost := (abandoned.dropHolds .departed).clearClaims
  let stale := (lost.clearCopies.withdraw Inbound.isFill).endZeroFill
  stale.clearRoster.enterJoining reason

/-- Abandon and clear everything of the replicated state, as on entering MUTED and INCOMPATIBLE (R157, R159). -/
def State.forsake (s : State) (abandon : AbandonReason) (loss : LossReason) : State :=
  let abandoned := (s.abandonQueue abandon).clearControl.resetTurn.clearService
  let lost := (abandoned.dropHolds loss).clearClaims
  lost.emptyInbound.endZeroFill.clearCopies.clearRoster

/-- The station enters MUTED (R157). -/
def State.enterMuted (s : State) : State :=
  { s.forsake .muted .muted with rx.objectionRun := 0, rx.cleanRun := 0 }.moveTo .muted .objections

/-- The station enters INCOMPATIBLE (R159). -/
def State.enterIncompatible (s : State) (reason : Reason) : State :=
  (s.forsake .departed .departed).moveTo .incompatible reason

/-- The station goes to STOPPED (R22, R71, R90, R113, R129, R144, R160, R161). -/
def State.stop (s : State) (reason : Reason) : State :=
  let cleared := (s.clearControl.emptyInbound.endZeroFill.clearRoster.clearClaims.clearService).mapCopies Copy.halted
  cleared.haltLine.moveTo .stopped reason

/-! ### Founding (R153, R154) -/

/-- The founding test: no lower-numbered entry JOINED and no entry ACTIVE (R153). -/
def State.mayFound (s : State) : Bool :=
  (List.range s.station).all (fun n => s.status n != .joined) && s.roster.entries.all fun e => e.status != .active

/-- Founding: the inbound queue is withdrawn, the zero-fill made pending, the station ACTIVE (R70, R143, R154). -/
def State.found (s : State) : State :=
  { s.dropAbandoned.emptyInbound.emptyChunk with mirror.zeroPending := true }.moveTo .active .founded

/-- The founding test is made: found, or set the answer timer again (R152, R153). -/
def State.foundingTest (s : State) : State :=
  if s.mayFound then s.found
  else { s with ctl.answer := .running Config.answerTicks, ctl.foundingDue := false }

/-! ### LEAVE (R160) -/

/-- The in-flight frame is on the line (R81). -/
def State.frameOnLine (s : State) : Option InFlight := s.sched.inflight.filter (·.onLine)

/-- The publication records that LEAVE lets stand: the head, if its frame is on the line (R88, R90). -/
def State.keptRecords (s : State) : List PubRecord :=
  match s.frameOnLine with
  | some f => if f.source = .publication then s.pub.queue.take 1 else []
  | none => []

/-- The control entry that LEAVE lets stand: the one whose frame is on the line (R80). -/
def State.keptControl (s : State) : List ControlEntry :=
  match s.frameOnLine with
  | some f => match f.source with
    | .control e => [e]
    | _ => []
  | none => []

/-- The service table is cleared; a chunk whose FILL is on the line is kept (R71, R90). -/
def State.clearServiceAtLeave (s : State) : State :=
  match s.frameOnLine with
  | some f => match f.source with
    | .service _ _ => { s with refresh.service := [] }
    | _ => s.clearService
  | none => s.clearService

/-- The control list at LEAVE: what is on the line, then DEPART of this station is admitted; the turn flag at
PUBLICATIONS (R80, R83). -/
def State.leaveControl (s : State) : State :=
  { s with sched.control := s.keptControl
           sched.inflight := s.frameOnLine
           sched.turn := .publications }.offer (.depart s.station)

/-- LEAVE in JOINING or ACTIVE: to LEAVING (R80, R88, R90, R112, R129, R144, R160). -/
def State.leaveGroup (s : State) : State :=
  let gone := s.pub.queue.drop s.keptRecords.length
  let abandoned := { s with pub.queue := s.keptRecords }.postAll (abandonedOutcomes gone .leaving)
  let lost := (abandoned.clearServiceAtLeave.leaveControl).dropHolds .departed
  { lost.mapCopies Copy.unfetched with roster.announce := .stopped }.moveTo .leaving .leave

end Sys2Proof.Machine
end

