-- ==== Sys2Proof/Machine/RefreshUnit.lean ====
section
/-! DEFINITION. The refresh unit (chapter 8): fetch requests and their timer, service entries, taking chunks, a copy
becoming FRESH, REFETCH. -/

namespace Sys2Proof.Machine

/-! ### The fetch timer (R134) -/

/-- The copy is fetched for: ACTIVE, STALE and not failed, so that its timer runs (R134). -/
def State.fetches (s : State) (w : Nat) : Bool := s.isActive && !(s.copy w).fresh && !(s.copy w).failed

/-- One expiry more: the request is renewed, or at the fourth the copy is failed with FETCH_FAILED (R134). -/
def State.countExpiry (s : State) (w : Nat) : State :=
  if (s.copy w).expiries + 1 < Config.expiryLimit then
    s.setCopy w fun c =>
      { c with expiries := c.expiries + 1, timer := .running Config.fetchTicks, request := true }
  else (s.setCopy w fun c =>
      { c with expiries := Config.expiryLimit, timer := .stopped, request := false, failed := true }).post (.fetchFailed w)

/-- The fetch timer of a copy reaches 0 (R134). -/
def State.expireFetch (s : State) (w : Nat) : State :=
  if s.fetches w && (s.copy w).timer.isRunning then (s.countExpiry w).offerDue else s

/-- This station's FETCH of the window is abandoned: taken as an expiry (R86, R134; log 21). -/
def State.abandonFetch (s : State) (w : Nat) : State := if s.fetches w then s.countExpiry w else s

/-- A fetch request for every mirrored window, at the installation of a census (R133, R155). -/
def State.requestAll (s : State) : State :=
  s.mapMirrored fun _ c => { c with request := true, timer := .running Config.fetchTicks, expiries := 0 }

/-! ### Service entries (R136 to R139) -/

/-- Drop the service entry of a window and requester (R139); a chunk read ahead for it stays (log 39). -/
def State.dropService (s : State) (w r : Nat) : State :=
  { s with refresh.service := s.refresh.service.filter fun e => !(e.window == w && e.requester == r) }

/-- Drop every service entry of a requester (R115, R127, R139; log 39). -/
def State.dropServiceOf (s : State) (r : Nat) : State :=
  { s with refresh.service := s.refresh.service.filter fun e => e.requester != r }

/-- Volunteer for a FETCH: update the entry of the window and requester, or add one while there is room (R137). -/
def State.volunteer (s : State) (w requester origin : Nat) : State :=
  if (s.serviceOf w requester).isSome then
    { s with refresh.service := s.refresh.service.map fun e =>
        if e.window == w && e.requester == requester then { e with next := origin } else e }
  else if s.refresh.service.length < Config.serviceLimit then
    { s with refresh.service := s.refresh.service ++ [{ window := w, requester := requester, next := origin }] }
  else s

/-- The requester's own FETCH is accepted: the timer restarts, and the request ends when FROM is still its point
(R133; log 26). -/
def State.fetchAccepted (s : State) (w origin : Nat) : State :=
  if s.isActive && !(s.copy w).fresh then
    s.setCopy w fun c => { c with timer := if c.failed then .stopped else .running Config.fetchTicks
                                  request := if origin = c.accepted then false else c.request }
  else s

/-- An accepted FETCH that passed the filter (R42, R133, R137). -/
def State.acceptFetch (s : State) (sender : Nat) (sent : Bool) (w origin : Nat) : State :=
  if sent then s.fetchAccepted w origin
  else if s.isActive && (s.entry w).isMirrored && (s.copy w).fresh && origin % (s.entry w).chunk == 0 then
    s.volunteer w sender origin
  else s

/-- The entry's next offset after its FILL is accepted; a complete entry leaves the table (R138). -/
def State.advanceService (s : State) (w requester next : Nat) : State :=
  if next < (s.entry w).bytes then
    { s with refresh.service := s.refresh.service.map fun e =>
        if e.window == w && e.requester == requester then { e with next := next } else e }
  else s.dropService w requester

/-! ### Taking chunks (R140, R141) -/

/-- A chunk taken: the accepted fill point advances and a FILL entry joins the inbound queue (R42, R140). -/
def State.takeChunk (s : State) (w offset : Nat) (data : List Byte) : State :=
  (s.setCopy w fun c => { c with accepted := c.accepted + data.length }).enqueue
    { kind := .fill, window := w, offset := offset, data := data, withdrawn := false }

/-- An accepted FILL that passed the filter: taken by a STALE copy waiting at its offset while a place is free
(R33, R140), and the takeover at every volunteer but the sender (R139). -/
def State.acceptFill (s : State) (sent : Bool) (w offset requester : Nat) (data : List Byte) : State :=
  let taken := if s.takesChunk w offset && s.mirror.inbound.length < Config.inboundLimit then s.takeChunk w offset data else s
  if sent then taken else taken.dropService w requester

/-- A copy becomes FRESH by a FILL application (R132). -/
def State.becomeFresh (s : State) (w : Nat) : State :=
  let fresh := (s.setCopy w fun c => { c.unfetched with fresh := true }).post (.fresh w)
  if (s.entry w).isWatched then fresh.noteChange w else fresh

/-- The refresh unit's part in the completion of a FILL application (R141). The timer runs only in ACTIVE (R134;
log 26). -/
def State.fillApplied (s : State) (w len : Nat) : State :=
  let applied := s.setCopy w fun c =>
    { c with applied := c.applied + len, expiries := 0
             timer := if !c.failed && s.isActive then .running Config.fetchTicks else c.timer }
  if (applied.copy w).applied = (s.entry w).bytes then applied.becomeFresh w else applied

/-- The founding zero-fill is complete: every mirrored copy FRESH at its window size, FRESH posted for each in window
order (R143). -/
def State.zeroFilled (s : State) : State :=
  (s.mapMirrored fun w _ => { Copy.reset with fresh := true, accepted := (s.entry w).bytes, applied := (s.entry w).bytes
    }).postAll ((mirroredWindows s.layout.table).map .fresh)

/-! ### REFETCH (R142, R171) -/

/-- The refresh of a STALE copy begins again from offset 0 (R142). -/
def State.restartFill (s : State) (w : Nat) : State :=
  (s.withdraw fun e => e.isFill && e.window == w).setCopy w fun _ =>
    { Copy.reset with timer := .running Config.fetchTicks, request := true }

/-- The host's REFETCH: the first result of R171 that applies, and its effect on DONE. -/
def State.hostRefetch (s : State) (w : Nat) : State × Result :=
  if !s.isActive then (s, .notActive)
  else if !(s.entry w).isMirrored then (s, .unmapped)
  else if (s.copy w).fresh then (s, .redundant)
  else ((s.restartFill w).offerDue, .done)

end Sys2Proof.Machine
end

