-- ==== Sys2Proof/Machine/RosterUnit.lean ====
section
/-! DEFINITION. The roster unit (chapter 7): statuses and silence timers, PRESENCE of every mode, the census, DEPART. -/

namespace Sys2Proof.Machine

/-- The silence timer of a present peer, set from now; this station's own entry has none (R114, R125). -/
def State.silenceStart (s : State) (n : Nat) : Timer :=
  if n = s.station then .stopped else .running Config.lostTicks

/-- Write a status that keeps or makes the entry present: the timer starts when it was ABSENT (R115). -/
def State.setPresent (s : State) (n : Nat) (st : RosterStatus) : State :=
  s.setEntry n { status := st
                 timer := if s.status n = .absent then s.silenceStart n else s.silenceTimer n }

/-- Make an entry ABSENT, its timer stopped (R115, R127). -/
def State.setAbsent (s : State) (n : Nat) : State := s.setEntry n RosterEntry.reset

/-- Take a station's claims and service entries from it, before its status changes (R115). -/
def State.strip (s : State) (n : Nat) : State := (s.removeAllClaims n).dropServiceOf n

/-- The entry is JOINED or ACTIVE (R29, R115). -/
def RosterStatus.matching : RosterStatus → Bool
  | .joined | .active => true
  | .absent | .foreign => false

/-- Strip the station if it is JOINED or ACTIVE (R115, R116, R117). Of this station itself, its holds end too (R103;
log 38). -/
def State.stripPresent (s : State) (n : Nat) : State :=
  if (s.status n).matching then (if n = s.station then s.endOwnHolds else s).strip n else s

/-- Every JOINED entry but that of station `kept` becomes ACTIVE; the timers run on (R120, R121). -/
def State.completeJoined (s : State) (kept : Nat) : State :=
  { s with roster.entries := s.roster.entries.mapIdx fun n e =>
      if e.status = .joined ∧ n ≠ kept then { e with status := .active } else e }

/-- A PRESENCE of another signature makes its sender FOREIGN (R116). -/
def State.setApart (s : State) (sender : Nat) : State := (s.stripPresent sender).setPresent sender .foreign

/-- The answer timer starts at the acceptance of this station's own JOIN (R152). -/
def State.startAnswer (s : State) (sent : Bool) : State :=
  if sent && s.awaitsCensus then { s with ctl.answer := .running Config.answerTicks } else s

/-- A JOIN of this station's signature (R117, R152). -/
def State.acceptJoin (s : State) (sender : Nat) (sent : Bool) : State :=
  ((s.stripPresent sender).setPresent sender .joined).startAnswer sent

/-- A PRESENCE other than a CENSUS that passed the filter (R41, R116 to R119). -/
def State.acceptPresence (s : State) (sender : Nat) (sent : Bool) (mode : PresenceMode) (sig : Word) : State :=
  if sig ≠ s.layout.signature then s.setApart sender
  else match mode with
    | .join => s.acceptJoin sender sent
    | .founded => s.setPresent sender .active
    | .announce => s

/-- The roster entry an installed census gives station `n` (R121). -/
def State.installedEntry (s : State) (map : List RosterStatus) (n : Nat) : RosterEntry :=
  let listed := map.getD n .absent
  let status := if listed = .joined then RosterStatus.active else listed
  ⟨status, if status = .absent then .stopped else s.silenceStart n⟩

/-- The census is installed whole: roster, claim queues, ACTIVE with reason CENSUS, a fetch request for every mirrored
window (R102, R121, R133, R155). A JOIN whose abandonment was put off leaves with it (R147). -/
def State.installCensus (s : State) (map : List RosterStatus) (groups : List (List Nat)) : State :=
  let installed := { s with
    roster.entries := (List.range Config.stations).map (s.installedEntry map)
    claims := s.claims.mapIdx fun i (g : Guard) => { g with queue := groups.getD i [] } }
  (installed.dropAbandoned.moveTo .active .census).requestAll

/-- A census of this station's signature that is not this joiner's answer: its sender and every JOINED entry of another
station become ACTIVE, and the joiner goes on waiting (R121, second case). Its own entry, JOINED or ABSENT, stands as long
as census pending is set (R115, R127, R146, R160; log 36). -/
def State.learnFromCensus (s : State) (sender : Nat) : State :=
  (s.completeJoined s.station).setPresent sender .active

/-- A CENSUS that passed the filter; where none is awaited every JOINED entry but the sender's becomes ACTIVE, this
station's own included (R41, R116, R120, R121; log 36). -/
def State.acceptCensus (s : State) (sender : Nat) (sig : Word) (map : List RosterStatus) (groups : List (List Nat)) :
    State :=
  if sig ≠ s.layout.signature then
    if s.awaitsCensus then s.enterIncompatible .signature else s.setApart sender
  else if s.awaitsCensus then
    if map.getD s.station .absent = .joined then s.installCensus map groups else s.learnFromCensus sender
  else s.completeJoined sender

/-- What a DEPART naming this station does to the station state (R41, R127, R156, R161). -/
def State.departSelf (s : State) : State :=
  match s.ctl.state with
  | .leaving => s.stop .left
  | .joining | .active => s.rejoin .departed
  | .stopped | .listening | .muted | .incompatible => s

/-- A DEPART that passed the filter, in the order of R127. -/
def State.acceptDepart (s : State) (subject : Nat) : State :=
  let gone := (s.strip subject).setAbsent subject
  if subject = s.station then gone.departSelf else gone

end Sys2Proof.Machine
end

