-- ==== Sys2Proof/Machine/TransmitScheduler.lean ====
section
/-! DEFINITION. The transmit scheduler (chapter 5): frames built from their sources, overtaken frames, selection at the
slot, and what each result of a transmission does. -/

namespace Sys2Proof.Machine

/-! ### Frames built from their sources -/

/-- The roster map a census carries: every status as it stands, this station's own as ACTIVE (R122). -/
def State.censusMap (s : State) : List RosterStatus :=
  (List.range Config.stations).map fun n => if n = s.station then .active else s.status n

/-- The body of a control entry's frame from the fields as they stand (R78, R122). -/
def State.controlBody (s : State) : ControlEntry → Body
  | .presence m => .presence m s.layout.signature
  | .census => .census s.layout.signature s.censusMap (s.claims.map (·.queue))
  | .depart p => .depart p (if p = s.station then .leaving else .silent)
  | .fetch w => .fetch w (s.copy w).accepted
  | .release w => .release w .lease

/-- The body of a publication record's frame (R74, R83). -/
def PubRecord.body (r : PubRecord) : Body :=
  match r.kind with
  | .write o data => .write r.window o data
  | .claim => .claim r.window
  | .release => .release r.window .host

/-! ### Leaving the source -/

/-- The frame leaves its source; a publication posts ABANDONED with the reason (R87, R88, R89). -/
def State.abandonWith (s : State) (f : InFlight) (reason : AbandonReason) : State :=
  match f.source with
  | .publication => (s.leaveSource f).postAll (abandonedOutcomes (s.pub.queue.take 1) reason)
  | .control _ => s.leaveSource f
  | .service _ _ => s.leaveSource f

/-! ### Overtaken frames (R87) -/

/-- A host RELEASE record is overtaken, given the records ahead of it. -/
def State.recordOvertaken (s : State) (ahead : List PubRecord) (r : PubRecord) : Bool :=
  r.kind == .release && !s.inQueue r.window && !holdsClaim ahead r.window

/-- The records kept and the records dropped as overtaken, given the records ahead of them. -/
def State.sortRecords (s : State) (ahead : List PubRecord) : List PubRecord → List PubRecord × List PubRecord
  | [] => ([], [])
  | r :: rest =>
    let sorted := s.sortRecords (ahead ++ [r]) rest
    if s.recordOvertaken ahead r then (sorted.1, r :: sorted.2) else (r :: sorted.1, sorted.2)

/-- An in-flight frame that waits is overtaken; one on the line is not tested. -/
def State.frameOvertaken (s : State) (f : InFlight) : Bool :=
  !f.onLine && match f.source with
    | .publication => (s.pub.queue.take 1).any (s.recordOvertaken [])
    | .control e => s.entryOvertaken e
    | .service w r => (s.serviceOf w r).isNone

/-- The publication queue sorted at step 5: a head whose frame is on the line is not tested (R87). -/
def State.sortedQueue (s : State) : List PubRecord × List PubRecord :=
  if s.keptRecords.isEmpty then s.sortRecords [] s.pub.queue
  else
    let sorted := s.sortRecords s.keptRecords (s.pub.queue.drop 1)
    (s.keptRecords ++ sorted.1, sorted.2)

/-- An overtaken frame that waits is in flight no more; of a FILL the chunk buffer is emptied (R69, R87, R139). A chunk read
ahead for an entry dropped with no FILL in flight stays (log 39). -/
def State.dropWaiting (s : State) : State :=
  match s.sched.inflight with
  | none => s
  | some f =>
    if s.frameOvertaken f then
      match f.source with
      | .service _ _ => { s.emptyChunk with sched.inflight := none }
      | .publication => { s with sched.inflight := none }
      | .control _ => { s with sched.inflight := none }
    else s

/-- Step 5 of acceptance: every overtaken control entry, RELEASE record and waiting FILL is dropped (R34, R87). -/
def State.dropOvertaken (s : State) : State :=
  let kept := s.sched.control.filter fun e => s.keptControl.contains e || !s.entryOvertaken e
  let sorted := s.sortedQueue
  { s.dropWaiting with sched.control := kept, pub.queue := sorted.1 }.postAll (abandonedOutcomes sorted.2 .overtaken)

/-! ### Results of a transmission (R85, R86, R88) -/

/-- The frame is DEPART of this station (R80). -/
def State.isOwnDepart (s : State) (f : InFlight) : Bool := f.source == .control (.depart s.station)

/-- In LEAVING every frame but DEPART of this station is abandoned at its report (R88). -/
def State.abandonsAtReport (s : State) (f : InFlight) : Bool := s.ctl.state == .leaving && !s.isOwnDepart f

/-- The hold of a CLAIM record abandoned in ACTIVE goes from CLAIMING to NONE (R107). -/
def State.unclaim (s : State) (records : List PubRecord) : State :=
  match records with
  | r :: _ =>
    if s.isActive && r.kind == .claim then
      s.setGuard r.window fun g => if g.hold = .claiming then { g with hold := .unheld } else g
    else s
  | [] => s

/-- The sixteenth failed attempt is reported: the frame is abandoned, by its source (R86). A JOIN returns a JOINING station
to LISTENING (R147, R151); one still listed in ACTIVE only leaves the list (log 41). -/
def State.abandonAttempts (s : State) (f : InFlight) : State :=
  let gone := s.abandonWith f .attempts
  match f.source with
  | .publication => gone.unclaim (s.pub.queue.take 1)
  | .control (.presence .join) => if s.ctl.state = .joining then gone.joinFailed else gone
  | .control (.depart p) => if p = s.station ∧ s.ctl.state = .leaving then gone.stop .departAbandoned else gone
  | .control (.fetch w) => gone.abandonFetch w
  | .control (.presence .founded) => gone
  | .control (.presence .announce) => gone
  | .control .census => gone
  | .control (.release _) => gone
  | .service w r => gone.dropService w r

/-- Abandoning the frame is a transition of the station: a JOIN in JOINING, its own DEPART in LEAVING (R147; log 41). -/
def State.endsState (s : State) (f : InFlight) : Bool :=
  (f.source == .control (.presence .join) && s.ctl.state == .joining)
    || (s.isOwnDepart f && s.ctl.state == .leaving)

/-- A chunk that has been on the line is read anew for a retry, also one whose read is still under way (R69, R82,
R138; log 13). -/
def State.staleChunk (s : State) : State :=
  { s.discardFillRead with sched.chunk := s.sched.chunk.map fun c => { c with current := false } }

/-- The chunk of a frame that is to go again: a FILL's is read anew, one held for a FILL behind any other frame stands
(R69, R85). -/
def State.keepChunk (s : State) (f : InFlight) : State :=
  match f.source with
  | .service _ _ => s.staleChunk
  | .publication | .control _ => s

/-- The frame waits again, with its attempt count; a FILL's chunk is to be read anew (R81, R82). -/
def State.waitAgain (s : State) (f : InFlight) (attempts : Nat) : State :=
  { s.keepChunk f with sched.inflight := some { f with attempts := attempts, onLine := false } }

/-- The transmission is reported as lost (R85, R88). -/
def State.reportLost (s : State) : State :=
  match s.sched.inflight with
  | none => s
  | some f => if s.abandonsAtReport f then s.abandonWith f .leaving else s.waitAgain f f.attempts

/-- The transmission is reported as voided or faulted. A faulted sixteenth attempt of a JOIN or of DEPART of this
station waits for the window end (R85, R86, R88, R147; log 22). -/
def State.reportFailed (s : State) (faulted : Bool) : State :=
  match s.sched.inflight with
  | none => s
  | some f =>
    if s.abandonsAtReport f then s.abandonWith f .leaving
    else if f.attempts + 1 < Config.attemptLimit then s.waitAgain f (f.attempts + 1)
    else if faulted && s.endsState f then { s.waitAgain f Config.attemptLimit with ctl.abandonDue := true }
    else s.abandonAttempts f

/-- At a window end, an abandonment put off by a faulted sixteenth attempt takes effect, unless a transition has come
first (R147). -/
def State.finishAbandon (s : State) : State :=
  if s.ctl.abandonDue then
    match s.sched.inflight with
    | some f => { s with ctl.abandonDue := false }.abandonAttempts f
    | none => { s with ctl.abandonDue := false }
  else s

/-- Settlement of the accepted frame this station sent (R43, R85, R138). -/
def State.settle (s : State) (rejected : Bool) : State :=
  match s.sched.inflight with
  | none => s
  | some f =>
    match f.source, f.frame.body with
    | .publication, .write w o _ =>
      if rejected then
        (s.leaveSource f).postAll ((s.pub.queue.take 1).map fun r => .rejected r.tag w o)
      else s.leaveSource f
    | .control (.depart p), _ =>
      if p = s.station ∧ s.ctl.state = .leaving then (s.leaveSource f).stop .left else s.leaveSource f
    | .service w r, .fill _ o _ data => (s.leaveSource f).advanceService w r (o + data.length)
    | _, _ => s.leaveSource f

/-! ### The transmit opportunity (R82 to R84) -/

/-- A frame goes on the line at the start of the slot; the receiver holds it as its own (R10, R45, R81). -/
def State.supply (s : State) (source : Source) (frame : Frame) (attempts : Nat) : State :=
  { s with
    sched.inflight := some { source := source, frame := frame, attempts := attempts, onLine := true }
    line.state := .transmitting
    line.count := 0
    rx.frame := some { chars := [], short := false, sending := true, framing := false, check := false, form := false,
                       objects := false } }

/-- The chunk's local range exists, the memory is free and no snapshot waits for it, so that the chunk can be read at
once (R65, R84). -/
def State.readableNow (s : State) (e : Service) : Bool :=
  s.mirror.holder.isNone && s.mirror.snapReq.isNone
    && (s.entry e.window).localBase + e.next + (s.entry e.window).chunk ≤ Config.mirrorBytes

/-- The FILL of a service entry is ready (R83). -/
def State.fillReady (s : State) (e : Service) : Bool :=
  s.isActive && s.mirror.inbound.isEmpty && ((s.chunkFor e).isSome || s.readableNow e)

/-- The bytes of an entry's chunk in this station's copy (R69). -/
def State.chunkBytes (s : State) (w offset : Nat) : List Byte :=
  Memory.readBytes s.mirror.mem ((s.entry w).localBase + offset) (s.entry w).chunk

/-- The FILL of a service entry goes on the line, from the current chunk or from one read at once (R84, R138;
log 14). -/
def State.supplyFill (s : State) (e : Service) (attempts : Nat) : State :=
  let frame (data : List Byte) : Frame := { sender := s.station, body := .fill e.window e.next e.requester data }
  match s.chunkFor e with
  | some c => s.supply (.service e.window e.requester) (frame c.data) attempts
  | none =>
    (s.grantFillRead { window := e.window, offset := e.next, spoiled := false, discard := false }).supply
      (.service e.window e.requester) (frame (s.chunkBytes e.window e.next)) attempts

/-- A waiting frame is supplied again: a CENSUS built anew, a FILL when it is ready, any other exactly as built
(R82, R138). -/
def State.resupply (s : State) (f : InFlight) : State :=
  match f.source with
  | .publication => s.supply f.source f.frame f.attempts
  | .control .census => s.supply f.source { sender := s.station, body := s.controlBody .census } f.attempts
  | .control _ => s.supply f.source f.frame f.attempts
  | .service w r =>
    match s.serviceOf w r with
    | some e => if s.fillReady e then s.supplyFill e f.attempts else s
    | none => s

/-- The head record is selected and frozen, its frame built; the turn passes to SERVICE (R77, R83). -/
def State.selectPublication (s : State) (r : PubRecord) (rest : List PubRecord) : State :=
  { s with pub.queue := { r with selected := true } :: rest, sched.turn := .service }.supply .publication
    { sender := s.station, body := r.body } 0

/-- The FILL is selected; the turn passes to PUBLICATIONS (R83). -/
def State.selectFill (s : State) (e : Service) : State := { s with sched.turn := .publications }.supplyFill e 0

/-- A publication or a FILL, by the turn flag when both are ready (R83). -/
def State.selectByTurn (s : State) : State :=
  match s.pub.queue, s.refresh.service.head?.filter s.fillReady with
  | r :: rest, some e => if s.sched.turn = .publications then s.selectPublication r rest else s.selectFill e
  | r :: rest, none => s.selectPublication r rest
  | [], some e => s.selectFill e
  | [], none => s

/-- The control list head, tested before it is selected, ahead of everything else; in LEAVING only DEPART of this
station is supplied (R82, R83, R87). -/
def State.select (s : State) : State :=
  let tested := { s with sched.control := s.sched.control.dropWhile s.entryOvertaken }
  match tested.sched.control with
  | e :: _ =>
    if s.ctl.state = .leaving ∧ e ≠ .depart s.station then tested
    else tested.supply (.control e) { sender := s.station, body := s.controlBody e } 0
  | [] => if s.ctl.state = .leaving then tested else tested.selectByTurn

/-- The scheduler's answer to an opportunity, by the four cases of R82; an overtaken waiting frame is dropped, and the
next opportunity selects afresh (R87; log 11). -/
def State.atOpportunity (s : State) : State :=
  if Config.inboundLimit ≤ s.mirror.inbound.length then s
  else match s.sched.inflight with
    | some f => if s.frameOvertaken f then s.abandonWith f .overtaken else s.resupply f
    | none => s.select

end Sys2Proof.Machine
end

