-- ==== Sys2Proof/Machine/Acceptance.lean ====
section
/-! DEFINITION. Acceptance processing (R34 to R43), the verdict at the end of a window (R13, R14, R16, R18, R20, R21),
and what follows a window end. -/

namespace Sys2Proof.Machine

/-! ### The steps of acceptance -/

/-- Step 1: L is the sender; the sender's silence timer, or this station's announce timer, restarts (R14, R35). -/
def State.acceptTimers (s : State) (sender : Nat) (sent : Bool) : State :=
  let heard := { s with line.reference := some sender }
  if sender = s.station then
    if sent ∧ (s.ctl.state = .joining ∨ s.ctl.state = .active) then
      { heard with roster.announce := .running Config.announceTicks }
    else heard
  else if s.status sender = .absent then heard
  else heard.setEntry sender { status := s.status sender, timer := .running Config.lostTicks }

/-- A WRITE that passed the filter: a valid one of a mirrored window is queued with its change mark (R38, R39). -/
def State.acceptWrite (s : State) (sender w offset : Nat) (data : List Byte) : State :=
  if s.writeQueues sender w then
    s.enqueue { kind := .write (sender != s.station && (s.entry w).isWatched), window := w, offset := offset,
                data := data, withdrawn := false }
  else s

/-- Step 4: the effect of the frame's kind (R34, R38 to R42). -/
def State.acceptBody (s : State) (sender : Nat) (sent : Bool) : Body → State
  | .write w o data => s.acceptWrite sender w o data
  | .claim w => s.acceptClaim sender sent w
  | .release w _ => s.acceptRelease sender sent w
  | .presence mode sig => s.acceptPresence sender sent mode sig
  | .census sig map groups => s.acceptCensus sender sig map groups
  | .depart subject _ => s.acceptDepart subject
  | .fetch w o => s.acceptFetch sender sent w o
  | .fill w o requester data => s.acceptFill sent w o requester data

/-- The frame is a WRITE that R38 finds invalid after passing the filter (R38, R43). -/
def State.rejects (s : State) (sender : Nat) : Option Body → Bool
  | some (.write w _ _) => s.passesFilter sender false && !s.writeValid sender w
  | _ => false

/-- Steps 3 to 5: the sender filter, the effect, the overtaken frames (R34, R37). -/
def State.acceptEffect (s : State) (sender : Nat) (sent : Bool) : Option Body → State
  | some b => if s.passesFilter sender b.isPresence then (s.acceptBody sender sent b).dropOvertaken else s
  | none => s

/-- Acceptance processing of a frame (R34). -/
def State.accept (s : State) (sender : Nat) (sent : Bool) (body : Option Body) : State :=
  let timed := s.acceptTimers sender sent
  if sender = s.station ∧ ¬ sent then timed.enterIncompatible .duplicateId
  else
    let effected := timed.acceptEffect sender sent body
    if sent then effected.settle (timed.rejects sender body) else effected

/-! ### The window end -/

/-- All twenty samples of a verdict window recessive (R18). -/
def allRecessive : BitVec 20 := BitVec.allOnes 20

/-- This station's own level at the twenty bit times of the window: an objection is dominant for the first 12 of them
and then released (R17). -/
def RxFrame.ownLevels (f : RxFrame) : BitVec 20 :=
  if f.objects then allRecessive <<< Config.objectionBits else allRecessive

/-- The verdict: voided when any sample is dominant, by whoever drove it, this station included (R18, R20; log 7). -/
def RxFrame.voidedBy (f : RxFrame) (samples : BitVec 20) : Bool := samples &&& f.ownLevels != allRecessive

/-- The frame was received without check, framing or form fault (R14, R21). -/
def RxFrame.clean (f : RxFrame) : Bool := !f.framing && !f.check && !f.form

/-- IDLE-GAP begins and times the gap; the frame receiver discards the frame (R6, R8, R45). The silence count, kept in whole
ct, begins again at the end of a voided window (R16; log 43). -/
def State.beginGap (s : State) (voided : Bool) : State :=
  { s with
    line.state := .idleGap
    line.gapTiming := true
    line.count := 0
    line.silence := if voided then 0 else s.line.silence
    rx.frame := none }

/-- A voided frame: a failed attempt at its sender, the clean run ended in MUTED, and MUTED at the eighth objection
(R13, R20, R21, R157). -/
def State.windowVoided (s : State) (f : RxFrame) : State :=
  let reported := if f.sending then s.reportFailed false else s
  let counted := if s.ctl.state = .muted then { reported with rx.cleanRun := 0 } else reported
  if f.objects ∧ Config.objectionLimit ≤ s.rx.objectionRun then counted.enterMuted else counted

/-- L after a frame seen accepted by a station that does not accept: SENDER of a clean frame, else UNKNOWN (R14). -/
def State.hearReference (s : State) (f : RxFrame) : State :=
  { s with line.reference := if f.clean then some (senderOf f.chars) else none }

/-- A frame seen accepted in LISTENING, MUTED or INCOMPATIBLE: L by R14; acquisition moves LISTENING to JOINING
(R150); in MUTED the clean run is counted, and at sixteen the rejoin path is taken (R21, R158). -/
def State.overhear (s : State) (f : RxFrame) : State :=
  let heard := s.hearReference f
  match s.ctl.state with
  | .listening => if f.clean then heard.enterJoining .reference else heard
  | .muted =>
    if !f.clean then { heard with rx.cleanRun := 0 }
    else if s.rx.cleanRun + 1 < Config.cleanLimit then { heard with rx.cleanRun := s.rx.cleanRun + 1 }
    else { heard with rx.cleanRun := Config.cleanLimit }.rejoin .recovered
  | .stopped | .joining | .active | .leaving | .incompatible => heard

/-- An accepted frame: the objection run ends; a member accepts, the others overhear (R18, R20). -/
def State.windowAccepted (s : State) (f : RxFrame) : State :=
  let counted := { s with rx.objectionRun := 0 }
  if s.isMember then
    counted.accept (senderOf f.chars) f.sending ((parseFrame (f.chars.map RxChar.data)).map (·.body))
  else counted.overhear f

/-- A founding test put off by the frame is made now (R153). -/
def State.deferredFounding (s : State) : State := if s.ctl.foundingDue then s.foundingTest else s

/-- What follows the verdict: a deferred founding test, a deferred abandonment, offers, memory requests
(R79, R84, R147, R153). -/
def State.afterWindow (s : State) : State := s.deferredFounding.finishAbandon.offerDue.settleMemory

/-- The end of a verdict window (R18). -/
def State.endWindow (s : State) (f : RxFrame) (samples : BitVec 20) : State :=
  let voided := f.voidedBy samples
  let gap := s.beginGap voided
  (if voided then gap.windowVoided f else gap.windowAccepted f).afterWindow

end Sys2Proof.Machine
end

