-- ==== Sys2Proof/Machine/ResetFamily.lean ====
section
/-! DEFINITION. Meanings of PIN_RESET and RST_RELEASE (R22, R148). -/

namespace Sys2Proof.Machine

/-- What a command comes to: a next state, a fault or a refusal. -/
abbrev Answer := Host.Outcome State Fault Refusal

/-- PIN_RESET: every unit in its pin-reset state at once, RST# asserted (R22, R72, R91, R148). The commands that wait
are the sender's and stay. -/
def execPinReset (s : State) : Answer := .next { State.reset with pending := s.pending }

/-- RST_RELEASE: the straps are sampled once, and the station stays STOPPED (R22, R148). -/
def execRstRelease (id : BitVec 5) (rate : BitVec 2) (s : State) : Answer :=
  .next (if s.pins.rstAsserted then { s with pins := { rstAsserted := false, station := id.toNat, rate := rate } } else s)

end Sys2Proof.Machine
end

