-- ==== Sys2Proof/Machine/LineFamily.lean ====
section
/-! DEFINITION. The line interface (chapter 1) and the meanings of its commands. An event that cannot arise in the
present line state changes nothing (log 1). -/

namespace Sys2Proof.Machine

/-! ### Levels and slots -/

/-- The line interface follows the line: the station is not STOPPED (R6). -/
def State.follows (s : State) : Bool := s.ctl.state != .stopped

/-- The slot this station owns, (s − L − 1) mod 32, while L is known (R9). -/
def State.ownSlot (s : State) : Option Nat := s.line.reference.map fun l => (s.station + 31 - l) % Config.slots

/-- The frame this station is driving onto the line. -/
def State.drivenFrame (s : State) : Option Frame :=
  if s.line.state = .transmitting then s.sched.inflight.map (·.frame) else none

/-- This station drives the line dominant at a bit time of the present frame or verdict window: the dominant bits of
its own frame (R2), the first 12 bit times of the window of a frame it objects to (R17); never in STOPPED, LISTENING,
MUTED or INCOMPATIBLE (R1). -/
def State.drivesAt (s : State) (bit : Nat) : Bool :=
  s.isMember && (s.drivenFrame.any (·.sendsDominant bit)
    || (s.line.state == .verdict && s.rx.frame.any fun f => f.objects && bit < Config.objectionBits))

/-! ### Gap, slots, silence, stuck line -/

/-- The synchronisation condition is met (R7). -/
def State.meetSync (s : State) : State :=
  if s.follows && s.line.state == .idleGap && s.line.awaitSync then { s with line.awaitSync := false } else s

/-- SLOTTING at the start of slot 0 (R8, R16, R19). -/
def Line.beginSlots (l : Line) : Line :=
  { l with state := .slotting, awaitSync := false, gapTiming := false, count := 0, slot := 0, offered := false
           sensed := false }

/-- The gap is complete: SLOTTING if L is known, else IDLE-GAP goes on (R8). -/
def State.completeGap (s : State) : State :=
  if s.follows && s.line.state == .idleGap && s.line.gapTiming then
    { s with line := if s.line.reference.isSome then s.line.beginSlots
                     else { s.line with gapTiming := false, count := 0 } }
  else s

/-- A new cycle of slots begins with the same L (R9). -/
def State.restartCycle (s : State) : State :=
  if s.follows && s.line.state == .slotting then { s with line.slot := 0, line.offered := false } else s

/-- The silence limit: L becomes 31 and SLOTTING begins; in LISTENING the reference is acquired (R16, R150). -/
def State.reachSilence (s : State) : State :=
  if s.follows && s.line.state == .idleGap && s.line.reference.isNone then
    let slotted := { s with line := { s.line.beginSlots with reference := some Config.silentReference
                                                             silence := Config.silenceTicks } }
    if s.ctl.state = .listening then slotted.enterJoining .reference else slotted
  else s

/-- A stray dominant level: the gap, the synchronisation count, the silence count and STUCK's recessive run begin
again (R7, R8, R16, R19). In SLOTTING it is a glitch, which begins no frame, lets the slots go on and bars the
opportunities until the next gap ends (R3, R10; log 31). -/
def State.strayLevel (s : State) : State :=
  if s.follows && (s.line.state == .idleGap || s.line.state == .stuck) then
    { s with line.count := 0, line.silence := 0 }
  else if s.follows && s.line.state == .slotting then { s with line.sensed := true }
  else s

/-- The line is stuck: STUCK is entered and the clean run is 0; L, the in-flight frame and the queues are kept
(R19, R21; log 9). -/
def State.becomeStuck (s : State) : State :=
  if s.follows && s.line.state == .idleGap then
    { s with line.state := .stuck, line.gapTiming := false, line.count := 0, line.silence := 0, rx.cleanRun := 0 }
  else s

/-- The line has come free: SLOTTING with the same L, or IDLE-GAP while L is UNKNOWN (R19). -/
def State.freeLine (s : State) : State :=
  if s.follows && s.line.state == .stuck then
    { s with line := if s.line.reference.isSome then s.line.beginSlots
                     else { s.line with state := .idleGap, awaitSync := false, gapTiming := false, count := 0 } }
  else s

/-! ### Frames on the line -/

/-- Another station's frame begins to be received; the slot count is discarded (R6, R9, R45). -/
def State.beginReceiving (s : State) : State :=
  { s with
    line.state := .receiving
    line.count := 0
    line.silence := 0
    line.slot := 0
    line.offered := false
    rx.frame := some { chars := [], short := false, sending := false, framing := false, check := false, form := false,
                       objects := false } }

/-- A start bit may begin a frame: in SLOTTING, or in IDLE-GAP with L UNKNOWN, no gap being timed and the
synchronisation condition met (R6 to R9). -/
def State.takesStart (s : State) : Bool :=
  s.line.state == .slotting
    || (s.line.state == .idleGap && s.line.reference.isNone && !s.line.gapTiming && !s.line.awaitSync)

/-- A start bit is sensed, dominant at its middle: it begins a frame, or is a stray level where none may begin (R6 to R9;
log 8, log 31). -/
def State.senseStart (s : State) : State :=
  if s.follows && s.takesStart then s.beginReceiving else s.strayLevel

/-- The receiver's view of a frame this station sent to its length end: its own characters, no fault, no objection
(R13, R17, R31). -/
def InFlight.ownFrame (f : InFlight) : RxFrame :=
  { chars := f.frame.bytes.map fun b => ⟨b, false⟩, short := false, sending := true, framing := false, check := false,
    form := false, objects := false }

/-- The verdict window begins with what the receiver holds; an objection counts in the objection run (R4, R17, R20). -/
def State.beginVerdict (s : State) (f : RxFrame) : State :=
  { s with
    line.state := .verdict
    line.count := 0
    rx.frame := some f
    rx.objectionRun := if f.objects then min (s.rx.objectionRun + 1) Config.objectionLimit else s.rx.objectionRun }

/-- The frame on the line ends (R4, R6). -/
def State.endFrame (s : State) (samples : List CharSamples) : State :=
  if s.line.state = .receiving then s.beginVerdict (s.receiveFrame samples)
  else if s.line.state = .transmitting then
    match s.sched.inflight with
    | some f => s.beginVerdict f.ownFrame
    | none => s
  else s

/-- The verdict window ends (R18). -/
def State.endVerdict (s : State) (samples : BitVec 20) : State :=
  if s.line.state = .verdict then
    match s.rx.frame with
    | some f => s.endWindow f samples
    | none => s
  else s

/-! ### Transmitting -/

/-- The conditions of a transmit opportunity other than the slot itself; a cycle has one (R9, R10). -/
def State.mayTransmit (s : State) : Bool :=
  s.isMember && s.line.state == .slotting && s.line.reference.isSome && !s.line.sensed && !s.line.offered

/-- This station's slot begins and the scheduler is offered the opportunity (R10, R82). -/
def State.takeOpportunity (s : State) : State :=
  if s.mayTransmit then
    ({ s with line.slot := s.ownSlot.getD 0, line.offered := true }.atOpportunity).offerDue.settleMemory
  else s

/-- The station stops driving and goes on as a receiver of the frame on the line (R11, R12). -/
def State.withdrawFrame (s : State) : State :=
  { s with line.state := .receiving
           rx.frame := s.rx.frame.map fun f => { f with sending := false } }

/-- Arbitration can be lost at this bit time: within SENDER, sent recessive (R11). -/
def Frame.losesAt (f : Frame) (bit : Nat) : Bool := bit < 10 && f.sentRecessive bit

/-- A mismatch at this bit time is a line fault: after SENDER, or within it sent dominant (R12). -/
def Frame.faultsAt (f : Frame) (bit : Nat) : Bool :=
  bit < 10 * f.bytes.length && (10 ≤ bit || !f.sentRecessive bit)

/-- Arbitration is lost: the station withdraws and reports lost (R11, R13). -/
def State.loseArbitration (s : State) (bit : Nat) : State :=
  if s.drivenFrame.any (·.losesAt bit) then s.withdrawFrame.reportLost.offerDue.settleMemory else s

/-- A line fault: the station withdraws and reports faulted (R12, R13). -/
def State.faultLine (s : State) (bit : Nat) : State :=
  if s.drivenFrame.any (·.faultsAt bit) then (s.withdrawFrame.reportFailed true).offerDue.settleMemory else s

/-! ### The meanings -/

/-- SYNCHRONISATION_CONDITION (R7). -/
def execSynchronisationCondition (s : State) : Answer := .next s.meetSync

/-- FRAME_START (R6, R8, R9). -/
def execFrameStart (s : State) : Answer := .next s.senseStart

/-- FRAME_END (R4, R24, R28 to R32). -/
def execFrameEnd (samples : List CharSamples) (s : State) : Answer := .next (s.endFrame samples)

/-- VERDICT_WINDOW_END (R18, R34). -/
def execVerdictWindowEnd (samples : BitVec 20) (s : State) : Answer := .next (s.endVerdict samples)

/-- GAP_COMPLETE (R8). -/
def execGapComplete (s : State) : Answer := .next s.completeGap

/-- SLOT_CYCLE_RESTART (R9). -/
def execSlotCycleRestart (s : State) : Answer := .next s.restartCycle

/-- TRANSMIT_OPPORTUNITY (R10, R82, R83). -/
def execTransmitOpportunity (s : State) : Answer := .next s.takeOpportunity

/-- LOST_ARBITRATION (R11). -/
def execLostArbitration (bit : Nat) (s : State) : Answer := .next (s.loseArbitration bit)

/-- LINE_FAULT (R12). -/
def execLineFault (bit : Nat) (s : State) : Answer := .next (s.faultLine bit)

/-- SILENCE_LIMIT (R16). -/
def execSilenceLimit (s : State) : Answer := .next s.reachSilence

/-- STUCK_LINE (R19). -/
def execStuckLine (s : State) : Answer := .next s.becomeStuck

/-- STUCK_RELEASE (R19). -/
def execStuckRelease (s : State) : Answer := .next s.freeLine

/-- STRAY_DOMINANT_LEVEL (R3, R8, R10). -/
def execStrayDominantLevel (s : State) : Answer := .next s.strayLevel

end Sys2Proof.Machine
end

