-- ==== Sys2Proof/Machine/TimerFamily.lean ====
section
/-! DEFINITION. The protocol timers run out (chapters 6 to 9), and the passing of one ct on an empty queue
(log 2, log 3). A timer's command says that its instant has come, whatever the count (log 1). -/

namespace Sys2Proof.Machine

/-! ### Timers run out -/

/-- The announce timer runs out: ANNOUNCE is offered (R124). -/
def State.expireAnnounce (s : State) : State :=
  if (s.ctl.state = .joining ∨ s.ctl.state = .active) ∧ s.roster.announce.isRunning then
    { s with roster.announce := .runOut }.offerDue
  else s

/-- A peer's silence timer runs out: a DEPART of it is offered, but in LEAVING (R125). -/
def State.expireSilence (s : State) (n : Nat) : State :=
  if s.isMember && (s.silenceTimer n).isRunning then
    (s.setEntry n { status := s.status n, timer := .runOut }).offerDue
  else s

/-- A frame is on the line or a verdict window is running (R153). -/
def State.lineBusy (s : State) : Bool :=
  s.line.state == .receiving || s.line.state == .transmitting || s.line.state == .verdict

/-- The answer timer runs out: the founding test is made, or put off to the window end (R153). -/
def State.expireAnswer (s : State) : State :=
  if s.awaitsCensus && s.ctl.answer.isRunning then
    if s.lineBusy then { s with ctl.answer := .runOut, ctl.foundingDue := true }
    else s.foundingTest.offerDue.settleMemory
  else s

/-! ### One ct passes -/

/-- A timer one ct later, and whether it runs out in that ct. -/
def Timer.tick : Timer → Timer × Bool
  | .running (left + 2) => (.running (left + 1), false)
  | .running left => (.running left, true)
  | .stopped => (.stopped, false)
  | .runOut => (.runOut, false)

/-- The announce timer counts one ct (R124). -/
def State.tickAnnounce (s : State) : State :=
  if s.roster.announce.tick.2 then s.expireAnnounce
  else { s with roster.announce := s.roster.announce.tick.1 }

/-- A silence timer counts one ct in JOINING, ACTIVE and LEAVING (R125). -/
def State.tickSilence (s : State) (n : Nat) : State :=
  if !s.isMember then s
  else if (s.silenceTimer n).tick.2 then s.expireSilence n
  else s.setEntry n { status := s.status n, timer := (s.silenceTimer n).tick.1 }

/-- The answer timer counts one ct (R152). -/
def State.tickAnswer (s : State) : State :=
  if s.ctl.answer.tick.2 then s.expireAnswer else { s with ctl.answer := s.ctl.answer.tick.1 }

/-- A lease timer counts one ct (R104). -/
def State.tickLease (s : State) (w : Nat) : State :=
  match s.guardOf w with
  | none => s
  | some g =>
    if g.lease.tick.2 then s.expireLease w else s.setGuard w fun g => { g with lease := g.lease.tick.1 }

/-- A fetch timer counts one ct (R134). -/
def State.tickFetch (s : State) (w : Nat) : State :=
  if (s.copy w).timer.tick.2 then s.expireFetch w else s.setCopy w fun c => { c with timer := c.timer.tick.1 }

/-- Every protocol timer counts one ct: announce, silence by station, answer, lease and fetch by window (log 3). -/
def State.tickTimers (s : State) : State :=
  let silent := (List.range Config.stations).foldl State.tickSilence s.tickAnnounce
  let leased := (List.range Config.windows).foldl State.tickLease silent.tickAnswer
  (List.range Config.windows).foldl State.tickFetch leased

/-- One ct of recessive line in IDLE-GAP: the synchronisation condition, the gap, the silence limit (R7, R8, R16). -/
def State.tickIdle (s : State) : State :=
  let counted := { s with line.count := s.line.count + 1, line.silence := s.line.silence + 1 }.meetSync
  let gapped := if Config.gapTicks ≤ counted.line.count then counted.completeGap else counted
  if Config.silenceTicks ≤ gapped.line.silence then gapped.reachSilence else gapped

/-- One ct in SLOTTING: at the start of its own slot the station is offered its opportunity; else the slot passes, and
after 32 slots a new cycle begins (R9, R10). The first character of a frame takes the ct. -/
def State.tickSlot (s : State) : State :=
  let offered := if !s.line.offered && s.ownSlot == some s.line.slot then s.takeOpportunity else s
  if offered.line.state = .transmitting then { offered with line.count := 1 }
  else if Config.slots ≤ offered.line.slot + 1 then offered.restartCycle
  else { offered with line.slot := offered.line.slot + 1 }

/-- One character of this station's own frame; the frame ends with its last (R2, R4). -/
def State.tickFrame (s : State) : State :=
  let sent := { s with line.count := s.line.count + 1 }
  match s.sched.inflight with
  | some f => if f.frame.bytes.length ≤ sent.line.count then sent.endFrame [] else sent
  | none => sent

/-- One ct of a verdict window in which no other station drives (R18). -/
def State.tickVerdict (s : State) : State :=
  let counted := { s with line.count := s.line.count + 1, line.silence := s.line.silence + 1 }
  if Config.verdictTicks ≤ counted.line.count then counted.endVerdict allRecessive else counted

/-- One ct of recessive line in STUCK (R19). -/
def State.tickStuck (s : State) : State :=
  let counted := { s with line.count := s.line.count + 1, line.silence := s.line.silence + 1 }
  if Config.gapTicks ≤ counted.line.count then counted.freeLine else counted

/-- The line interface's part of one ct. A frame of another station goes on until FRAME_END says that it ends. -/
def State.tickLine (s : State) : State :=
  match s.line.state with
  | .idleGap => s.tickIdle
  | .slotting => s.tickSlot
  | .receiving => s
  | .transmitting => s.tickFrame
  | .verdict => s.tickVerdict
  | .stuck => s.tickStuck

/-- One ct passes in which nothing comes from outside and the line carries only what this station drives. In STOPPED
nothing is timed (R5, R6; log 2). -/
def State.tick (s : State) : State := if s.follows then s.tickTimers.tickLine else s

/-! ### The meanings -/

/-- ANNOUNCE_TIMER_EXPIRY (R124). -/
def execAnnounceTimerExpiry (s : State) : Answer := .next s.expireAnnounce

/-- SILENCE_TIMER_EXPIRY (R125). -/
def execSilenceTimerExpiry (station : Nat) (s : State) : Answer := .next (s.expireSilence station)

/-- ANSWER_TIMER_EXPIRY (R153). -/
def execAnswerTimerExpiry (s : State) : Answer := .next s.expireAnswer

/-- LEASE_EXPIRY (R105). -/
def execLeaseExpiry (window : Nat) (s : State) : Answer := .next (s.expireLease window)

/-- FETCH_TIMER_EXPIRY (R134). -/
def execFetchTimerExpiry (window : Nat) (s : State) : Answer := .next (s.expireFetch window)

end Sys2Proof.Machine
end

