-- ==== Sys2Proof/Machine/MemoryFamily.lean ====
section
/-! DEFINITION. Completion of what the memory arbiter has granted (chapter 4): applications, the zero-fill, fill reads
and snapshots. A local address above 3FFF does not exist, and a grant that would touch one faults (log 23).
A grant ends by its command only (log 15), and what it writes lands then (log 16). -/

namespace Sys2Proof.Machine

/-- `len` bytes from local address `a` lie in mirror memory (R59). -/
def inMirror (a len : Nat) : Bool := a + len ≤ Config.mirrorBytes

/-- The memory is released (R65). -/
def State.releaseMemory (s : State) : State := { s with mirror.holder := none }

/-! ### Applications (R62, R63) -/

/-- The local address of an inbound entry's first byte (R62). -/
def State.entryAddress (s : State) (e : Inbound) : Nat := (s.entry e.window).localBase + e.offset

/-- The entry's bytes are in mirror memory and the entry has left the queue (R62). -/
def State.applyEntry (s : State) (e : Inbound) (rest : List Inbound) : State :=
  { s with mirror.mem := Memory.writeBytes s.mirror.mem (s.entryAddress e) e.data, mirror.inbound := rest }

/-- The completion is handed on, unless the entry is withdrawn (R63, R64). -/
def State.reportApplied (s : State) (e : Inbound) : State :=
  if e.withdrawn then s
  else match e.kind with
    | .write mark => if mark then s.noteChange e.window else s
    | .fill => s.fillApplied e.window e.data.length

/-- APPLICATION_COMPLETE (R62, R63, R66). -/
def execApplicationComplete (s : State) : Answer :=
  match s.mirror.holder, s.mirror.inbound with
  | some .application, e :: rest =>
    if inMirror (s.entryAddress e) e.data.length then
      .next ((s.applyEntry e rest).releaseMemory.reportApplied e).settleMemory
    else .fault .noSuchMirrorAddress
  | _, _ => .next s

/-! ### The zero-fill (R70, R143) -/

/-- Every mirrored local range lies in mirror memory (R55). -/
def State.rangesFit (s : State) : Bool :=
  (mirroredWindows s.layout.table).all fun w => inMirror (s.entry w).localBase (s.entry w).bytes

/-- Some window's local range holds the local address (R52, R59). -/
def ownedLocal (table : List Entry) (a : Nat) : Bool :=
  (mirroredWindows table).any fun w => (table.getD w Entry.reset).ownsLocal a

/-- Every mirrored local range is set to 00 (R70). -/
def State.zeroRanges (s : State) : State :=
  { s with mirror.mem := Memory.keep s.mirror.mem fun a => !ownedLocal s.layout.table a }

/-- ZERO_FILL_COMPLETE; a zero-fill ended by a change of state makes no report (R70, R71, R143). -/
def execZeroFillComplete (s : State) : Answer :=
  match s.mirror.holder with
  | some (.zeroFill ended) =>
    if s.rangesFit then
      .next (if ended then s.zeroRanges.releaseMemory else s.zeroRanges.releaseMemory.zeroFilled).settleMemory
    else .fault .noSuchMirrorAddress
  | _ => .next s

/-! ### Fill reads (R69) -/

/-- The chunk is in the chunk buffer, current unless an entry for its window has come since the request (R69). -/
def State.storeChunk (s : State) (r : FillRead) : State :=
  if r.discard then s
  else { s with sched.chunk := some { window := r.window, offset := r.offset, data := s.chunkBytes r.window r.offset
                                      current := !r.spoiled } }

/-- FILL_READ_COMPLETE (R69). -/
def execFillReadComplete (s : State) : Answer :=
  match s.mirror.holder with
  | some (.fillRead r) =>
    if inMirror ((s.entry r.window).localBase + r.offset) (s.entry r.window).chunk then
      .next (s.storeChunk r).releaseMemory.settleMemory
    else .fault .noSuchMirrorAddress
  | _ => .next s

/-! ### Snapshots (R67, R68, R168) -/

/-- A burst is delivered: MARK and the data bytes follow; result and continuation address are set at MARK, and what
they were stands if CS# rises before it (R168; log 17). -/
def State.deliver (s : State) (first : Word) (data : List Byte) (result : Result) : State :=
  { s with port := { s.port with
    cmd := .burst data 0 s.port.lastResult s.port.lastDetail s.port.cont
    response := Config.markByte :: data
    lastResult := result
    lastDetail := none
    cont := first } }

/-- The burst goes to the read that asked for it; a discarded one goes nowhere (R67, R168). -/
def State.handBurst (s : State) (data : List Byte) (fresh discard : Bool) : State :=
  if discard then s
  else match s.port.cmd with
    | .reading first => s.deliver first data (if fresh then .done else .stale)
    | _ => s

/-- SNAPSHOT_DELIVERED (R67, R68, R168). -/
def execSnapshotDelivered (s : State) : Answer :=
  match s.mirror.holder with
  | some (.snapshot q fresh discard) =>
    if inMirror q.address q.length then
      .next (s.releaseMemory.handBurst (Memory.readBytes s.mirror.mem q.address q.length) fresh discard).settleMemory
    else .fault .noSuchMirrorAddress
  | _ => .next s

end Sys2Proof.Machine
end

