-- ==== Sys2Proof/Machine/PortFamily.lean ====
section
/-! DEFINITION. The local port (chapter 10): selections, STATUS, reads, writes, taking outcomes and changes, and reading
the roster, the claim queues and the table. A command byte outside a selection, or a second command in one, changes
nothing (R162; log 1). -/

namespace Sys2Proof.Machine

/-! ### Selections -/

/-- A command can be taken: CS# is low and none has been taken in this selection (R162). -/
def State.portReady (s : State) : Bool := s.port.selected && s.port.cmd == .awaiting

/-- A command is taken whose response is complete at once: result, no detail, response (R162, R164). -/
def State.answer (s : State) (result : Result) (response : List Byte) : State :=
  { s with port := { s.port with cmd := .complete, response := response, lastResult := result, lastDetail := none } }

/-- What SDO carries during one byte of the host's clock. -/
inductive Sdo where
  /-- CS# is high (R162). -/
  | highImpedance
  /-- The byte is shifted out. -/
  | byte (b : Byte)
  /-- The spec names no byte (log 37). -/
  | unnamed
  deriving DecidableEq, Repr

/-- SDO while no command is taken, at the `k`-th byte from the code byte on, whose value is `code`: the status byte, then
during the address bytes of READ the HOLD byte; the spec names none for other parameters (R163, R168; log 37). -/
def State.sdoBeforeTaken (s : State) (code : Byte) (k : Nat) : Sdo :=
  if k = 0 then .byte s.port.statusByte
  else if code = 0x02 then .byte Config.holdByte
  else .unnamed

/-- SDO at the `k`-th byte of the selection's present phase: before the command is taken, from the code byte `code` on;
after it, HOLD before a burst is delivered, 00 during a write, otherwise the response and then FF (R162, R163, R168,
R169; log 28). With no selection open, high impedance, also where RST# ended one and CS# is still low (log 37). -/
def State.sdoByte (s : State) (code : Byte) (k : Nat) : Sdo :=
  if !s.port.selected then .highImpedance
  else match s.port.cmd with
    | .awaiting => s.sdoBeforeTaken code k
    | .reading _ => .byte Config.holdByte
    | .writing => .byte 0x00
    | .refusedWrite => .byte 0x00
    | .complete | .burst _ _ _ _ _ | .outcomeLatched | .changesLatched _ =>
      .byte (s.port.response.getD k Config.idleByte)

/-- CS# falls: a selection begins and the status byte is latched (R162, R163). -/
def State.openSelection (s : State) : State :=
  if !s.pins.rstAsserted && !s.port.selected then
    { s with port := { s.port with selected := true, statusByte := s.statusByteNow, cmd := .awaiting, response := [] } }
  else s

/-- The end of a read before delivery: a waiting snapshot is withdrawn, a granted one is to be discarded (R67, R168). -/
def State.dropSnapshot (s : State) : State :=
  { s with mirror.snapReq := none
           mirror.holder := match s.mirror.holder with
             | some (.snapshot q fresh _) => some (.snapshot q fresh true)
             | h => h }

/-- Windows of a cut TAKE CHANGES go back ahead of later entries, each once (R173). -/
def State.putBackChanges (s : State) (windows : List Nat) : State :=
  { s with report.changes := windows ++ s.report.changes.filter fun w => !windows.contains w }

/-- What the rise of CS# does to the command in progress, `shifted` bytes of its response being out (R162, R168,
R173). -/
def State.cutCommand (s : State) (shifted : Nat) : State :=
  match s.port.cmd with
  | .reading _ => s.dropSnapshot
  | .burst _ out result detail cont =>
    if out = 0 ∧ shifted = 0 then
      { s with port := { s.port with lastResult := result, lastDetail := detail, cont := cont } }
    else s
  | .changesLatched windows => s.putBackChanges (windows.drop (shifted - 1))
  | .awaiting | .complete | .writing | .refusedWrite | .outcomeLatched => s

/-- CS# is high: no selection, no command (R162). -/
def State.closePort (s : State) : State :=
  { s with port := { s.port with selected := false, cmd := .awaiting, response := [] } }

/-- SELECTION_START (R162, R163). -/
def execSelectionStart (s : State) : Answer := .next s.openSelection

/-- SELECTION_END (R66, R67, R162, R168, R173). -/
def execSelectionEnd (shifted : Nat) (s : State) : Answer :=
  .next (if s.port.selected then (s.cutCommand shifted).closePort.arbitrate else s)

/-- ILLEGAL_CODE: the last result is ILLEGAL, the rest of the selection is answered with FF (R162; log 10). -/
def execIllegalCode (code : Byte) (s : State) : Answer :=
  .next (if s.portReady && !portCodes.contains code then s.answer .illegal [] else s)

/-- STATUS: the response is latched, the overflow flag cleared in the same step; result and detail stay (R164, R167;
log 19). -/
def execStatus (s : State) : Answer :=
  .next (if s.portReady then
      { s with port := { s.port with cmd := .complete, response := s.statusResponse }, report.overflow := false }
    else s)

/-! ### READ and READ ON (R168) -/

/-- A burst in a mirrored window waits for its snapshot (R67, R168). -/
def State.requestSnapshot (s : State) (first : Word) (w o : Nat) : State :=
  { s with
    port := { s.port with cmd := .reading first, response := [] }
    mirror.snapReq := some { window := w, address := (s.entry w).localBase + o, length := s.burstLength first.toNat,
                             passes := 0 } }.arbitrate

/-- A read taken at its first address: a snapshot of a mirrored window, else 00 bytes with UNMAPPED (R168). -/
def State.beginRead (s : State) (first : Word) : State :=
  match s.decode first.toNat with
  | some (w, o) =>
    if (s.entry w).isMirrored then s.requestSnapshot first w o
    else s.deliver first (List.replicate (s.burstLength first.toNat) 0x00) .unmapped
  | none => s.deliver first (List.replicate (s.burstLength first.toNat) 0x00) .unmapped

/-- READ (R168). -/
def execRead (address : Word) (s : State) : Answer := .next (if s.portReady then s.beginRead address else s)

/-- READ ON (R165, R168). -/
def execReadOn (s : State) : Answer := .next (if s.portReady then s.beginRead s.port.cont else s)

/-- One data byte of the burst is out: the continuation address advances (R165, R168). -/
def State.byteOut (s : State) : State :=
  match s.port.cmd with
  | .burst data out result detail cont =>
    if out < data.length then
      { s with port := { s.port with cmd := .burst data (out + 1) result detail cont, cont := s.port.cont + 1 } }
    else s
  | _ => s

/-- READ_DATA_BYTE_OUT (R165, R168). -/
def execReadDataByteOut (s : State) : Answer := .next s.byteOut

/-! ### WRITE and WRITE ON (R169) -/

/-- A write command is taken: DONE, and its data bytes go to the continuation address (R169). -/
def State.beginWrite (s : State) (first : Word) : State :=
  { s with port := { s.port with cmd := .writing, response := [], cont := first, lastResult := .done, lastDetail := none } }

/-- WRITE (R169). -/
def execWrite (address : Word) (s : State) : Answer := .next (if s.portReady then s.beginWrite address else s)

/-- WRITE ON (R169). -/
def execWriteOn (s : State) : Answer := .next (if s.portReady then s.beginWrite s.port.cont else s)

/-- A byte is refused: the result is its code, the address stays, later bytes are dropped (R169). -/
def State.refuseByte (s : State) (result : Result) : State :=
  { s with port := { s.port with cmd := .refusedWrite, lastResult := result, lastDetail := none } }

/-- The continuation address advances by one (R165, R169). -/
def State.advanceCont (s : State) : State := { s with port.cont := s.port.cont + 1 }

/-- A data byte of an open write, tested in the order of R169: verdict, station state, placement. That order stands in
every station state: a byte of a GUARDED window after the station was muted is DENIED, where R176 speaks of NOT_ACTIVE
(the model's reading, log 42). -/
def State.writeByte (s : State) (b : Byte) : State :=
  match s.writeVerdict s.port.cont.toNat with
  | .unmapped => s.refuseByte .unmapped
  | .denied => s.refuseByte .denied
  | .permitted w o =>
    if !s.isActive then s.refuseByte .notActive
    else match s.placeByte w o b with
      | some placed => placed.advanceCont
      | none => s.refuseByte .full

/-- WRITE_DATA_BYTE; after a refused byte the later ones are dropped untested (R169). -/
def execWriteDataByte (data : Byte) (s : State) : Answer :=
  .next (if s.port.selected && s.port.cmd == .writing then s.writeByte data else s)

/-! ### Taking outcomes and changes (R172, R173) -/

/-- The head record is latched, or NONE (R172). -/
def State.latchOutcome (s : State) : State :=
  match s.report.outcomes.head? with
  | some o => { s.answer .done o.bytes with port.cmd := .outcomeLatched }
  | none => s.answer .done noRecordBytes

/-- TAKE OUTCOME (R172). -/
def execTakeOutcome (s : State) : Answer := .next (if s.portReady then s.latchOutcome else s)

/-- The latched record leaves the head of the queue (R172, R177). -/
def State.removeOutcome (s : State) : State :=
  { s with report.outcomes := s.report.outcomes.tail, port.cmd := .complete }

/-- OUTCOME_REMOVAL (R172). -/
def execOutcomeRemoval (s : State) : Answer :=
  .next (if s.port.cmd = .outcomeLatched then s.removeOutcome else s)

/-- The change set is latched and emptied (R173). -/
def State.latchChanges (s : State) : State :=
  { s.answer .done (changesResponse s.report.changes) with
    port.cmd := .changesLatched s.report.changes
    report.changes := [] }

/-- TAKE CHANGES (R173). -/
def execTakeChanges (s : State) : Answer := .next (if s.portReady then s.latchChanges else s)

/-! ### Reading the roster, the queues and the table (R174) -/

/-- READ ROSTER (R174). -/
def execReadRoster (s : State) : Answer := .next (if s.portReady then s.answer .done s.rosterResponse else s)

/-- The claim queue of an enabled GUARDED window, or a count of 0 with NOT_GUARDED (R174). -/
def State.showQueue (s : State) (w : Nat) : State :=
  if s.namesGuarded w then s.answer .done (queueResponse (s.claimQueue w)) else s.answer .notGuarded [0x00]

/-- READ QUEUE (R174). -/
def execReadQueue (window : Byte) (s : State) : Answer := .next (if s.portReady then s.showQueue window.toNat else s)

/-- The fields of the entry, or eight bytes 00 with ILLEGAL for an index above 15 (R174, R189). -/
def State.showEntry (s : State) (index : Nat) : State :=
  if index < Config.windows then s.answer .done (s.entry index).portBytes
  else s.answer .illegal (List.replicate 8 0x00)

/-- READ ENTRY (R47, R174). -/
def execReadEntry (index : Byte) (s : State) : Answer := .next (if s.portReady then s.showEntry index.toNat else s)

end Sys2Proof.Machine
end

