-- ==== Sys2Proof/Machine/HostFamily.lean ====
section
/-! DEFINITION. The host's commands that change the station: CLAIM, RELEASE, REFETCH, LOAD ENTRY, START and LEAVE
(chapters 3, 6, 8, 9 and 10). -/

namespace Sys2Proof.Machine

/-- The command's result is its one response byte (R164, R170, R171, R175). -/
def State.answerResult (s : State) (result : Result) : State := s.answer result [byteOf result.code]

/-! ### CLAIM, RELEASE, REFETCH -/

/-- CLAIM (R107, R170). -/
def execClaim (window : Byte) (s : State) : Answer :=
  .next (if s.portReady then
      ((s.hostClaim window.toNat).1.answerResult (s.hostClaim window.toNat).2).settleMemory
    else s)

/-- RELEASE (R108, R170). -/
def execRelease (window : Byte) (s : State) : Answer :=
  .next (if s.portReady then
      ((s.hostRelease window.toNat).1.answerResult (s.hostRelease window.toNat).2).settleMemory
    else s)

/-- REFETCH (R142, R171). -/
def execRefetch (window : Byte) (s : State) : Answer :=
  .next (if s.portReady then
      ((s.hostRefetch window.toNat).1.answerResult (s.hostRefetch window.toNat).2).settleMemory
    else s)

/-! ### LOAD ENTRY (R47, R175) -/

/-- A grant left over from the run that ended completes without report, before the table it was made under changes
(R64, R71; log 18). A discarded snapshot does not touch the table and goes on. -/
def State.finishWithdrawn (s : State) : State :=
  match s.mirror.holder, s.mirror.inbound with
  | some .application, e :: rest => (s.applyEntry e rest).releaseMemory
  | some .application, [] => s.releaseMemory
  | some (.zeroFill _), _ => s.zeroRanges.releaseMemory
  | some (.fillRead _), _ => s.releaseMemory
  | some (.snapshot _ _ _), _ => s
  | none, _ => s

/-- A loaded window leaves the change set unless its new entry is watched (R181). -/
def State.keepIfWatched (s : State) (w : Nat) : State :=
  { s with report.changes := if (s.entry w).isWatched then s.report.changes else s.report.changes.filter (· != w) }

/-- The fields replace the entry whole (R47, R175, R181). -/
def State.setTableEntry (s : State) (index : Nat) (e : Entry) : State :=
  { s.finishWithdrawn with layout.table := s.layout.table.set index e }.keepIfWatched index

/-- LOAD ENTRY's first result that applies, and its effect (R47, R166, R175). -/
def State.hostLoad (s : State) (index : Nat) (loaded : Option Entry) : State × Result :=
  if s.ctl.state ≠ .stopped then (s, .wrongState)
  else if Config.windows ≤ index then (s, .illegal)
  else match loaded with
    | some e => (s.setTableEntry index e, .done)
    | none => (s, .illegal)

/-- LOAD ENTRY (R47, R175, R189). -/
def execLoadEntry (index flags policy : Byte) (base : Word) (size owner lease loc : Byte) (s : State) : Answer :=
  .next (if s.portReady then
      ((s.hostLoad index.toNat (Entry.ofPortBytes flags policy base size owner lease loc)).1.answerResult
        (s.hostLoad index.toNat (Entry.ofPortBytes flags policy base size owner lease loc)).2).arbitrate
    else s)

/-! ### START (R55, R56, R149) -/

/-- The memory and the inbound queue at START: bytes outside the new local ranges are 00 (R56, R59, R71). -/
def State.startMemory (s : State) : State :=
  { s.finishWithdrawn with
    mirror.mem := Memory.keep s.finishWithdrawn.mirror.mem (ownedLocal s.layout.table)
    mirror.inbound := []
    mirror.zeroPending := false }

/-- The line interface begins to follow the line under the synchronisation condition, L UNKNOWN, the silence count at
0; both run counters are 0 (R7, R20 to R22, R149). -/
def State.startLine (s : State) : State :=
  { s with line := { Line.reset with awaitSync := true }
           rx := { frame := none, objectionRun := 0, cleanRun := 0 } }

/-- The signature and the guard positions are those of the validated table; the change set keeps the watched windows
(R54, R57, R181). -/
def State.startTable (s : State) : State :=
  { s with
    layout.signature := signatureOf s.layout.table
    claims := freshGuards s.layout.table
    report.changes := s.report.changes.filter fun w => (s.entry w).isWatched }

/-- START of a sound table, in one step (R56, R91, R129, R144, R149). -/
def State.startStation (s : State) : State :=
  let empty := s.startMemory.startLine.startTable.clearControl.resetTurn.clearService.clearCopies.clearRoster
  { empty with pub.queue := [] }.moveTo .listening .start

/-- START's three response bytes: the result and the two detail bytes; both are kept as last result and last detail
(R164, R175). -/
def State.answerStart (s : State) (result : Result) (detail : Option TableFault) : State :=
  { s.answer result (byteOf result.code :: detailBytes detail) with port.lastDetail := detail }

/-- START's first result that applies, and its effect (R149, R166). -/
def State.hostStart (s : State) : State :=
  if s.ctl.state ≠ .stopped then s.answerStart .wrongState none
  else match validate s.layout.table with
    | some fault => s.answerStart .tableError (some fault)
    | none => s.startStation.answerStart .done none

/-- START (R149, R175). -/
def execStart (s : State) : Answer := .next (if s.portReady then s.hostStart.arbitrate else s)

/-! ### LEAVE (R160) -/

/-- LEAVE by the station state (R160). -/
def State.hostLeave (s : State) : State × Result :=
  match s.ctl.state with
  | .stopped => (s, .wrongState)
  | .listening | .muted | .incompatible => (s.stop .leave, .done)
  | .joining | .active => (s.leaveGroup, .done)
  | .leaving => (s, .redundant)

/-- LEAVE (R160, R175). It sets the last result and detail as its own result, also where it changes the station state
(R164, R175; R176 lists LEAVE among the changes that keep them: log 35). -/
def execLeave (s : State) : Answer :=
  .next (if s.portReady then (s.hostLeave.1.answerResult s.hostLeave.2).settleMemory else s)

end Sys2Proof.Machine
end

