-- ==== Sys2Proof/Machine/Dispatch.lean ====
section
/-! DEFINITION. One arm a command: a direct call of its meaning. -/

namespace Sys2Proof.Machine

def exec (i : Instr) (s : State) : Host.Outcome State Fault Refusal :=
  match i with
  | .pinReset => Sys2Proof.Machine.execPinReset s
  | .rstRelease id rate => Sys2Proof.Machine.execRstRelease id rate s
  | .synchronisationCondition => Sys2Proof.Machine.execSynchronisationCondition s
  | .frameStart => Sys2Proof.Machine.execFrameStart s
  | .frameEnd samples => Sys2Proof.Machine.execFrameEnd samples s
  | .verdictWindowEnd samples => Sys2Proof.Machine.execVerdictWindowEnd samples s
  | .gapComplete => Sys2Proof.Machine.execGapComplete s
  | .slotCycleRestart => Sys2Proof.Machine.execSlotCycleRestart s
  | .transmitOpportunity => Sys2Proof.Machine.execTransmitOpportunity s
  | .lostArbitration bit => Sys2Proof.Machine.execLostArbitration bit s
  | .lineFault bit => Sys2Proof.Machine.execLineFault bit s
  | .silenceLimit => Sys2Proof.Machine.execSilenceLimit s
  | .stuckLine => Sys2Proof.Machine.execStuckLine s
  | .stuckRelease => Sys2Proof.Machine.execStuckRelease s
  | .announceTimerExpiry => Sys2Proof.Machine.execAnnounceTimerExpiry s
  | .silenceTimerExpiry station => Sys2Proof.Machine.execSilenceTimerExpiry station s
  | .answerTimerExpiry => Sys2Proof.Machine.execAnswerTimerExpiry s
  | .leaseExpiry window => Sys2Proof.Machine.execLeaseExpiry window s
  | .fetchTimerExpiry window => Sys2Proof.Machine.execFetchTimerExpiry window s
  | .applicationComplete => Sys2Proof.Machine.execApplicationComplete s
  | .zeroFillComplete => Sys2Proof.Machine.execZeroFillComplete s
  | .fillReadComplete => Sys2Proof.Machine.execFillReadComplete s
  | .snapshotDelivered => Sys2Proof.Machine.execSnapshotDelivered s
  | .selectionStart => Sys2Proof.Machine.execSelectionStart s
  | .selectionEnd shifted => Sys2Proof.Machine.execSelectionEnd shifted s
  | .illegalCode code => Sys2Proof.Machine.execIllegalCode code s
  | .status => Sys2Proof.Machine.execStatus s
  | .read address => Sys2Proof.Machine.execRead address s
  | .readOn => Sys2Proof.Machine.execReadOn s
  | .readDataByteOut => Sys2Proof.Machine.execReadDataByteOut s
  | .write address => Sys2Proof.Machine.execWrite address s
  | .writeOn => Sys2Proof.Machine.execWriteOn s
  | .writeDataByte data => Sys2Proof.Machine.execWriteDataByte data s
  | .claim window => Sys2Proof.Machine.execClaim window s
  | .release window => Sys2Proof.Machine.execRelease window s
  | .takeOutcome => Sys2Proof.Machine.execTakeOutcome s
  | .outcomeRemoval => Sys2Proof.Machine.execOutcomeRemoval s
  | .takeChanges => Sys2Proof.Machine.execTakeChanges s
  | .readRoster => Sys2Proof.Machine.execReadRoster s
  | .readQueue window => Sys2Proof.Machine.execReadQueue window s
  | .refetch window => Sys2Proof.Machine.execRefetch window s
  | .loadEntry index flags policy base size owner lease loc => Sys2Proof.Machine.execLoadEntry index flags policy base size owner lease loc s
  | .readEntry index => Sys2Proof.Machine.execReadEntry index s
  | .start => Sys2Proof.Machine.execStart s
  | .leave => Sys2Proof.Machine.execLeave s
  | .strayDominantLevel => Sys2Proof.Machine.execStrayDominantLevel s

end Sys2Proof.Machine
end

