-- ==== Sys2Proof/Safety.lean ====
section
/-! DEFINITION. What statements about the whole machine rest on: frames a station may build, and the sound states, in
which every collection keeps the limits the spec gives it. -/

namespace Sys2Proof.Machine

/-! ### Frames -/

/-- Fields within the limits R25 to R28 and R30 set for the kind. -/
def Body.fits (sender : Nat) : Body → Prop
  | .write w o data => w < Config.windows ∧ o < 65536 ∧ 1 ≤ data.length ∧ data.length ≤ Config.writeDataLimit
  | .claim w => w < Config.windows
  | .release w _ => w < Config.windows
  | .presence _ _ => True
  | .census _ map groups =>
    map.length = Config.stations ∧ map.getD sender .absent = .active ∧ groups.length ≤ Config.guardLimit
      ∧ ∀ g ∈ groups, groupSound map g = true
  | .depart subject .silent => subject < Config.stations ∧ subject ≠ sender
  | .depart subject .leaving => subject = sender
  | .fetch w o => w < Config.windows ∧ o < 65536 ∧ o % 64 = 0
  | .fill w o requester data =>
    w < Config.windows ∧ o < 65536 ∧ o % 64 = 0 ∧ requester < Config.stations ∧ requester ≠ sender
      ∧ (data.length = 64 ∨ data.length = 128)

/-- A frame whose fields keep the first-tier limits (R28). -/
def Frame.fits (f : Frame) : Prop := f.sender < Config.stations ∧ f.body.fits f.sender

/-! ### Sound states -/

/-- The inbound queue holds at most 4 entries, the memory is in canonical form, and a snapshot waits through at most 4
passes (R60, R66). -/
structure Mirror.Sound (m : Mirror) : Prop where
  mem : Memory.wf m.mem
  inbound : m.inbound.length ≤ Config.inboundLimit
  passes : ∀ q, m.snapReq = some q → q.passes ≤ Config.passLimit

/-- The control list holds at most 8 entries, none twice, and the in-flight frame has at most 16 failed attempts (R78,
R81). -/
structure Scheduler.Sound (c : Scheduler) : Prop where
  control : c.control.length ≤ Config.controlLimit
  distinct : c.control.Nodup
  attempts : ∀ f, c.inflight = some f → f.attempts ≤ Config.attemptLimit

/-- The claim queue holds at most 8 station numbers, none twice (R93). -/
structure Guard.Sound (g : Guard) : Prop where
  queue : g.queue.length ≤ Config.claimQueueLimit
  distinct : g.queue.Nodup

/-- The outcome queue holds at most 16 records, the change set no window twice (R177, R181). -/
structure Report.Sound (r : Report) : Prop where
  outcomes : r.outcomes.length ≤ Config.outcomeLimit
  changes : r.changes.Nodup

/-- The state keeps every limit the spec sets: capacities, no repetitions, run counters (R20, R21, R60, R66, R74, R78,
R81, R93, R136, R177, R181), one entry a window, a station and a guard position (R46, R54, R114, R131), one service entry a
window and requester (R136), holds only in ACTIVE (R103), census pending exactly in JOINING (R146). -/
structure State.Sound (s : State) : Prop where
  mirror : s.mirror.Sound
  sched : s.sched.Sound
  report : s.report.Sound
  pubs : s.pub.queue.length ≤ Config.publicationLimit
  guards : ∀ g ∈ s.claims, g.Sound
  guardCount : s.claims.length ≤ Config.guardLimit
  positions : (s.claims.map (·.window)).Nodup
  holds : s.ctl.state ≠ .active → ∀ g ∈ s.claims, g.hold = .unheld
  census : s.ctl.censusPending = decide (s.ctl.state = StationState.joining)
  service : s.refresh.service.length ≤ Config.serviceLimit
  served : (s.refresh.service.map fun e => (e.window, e.requester)).Nodup
  objections : s.rx.objectionRun ≤ Config.objectionLimit
  clean : s.rx.cleanRun ≤ Config.cleanLimit
  table : s.layout.table.length = Config.windows
  roster : s.roster.entries.length = Config.stations
  copies : s.refresh.copies.length = Config.windows
  latched : ∀ windows, s.port.cmd = .changesLatched windows → windows.Nodup

/-! ### Limits spelled out -/

/-- The second-tier limits of a body, against the common part of the table (R29). -/
def State.InSecondTier (s : State) : Body → Prop
  | .write w o data => (s.entry w).enabled = true ∧ o + data.length ≤ 64 * 2 ^ (s.entry w).size
  | .claim w => (s.entry w).enabled = true ∧ (s.entry w).policy = .guarded
  | .release w _ => (s.entry w).enabled = true ∧ (s.entry w).policy = .guarded
  | .fetch w o => (s.entry w).enabled = true ∧ o < 64 * 2 ^ (s.entry w).size
  | .fill w o _ data => (s.entry w).enabled = true ∧ o + data.length ≤ 64 * 2 ^ (s.entry w).size
      ∧ data.length = if (s.entry w).size = 0 then 64 else 128
  | .presence _ _ | .census _ _ _ | .depart _ _ => True

/-- A frame within the first tier breaks a limit that needs this station's table: the second tier for a sender held
JOINED or ACTIVE (R29), the number of groups of a census of this signature for any but a FOREIGN one (R30). -/
def State.BreaksLayout (s : State) (f : Frame) : Prop :=
  s.isMember = true ∧
    (((s.status f.sender = .joined ∨ s.status f.sender = .active) ∧ ¬ s.InSecondTier f.body)
      ∨ (s.status f.sender ≠ .foreign ∧ ∃ map groups, f.body = .census s.layout.signature map groups
          ∧ groups.length ≠ ((List.range 16).filter fun w =>
              (s.entry w).enabled && (s.entry w).policy == .guarded).length))

/-- A body that would be queued here: a WRITE that R38 finds valid in a mirrored window, or a FILL whose chunk R140
takes. -/
def State.Queues (s : State) (sender : Nat) : Body → Prop
  | .write w _ _ => (s.entry w).enabled = true ∧ (s.entry w).mirrored = true
      ∧ ((s.entry w).policy = .shared ∨ ((s.entry w).policy = .owned ∧ (s.entry w).owner = some sender)
        ∨ ((s.entry w).policy = .guarded ∧ (s.claimQueue w).head? = some sender))
  | .fill w o _ _ => (s.entry w).enabled = true ∧ (s.entry w).mirrored = true ∧ (s.copy w).fresh = false
      ∧ (s.copy w).accepted = o
  | .claim _ | .release _ _ | .presence _ _ | .census _ _ _ | .depart _ _ | .fetch _ _ => False

/-- Acceptance of the frame would put an entry into the inbound queue: its body would be queued, it comes from another
station held JOINED or ACTIVE, and no census is awaited (R32, R39, R140). -/
def State.NeedsPlace (s : State) (f : Frame) : Prop :=
  f.sender ≠ s.station ∧ (s.status f.sender = .joined ∨ s.status f.sender = .active)
    ∧ ¬ (s.ctl.state = .joining ∧ s.ctl.censusPending = true) ∧ s.Queues f.sender f.body

/-! ### Holds and claim queues -/

/-- The in-flight frame is this station's; as a publication it is the frame of the selected head record, and no other
source sends a CLAIM (R74, R77, R78, R81). -/
structure State.Carries (s : State) (g : InFlight) : Prop where
  sender : g.frame.sender = s.station
  record : g.source = .publication → ∃ r rest, s.pub.queue = r :: rest ∧ r.selected = true ∧ g.frame.body = r.body
  others : g.source ≠ .publication → ∀ w, g.frame.body ≠ .claim w

/-- In ACTIVE the hold is HELD or EXPIRING exactly where this station is the head of the claim queue (R103), with what
keeps it so: nothing leaves STOPPED while RST# is asserted (R148, R162); a founding test waits in JOINING only (R153); this
station is in no queue before it is ACTIVE (R113), and has publications only in ACTIVE and LEAVING (R74, R90); out of
STOPPED, at most one CLAIM record a window is queued, of a GUARDED one, and this station is not in the queue of the window of
one not yet selected (R107, R108). -/
structure State.HoldsAgree (s : State) : Prop where
  reset : s.pins.rstAsserted = true → s.ctl.state = .stopped ∧ s.port.selected = false
  number : s.station < Config.stations
  founding : s.ctl.foundingDue = true → s.ctl.state = .joining
  heads : s.ctl.state = .active → ∀ g ∈ s.claims,
    (g.hold = .held ∨ g.hold = .expiring ↔ g.queue.head? = some s.station)
  outside : s.ctl.state = .listening ∨ s.ctl.state = .joining → ∀ g ∈ s.claims, s.station ∉ g.queue
  quiet : s.ctl.state ≠ .stopped → s.ctl.state ≠ .active → s.ctl.state ≠ .leaving → s.pub.queue = []
  claims : s.ctl.state ≠ .stopped → ((s.pub.queue.filter (·.kind == .claim)).map (·.window)).Nodup
  windows : s.ctl.state ≠ .stopped → ∀ r ∈ s.pub.queue, r.kind = .claim → r.window < Config.windows
  unsent : s.ctl.state ≠ .stopped → ∀ r ∈ s.pub.queue, r.kind = .claim → r.selected = false →
    ∀ g ∈ s.claims, g.window = r.window → s.station ∉ g.queue
  inflight : s.ctl.state ≠ .stopped → ∀ g, s.sched.inflight = some g → s.Carries g

/-- The frame on the line is the in-flight frame: nothing is on the line in STOPPED (R6), the frame that this station sends
is marked on the line (R81), and the receiver holds it as sent until the verdict (R45). -/
structure State.LineAgrees (s : State) : Prop where
  halted : s.ctl.state = .stopped → s.line.state = .idleGap
  driving : s.line.state = .transmitting → ∀ g, s.sched.inflight = some g → g.onLine = true
  sent : s.line.state = .verdict → ∀ f, s.rx.frame = some f → f.sending = true →
    ∃ g, s.sched.inflight = some g ∧ g.onLine = true ∧ f = g.ownFrame

/-! ### Fill points -/

/-- The bytes of the FILL entries for a window that stand in the inbound queue and are not withdrawn (R131). -/
def State.liveFill (s : State) (w : Nat) : Nat :=
  ((s.mirror.inbound.filter fun e => e.isFill && !e.withdrawn && e.window == w).map (·.data.length)).sum

/-- No FILL that is not withdrawn stands in the inbound queue while a founding zero-fill is pending or under way: R143 says
that no station of the group can have sent one. -/
def State.Spared (s : State) : Prop :=
  s.mirror.zeroPending = true ∨ s.mirror.holder = some (.zeroFill false) → ∀ w, s.liveFill w = 0

/-- Out of STOPPED, a mirrored window's accepted fill point is a multiple of 64, ahead of the applied one by the live FILL
entries of its window, within the window size, and the copy is FRESH exactly where the applied one is the window size
(R131), with what keeps it so: no FILL is taken before ACTIVE (R140, R144), service entries and FILLs in flight are of FRESH
copies (R136, R138). -/
structure State.PointsAgree (s : State) : Prop where
  accepted : s.ctl.state ≠ .stopped → ∀ w, (s.entry w).isMirrored = true →
    (s.copy w).accepted = (s.copy w).applied + s.liveFill w
  limit : s.ctl.state ≠ .stopped → ∀ w, (s.entry w).isMirrored = true →
    (s.copy w).accepted ≤ (s.entry w).bytes ∧ (s.copy w).accepted % 64 = 0
  fresh : s.ctl.state ≠ .stopped → ∀ w, (s.entry w).isMirrored = true →
    ((s.copy w).fresh = true ↔ (s.copy w).applied = (s.entry w).bytes)
  idle : s.ctl.state ≠ .stopped → s.ctl.state ≠ .active → s.ctl.state ≠ .leaving → ∀ w, s.liveFill w = 0
  served : s.ctl.state ≠ .stopped → ∀ e ∈ s.refresh.service,
    (s.entry e.window).isMirrored = true ∧ (s.copy e.window).fresh = true
  flight : s.ctl.state ≠ .stopped → ∀ g, s.sched.inflight = some g → ∀ w o r data, g.frame.body = .fill w o r data →
    (s.entry w).isMirrored = true ∧ (s.copy w).fresh = true

/-- In the verdict window of a frame that this member received and did not object to, the frame is within the second tier
if its sender is held JOINED or ACTIVE (R29, R31). -/
def State.HeardAgrees (s : State) : Prop :=
  s.line.state = .verdict → ∀ f, s.rx.frame = some f → f.sending = false → f.objects = false → s.isMember = true →
    ∀ p, parseFrame (f.chars.map RxChar.data) = some p →
      s.status p.sender = .joined ∨ s.status p.sender = .active → s.InSecondTier p.body

/-! ### START's validation -/

/-- Entry `i` of the table fails the test (R55). -/
def FailsTest (table : List Entry) (i : Nat) : TableTest → Prop
  | .noWindow => False
  | .alignment => ¬ 64 * 2 ^ (table.getD i Entry.reset).size ∣ (table.getD i Entry.reset).base.toNat
  | .noOwner => (table.getD i Entry.reset).policy = .owned ∧ (table.getD i Entry.reset).owner = none
  | .leasePolicy => (table.getD i Entry.reset).lease ≠ 0 ∧ (table.getD i Entry.reset).policy ≠ .guarded
  | .watchUnmirrored => (table.getD i Entry.reset).watched = true ∧ (table.getD i Entry.reset).mirrored = false
  | .localRange => (table.getD i Entry.reset).mirrored = true
      ∧ 16384 < (table.getD i Entry.reset).loc.toNat * 64 + 64 * 2 ^ (table.getD i Entry.reset).size
  | .localOverlap => (table.getD i Entry.reset).mirrored = true ∧ ∃ j, j < i
      ∧ (table.getD j Entry.reset).enabled = true ∧ (table.getD j Entry.reset).mirrored = true
      ∧ ∃ a, (∀ k, k = i ∨ k = j → (table.getD k Entry.reset).loc.toNat * 64 ≤ a
          ∧ a < (table.getD k Entry.reset).loc.toNat * 64 + 64 * 2 ^ (table.getD k Entry.reset).size)
  | .tooManyGuarded => (table.getD i Entry.reset).policy = .guarded ∧ ((List.range i).filter fun j =>
      (table.getD j Entry.reset).enabled && (table.getD j Entry.reset).policy == .guarded).length = 4

/-- The table passes validation: an entry is enabled, and none that is fails a test (R55). -/
def PassesValidation (table : List Entry) : Prop :=
  (∃ i, i < 16 ∧ (table.getD i Entry.reset).enabled = true)
    ∧ ∀ i, i < 16 → (table.getD i Entry.reset).enabled = true → ∀ test, ¬ FailsTest table i test

/-- Validation ends with this detail: NO_WINDOW and no entry when none is enabled, else the lowest-indexed enabled entry
at which a test fails, and of its failing tests the first in the order of R55. -/
def FirstFailure (table : List Entry) (d : TableFault) : Prop :=
  (d = { test := .noWindow, entry := none } ∧ ∀ i, i < 16 → (table.getD i Entry.reset).enabled = false)
    ∨ ∃ i, i < 16 ∧ d.entry = some i ∧ (table.getD i Entry.reset).enabled = true ∧ FailsTest table i d.test
        ∧ (∀ test, test.code < d.test.code → ¬ FailsTest table i test)
        ∧ ∀ j, j < i → (table.getD j Entry.reset).enabled = true → ∀ test, ¬ FailsTest table j test

/-- The 112 bytes the layout signature is computed over, seven an entry in index order (R57). -/
def signatureBytes112 (table : List Entry) : List Byte :=
  (List.range 16).flatMap fun i =>
    let e := table.getD i Entry.reset
    if e.enabled then
      [BitVec.ofNat 8 i,
        match e.policy with
          | .owned => 0x01
          | .shared => 0x02
          | .guarded => 0x03,
        BitVec.ofNat 8 (e.base.toNat / 256), BitVec.ofNat 8 e.base.toNat, BitVec.ofNat 8 e.size,
        match e.policy, e.owner with
          | .owned, some n => BitVec.ofNat 8 n
          | _, _ => 0xFF,
        if e.policy = .guarded then e.lease else 0x00]
    else [BitVec.ofNat 8 i, 0x00, 0x00, 0x00, 0x00, 0x00, 0x00]

/-! ### Events of the local port -/

/-- The command is an event of the local port: an edge of CS#, a byte in or out (R162 to R175). -/
def isPortEvent : Instr → Bool
  | .selectionStart | .selectionEnd _ | .illegalCode _ | .status | .read _ | .readOn | .readDataByteOut | .write _
  | .writeOn | .writeDataByte _ | .claim _ | .release _ | .takeOutcome | .outcomeRemoval | .takeChanges | .readRoster
  | .readQueue _ | .refetch _ | .loadEntry _ _ _ _ _ _ _ _ | .readEntry _ | .start | .leave => true
  | .pinReset | .rstRelease _ _ | .synchronisationCondition | .frameStart | .frameEnd _ | .verdictWindowEnd _
  | .gapComplete | .slotCycleRestart | .transmitOpportunity | .lostArbitration _ | .lineFault _ | .silenceLimit
  | .stuckLine | .stuckRelease | .announceTimerExpiry | .silenceTimerExpiry _ | .answerTimerExpiry | .leaseExpiry _
  | .fetchTimerExpiry _ | .applicationComplete | .zeroFillComplete | .fillReadComplete | .snapshotDelivered
  | .strayDominantLevel => false

/-! ### The ends of verdict windows -/

/-- At a member, the verdict window of another station's frame runs; the frame was read as `frame` without an objection
here, and nothing is put off to the window end. -/
structure State.Hears (s : State) (f : RxFrame) (frame : Frame) : Prop where
  member : s.isMember = true
  window : s.line.state = .verdict
  held : s.rx.frame = some f
  received : f.sending = false
  unobjected : f.objects = false
  read : parseFrame (f.chars.map RxChar.data) = some frame
  other : frame.sender ≠ s.station
  founding : s.ctl.foundingDue = false
  abandoning : s.ctl.abandonDue = false

/-- At a member, the verdict window of its own frame runs, sent to its length end, and nothing is put off to the window
end. -/
structure State.Sends (s : State) (g : InFlight) : Prop where
  member : s.isMember = true
  window : s.line.state = .verdict
  held : s.rx.frame = some g.ownFrame
  flight : s.sched.inflight = some g
  driven : g.onLine = true
  sender : g.frame.sender = s.station
  read : parseFrame g.frame.bytes = some g.frame
  founding : s.ctl.foundingDue = false
  abandoning : s.ctl.abandonDue = false

/-- The command reports the own frame `g` voided or faulted: its verdict window ends with a dominant sample, or a bit of it
on the line is sensed at the other level, not as a loss of arbitration (R11, R12, R13, R18). -/
def State.Fails (s : State) (g : InFlight) (i : Instr) : Prop :=
  (s.Sends g ∧ ∃ samples, i = .verdictWindowEnd samples ∧ samples ≠ allRecessive)
    ∨ (s.line.state = .transmitting ∧ s.sched.inflight = some g ∧ ∃ bit, i = .lineFault bit
        ∧ bit < 10 * g.frame.bytes.length ∧ (10 ≤ bit ∨ g.frame.sentRecessive bit = false))

/-- The condition that makes a unit offer the control entry stands: FOUNDED at a station that founded (R154), CENSUS at the
census answerer of a roster with a JOINED station (R123), ANNOUNCE and DEPART at a timer run out (R124, R125), FETCH at a
request (R133), RELEASE at an EXPIRING hold (R106). -/
def State.Stands (s : State) : ControlEntry → Prop
  | .presence .join => False
  | .presence .founded => s.ctl.state = .active ∧ s.ctl.reason = .founded ∧ s.status s.station = .joined
  | .presence .announce => s.roster.announce = .runOut
  | .census => s.ctl.state = .active ∧ s.status s.station = .active ∧ (∀ n, n < s.station → s.status n ≠ .active)
      ∧ ∃ n, s.status n = .joined
  | .depart p => p < 32 ∧ s.silenceTimer p = .runOut
  | .fetch w => s.ctl.state = .active ∧ w < 16 ∧ (s.copy w).request = true
  | .release w => ∃ g ∈ s.claims, g.window = w ∧ g.hold = .expiring

/-- The station waits for its transmit opportunity with a free inbound place (R10, R82). -/
structure State.Offered (s : State) : Prop where
  may : s.mayTransmit = true
  room : s.mirror.inbound.length < Config.inboundLimit

/-- A station on the line with a frame of its own is JOINING, ACTIVE or LEAVING (R1, R10). -/
def State.TransmitsAsMember (s : State) : Prop := s.line.state = .transmitting → s.isMember = true

end Sys2Proof.Machine
end

