-- ==== Sys2Proof/Certificates/Slice0/Obligations.lean ====
section
/-! DEFINITION. The statements for the provers. A unit that a statement's `t = { s with … }` does not name is unchanged;
`Memory.read` reads one byte of mirror memory. -/

open Sys2Proof Sys2Proof.Machine

/-! ### The machine -/

/-- A step runs the command at the front of the queue on the state with the queue's rest (the model's form, log 1). -/
def Obligations.StepRunsTheFrontCommand : Prop :=
  ∀ (c : Instr) (rest : List Instr) (s : State),
    step { s with pending := c :: rest } = exec c { s with pending := rest }

/-- On an empty queue one ct passes (the model's choice, log 2). No port, pin, table or memory byte changes, and in STOPPED
nothing does (R5, R6). Where it ends no verdict window, every running timer that does not run out has one ct less:
announce, silence, answer, lease and fetch (R104, R124, R125, R134, R152). The line interface counts the recessive ct of
IDLE-GAP to the gap and the silence limit, the slots of a cycle, the characters of an own frame, and the two ct of a
verdict window and of STUCK (R2, R7, R8, R9, R16, R18, R19). -/
def Obligations.EmptyQueueLetsOneCharacterTimePass : Prop :=
  ∀ s : State, s.pending = [] →
    ∃ t, step s = .next t ∧ t.pending = [] ∧ t.pins = s.pins ∧ t.layout = s.layout ∧ t.port = s.port
      ∧ (∀ a, Memory.read t.mirror.mem a = Memory.read s.mirror.mem a)
      ∧ (s.ctl.state = .stopped → t = s)
      ∧ (s.ctl.state ≠ .stopped → (s.line.state = .verdict → s.line.count + 1 < 2) →
          (∀ left, s.ctl.state = .joining ∨ s.ctl.state = .active → s.roster.announce = .running (left + 2) →
            t.roster.announce = .running (left + 1))
          ∧ (∀ n left, s.isMember = true → n < 32 → s.silenceTimer n = .running (left + 2) →
            t.silenceTimer n = .running (left + 1))
          ∧ (∀ left, s.awaitsCensus = true → s.ctl.answer = .running (left + 2) → t.ctl.answer = .running (left + 1))
          ∧ (∀ w left g, w < 16 → s.guardOf w = some g → g.lease = .running (left + 2) →
            t.guardOf w = some { g with lease := .running (left + 1) })
          ∧ (∀ w left, w < 16 → (s.copy w).timer = .running (left + 2) →
            t.copy w = { s.copy w with timer := .running (left + 1) }))
      ∧ (s.ctl.state ≠ .stopped → s.line.state = .idleGap →
          ((s.line.gapTiming = false ∨ s.line.count + 1 < 2) → (s.line.reference.isSome ∨ s.line.silence + 1 < 40) →
            t.line = { s.line with count := s.line.count + 1, silence := s.line.silence + 1, awaitSync := false })
          ∧ (s.line.gapTiming = true → 2 ≤ s.line.count + 1 → s.line.reference.isSome →
            t.line.state = .slotting ∧ t.line.slot = 0 ∧ t.line.reference = s.line.reference)
          ∧ (s.line.reference = none → 40 ≤ s.line.silence + 1 →
            t.line.state = .slotting ∧ t.line.slot = 0 ∧ t.line.reference = some 31))
      ∧ (s.ctl.state ≠ .stopped → s.line.state = .slotting → s.line.offered = true ∨ s.ownSlot ≠ some s.line.slot →
          t.line = if s.line.slot + 1 < 32 then { s.line with slot := s.line.slot + 1 }
            else { s.line with slot := 0, offered := false })
      ∧ (∀ g, s.ctl.state ≠ .stopped → s.line.state = .transmitting → s.sched.inflight = some g →
          t.line = if s.line.count + 1 < g.frame.bytes.length then { s.line with count := s.line.count + 1 }
            else { s.line with state := .verdict, count := 0 })
      ∧ (s.ctl.state ≠ .stopped → s.line.state = .verdict →
          (s.line.count + 1 < 2 → t.line = { s.line with count := s.line.count + 1, silence := s.line.silence + 1 })
          ∧ (∀ f, s.rx.frame = some f → 2 ≤ s.line.count + 1 → t.line.state = .idleGap ∧ t.rx.frame = none))
      ∧ (s.ctl.state ≠ .stopped → s.line.state = .stuck →
          (s.line.count + 1 < 2 → t.line = { s.line with count := s.line.count + 1, silence := s.line.silence + 1 })
          ∧ (2 ≤ s.line.count + 1 → t.line.state = if s.line.reference.isSome then .slotting else .idleGap))

/-- The state after pin reset is sound, and its holds, its line and its fill points agree with the queues. -/
def Obligations.ResetStateIsSound : Prop :=
  State.reset.Sound ∧ State.reset.HoldsAgree ∧ State.reset.LineAgrees ∧ State.reset.HeardAgrees ∧ State.reset.PointsAgree

/-- Every step keeps every limit of the spec: capacities, no repetitions, run counters, one record a window, a station
and a guard position, one service entry a window and requester (R136), holds only in ACTIVE, census pending exactly in
JOINING, the memory in canonical form. With these it keeps, in ACTIVE, a hold HELD or EXPIRING exactly where this station
is the head of the claim queue (R103), and the frame on the line that in flight. With those it keeps, out of STOPPED, the
accepted fill point a multiple of 64, ahead of the applied one by the FILL entries not withdrawn, within the window size,
and a copy FRESH exactly where the applied one is the window size (R131), while no such entry stands in the inbound queue
during a founding zero-fill, as R143 says of the group. -/
def Obligations.StepKeepsTheStateSound : Prop :=
  (∀ s t : State, s.Sound → step s = .next t → t.Sound)
  ∧ (∀ s t : State, s.Sound → s.HoldsAgree → s.LineAgrees → step s = .next t → t.HoldsAgree ∧ t.LineAgrees)
  ∧ (∀ s t : State, s.Sound → s.HoldsAgree → s.LineAgrees → s.HeardAgrees → s.PointsAgree → s.Spared →
      step s = .next t → t.HeardAgrees ∧ t.PointsAgree)

/-- A station that drives a frame is JOINING, ACTIVE or LEAVING, and every step keeps it so (R1). -/
def Obligations.StepKeepsDrivingToMembers : Prop :=
  ∀ s t : State, s.TransmitsAsMember → step s = .next t → t.TransmitsAsMember

/-- No command is refused, and only the completion of a grant can stop the machine (log 23). -/
def Obligations.OnlyGrantCompletionsCanStop : Prop :=
  ∀ (i : Instr) (s : State), (∀ r, exec i s ≠ .refused r) ∧
    ∀ x, exec i s = .fault x →
      i = .applicationComplete ∨ i = .zeroFillComplete ∨ i = .fillReadComplete ∨ i = .snapshotDelivered

/-- What no other command changes: the queue's rest; the straps but by PIN_RESET and RST_RELEASE; the table and its
signature but by PIN_RESET, LOAD ENTRY and START; a byte of mirror memory but by these three and the completions of an
application and of the zero-fill; the reference L but by PIN_RESET, START, the end of a verdict window and the silence limit;
the port but by PIN_RESET, SNAPSHOT_DELIVERED and the port's own events. A grant left over at LOAD ENTRY or
START writes there (the model's reading, log 18). -/
def Obligations.UnitsChangeOnlyByTheirCommands : Prop :=
  ∀ (i : Instr) (s t : State), exec i s = .next t → t.pending = s.pending
    ∧ (i ≠ .pinReset → (∀ id rate, i ≠ .rstRelease id rate) → t.pins = s.pins)
    ∧ (i ≠ .pinReset → i ≠ .start → (∀ x fl p b z o l c, i ≠ .loadEntry x fl p b z o l c) →
      t.layout = s.layout ∧ (i ≠ .applicationComplete → i ≠ .zeroFillComplete →
        ∀ a, Memory.read t.mirror.mem a = Memory.read s.mirror.mem a))
    ∧ (i ≠ .pinReset → i ≠ .start → i ≠ .silenceLimit → (∀ samples, i ≠ .verdictWindowEnd samples) →
      t.line.reference = s.line.reference)
    ∧ (i ≠ .pinReset → i ≠ .snapshotDelivered → isPortEvent i = false → t.port = s.port)

/-! ### Reset -/

/-- R72: what a pin reset does to mirror memory and everything that works on it. -/
def Obligations.PinResetClearsMirrorMemory : Prop :=
  ∀ s : State, ∃ t, exec .pinReset s = .next t
    ∧ (∀ a, Memory.read t.mirror.mem a = 0) ∧ t.mirror.inbound = [] ∧ t.report.outcomes = [] ∧ t.report.changes = []
    ∧ t.engineApplying = false ∧ t.mirror.zeroPending = false
    ∧ t.mirror.holder = none ∧ t.mirror.fillReq = none ∧ t.mirror.snapReq = none
    ∧ t.port.cmd = .awaiting ∧ t.sched.chunk = none
    ∧ ∀ w, (t.copy w).fresh = false ∧ (t.copy w).accepted = 0 ∧ (t.copy w).applied = 0

/-- Every unit at its pin-reset values, unit by unit (R22, R46, R47, R91, R113, R129, R144, R146, R148, R176, R177,
R181). The commands that wait stay (the model's choice, log 1). -/
def Obligations.PinResetPutsEveryUnitInItsResetState : Prop :=
  ∀ s : State, ∃ t, exec .pinReset s = .next t ∧ t.pending = s.pending ∧ t.pins.rstAsserted = true
    ∧ t.ctl.state = .stopped ∧ t.ctl.reason = .pinReset ∧ t.ctl.censusPending = false ∧ t.ctl.answer = .stopped
    ∧ (∀ bit, t.drivesAt bit = false) ∧ t.line.state = .idleGap ∧ t.line.reference = none
    ∧ t.rx.frame = none ∧ t.rx.objectionRun = 0 ∧ t.rx.cleanRun = 0
    ∧ t.layout.signature = 0x0000
    ∧ (∀ w, t.entry w =
        { enabled := false, base := 0x0000, size := 0, policy := .shared, owner := none, lease := 0,
          mirrored := false, loc := 0, watched := false })
    ∧ t.pub.queue = [] ∧ t.pub.tagCounter = 0 ∧ t.pub.lastTag = 0
    ∧ t.sched.control = [] ∧ t.sched.inflight = none ∧ t.sched.turn = .publications
    ∧ (∀ w, t.claimQueue w = [] ∧ t.holdOf w = .unheld)
    ∧ (∀ n, t.status n = .absent ∧ t.silenceTimer n = .stopped) ∧ t.roster.announce = .stopped
    ∧ (∀ w, t.copy w =
        { fresh := false, accepted := 0, applied := 0, request := false, timer := .stopped, expiries := 0,
          failed := false }) ∧ t.refresh.service = []
    ∧ t.report.outcomes = [] ∧ t.report.overflow = false ∧ t.report.changes = [] ∧ t.attention = false
    ∧ t.port.selected = false ∧ t.port.cmd = .awaiting ∧ t.port.lastResult = .done ∧ t.port.lastDetail = none
    ∧ t.port.cont = 0x0000

/-- At the release of RST# the straps fix the station number and the line rate, the station staying STOPPED, and no other
command but a pin reset changes them (R22, R148). -/
def Obligations.StrapsAreSampledAtReleaseOnly : Prop :=
  ((∀ (id : BitVec 5) (rate : BitVec 2) (s : State), s.pins.rstAsserted = true →
     exec (.rstRelease id rate) s
       = .next { s with pins := { rstAsserted := false, station := id.toNat, rate := rate } })
   ∧ characterMicros 0 = 80 ∧ characterMicros 1 = 40 ∧ characterMicros 2 = 20 ∧ characterMicros 3 = 10)
  ∧ (∀ (i : Instr) (s t : State), s.pins.rstAsserted = false → i ≠ .pinReset → exec i s = .next t → t.pins = s.pins)

/-! ### The common line -/

/-- The synchronisation condition ends once met, and before that no start bit in IDLE-GAP begins a frame (R7). A start bit
begins one in SLOTTING, and in IDLE-GAP with L UNKNOWN when no gap is timed and the condition is met; the slot count is
discarded (R6, R8, R9). A start bit before the condition restarts the counts (the model's reading, log 8). -/
def Obligations.FramesStartOnlyAfterSynchronisation : Prop :=
  (∀ s : State, s.ctl.state ≠ .stopped → s.line.state = .idleGap → s.line.awaitSync = true →
     exec .synchronisationCondition s = .next { s with line.awaitSync := false }
     ∧ exec .frameStart s = .next { s with line.count := 0, line.silence := 0 })
  ∧ (∀ s : State, s.ctl.state ≠ .stopped →
     (s.line.state = .slotting ∨ (s.line.state = .idleGap ∧ s.line.reference = none ∧ s.line.gapTiming = false
       ∧ s.line.awaitSync = false)) →
     exec .frameStart s = .next { s with
       line := { s.line with state := .receiving, count := 0, silence := 0, slot := 0, offered := false }
       rx.frame := some
         { chars := [], short := false, sending := false, framing := false, check := false, form := false,
           objects := false } })

/-- The gap complete: slot 0 with L known, else IDLE-GAP goes on (R8). After 32 slots the next cycle begins at slot 0 with
the same L, and the station owns the slot (s − L − 1) mod 32 (R9). A glitch in SLOTTING begins no frame, and no
opportunity is offered from it to the end of the next gap (R3, R10; the model's reading, log 31). -/
def Obligations.SlotsFollowTheGapAndTheReference : Prop :=
  (∀ s : State, s.ctl.state ≠ .stopped →
     (s.line.state = .idleGap → s.line.gapTiming = true → s.line.reference.isSome →
       exec .gapComplete s = .next { s with
         line := { s.line with
           state := .slotting, awaitSync := false, gapTiming := false, count := 0, slot := 0, offered := false
           sensed := false } })
     ∧ (s.line.state = .idleGap → s.line.gapTiming = true → s.line.reference = none →
       exec .gapComplete s = .next { s with line := { s.line with gapTiming := false, count := 0 } })
     ∧ (s.line.state = .slotting →
       exec .slotCycleRestart s = .next { s with line := { s.line with slot := 0, offered := false } })
     ∧ (s.line.state = .slotting →
       exec .strayDominantLevel s = .next { s with line := { s.line with sensed := true } }))
  ∧ (∀ s : State, s.line.sensed = true → exec .transmitOpportunity s = .next s)
  ∧ (∀ (s : State) (l : Nat), s.station < 32 → l < 32 → s.line.reference = some l →
     ∃ k : Nat, s.ownSlot = some k ∧ k < 32 ∧ (k : Int) = ((s.station : Int) - (l : Int) - 1) % 32)

/-- The silence limit: L becomes 31, slot 0 begins, and every station's offset is its own number; in LISTENING the
station goes to JOINING with reason REFERENCE and its JOIN (R16, R150). -/
def Obligations.SilenceGivesTheReferenceThirtyOne : Prop :=
  ∀ s : State, s.ctl.state ≠ .stopped → s.line.state = .idleGap → s.line.reference = none →
    ∃ t, exec .silenceLimit s = .next t
      ∧ t.line.reference = some 31 ∧ t.line.state = .slotting ∧ t.line.slot = 0 ∧ t.line.offered = false
      ∧ (s.station < 32 → t.ownSlot = some s.station)
      ∧ (s.ctl.state ≠ .listening → t = { s with line := t.line })
      ∧ (s.ctl.state = .listening →
          t = { s with line := t.line, ctl := t.ctl, roster := t.roster, sched := t.sched, report := t.report }
          ∧ t.ctl.state = .joining ∧ t.ctl.reason = .reference ∧ t.ctl.censusPending = true ∧ t.ctl.answer = .stopped
          ∧ t.roster = { s.roster with announce := .running 2048 }
          ∧ (s.sched.control = [] → t.sched = { s.sched with control := [.presence .join] })
          ∧ t.report = (s.post (.state .joining .reference)).report)

/-- A stray level restarts the counts (R8); STUCK keeps L, the in-flight frame and every queue, and it clears the clean run
in every station state, as R19 has it without condition where R21 speaks of MUTED (the model's reading, log 9); its
release begins slot 0 with the same L, or IDLE-GAP with L UNKNOWN (R19). -/
def Obligations.StuckLineKeepsEverythingButTheCleanRun : Prop :=
  ∀ s : State, s.ctl.state ≠ .stopped →
    (s.line.state = .idleGap → exec .strayDominantLevel s = .next { s with line.count := 0, line.silence := 0 })
    ∧ (s.line.state = .idleGap → exec .stuckLine s = .next { s with
        line.state := .stuck, line.gapTiming := false, line.count := 0, line.silence := 0, rx.cleanRun := 0 })
    ∧ (s.line.state = .stuck → s.line.reference.isSome → exec .stuckRelease s = .next { s with
        line := { s.line with
          state := .slotting, awaitSync := false, gapTiming := false, count := 0, slot := 0, offered := false
          sensed := false } })
    ∧ (s.line.state = .stuck → s.line.reference = none → exec .stuckRelease s = .next { s with
        line := { s.line with state := .idleGap, awaitSync := false, gapTiming := false, count := 0 } })

/-- The receiver takes the characters up to the frame's end: the length that BODYLEN gives, at most 137, or the first
missing start bit (R3, R4). It finds the framing, check and form faults of R24 and R28 to R30, and objects on the four
grounds of R31 and R32 and no other, only as a member; the objection counts in the objection run and is driven for the
first 12 bit times of the window (R17, R20). A frame this station sent to its length end goes to its verdict without an
objection of its own. -/
def Obligations.ReceiverObjectsOnItsFourGrounds : Prop :=
  (∀ (samples : List CharSamples) (s : State), s.line.state = .receiving →
     ∃ t f, exec (.frameEnd samples) s = .next t ∧ t = { s with line := t.line, rx := t.rx }
       ∧ t.line = { s.line with state := .verdict, count := 0 } ∧ t.rx.frame = some f ∧ t.rx.cleanRun = s.rx.cleanRun
       ∧ f.sending = false
       ∧ (∀ (i : Nat) (c : RxChar), f.chars[i]? = some c → ∃ x : CharSamples, samples[i]? = some x ∧ x.getLsbD 0 = false
           ∧ c.data = x.extractLsb' 1 8 ∧ c.framing = !x.getLsbD 9)
       ∧ (f.short = false → ∃ c : RxChar, f.chars[2]? = some c ∧ f.chars.length = 5 + min c.data.toNat 132)
       ∧ (f.short = true → (∀ c : RxChar, f.chars[2]? = some c → f.chars.length < 5 + min c.data.toNat 132)
           ∧ ∀ x : CharSamples, samples[f.chars.length]? = some x → x.getLsbD 0 = true)
       ∧ (f.framing = true ↔ f.short = true ∨ ∃ c ∈ f.chars, c.framing = true)
       ∧ (f.check = true ↔ f.short = false ∧ (f.chars.map RxChar.data).drop (f.chars.length - 2)
           ≠ twoBytes (crc ((f.chars.map RxChar.data).take (f.chars.length - 2))).toNat)
       ∧ (f.form = true ↔ f.framing = false ∧ f.check = false
           ∧ ∀ g : Frame, g.fits → g.bytes = f.chars.map RxChar.data → s.BreaksLayout g)
       ∧ (f.objects = true ↔ s.isMember = true ∧ (f.framing = true ∨ f.check = true
           ∨ (f.form = true ∧ s.status (senderOf f.chars) ≠ .foreign)
           ∨ (f.form = false ∧ 4 ≤ s.mirror.inbound.length
               ∧ ∃ g : Frame, g.fits ∧ g.bytes = f.chars.map RxChar.data ∧ s.NeedsPlace g)))
       ∧ (∀ bit, t.drivesAt bit = true ↔ f.objects = true ∧ bit < 12)
       ∧ t.rx.objectionRun = if f.objects then min (s.rx.objectionRun + 1) 8 else s.rx.objectionRun)
  ∧ (∀ (samples : List CharSamples) (s : State) (g : InFlight), s.line.state = .transmitting → s.sched.inflight = some g →
     ∃ t f, exec (.frameEnd samples) s = .next t ∧ t = { s with line := t.line, rx := { s.rx with frame := some f } }
       ∧ t.line = { s.line with state := .verdict, count := 0 }
       ∧ f.sending = true ∧ f.objects = false ∧ f.framing = false ∧ f.check = false ∧ f.form = false
       ∧ f.chars.map RxChar.data = g.frame.bytes ∧ ∀ bit, t.drivesAt bit = false)

/-- Reading the characters a frame is sent as gives the frame back, with every field at every value its form limits admit;
it has 5 + BODYLEN characters, at most 137, and arrives intact without framing or check fault (R2 to R4, R23 to R28, R30,
R184, R185). -/
def Obligations.FrameBytesReadBackAsTheFrame : Prop :=
  (∀ f : Frame, f.fits → parseFrame f.bytes = some f ∧ f.bytes.length = 5 + f.body.bytes.length
     ∧ f.bytes.length ≤ 137)
  ∧ (∀ (f : Frame) (s : State), f.fits → s.line.state = .receiving →
     ∃ t r, exec (.frameEnd (f.bytes.map charSamples)) s = .next t ∧ t.rx.frame = some r
       ∧ r.chars.map RxChar.data = f.bytes ∧ r.short = false ∧ r.framing = false ∧ r.check = false
       ∧ senderOf r.chars = f.sender ∧ parseFrame (r.chars.map RxChar.data) = some f)

/-! ### Verdicts -/

/-- A voided frame of another station leaves L, the roster, the claim queues, the copies, the queues and memory as they
were; the gap follows, and in MUTED the clean run is 0 (R8, R14, R18, R21). An own objection voids the frame whatever
the other samples (the model's reading, log 7). The silence count begins again at the window's end (the model's choice,
log 43). -/
def Obligations.VoidedFrameHasNoEffect : Prop :=
  ∀ (samples : BitVec 20) (s : State) (f : RxFrame), s.line.state = .verdict → s.rx.frame = some f →
    f.sending = false → (f.objects = true ∨ samples ≠ allRecessive) →
    ¬ (f.objects = true ∧ 8 ≤ s.rx.objectionRun) → s.ctl.foundingDue = false → s.ctl.abandonDue = false →
    ∃ t, exec (.verdictWindowEnd samples) s = .next t
      ∧ t = { s with line := t.line, rx := t.rx, mirror := t.mirror, sched := t.sched }
      ∧ t.line = { s.line with state := .idleGap, gapTiming := true, count := 0, silence := 0 }
      ∧ t.rx.frame = none ∧ t.rx.objectionRun = s.rx.objectionRun
      ∧ t.rx.cleanRun = (if s.ctl.state = .muted then 0 else s.rx.cleanRun)
      ∧ t.mirror.inbound = s.mirror.inbound ∧ t.sched.inflight = s.sched.inflight
      ∧ ∀ a, Memory.read t.mirror.mem a = Memory.read s.mirror.mem a

/-- A voided frame of this station waits again with one failed attempt more, its DEPART in LEAVING too, the chunk held for
a FILL behind it kept (R13, R69, R81, R85, R88). The sixteenth, voided or faulted, abandons it (R86): a publication leaves
the queue with ABANDONED, ATTEMPTS, and the hold of a CLAIM goes from CLAIMING to NONE (R89, R107); a JOIN takes JOINING back
to LISTENING (R151); the DEPART of this station takes LEAVING to STOPPED (R161); a FETCH counts as an expiry of its timer
(R134); a FILL drops its service entry (R139); any other control entry leaves the list, and is offered again while its
condition stands (R79), a JOIN in ACTIVE without (the model's reading, log 41). In LEAVING any other frame is abandoned at
its report (R88). A JOIN or own DEPART whose sixteenth attempt faulted goes at the end of the window of the frame received,
voided or accepted, unless that frame makes a transition of its own; where a census installs there, the JOIN goes without
one (R147 gives the time of the transition; what becomes of the frame until then is the model's reading, log 22). -/
def Obligations.VoidedOwnFrameCountsAnAttempt : Prop :=
  (∀ (samples : BitVec 20) (s : State) (g : InFlight), s.Sends g → samples ≠ allRecessive →
     (s.ctl.state ≠ .leaving ∨ g.source = .control (.depart s.station)) → g.attempts + 1 < 16 →
     ∃ t, exec (.verdictWindowEnd samples) s = .next t
       ∧ t = { s with line := t.line, rx := t.rx, mirror := t.mirror, sched := t.sched }
       ∧ t.sched.inflight = some { g with attempts := g.attempts + 1, onLine := false }
       ∧ ((∀ w r, g.source ≠ .service w r) → t.sched.chunk = s.sched.chunk)
       ∧ t.line.reference = s.line.reference ∧ t.rx.objectionRun = s.rx.objectionRun
       ∧ ∀ a, Memory.read t.mirror.mem a = Memory.read s.mirror.mem a)
  ∧ (∀ (i : Instr) (s : State) (g : InFlight) (r : PubRecord) (rest : List PubRecord),
     s.Fails g i → s.ctl.state = .active → g.attempts = 15 → g.source = .publication → s.pub.queue = r :: rest →
     ∃ t, exec i s = .next t
       ∧ t.sched.inflight = none ∧ t.pub = { s.pub with queue := rest }
       ∧ t.report = (s.post (.abandoned r.tag r.window .attempts)).report
       ∧ t.claims = (s.claims.map fun c =>
           if r.kind = .claim ∧ c.window = r.window ∧ c.hold = .claiming then { c with hold := .unheld } else c)
       ∧ t.roster = s.roster ∧ t.refresh = s.refresh ∧ t.ctl = s.ctl ∧ t.line.reference = s.line.reference)
  ∧ (∀ (samples : BitVec 20) (s : State) (g : InFlight), s.Sends g → samples ≠ allRecessive →
     s.ctl.state = .joining → g.attempts = 15 → g.source = .control (.presence .join) →
     ∃ t, exec (.verdictWindowEnd samples) s = .next t
       ∧ t.ctl.state = .listening ∧ t.ctl.reason = .joinFailed ∧ t.ctl.censusPending = false ∧ t.ctl.answer = .stopped
       ∧ t.sched.control = [] ∧ t.sched.inflight = none ∧ t.roster.announce = .stopped
       ∧ (∀ n, t.status n = .absent ∧ t.silenceTimer n = .stopped)
       ∧ t.line = { s.line with
           state := .idleGap, gapTiming := true, count := 0, reference := none, silence := 0 }
       ∧ t.pub = s.pub ∧ t.refresh = s.refresh ∧ t.mirror.inbound = s.mirror.inbound
       ∧ t.report = (s.post (.state .listening .joinFailed)).report)
  ∧ (∀ (samples : BitVec 20) (s : State) (g : InFlight), s.Sends g → samples ≠ allRecessive →
     s.ctl.state = .leaving → g.attempts = 15 → g.source = .control (.depart s.station) →
     ∃ t, exec (.verdictWindowEnd samples) s = .next t
       ∧ t.ctl.state = .stopped ∧ t.ctl.reason = .departAbandoned ∧ t.sched.control = [] ∧ t.sched.inflight = none
       ∧ (∀ n, t.status n = .absent) ∧ (∀ c ∈ t.claims, c.queue = []) ∧ (∀ e ∈ t.mirror.inbound, e.withdrawn = true)
       ∧ t.refresh.copies = s.refresh.copies.map (fun c => { c.unfetched with accepted := c.applied })
       ∧ t.line.reference = s.line.reference ∧ t.report = (s.post (.state .stopped .departAbandoned)).report)
  ∧ (∀ (i : Instr) (s : State) (g : InFlight) (w : Nat), s.Fails g i →
     s.ctl.state = .active → g.attempts = 15 → g.source = .control (.fetch w) → w < s.refresh.copies.length →
     (s.copy w).fresh = false → (s.copy w).failed = false →
     ∃ t, exec i s = .next t
       ∧ t.sched.inflight = none ∧ t.pub = s.pub ∧ t.claims = s.claims ∧ t.ctl = s.ctl
       ∧ (∀ v, v ≠ w → t.copy v = s.copy v) ∧ t.refresh.service = s.refresh.service
       ∧ ((s.copy w).expiries < 3 → t.report = s.report ∧ t.copy w =
           { s.copy w with expiries := (s.copy w).expiries + 1, timer := .running 4096, request := true })
       ∧ (3 ≤ (s.copy w).expiries → t.report = (s.post (.fetchFailed w)).report ∧ t.copy w =
           { s.copy w with expiries := 4, timer := .stopped, request := false, failed := true }))
  ∧ (∀ (i : Instr) (s : State) (g : InFlight) (w r : Nat), s.Fails g i →
     s.ctl.state = .active → g.attempts = 15 → g.source = .service w r →
     ∃ t, exec i s = .next t
       ∧ t.sched.inflight = none ∧ t.sched.chunk = none ∧ t.pub = s.pub ∧ t.claims = s.claims ∧ t.report = s.report
       ∧ t.refresh.copies = s.refresh.copies
       ∧ t.refresh.service = s.refresh.service.filter (fun e => !(e.window == w && e.requester == r)))
  ∧ (∀ (i : Instr) (s : State) (g : InFlight) (e : ControlEntry), s.Fails g i →
     (s.ctl.state = .joining ∨ s.ctl.state = .active) → g.attempts = 15 → g.source = .control e →
     (∀ w, e ≠ .fetch w) → ¬ (e = .presence .join ∧ s.ctl.state = .joining) →
     ∃ t, exec i s = .next t
       ∧ t = { s with line := t.line, rx := t.rx, mirror := t.mirror, sched := t.sched }
       ∧ t.sched.inflight = none ∧ t.line.reference = s.line.reference
       ∧ s.sched.control.erase e <+: t.sched.control
       ∧ (∀ x ∈ t.sched.control, x ∈ s.sched.control.erase e ∨ s.Stands x)
       ∧ ((∀ x, s.Stands x → x ∈ s.sched.control) → s.sched.control.Nodup → s.sched.control.length ≤ 8 →
           (s.Stands e → t.sched.control = s.sched.control.erase e ++ [e])
           ∧ (¬ s.Stands e → t.sched.control = s.sched.control.erase e)))
  ∧ (∀ (samples : BitVec 20) (s : State) (g : InFlight), s.Sends g → samples ≠ allRecessive →
     s.ctl.state = .leaving → g.source ≠ .control (.depart s.station) →
     ∃ t, exec (.verdictWindowEnd samples) s = .next t
       ∧ t.sched.inflight = none ∧ t.ctl = s.ctl ∧ t.roster = s.roster ∧ t.claims = s.claims ∧ t.refresh = s.refresh
       ∧ (∀ r rest, g.source = .publication → s.pub.queue = r :: rest → t.pub = { s.pub with queue := rest }
           ∧ t.sched.control = s.sched.control ∧ t.report = (s.post (.abandoned r.tag r.window .leaving)).report)
       ∧ (∀ e, g.source = .control e → t.pub = s.pub ∧ t.sched.control = s.sched.control.erase e
           ∧ t.report = s.report)
       ∧ (∀ w r, g.source = .service w r → t.pub = s.pub ∧ t.sched.control = s.sched.control ∧ t.sched.chunk = none
           ∧ t.report = s.report))
  ∧ (∀ (s : State) (g : InFlight) (bit : Nat), s.line.state = .transmitting → s.sched.inflight = some g →
     g.attempts = 15 →
     (s.ctl.state = .joining ∧ g.source = .control (.presence .join)
       ∨ s.ctl.state = .leaving ∧ g.source = .control (.depart s.station)) →
     bit < 10 * g.frame.bytes.length → (10 ≤ bit ∨ g.frame.sentRecessive bit = false) →
     ∃ t, exec (.lineFault bit) s = .next t ∧ t.line = { s.line with state := .receiving }
       ∧ t.ctl = { s.ctl with abandonDue := true }
       ∧ t.sched.inflight = some { g with attempts := 16, onLine := false } ∧ t.roster = s.roster ∧ t.report = s.report)
  ∧ (∀ (samples : BitVec 20) (s : State) (f : RxFrame) (g : InFlight) (voided : Bool),
     s.line.state = .verdict → s.rx.frame = some f → f.sending = false → s.ctl.foundingDue = false →
     s.ctl.abandonDue = true → s.sched.inflight = some g → g.onLine = false →
     (s.ctl.state = .joining ∧ g.source = .control (.presence .join)
       ∨ s.ctl.state = .leaving ∧ g.source = .control (.depart s.station)) →
     (voided = true → (f.objects = true ∨ samples ≠ allRecessive) ∧ ¬ (f.objects = true ∧ 8 ≤ s.rx.objectionRun)) →
     (voided = false → f.objects = false ∧ samples = allRecessive ∧ senderOf f.chars ≠ s.station
       ∧ ∀ frame, parseFrame (f.chars.map RxChar.data) = some frame →
           (∀ reason, frame.body ≠ .depart s.station reason)
           ∧ ∀ signature map groups, frame.body = .census signature map groups → s.ctl.state = .leaving
               ∨ (signature = s.layout.signature ∧ map.getD s.station .absent ≠ .joined)) →
     ∃ t, exec (.verdictWindowEnd samples) s = .next t
       ∧ t.ctl.abandonDue = false ∧ t.sched.control = [] ∧ t.sched.inflight = none ∧ (∀ n, t.status n = .absent)
       ∧ (s.ctl.state = .joining → t.ctl.state = .listening ∧ t.ctl.reason = .joinFailed ∧ t.line.reference = none
           ∧ (voided = true → t.report = (s.post (.state .listening .joinFailed)).report))
       ∧ (s.ctl.state = .leaving → t.ctl.state = .stopped ∧ t.ctl.reason = .departAbandoned ∧ t.line.state = .idleGap
           ∧ (voided = true → t.line.reference = s.line.reference
             ∧ t.report = (s.post (.state .stopped .departAbandoned)).report)
           ∧ (voided = false → t.line.reference = some (senderOf f.chars))))
  ∧ (∀ (s : State) (f : RxFrame) (g : InFlight) (frame : Frame) (map : List RosterStatus) (groups : List (List Nat)),
     s.ctl.state = .joining → s.ctl.censusPending = true → s.line.state = .verdict → s.rx.frame = some f →
     f.sending = false → f.objects = false → parseFrame (f.chars.map RxChar.data) = some frame →
     frame.body = .census s.layout.signature map groups → frame.sender ≠ s.station →
     s.status frame.sender ≠ .foreign → map.getD s.station .absent = .joined → s.ctl.foundingDue = false →
     s.ctl.abandonDue = true → s.sched.inflight = some g → g.source = .control (.presence .join) → g.onLine = false →
     s.sched.control.Nodup →
     ∃ t, exec (.verdictWindowEnd allRecessive) s = .next t
       ∧ t.ctl.state = .active ∧ t.ctl.reason = .census ∧ t.ctl.abandonDue = false
       ∧ t.sched.inflight = none ∧ .presence .join ∉ t.sched.control)

/-- At a member, an accepted frame, the station's own included, sets L to its SENDER and the objection run to 0 (R14, R20,
R35). It sets the silence timer of a JOINED or ACTIVE sender to 8192 ct and changes no other's, where it makes no entry
present or ABSENT and does not replace the roster (R35, R125). -/
def Obligations.AcceptedFrameSetsTheReference : Prop :=
  ∀ (s : State) (f : RxFrame), s.isMember = true → s.line.state = .verdict → s.rx.frame = some f →
    f.objects = false → s.ctl.abandonDue = false →
    ∃ t, exec (.verdictWindowEnd allRecessive) s = .next t
      ∧ t.line.reference = some (senderOf f.chars) ∧ t.rx.objectionRun = 0 ∧ t.rx.frame = none
      ∧ t.line.state = .idleGap ∧ t.pins = s.pins ∧ t.layout = s.layout ∧ t.port = s.port
      ∧ (∀ a, Memory.read t.mirror.mem a = Memory.read s.mirror.mem a)
      ∧ (∀ frame, s.Hears f frame → (s.status frame.sender = .joined ∨ s.status frame.sender = .active) →
          frame.sender < s.roster.entries.length → (∀ reason, frame.body ≠ .depart s.station reason) →
          (∀ signature map groups, frame.body = .census signature map groups → s.awaitsCensus = false) →
          ((∀ reason, frame.body ≠ .depart frame.sender reason) → t.silenceTimer frame.sender = .running 8192)
          ∧ ∀ n, n ≠ frame.sender → (∀ reason, frame.body ≠ .depart n reason) → t.silenceTimer n = s.silenceTimer n)

/-- The eighth objection takes the station to MUTED: publications, LOST_HOLDs and STATE are posted in that order,
everything it held of the group is cleared, both run counters are 0, and it drives nothing (R20, R90, R113, R157). An
own objection voids the frame whatever the other samples (the model's reading, log 7). -/
def Obligations.EighthObjectionMutes : Prop :=
  ∀ (samples : BitVec 20) (s : State) (f : RxFrame), s.isMember = true → s.line.state = .verdict →
    s.rx.frame = some f → f.sending = false → f.objects = true → s.rx.objectionRun = 8 →
    ∃ t, exec (.verdictWindowEnd samples) s = .next t
      ∧ t.ctl.state = .muted ∧ t.ctl.reason = .objections ∧ t.ctl.censusPending = false ∧ t.ctl.answer = .stopped
      ∧ t.rx.objectionRun = 0 ∧ t.rx.cleanRun = 0 ∧ (∀ bit, t.drivesAt bit = false) ∧ t.line.reference = s.line.reference
      ∧ t.pub = { s.pub with queue := [] } ∧ t.sched.control = [] ∧ t.sched.inflight = none ∧ t.sched.chunk = none
      ∧ t.refresh.service = [] ∧ (∀ g ∈ t.claims, g.queue = [] ∧ g.hold = .unheld ∧ g.lease = .stopped ∧ g.tag = none)
      ∧ (∀ n, t.status n = .absent ∧ t.silenceTimer n = .stopped) ∧ t.roster.announce = .stopped
      ∧ (∀ w, (t.copy w).fresh = false ∧ (t.copy w).accepted = 0 ∧ (t.copy w).applied = 0)
      ∧ (∀ e ∈ t.mirror.inbound, e.withdrawn = true)
      ∧ t.report = (s.postAll ((s.pub.queue.map fun r => .abandoned r.tag r.window .muted)
          ++ ((s.claims.filter fun g => g.hold == .held).map fun g => .lostHold g.window .muted)
          ++ [.state .muted .objections])).report
      ∧ ∀ a, Memory.read t.mirror.mem a = Memory.read s.mirror.mem a

/-- The sixteenth clean accepted frame in MUTED: L is its SENDER and the rejoin path leads to JOINING with reason
RECOVERED and a new JOIN (R14, R21, R156, R158). -/
def Obligations.SixteenthCleanFrameRecovers : Prop :=
  ∀ (s : State) (f : RxFrame), s.ctl.state = .muted → s.line.state = .verdict → s.rx.frame = some f →
    f.objects = false → f.framing = false → f.check = false → f.form = false → s.rx.cleanRun = 15 →
    ∃ t, exec (.verdictWindowEnd allRecessive) s = .next t
      ∧ t.ctl.state = .joining ∧ t.ctl.reason = .recovered ∧ t.ctl.censusPending = true ∧ t.ctl.answer = .stopped
      ∧ t.line.reference = some (senderOf f.chars) ∧ t.rx.objectionRun = 0
      ∧ t.sched.control = [.presence .join] ∧ t.sched.inflight = none
      ∧ t.roster.announce = .running 2048 ∧ ∀ n, t.status n = .absent

/-- A frame of this station's number that it did not send takes it to INCOMPATIBLE with reason DUPLICATE_ID, where it
drives nothing (R36, R159). -/
def Obligations.DuplicateNumberMakesIncompatible : Prop :=
  ∀ (s : State) (f : RxFrame), s.isMember = true → s.line.state = .verdict → s.rx.frame = some f →
    f.sending = false → f.objects = false → senderOf f.chars = s.station →
    ∃ t, exec (.verdictWindowEnd allRecessive) s = .next t
      ∧ t.ctl.state = .incompatible ∧ t.ctl.reason = .duplicateId ∧ t.ctl.censusPending = false
      ∧ (∀ bit, t.drivesAt bit = false) ∧ t.pub.queue = [] ∧ t.sched.control = [] ∧ t.sched.inflight = none
      ∧ t.refresh.service = [] ∧ (∀ g ∈ t.claims, g.queue = [] ∧ g.hold = .unheld) ∧ (∀ n, t.status n = .absent)
      ∧ (∀ w, (t.copy w).fresh = false) ∧ (∀ e ∈ t.mirror.inbound, e.withdrawn = true)
      ∧ t.report = (s.postAll ((s.pub.queue.map fun r => .abandoned r.tag r.window .departed)
          ++ ((s.claims.filter fun g => g.hold == .held).map fun g => .lostHold g.window .departed)
          ++ [.state .incompatible .duplicateId])).report

/-- A station that does not accept follows the reference: SENDER of a clean accepted frame, UNKNOWN after a faulty one;
in LISTENING the first clean one moves it to JOINING with reason REFERENCE; in MUTED the clean run counts the clean ones
below the sixteenth and is 0 after a faulty one (R14, R16, R21, R150). -/
def Obligations.ListenerFollowsTheReference : Prop :=
  (∀ (s : State) (f : RxFrame), s.ctl.state = .listening ∨ s.ctl.state = .incompatible → s.line.state = .verdict →
    s.rx.frame = some f → f.objects = false → s.ctl.foundingDue = false → s.ctl.abandonDue = false →
    ∃ t, exec (.verdictWindowEnd allRecessive) s = .next t
      ∧ t.line.reference =
          (if f.framing = false ∧ f.check = false ∧ f.form = false then some (senderOf f.chars) else none)
      ∧ t.rx.objectionRun = 0 ∧ t.claims = s.claims ∧ t.refresh = s.refresh ∧ t.pub = s.pub
      ∧ (s.ctl.state = .listening ∧ f.framing = false ∧ f.check = false ∧ f.form = false →
          t.ctl.state = .joining ∧ t.ctl.reason = .reference ∧ t.ctl.censusPending = true
          ∧ t.roster.announce = .running 2048
          ∧ (s.sched.control = [] → t.sched.control.head? = some (.presence .join)))
      ∧ (s.ctl.state = .incompatible ∨ f.framing = true ∨ f.check = true ∨ f.form = true →
          t.ctl = s.ctl ∧ t.roster = s.roster))
  ∧ (∀ (s : State) (f : RxFrame), s.ctl.state = .muted → s.line.state = .verdict → s.rx.frame = some f →
    f.objects = false → s.ctl.foundingDue = false → s.ctl.abandonDue = false →
    (f.framing = true ∨ f.check = true ∨ f.form = true ∨ s.rx.cleanRun < 15) →
    ∃ t, exec (.verdictWindowEnd allRecessive) s = .next t
      ∧ t = { s with line := t.line, rx := t.rx, mirror := t.mirror, sched := t.sched }
      ∧ t.line.reference =
          (if f.framing = false ∧ f.check = false ∧ f.form = false then some (senderOf f.chars) else none)
      ∧ t.rx = { frame := none, objectionRun := 0, cleanRun :=
          if f.framing = false ∧ f.check = false ∧ f.form = false then s.rx.cleanRun + 1 else 0 }
      ∧ t.mirror.inbound = s.mirror.inbound ∧ t.sched.inflight = s.sched.inflight)

/-- Every frame of a FOREIGN sender, and every frame but a PRESENCE of an ABSENT one, is stopped: it sets L and the
sender's silence timer, and nothing of the replicated state (R35, R37). -/
def Obligations.FilteredFrameTakesNoEffect : Prop :=
  ∀ (s : State) (f : RxFrame) (frame : Frame), s.Hears f frame →
    s.status frame.sender = .foreign ∨ (s.status frame.sender = .absent ∧ frame.body.isPresence = false) →
    ∃ t, exec (.verdictWindowEnd allRecessive) s = .next t
      ∧ t = { s with line := t.line, rx := t.rx, mirror := t.mirror, sched := t.sched, roster := t.roster }
      ∧ t.line.reference = some frame.sender
      ∧ (∀ n, t.status n = s.status n) ∧ t.mirror.inbound = s.mirror.inbound
      ∧ (s.status frame.sender = .foreign → frame.sender < s.roster.entries.length →
          t.silenceTimer frame.sender = .running 8192)
      ∧ (s.status frame.sender = .absent → t.roster = s.roster)
      ∧ ∀ a, Memory.read t.mirror.mem a = Memory.read s.mirror.mem a

/-! ### Transmitting -/

/-- A full inbound queue bars every frame: the slot passes and the in-flight frame stays as it is. Otherwise a waiting
frame goes again with its attempt count (R10, R81, R82): a publication, or a frame of the control list other than a CENSUS,
exactly as built (R77, R78); a CENSUS built anew from the roster and the claim queues as they stand (R122); a FILL from its
entry's next offset, with the current chunk or one read at once. A FILL that is not ready stays waiting, and nothing is
supplied in the slot (R69, R84, R138). -/
def Obligations.WaitingFrameGoesAgainUnlessBarred : Prop :=
  (∀ s : State, s.mayTransmit = true → 4 ≤ s.mirror.inbound.length →
     ∃ t, exec .transmitOpportunity s = .next t
       ∧ t = { s with line := t.line, mirror := t.mirror, sched := t.sched }
       ∧ t.line = { s.line with slot := s.ownSlot.getD 0, offered := true }
       ∧ t.sched.inflight = s.sched.inflight ∧ t.sched.turn = s.sched.turn ∧ t.sched.chunk = s.sched.chunk
       ∧ t.mirror.inbound = s.mirror.inbound)
  ∧ (∀ (s : State) (g : InFlight), s.Offered → s.sched.inflight = some g →
     (s.ctl.state ≠ .leaving ∨ g.source = .control (.depart s.station)) →
     (g.source = .publication ∨ ∃ e, g.source = .control e ∧ e ≠ .census) → g.onLine = false → s.frameOvertaken g = false →
     ∃ t, exec .transmitOpportunity s = .next t
       ∧ t = { s with line := t.line, rx := t.rx, mirror := t.mirror, sched := t.sched }
       ∧ t.line.state = .transmitting ∧ t.sched.inflight = some { g with onLine := true })
  ∧ (∀ (s : State) (g : InFlight), s.Offered → s.sched.inflight = some g → s.ctl.state ≠ .leaving →
     g.source = .control .census → g.onLine = false →
     ∃ t, exec .transmitOpportunity s = .next t
       ∧ t = { s with line := t.line, rx := t.rx, mirror := t.mirror, sched := t.sched }
       ∧ t.line.state = .transmitting ∧ t.sched.inflight = some { g with
           onLine := true
           frame := { sender := s.station
                      body := .census s.layout.signature
                        ((List.range 32).map fun n => if n = s.station then .active else s.status n)
                        (s.claims.map (·.queue)) } })
  ∧ (∀ (s : State) (g : InFlight) (w r : Nat) (e : Service), s.Offered → s.sched.inflight = some g →
     s.ctl.state = .active → g.source = .service w r → g.onLine = false → s.serviceOf w r = some e →
     ∃ t, exec .transmitOpportunity s = .next t
       ∧ t = { s with line := t.line, rx := t.rx, mirror := t.mirror, sched := t.sched }
       ∧ (∀ c, s.mirror.inbound = [] → s.sched.chunk = some c → c.current = true → c.window = w → c.offset = e.next →
           t.line.state = .transmitting ∧ t.sched.chunk = s.sched.chunk ∧ t.sched.inflight = some
             { g with onLine := true, frame := { sender := s.station, body := .fill w e.next r c.data } })
       ∧ (s.mirror.inbound = [] → (∀ c, s.sched.chunk = some c → c.current = false) → s.mirror.holder = none →
           s.mirror.snapReq = none → (s.entry w).localBase + e.next + (s.entry w).chunk ≤ 16384 →
           t.line.state = .transmitting ∧ t.mirror.holder = some (.fillRead ⟨w, e.next, false, false⟩)
           ∧ t.sched.inflight = some { g with
               onLine := true
               frame := { sender := s.station
                          body := .fill w e.next r ((List.range (s.entry w).chunk).map fun i =>
                            Memory.read s.mirror.mem ((s.entry w).localBase + e.next + i)) } })
       ∧ (s.mirror.inbound ≠ [] ∨ ((∀ c, s.sched.chunk = some c → c.current = false) ∧ s.mirror.holder ≠ none) →
           t.line = { s.line with slot := s.ownSlot.getD 0, offered := true } ∧ t.sched.inflight = some g))

/-- With nothing in flight the control list head goes first, ahead of publications and FILLs; it stays in the list, and
its frame is on the line with no failed attempt (R81, R82, R83). The frame is built from the fields as they stand: the
signature in a PRESENCE; the roster map with this station ACTIVE and the claim queues in a CENSUS; REASON LEAVING in the
DEPART of this station and SILENT in another's; the accepted fill point as FROM; REASON LEASE in a RELEASE (R78, R122). -/
def Obligations.ControlHeadGoesFirst : Prop :=
  ∀ (s : State) (e : ControlEntry) (rest : List ControlEntry), s.Offered → s.ctl.state ≠ .leaving →
    s.sched.inflight = none → s.sched.control = e :: rest → s.entryOvertaken e = false →
    ∃ t, exec .transmitOpportunity s = .next t
      ∧ t = { s with line := t.line, rx := t.rx, mirror := t.mirror, sched := t.sched }
      ∧ t.line.state = .transmitting ∧ t.line.reference = s.line.reference
      ∧ t.sched.inflight = some { source := .control e, attempts := 0, onLine := true, frame :=
          { sender := s.station
            body := match e with
              | .presence mode => .presence mode s.layout.signature
              | .census => .census s.layout.signature
                  ((List.range 32).map fun n => if n = s.station then .active else s.status n) (s.claims.map (·.queue))
              | .depart p => .depart p (if p = s.station then .leaving else .silent)
              | .fetch w => .fetch w (s.copy w).accepted
              | .release w => .release w .lease } }
      ∧ t.sched.control.head? = some e ∧ t.sched.turn = s.sched.turn

/-- With nothing in flight and an empty control list, or one whose entries are all overtaken (R87): at the turn PUBLICATIONS
the head record is selected, frozen and sent, and the turn passes to SERVICE; with nothing due in the control list, a
service entry whose FILL could go next and a free memory, its chunk is asked for while the publication is in flight (the
model's reading of R84, log 12). At the turn SERVICE an ACTIVE station with an empty inbound queue and a current chunk of the
oldest service entry sends its FILL, and the turn passes to PUBLICATIONS (R69, R77, R81, R83, R84, R138). That the
publication or the FILL goes in the very slot in which overtaken control entries are dropped is the model's reading, not
R87's words (log 11). -/
def Obligations.TurnFlagChoosesPublicationOrFill : Prop :=
  (∀ (s : State) (r : PubRecord) (rest : List PubRecord), s.Offered → s.ctl.state ≠ .leaving →
     s.sched.inflight = none → (∀ e ∈ s.sched.control, s.entryOvertaken e = true) → s.pub.queue = r :: rest →
     s.sched.turn = .publications →
     ∃ t, exec .transmitOpportunity s = .next t
       ∧ t = { s with line := t.line, rx := t.rx, mirror := t.mirror, sched := t.sched, pub := t.pub }
       ∧ t.line.state = .transmitting ∧ t.sched.turn = .service
       ∧ t.pub = { s.pub with queue := { r with selected := true } :: rest }
       ∧ (∀ e others, s.ctl.state = .active → s.refresh.service = e :: others → (s.copy e.window).fresh = true →
           s.mirror.inbound = [] → s.mirror.zeroPending = false → s.mirror.holder = none → s.mirror.fillReq = none →
           s.mirror.snapReq = none → s.sched.chunk = none → s.dueOffers = [] → t.mirror.fillReq = none
             ∧ t.mirror.holder = some (.fillRead ⟨e.window, e.next, false, false⟩))
       ∧ t.sched.inflight = some { source := .publication, attempts := 0, onLine := true, frame :=
           { sender := s.station
             body := match r.kind with
               | .write o data => .write r.window o data
               | .claim => .claim r.window
               | .release => .release r.window .host } })
  ∧ (∀ (s : State) (e : Service) (others : List Service) (c : Chunk), s.Offered → s.ctl.state = .active →
     s.sched.inflight = none → (∀ e ∈ s.sched.control, s.entryOvertaken e = true) → s.sched.turn = .service →
     s.mirror.inbound = [] →
     s.refresh.service = e :: others → s.sched.chunk = some c → c.current = true → c.window = e.window →
     c.offset = e.next →
     ∃ t, exec .transmitOpportunity s = .next t
       ∧ t = { s with line := t.line, rx := t.rx, mirror := t.mirror, sched := t.sched }
       ∧ t.line.state = .transmitting ∧ t.sched.turn = .publications ∧ t.sched.chunk = s.sched.chunk
       ∧ t.sched.inflight = some
           { source := .service e.window e.requester, attempts := 0, onLine := true
             frame := { sender := s.station, body := .fill e.window e.next e.requester c.data } })

/-- A recessive bit of SENDER sensed dominant loses the arbitration: the station goes on as a receiver, its frame waiting
with its attempt count unchanged (R11). A mismatch after SENDER, or a dominant bit of it sensed recessive, is a line
fault and counts one failed attempt (R12, R13, R85). The chunk held for a FILL behind another frame is kept (R69). In
LEAVING the DEPART of this station is retried in the same way, and any other lost or faulted frame is abandoned at its
report (R88). -/
def Obligations.LostCountsNoAttemptAndFaultedOne : Prop :=
  (∀ (s : State) (g : InFlight) (bit : Nat), (s.ctl.state ≠ .leaving ∨ g.source = .control (.depart s.station)) →
     s.line.state = .transmitting → s.sched.inflight = some g → bit < 10 → g.frame.sentRecessive bit = true →
     ∃ t, exec (.lostArbitration bit) s = .next t
       ∧ t = { s with line := { s.line with state := .receiving }, rx := t.rx, mirror := t.mirror, sched := t.sched }
       ∧ t.sched.inflight = some { g with onLine := false } ∧ (∀ bit, t.drivesAt bit = false)
       ∧ ((∀ w r, g.source ≠ .service w r) → t.sched.chunk = s.sched.chunk)
       ∧ (∀ f, t.rx.frame = some f → f.sending = false)
       ∧ ∀ a, Memory.read t.mirror.mem a = Memory.read s.mirror.mem a)
  ∧ (∀ (s : State) (g : InFlight) (bit : Nat), (s.ctl.state ≠ .leaving ∨ g.source = .control (.depart s.station)) →
     s.line.state = .transmitting → s.sched.inflight = some g → g.attempts + 1 < 16 → bit < 10 * g.frame.bytes.length →
     (10 ≤ bit ∨ g.frame.sentRecessive bit = false) →
     ∃ t, exec (.lineFault bit) s = .next t
       ∧ t = { s with line := { s.line with state := .receiving }, rx := t.rx, mirror := t.mirror, sched := t.sched }
       ∧ t.sched.inflight = some { g with attempts := g.attempts + 1, onLine := false } ∧ (∀ bit, t.drivesAt bit = false)
       ∧ ((∀ w r, g.source ≠ .service w r) → t.sched.chunk = s.sched.chunk)
       ∧ (∀ f, t.rx.frame = some f → f.sending = false)
       ∧ ∀ a, Memory.read t.mirror.mem a = Memory.read s.mirror.mem a)
  ∧ (∀ (s : State) (g : InFlight) (i : Instr) (bit : Nat), s.ctl.state = .leaving → s.line.state = .transmitting →
     s.sched.inflight = some g → g.source ≠ .control (.depart s.station) →
     (i = .lostArbitration bit ∧ bit < 10 ∧ g.frame.sentRecessive bit = true
       ∨ i = .lineFault bit ∧ bit < 10 * g.frame.bytes.length ∧ (10 ≤ bit ∨ g.frame.sentRecessive bit = false)) →
     ∃ t, exec i s = .next t ∧ t.line = { s.line with state := .receiving } ∧ t.ctl = s.ctl ∧ t.sched.inflight = none
       ∧ (∀ r rest, g.source = .publication → s.pub.queue = r :: rest → t.pub = { s.pub with queue := rest }
           ∧ t.sched.control = s.sched.control ∧ t.report = (s.post (.abandoned r.tag r.window .leaving)).report)
       ∧ (∀ e, g.source = .control e → t.pub = s.pub ∧ t.sched.control = s.sched.control.erase e
           ∧ t.report = s.report)
       ∧ (∀ w r, g.source = .service w r → t.pub = s.pub ∧ t.sched.control = s.sched.control ∧ t.sched.chunk = none
           ∧ t.report = s.report))

/-! ### Acceptance -/

/-- An accepted WRITE of a JOINED or ACTIVE sender makes an inbound entry exactly when it is valid by its window's
policy, the window is mirrored and no census is awaited; the change mark is that of a watched window (R38, R39). -/
def Obligations.AcceptedWriteJoinsTheInboundQueue : Prop :=
  ∀ (s : State) (f : RxFrame) (frame : Frame) (w o : Nat) (data : List Byte), s.Hears f frame →
    frame.body = .write w o data → (s.status frame.sender = .joined ∨ s.status frame.sender = .active) →
    s.mirror.inbound.length < 4 →
    ∃ t, exec (.verdictWindowEnd allRecessive) s = .next t
      ∧ t = { s with
          line := t.line, rx := t.rx, mirror := t.mirror, sched := t.sched
          roster := t.roster, pub := t.pub, report := t.report }
      ∧ (∀ n, t.status n = s.status n)
      ∧ t.mirror.inbound = s.mirror.inbound ++
          (if ((s.entry w).policy = .shared ∨ ((s.entry w).policy = .owned ∧ (s.entry w).owner = some frame.sender)
                ∨ ((s.entry w).policy = .guarded ∧ (s.claimQueue w).head? = some frame.sender))
              ∧ (s.entry w).enabled = true ∧ (s.entry w).mirrored = true
              ∧ ¬ (s.ctl.state = .joining ∧ s.ctl.censusPending = true)
            then [{ kind := .write (s.entry w).watched, window := w, offset := o, data := data, withdrawn := false }]
            else [])
      ∧ ∀ a, Memory.read t.mirror.mem a = Memory.read s.mirror.mem a

/-- An accepted WRITE of this station leaves the queue as carried when it is valid by its window's policy, and with REJECTED
when it is not (R38, R43, R85, R89). A valid one of a window mirrored here makes an entry at the tail of the inbound queue,
its change mark clear, unless a census is awaited (R39). -/
def Obligations.OwnWriteIsCarriedOrRejected : Prop :=
  ∀ (s : State) (g : InFlight) (r : PubRecord) (rest : List PubRecord) (w o : Nat) (data : List Byte), s.Sends g →
    g.source = .publication → g.frame.body = .write w o data → s.pub.queue = r :: rest →
    (∀ x ∈ rest, x.kind ≠ .release) → s.status s.station = .active →
    ∃ t, exec (.verdictWindowEnd allRecessive) s = .next t
      ∧ t = { s with
          line := t.line, rx := t.rx, mirror := t.mirror, sched := t.sched
          roster := t.roster, pub := t.pub, report := t.report }
      ∧ t.sched.inflight = none ∧ t.pub = { s.pub with queue := rest } ∧ (∀ n, t.status n = s.status n)
      ∧ t.line.reference = some s.station
      ∧ t.report = (if (s.entry w).policy = .shared ∨ ((s.entry w).policy = .owned ∧ (s.entry w).owner = some s.station)
              ∨ ((s.entry w).policy = .guarded ∧ (s.claimQueue w).head? = some s.station)
          then s.report else (s.post (.rejected r.tag w o)).report)
      ∧ (s.mirror.inbound.length < 4 → t.mirror.inbound = s.mirror.inbound ++
          (if ((s.entry w).policy = .shared ∨ ((s.entry w).policy = .owned ∧ (s.entry w).owner = some s.station)
                ∨ ((s.entry w).policy = .guarded ∧ (s.claimQueue w).head? = some s.station))
              ∧ (s.entry w).enabled = true ∧ (s.entry w).mirrored = true
              ∧ ¬ (s.ctl.state = .joining ∧ s.ctl.censusPending = true)
            then [{ kind := .write false, window := w, offset := o, data := data, withdrawn := false }]
            else []))
      ∧ ∀ a, Memory.read t.mirror.mem a = Memory.read s.mirror.mem a

/-- A CLAIM of another station: refused from a JOINED sender, no change when its sender is in the queue or the queue
holds 8, otherwise its sender joins the tail (R95). -/
def Obligations.AcceptedClaimJoinsTheQueue : Prop :=
  ∀ (s : State) (f : RxFrame) (frame : Frame) (w : Nat) (g : Guard), s.Hears f frame → frame.body = .claim w →
    (s.status frame.sender = .joined ∨ s.status frame.sender = .active) → s.guardOf w = some g →
    ∃ t, exec (.verdictWindowEnd allRecessive) s = .next t
      ∧ t.claims = s.claims.map (fun c => if c.window = w ∧ s.status frame.sender = .active
          ∧ frame.sender ∉ g.queue ∧ g.queue.length < 8 then { c with queue := c.queue ++ [frame.sender] } else c)
      ∧ t = { s with
          line := t.line, rx := t.rx, mirror := t.mirror, sched := t.sched, roster := t.roster
          pub := t.pub, claims := t.claims, report := t.report }
      ∧ (∀ n, t.status n = s.status n) ∧ t.mirror.inbound = s.mirror.inbound

/-- The station's own CLAIM in ACTIVE on a queue it is not in: HELD with GRANTED and the lease started at an empty
queue, WAITING with its position behind others, NONE with CLAIM_REFUSED at a full queue (R95, R96, R104). -/
def Obligations.OwnClaimIsGrantedQueuedOrRefused : Prop :=
  ∀ (s : State) (g : InFlight) (r : PubRecord) (rest : List PubRecord) (w : Nat) (c : Guard), s.Sends g →
    s.ctl.state = .active → s.status s.station = .active → g.source = .publication → g.frame.body = .claim w →
    s.pub.queue = r :: rest → (∀ x ∈ rest, x.kind ≠ .release) → s.guardOf w = some c → s.station ∉ c.queue →
    ∃ t, exec (.verdictWindowEnd allRecessive) s = .next t 
      ∧ t = { s with
          line := t.line, rx := t.rx, mirror := t.mirror, sched := t.sched, roster := t.roster
          pub := t.pub, claims := t.claims, report := t.report }
      ∧ t.sched.inflight = none ∧ t.pub = { s.pub with queue := rest } ∧ t.mirror.inbound = s.mirror.inbound
      ∧ (∀ v, v ≠ w → t.guardOf v = s.guardOf v)
      ∧ (c.queue = [] →
          t.guardOf w = some
            { c with queue := [s.station], hold := .held, tag := some r.tag
                     lease := if (s.entry c.window).lease = 0 then .stopped
                              else .running ((s.entry c.window).lease.toNat * 256) }
          ∧ t.report = (s.post (.granted (some r.tag) w)).report)
      ∧ (0 < c.queue.length → c.queue.length < 8 →
          t.guardOf w = some
            { c with queue := c.queue ++ [s.station], hold := .waiting, tag := some r.tag, lease := .stopped }
          ∧ t.report = (s.post (.waiting (some r.tag) w c.queue.length)).report)
      ∧ (8 ≤ c.queue.length →
          t.guardOf w = some { c with hold := .unheld, tag := none, lease := .stopped }
          ∧ t.report = (s.post (.claimRefused (some r.tag) w)).report)

/-- A RELEASE of another station takes it out of the window's queue, those behind it keeping their order; where that
makes this ACTIVE station the head it is promoted: HELD, the lease started, GRANTED with its claim tag (R94, R97). Its own
RELEASE takes it out, sets its hold from WAITING, HELD or EXPIRING to NONE and posts CANCELLED with its position and, of a
host RELEASE, its tag (R98, R103); a hold CLAIMING stands for the newer CLAIM record queued (the model's reading, log 34). -/
def Obligations.AcceptedReleasePromotesTheNext : Prop :=
  (∀ (s : State) (f : RxFrame) (frame : Frame) (w : Nat) (reason : ReleaseReason) (g : Guard), s.Hears f frame →
    frame.body = .release w reason → (s.status frame.sender = .joined ∨ s.status frame.sender = .active) →
    s.guardOf w = some g → (∀ x ∈ s.pub.queue, x.kind ≠ .release) → (s.claims.map (·.window)).Nodup →
    ∃ t, exec (.verdictWindowEnd allRecessive) s = .next t
      ∧ t = { s with
          line := t.line, rx := t.rx, mirror := t.mirror, sched := t.sched, roster := t.roster
          pub := t.pub, claims := t.claims, report := t.report }
      ∧ (∀ n, t.status n = s.status n) ∧ t.mirror.inbound = s.mirror.inbound
      ∧ (∀ v, v ≠ w → t.guardOf v = s.guardOf v) ∧ t.claimQueue w = g.queue.erase frame.sender
      ∧ (s.ctl.state = .active ∧ g.queue.head? ≠ some s.station
            ∧ (g.queue.erase frame.sender).head? = some s.station →
          t.guardOf w = some
            { g with queue := g.queue.erase frame.sender, hold := .held
                     lease := if (s.entry g.window).lease = 0 then .stopped
                              else .running ((s.entry g.window).lease.toNat * 256) }
          ∧ t.report = (s.post (.granted g.tag g.window)).report)
      ∧ (¬ (s.ctl.state = .active ∧ g.queue.head? ≠ some s.station
            ∧ (g.queue.erase frame.sender).head? = some s.station) →
          t.guardOf w = some { g with queue := g.queue.erase frame.sender } ∧ t.report = s.report))
  ∧ (∀ (s : State) (g : InFlight) (w : Nat) (reason : ReleaseReason) (c : Guard), s.Sends g →
    g.frame.body = .release w reason → (s.status s.station = .joined ∨ s.status s.station = .active) →
    s.guardOf w = some c → c.queue.Nodup → (s.claims.map (·.window)).Nodup →
    (g.source = .publication → ∃ r rest, s.pub.queue = r :: rest ∧ ∀ x ∈ rest, x.kind ≠ .release) →
    (g.source = .control (.release w) ∨ g.source = .publication) →
    (g.source ≠ .publication → ∀ x ∈ s.pub.queue, x.kind ≠ .release) →
    ∃ t, exec (.verdictWindowEnd allRecessive) s = .next t
      ∧ t = { s with
          line := t.line, rx := t.rx, mirror := t.mirror, sched := t.sched, roster := t.roster
          pub := t.pub, claims := t.claims, report := t.report }
      ∧ (∀ n, t.status n = s.status n) ∧ t.mirror.inbound = s.mirror.inbound ∧ t.sched.inflight = none
      ∧ (∀ v, v ≠ w → t.guardOf v = s.guardOf v)
      ∧ t.guardOf w = some (if c.hold = .claiming then { c with queue := c.queue.erase s.station }
          else { c with queue := c.queue.erase s.station, hold := .unheld, tag := none, lease := .stopped })
      ∧ (g.source ≠ .publication → t.pub = s.pub
          ∧ t.report = (s.post (.cancelled none w (c.queue.idxOf? s.station))).report)
      ∧ (∀ r rest, g.source = .publication → s.pub.queue = r :: rest → t.pub = { s.pub with queue := rest }
          ∧ t.report = (s.post (.cancelled (some r.tag) w (c.queue.idxOf? s.station))).report))

/-- A PRESENCE JOIN of this layout records its sender JOINED and takes its claims and service entries from it; a FOUNDED
records it ACTIVE; an ANNOUNCE changes no status; a PRESENCE of another layout records it FOREIGN (R116 to R119). This
station's own JOIN makes its own entry JOINED and starts the answer timer at 1024 ct (R117, R152); its own FOUNDED makes its
own entry ACTIVE, which ends the offer of FOUNDED (R118, R154); either sets the announce timer (R35). The silence timer of a
present sender, and of one that its PRESENCE makes present, is set to 8192 ct; no other station's changes (R35, R115, R116,
R117, R125). -/
def Obligations.PresenceRecordsItsSender : Prop :=
  (∀ (s : State) (f : RxFrame) (frame : Frame) (mode : PresenceMode) (signature : Word), s.Hears f frame →
    frame.body = .presence mode signature → frame.sender < s.roster.entries.length →
    s.status frame.sender ≠ .foreign →
    ∃ t, exec (.verdictWindowEnd allRecessive) s = .next t
      ∧ t.status frame.sender = (if signature ≠ s.layout.signature then .foreign
          else match mode with
            | .join => .joined
            | .founded => .active
            | .announce => s.status frame.sender)
      ∧ t = { s with
          line := t.line, rx := t.rx, mirror := t.mirror, sched := t.sched, roster := t.roster
          pub := t.pub, claims := t.claims, refresh := t.refresh, report := t.report }
      ∧ t.silenceTimer frame.sender =
          (if s.status frame.sender = .absent ∧ signature = s.layout.signature ∧ mode = .announce
            then s.silenceTimer frame.sender else .running 8192)
      ∧ (∀ n, n ≠ frame.sender → t.status n = s.status n ∧ t.silenceTimer n = s.silenceTimer n)
      ∧ t.mirror.inbound = s.mirror.inbound ∧ t.refresh.copies = s.refresh.copies
      ∧ ((signature ≠ s.layout.signature ∨ mode = .join) →
          (s.status frame.sender = .joined ∨ s.status frame.sender = .active) →
          (∀ e ∈ t.refresh.service, e.requester ≠ frame.sender)
          ∧ t.claims.map (·.queue) = s.claims.map (fun g => g.queue.erase frame.sender))
      ∧ (signature = s.layout.signature → mode ≠ .join → t.claims = s.claims ∧ t.refresh.service = s.refresh.service))
  ∧ (∀ (s : State) (g : InFlight), s.Sends g → s.ctl.state = .joining → s.ctl.censusPending = true →
    g.source = .control (.presence .join) → g.frame.body = .presence .join s.layout.signature →
    s.status s.station = .absent → s.station < s.roster.entries.length →
    ∃ t, exec (.verdictWindowEnd allRecessive) s = .next t
      ∧ t.status s.station = .joined ∧ t.silenceTimer s.station = .stopped ∧ (∀ n, n ≠ s.station → t.status n = s.status n)
      ∧ t.ctl = { s.ctl with answer := .running 1024 } ∧ t.roster.announce = .running 2048
      ∧ t.line.reference = some s.station ∧ t.sched.inflight = none
      ∧ t.claims = s.claims ∧ t.refresh = s.refresh ∧ t.mirror.inbound = s.mirror.inbound)
  ∧ (∀ (s : State) (g : InFlight), s.Sends g → s.ctl.state = .active → g.source = .control (.presence .founded) →
    g.frame.body = .presence .founded s.layout.signature → s.status s.station = .joined →
    s.station < s.roster.entries.length → s.sched.control.Nodup →
    ∃ t, exec (.verdictWindowEnd allRecessive) s = .next t
      ∧ t.status s.station = .active ∧ (∀ n, n ≠ s.station → t.status n = s.status n)
      ∧ t.ctl = s.ctl ∧ t.roster.announce = .running 2048 ∧ t.line.reference = some s.station
      ∧ t.sched.inflight = none ∧ .presence .founded ∉ t.sched.control
      ∧ t.claims = s.claims ∧ t.refresh = s.refresh ∧ t.mirror.inbound = s.mirror.inbound)

/-- A census of this layout makes every JOINED entry but its sender's ACTIVE at a station that awaits none; at a joiner that
it lists JOINED it is installed whole: ACTIVE with reason CENSUS, its roster and claim queues, a fetch request for every
mirrored window (R102, R120, R121, R133, R155); FOUNDED is offered only where the station founded (R154). At a joiner that it
does not list JOINED its sender and every JOINED entry of another station become ACTIVE, its own entry stands as it was, and
the joiner goes on waiting (R121 read with R115 and R146; log 36). A census of another layout takes a joiner that awaits one
to INCOMPATIBLE with reason SIGNATURE, its roster unread, and makes its sender FOREIGN elsewhere (R116, R159). The silence
timer of its present sender is set to 8192 ct, and at an installation that of every peer the census lists as present (R35,
R115, R121, R125). -/
def Obligations.CensusCompletesOrInstalls : Prop :=
  (∀ (s : State) (f : RxFrame) (frame : Frame) (map : List RosterStatus) (groups : List (List Nat)), s.Hears f frame →
    frame.body = .census s.layout.signature map groups → s.status frame.sender ≠ .foreign →
    s.roster.entries.length = 32 → s.refresh.copies.length = 16 →
    ∃ t, exec (.verdictWindowEnd allRecessive) s = .next t 
      ∧ t = { s with
          line := t.line, rx := t.rx, mirror := t.mirror, sched := t.sched, roster := t.roster, pub := t.pub
          claims := t.claims, refresh := t.refresh, ctl := t.ctl, report := t.report }
      ∧ t.mirror.inbound = s.mirror.inbound ∧ t.refresh.service = s.refresh.service
      ∧ (s.awaitsCensus = false → t.ctl = s.ctl ∧ t.claims = s.claims ∧ t.refresh.copies = s.refresh.copies
          ∧ ∀ n, (t.status n = if s.status n = .joined ∧ n ≠ frame.sender then .active else s.status n)
            ∧ t.silenceTimer n = if n = frame.sender ∧ s.status n ≠ .absent then .running 8192 else s.silenceTimer n)
      ∧ (s.awaitsCensus = true → map.getD s.station .absent = .joined →
          t.ctl.state = .active ∧ t.ctl.reason = .census ∧ t.ctl.censusPending = false ∧ t.ctl.answer = .stopped
          ∧ (∀ n, n < 32 → (t.status n = if map.getD n .absent = .joined then .active else map.getD n .absent)
            ∧ t.silenceTimer n = if n = s.station ∨ map.getD n .absent = .absent then .stopped else .running 8192)
          ∧ t.claims.map (·.queue) = (List.range s.claims.length).map (fun i => groups.getD i [])
          ∧ t.claims.map (·.hold) = s.claims.map (·.hold)
          ∧ (.presence .founded ∉ s.sched.control → .presence .founded ∉ t.sched.control)
          ∧ ∀ w, w < 16 → t.copy w = if (s.entry w).enabled = true ∧ (s.entry w).mirrored = true
              then { s.copy w with request := true, timer := .running 4096, expiries := 0 } else s.copy w)
      ∧ (s.awaitsCensus = true → map.getD s.station .absent ≠ .joined →
          t.ctl = s.ctl ∧ t.claims = s.claims ∧ t.refresh.copies = s.refresh.copies
          ∧ ∀ n, (t.status n = if n = frame.sender ∨ (s.status n = .joined ∧ n ≠ s.station) then .active else s.status n)
            ∧ t.silenceTimer n = if n = frame.sender then .running 8192 else s.silenceTimer n))
  ∧ (∀ (s : State) (f : RxFrame) (frame : Frame) (signature : Word) (map : List RosterStatus) (groups : List (List Nat)),
    s.Hears f frame → frame.body = .census signature map groups → signature ≠ s.layout.signature →
    s.status frame.sender ≠ .foreign →
    ∃ t, exec (.verdictWindowEnd allRecessive) s = .next t
      ∧ t.line.reference = some frame.sender
      ∧ (s.awaitsCensus = true → t.ctl.state = .incompatible ∧ t.ctl.reason = .signature ∧ t.ctl.censusPending = false
          ∧ t.ctl.answer = .stopped ∧ t.roster.announce = .stopped ∧ (∀ n, t.status n = .absent) ∧ t.pub.queue = []
          ∧ t.sched.control = [] ∧ t.sched.inflight = none ∧ t.refresh.service = []
          ∧ (∀ g ∈ t.claims, g.queue = [] ∧ g.hold = .unheld) ∧ (∀ e ∈ t.mirror.inbound, e.withdrawn = true)
          ∧ (∀ w, (t.copy w).fresh = false) ∧ (∀ bit, t.drivesAt bit = false)
          ∧ t.report = (s.postAll ((s.pub.queue.map fun r => .abandoned r.tag r.window .departed)
            ++ ((s.claims.filter fun g => g.hold == .held).map fun g => .lostHold g.window .departed)
            ++ [.state .incompatible .signature])).report)
      ∧ (s.awaitsCensus = false → frame.sender < s.roster.entries.length → t.ctl = s.ctl
          ∧ t.status frame.sender = .foreign ∧ t.silenceTimer frame.sender = .running 8192
          ∧ (∀ n, n ≠ frame.sender → t.status n = s.status n ∧ t.silenceTimer n = s.silenceTimer n)
          ∧ t.refresh.copies = s.refresh.copies ∧ t.mirror.inbound = s.mirror.inbound
          ∧ t.claims.map (·.queue) = s.claims.map (fun g =>
              if s.status frame.sender = .absent then g.queue else g.queue.erase frame.sender)))

/-- A DEPART takes its subject out of every claim queue, drops its service entries and makes it ABSENT with its timer
stopped (R99, R127, R139). A DEPART of this station takes it to STOPPED with reason LEFT from LEAVING, and by the rejoin
path to JOINING with reason DEPARTED and a new JOIN from JOINING and ACTIVE (R156, R161). The rejoin path posts ABANDONED
for each publication record, LOST_HOLD with reason DEPARTED for each window that is HELD, and STATE, in that order (R106,
R113, R178, R179). Its own DEPART, accepted in LEAVING, takes it to STOPPED with reason LEFT whatever its own entry holds
(R43, R161). -/
def Obligations.DepartRemovesItsSubject : Prop :=
  (∀ (s : State) (f : RxFrame) (frame : Frame) (subject : Nat) (reason : DepartReason), s.Hears f frame →
     frame.body = .depart subject reason → (s.status frame.sender = .joined ∨ s.status frame.sender = .active) →
     subject ≠ s.station →
     ∃ t, exec (.verdictWindowEnd allRecessive) s = .next t
       ∧ t.status subject = .absent ∧ t.silenceTimer subject = .stopped ∧ (∀ n, n ≠ subject → t.status n = s.status n)
       ∧ t.claims.map (·.queue) = s.claims.map (fun g => g.queue.erase subject)
       ∧ t.refresh.service = s.refresh.service.filter (fun e => e.requester != subject)
       ∧ t = { s with
           line := t.line, rx := t.rx, mirror := t.mirror, sched := t.sched, roster := t.roster
           pub := t.pub, claims := t.claims, refresh := t.refresh, report := t.report }
       ∧ t.refresh.copies = s.refresh.copies ∧ t.mirror.inbound = s.mirror.inbound)
  ∧ (∀ (s : State) (f : RxFrame) (frame : Frame) (reason : DepartReason), s.Hears f frame →
     frame.body = .depart s.station reason → (s.status frame.sender = .joined ∨ s.status frame.sender = .active) →
     ∃ t, exec (.verdictWindowEnd allRecessive) s = .next t
       ∧ t.line.reference = some frame.sender ∧ t.refresh.service = []
       ∧ (∀ n, t.status n = .absent) ∧ (∀ g ∈ t.claims, g.queue = [] ∧ g.hold = .unheld ∧ g.lease = .stopped)
       ∧ (s.ctl.state = .leaving → t.ctl.state = .stopped ∧ t.ctl.reason = .left ∧ t.line.state = .idleGap
           ∧ t.sched.control = [] ∧ t.roster.announce = .stopped)
       ∧ (s.ctl.state = .joining ∨ s.ctl.state = .active → t.ctl.state = .joining ∧ t.ctl.reason = .departed
           ∧ t.ctl.censusPending = true ∧ t.sched.control = [.presence .join] ∧ t.sched.inflight = none
           ∧ t.pub.queue = [] ∧ t.roster.announce = .running 2048
           ∧ t.report = (s.postAll ((s.pub.queue.map fun r => .abandoned r.tag r.window .departed)
             ++ ((s.claims.filter fun g => g.hold == .held).map fun g => .lostHold g.window .departed)
             ++ [.state .joining .departed])).report
           ∧ ∀ w, (t.copy w).fresh = false ∧ (t.copy w).accepted = 0 ∧ (t.copy w).applied = 0))
  ∧ (∀ (s : State) (g : InFlight), s.Sends g → s.ctl.state = .leaving → g.source = .control (.depart s.station) →
     g.frame.body = .depart s.station .leaving → s.pub.queue = [] →
     ∃ t, exec (.verdictWindowEnd allRecessive) s = .next t
       ∧ t.ctl.state = .stopped ∧ t.ctl.reason = .left ∧ t.line.state = .idleGap ∧ t.line.reference = some s.station
       ∧ t.sched.control = [] ∧ t.sched.inflight = none ∧ t.refresh.service = [] ∧ t.roster.announce = .stopped
       ∧ (∀ n, t.status n = .absent ∧ t.silenceTimer n = .stopped)
       ∧ (∀ c ∈ t.claims, c.queue = [] ∧ c.hold = .unheld ∧ c.lease = .stopped)
       ∧ (∀ e ∈ t.mirror.inbound, e.withdrawn = true)
       ∧ t.refresh.copies = s.refresh.copies.map (fun c => { c.unfetched with accepted := c.applied })
       ∧ (∀ a, Memory.read t.mirror.mem a = Memory.read s.mirror.mem a)
       ∧ t.report = (s.post (.state .stopped .left)).report)

/-- A FETCH of another station: an ACTIVE station that mirrors the window with a FRESH copy moves the service entry of
that window and requester to FROM, or adds one while it holds fewer than 4; any other changes nothing (R136, R137). This
station's own FETCH of a STALE copy in ACTIVE restarts the fetch timer, which stays stopped at a failed copy, and ends the
request when FROM is still the accepted fill point (R133). -/
def Obligations.FetchMakesAServiceEntry : Prop :=
  (∀ (s : State) (f : RxFrame) (frame : Frame) (w o : Nat), s.Hears f frame → frame.body = .fetch w o →
    (s.status frame.sender = .joined ∨ s.status frame.sender = .active) →
    ∃ t, exec (.verdictWindowEnd allRecessive) s = .next t
      ∧ t = { s with
          line := t.line, rx := t.rx, mirror := t.mirror, sched := t.sched, roster := t.roster
          pub := t.pub, refresh := t.refresh, report := t.report }
      ∧ t.refresh.copies = s.refresh.copies ∧ (∀ n, t.status n = s.status n) ∧ t.mirror.inbound = s.mirror.inbound
      ∧ t.refresh.service =
          (if s.ctl.state = .active ∧ (s.entry w).enabled = true ∧ (s.entry w).mirrored = true
              ∧ (s.copy w).fresh = true ∧ o % (if (s.entry w).bytes = 64 then 64 else 128) = 0 then
            (if s.refresh.service.any (fun e => e.window == w && e.requester == frame.sender) then
              s.refresh.service.map (fun e =>
                if e.window == w && e.requester == frame.sender then { e with next := o } else e)
            else if s.refresh.service.length < 4 then
              s.refresh.service ++ [{ window := w, requester := frame.sender, next := o }]
            else s.refresh.service)
          else s.refresh.service))
  ∧ (∀ (s : State) (g : InFlight) (w o : Nat), s.Sends g → s.ctl.state = .active → g.source = .control (.fetch w) →
    g.frame.body = .fetch w o → (s.status s.station = .joined ∨ s.status s.station = .active) →
    w < s.refresh.copies.length → (s.copy w).fresh = false →
    ∃ t, exec (.verdictWindowEnd allRecessive) s = .next t
      ∧ t.copy w = { s.copy w with
          timer := if (s.copy w).failed = true then .stopped else .running 4096
          request := if o = (s.copy w).accepted then false else (s.copy w).request }
      ∧ (∀ v, v ≠ w → t.copy v = s.copy v) ∧ t.refresh.service = s.refresh.service ∧ t.sched.inflight = none
      ∧ t.ctl = s.ctl ∧ t.claims = s.claims ∧ (∀ n, t.status n = s.status n) ∧ t.mirror.inbound = s.mirror.inbound)

/-- A FILL of another station: a STALE mirrored copy waiting at its offset takes the chunk while a place is free, its
accepted fill point moving by the data length; the service entry of its window and requester is dropped
(R33, R42, R139, R140). This station's own FILL moves its service entry on by the chunk, or takes it from the table at the
window's end, and empties the chunk buffer (R69, R85, R138). -/
def Obligations.FillIsTakenAtItsFillPoint : Prop :=
  (∀ (s : State) (f : RxFrame) (frame : Frame) (w o requester : Nat) (data : List Byte), s.Hears f frame →
    frame.body = .fill w o requester data → (s.status frame.sender = .joined ∨ s.status frame.sender = .active) →
    w < s.refresh.copies.length →
    ∃ t, exec (.verdictWindowEnd allRecessive) s = .next t 
      ∧ t = { s with
          line := t.line, rx := t.rx, mirror := t.mirror, sched := t.sched, roster := t.roster
          pub := t.pub, refresh := t.refresh, report := t.report }
      ∧ (∀ n, t.status n = s.status n)
      ∧ t.refresh.service = s.refresh.service.filter (fun e => !(e.window == w && e.requester == requester))
      ∧ (¬ (s.ctl.state = .joining ∧ s.ctl.censusPending = true) ∧ (s.entry w).enabled = true
            ∧ (s.entry w).mirrored = true ∧ (s.copy w).fresh = false ∧ (s.copy w).accepted = o
            ∧ s.mirror.inbound.length < 4 →
          t.mirror.inbound = s.mirror.inbound ++
            [{ kind := .fill, window := w, offset := o, data := data, withdrawn := false }]
          ∧ t.refresh.copies = s.refresh.copies.set w { s.copy w with accepted := o + data.length })
      ∧ (s.ctl.state = .joining ∧ s.ctl.censusPending = true ∨ (s.entry w).enabled = false
            ∨ (s.entry w).mirrored = false ∨ (s.copy w).fresh = true ∨ (s.copy w).accepted ≠ o
            ∨ 4 ≤ s.mirror.inbound.length →
          t.mirror.inbound = s.mirror.inbound ∧ t.refresh.copies = s.refresh.copies))
  ∧ (∀ (s : State) (g : InFlight) (w o r : Nat) (data : List Byte), s.Sends g → g.source = .service w r →
    g.frame.body = .fill w o r data → (s.status s.station = .joined ∨ s.status s.station = .active) →
    (s.copy w).fresh = true →
    ∃ t, exec (.verdictWindowEnd allRecessive) s = .next t
      ∧ t.refresh.service = (if o + data.length < (s.entry w).bytes then s.refresh.service.map (fun e =>
          if e.window == w && e.requester == r then { e with next := o + data.length } else e)
        else s.refresh.service.filter (fun e => !(e.window == w && e.requester == r)))
      ∧ t.refresh.copies = s.refresh.copies ∧ t.sched.inflight = none ∧ t.sched.chunk = none
      ∧ t.ctl = s.ctl ∧ t.claims = s.claims ∧ (∀ n, t.status n = s.status n) ∧ t.mirror.inbound = s.mirror.inbound)

/-! ### Timers -/

/-- The announce timer offers an ANNOUNCE; a silence timer offers a DEPART of its peer, in JOINING and ACTIVE (R124, R125).
A lease that runs out in HELD: EXPIRING, LOST_HOLD with reason LEASE, and a RELEASE offered; the claim queues stay (R105). -/
def Obligations.ExpiredTimersOfferTheirFrames : Prop :=
  ((∀ (s : State) (left : Nat), s.ctl.state = .joining ∨ s.ctl.state = .active → s.roster.announce = .running left →
     ∃ t, exec .announceTimerExpiry s = .next t ∧ t = { s with roster := t.roster, sched := t.sched }
       ∧ t.roster = { s.roster with announce := .runOut }
       ∧ (t.sched.control.length < 8 → .presence .announce ∈ t.sched.control))
   ∧ (∀ (s : State) (n left : Nat), s.isMember = true → n < 32 → s.silenceTimer n = .running left →
     ∃ t, exec (.silenceTimerExpiry n) s = .next t ∧ t = { s with roster := t.roster, sched := t.sched }
       ∧ t.silenceTimer n = .runOut ∧ (∀ m, t.status m = s.status m)
       ∧ (∀ m, m ≠ n → t.silenceTimer m = s.silenceTimer m)
       ∧ (s.ctl.state ≠ .leaving → t.sched.control.length < 8 → .depart n ∈ t.sched.control)
       ∧ (s.ctl.state = .leaving → t.sched = s.sched)))
  ∧ (∀ (s : State) (w left : Nat) (g : Guard), s.guardOf w = some g → g.hold = .held → g.lease = .running left →
     ∃ t, exec (.leaseExpiry w) s = .next t ∧ t = { s with claims := t.claims, report := t.report, sched := t.sched }
       ∧ t.guardOf w = some { g with hold := .expiring, lease := .runOut } ∧ (∀ v, t.claimQueue v = s.claimQueue v)
       ∧ t.mayWrite w = (match (s.entry w).policy with
           | .shared => true
           | .owned => (s.entry w).owner == some s.station
           | .guarded => false)
       ∧ t.report = (s.post (.lostHold w .lease)).report
       ∧ (s.ctl.state = .active → t.sched.control.length < 8 → .release w ∈ t.sched.control))

/-- The answer timer of a joiner with no frame on the line makes the founding test: it founds when no lower entry is
JOINED and none is ACTIVE, else the timer is set again (R70, R152 to R154); with a frame on the line the test waits, and it
is made at the end of that frame's window, on the roster as the frame left it (R153). The founder offers FOUNDED while its
own entry is JOINED (R154). -/
def Obligations.AnswerTimerMakesTheFoundingTest : Prop :=
  (∀ (s : State) (left : Nat), s.ctl.state = .joining → s.ctl.censusPending = true → s.ctl.answer = .running left →
    ∃ t, exec .answerTimerExpiry s = .next t
      ∧ (s.line.state = .receiving ∨ s.line.state = .transmitting ∨ s.line.state = .verdict →
          t = { s with ctl := { s.ctl with answer := .runOut, foundingDue := true } })
      ∧ (s.line.state = .idleGap ∨ s.line.state = .slotting ∨ s.line.state = .stuck →
          ((∀ n, n < s.station → s.status n ≠ .joined) ∧ (∀ e ∈ s.roster.entries, e.status ≠ .active) →
            t.ctl.state = .active ∧ t.ctl.reason = .founded ∧ t.ctl.censusPending = false ∧ t.ctl.answer = .stopped
            ∧ t.engineApplying = true ∧ (∀ e ∈ t.mirror.inbound, e.withdrawn = true)
            ∧ t.report = (s.post (.state .active .founded)).report
            ∧ t.roster = s.roster ∧ t.claims = s.claims ∧ t.refresh = s.refresh
            ∧ (s.status s.station = .joined → t.sched.control.length < 8 → .presence .founded ∈ t.sched.control))
          ∧ (¬ ((∀ n, n < s.station → s.status n ≠ .joined) ∧ (∀ e ∈ s.roster.entries, e.status ≠ .active)) →
            t.ctl = { s.ctl with answer := .running 1024, foundingDue := false } ∧ t.roster = s.roster
            ∧ t.report = s.report ∧ t.mirror.inbound = s.mirror.inbound)))
  ∧ (∀ (samples : BitVec 20) (s : State) (f : RxFrame), s.ctl.state = .joining → s.ctl.censusPending = true →
    s.line.state = .verdict → s.rx.frame = some f → f.sending = false → (f.objects = true ∨ samples ≠ allRecessive) →
    ¬ (f.objects = true ∧ 8 ≤ s.rx.objectionRun) → s.ctl.foundingDue = true → s.ctl.abandonDue = false →
    ∃ t, exec (.verdictWindowEnd samples) s = .next t
      ∧ ((∀ n, n < s.station → s.status n ≠ .joined) ∧ (∀ e ∈ s.roster.entries, e.status ≠ .active) →
          t.ctl.state = .active ∧ t.ctl.reason = .founded ∧ t.ctl.foundingDue = false ∧ t.engineApplying = true)
      ∧ (¬ ((∀ n, n < s.station → s.status n ≠ .joined) ∧ (∀ e ∈ s.roster.entries, e.status ≠ .active)) →
          t.ctl = { s.ctl with answer := .running 1024, foundingDue := false }))
  ∧ (∀ (s : State) (f : RxFrame) (frame : Frame), s.ctl.state = .joining → s.ctl.censusPending = true →
    s.line.state = .verdict → s.rx.frame = some f → f.sending = false → f.objects = false →
    parseFrame (f.chars.map RxChar.data) = some frame → frame.body = .presence .founded s.layout.signature →
    frame.sender ≠ s.station → frame.sender < s.roster.entries.length → s.status frame.sender ≠ .foreign →
    s.ctl.foundingDue = true → s.ctl.abandonDue = false →
    ∃ t, exec (.verdictWindowEnd allRecessive) s = .next t ∧ t.status frame.sender = .active
      ∧ t.ctl = { s.ctl with answer := .running 1024, foundingDue := false })

/-- An expiry of the fetch timer: below the fourth the timer is set again and the request renewed; the fourth makes the
copy failed with FETCH_FAILED (R134). -/
def Obligations.FourthFetchExpiryFailsTheCopy : Prop :=
  ∀ (s : State) (w left : Nat), s.ctl.state = .active → w < s.refresh.copies.length → (s.copy w).fresh = false →
    (s.copy w).failed = false → (s.copy w).timer = .running left →
    ∃ t, exec (.fetchTimerExpiry w) s = .next t
      ∧ t = { s with refresh := t.refresh, report := t.report, sched := t.sched }
      ∧ t.refresh.service = s.refresh.service ∧ (∀ v, v ≠ w → t.copy v = s.copy v)
      ∧ ((s.copy w).expiries < 3 → t.report = s.report ∧ t.copy w =
          { s.copy w with expiries := (s.copy w).expiries + 1, timer := .running 4096, request := true })
      ∧ ((s.copy w).expiries = 3 → t.report = (s.post (.fetchFailed w)).report ∧ t.copy w =
          { s.copy w with expiries := 4, timer := .stopped, request := false, failed := true })

/-! ### Mirror memory -/

/-- The completion of an application: the data byte at position j is at LOCAL × 64 + offset + j, every other byte of memory
is as it was, and the entry has left the head of the queue; a marked WRITE that is not withdrawn enters its window in the
change set (R59, R62 to R64, R181). A FILL moves the applied fill point by its length; where that reaches the window size
the copy is FRESH, FRESH is posted, and a watched window enters the change set (R132, R141). The fetch timer of a copy
not failed is set again in ACTIVE only: R134 lets it run there alone, where R141 names no state (the model's reading,
log 26). -/
def Obligations.ApplicationWritesItsBytesAndNoOther : Prop :=
  (∀ (s : State) (e : Inbound) (rest : List Inbound), Memory.wf s.mirror.mem → s.mirror.holder = some .application →
     s.mirror.inbound = e :: rest → (s.entry e.window).loc.toNat * 64 + e.offset + e.data.length ≤ 16384 →
     ∃ t, exec .applicationComplete s = .next t
       ∧ t = { s with mirror := t.mirror, refresh := t.refresh, report := t.report }
       ∧ t.mirror.inbound = rest
       ∧ (∀ j, j < e.data.length →
           Memory.read t.mirror.mem ((s.entry e.window).loc.toNat * 64 + e.offset + j) = e.data.getD j 0)
       ∧ (∀ a, a < (s.entry e.window).loc.toNat * 64 + e.offset
             ∨ (s.entry e.window).loc.toNat * 64 + e.offset + e.data.length ≤ a →
           Memory.read t.mirror.mem a = Memory.read s.mirror.mem a)
       ∧ (e.withdrawn = true → t.refresh = s.refresh ∧ t.report = s.report)
       ∧ (∀ mark, e.kind = .write mark → e.withdrawn = false → t.refresh = s.refresh
           ∧ t.report.outcomes = s.report.outcomes
           ∧ t.report.changes = (if mark = true ∧ e.window ∉ s.report.changes then s.report.changes ++ [e.window]
               else s.report.changes)))
  ∧ (∀ (s : State) (e : Inbound) (rest : List Inbound), s.mirror.holder = some .application →
     s.mirror.inbound = e :: rest → e.kind = .fill → e.withdrawn = false → e.window < s.refresh.copies.length →
     (s.entry e.window).loc.toNat * 64 + e.offset + e.data.length ≤ 16384 →
     ∃ t, exec .applicationComplete s = .next t
       ∧ (t.copy e.window).applied = (s.copy e.window).applied + e.data.length
       ∧ (t.copy e.window).accepted = (s.copy e.window).accepted ∧ (t.copy e.window).expiries = 0
       ∧ (∀ v, v ≠ e.window → t.copy v = s.copy v) ∧ t.refresh.service = s.refresh.service
       ∧ ((s.copy e.window).applied + e.data.length = (s.entry e.window).bytes →
           (t.copy e.window).fresh = true ∧ (t.copy e.window).timer = .stopped ∧ (t.copy e.window).request = false
           ∧ (t.copy e.window).failed = false ∧ t.report.outcomes = (s.post (.fresh e.window)).report.outcomes
           ∧ t.report.changes = (if (s.entry e.window).isWatched = true ∧ e.window ∉ s.report.changes then
               s.report.changes ++ [e.window] else s.report.changes))
       ∧ ((s.copy e.window).applied + e.data.length ≠ (s.entry e.window).bytes →
           (t.copy e.window).fresh = (s.copy e.window).fresh ∧ t.report = s.report
           ∧ (t.copy e.window).timer = (if (s.copy e.window).failed = false ∧ s.ctl.state = .active then .running 4096
               else (s.copy e.window).timer)))

/-- The completed founding zero-fill: every byte of a mirrored local range is 00 and every other byte as it was; every
mirrored copy is FRESH at its window size, and FRESH is posted for each in window order (R70, R143). -/
def Obligations.ZeroFillMakesEveryCopyFresh : Prop :=
  ∀ s : State, Memory.wf s.mirror.mem → s.mirror.holder = some (.zeroFill false) → s.rangesFit = true →
    s.refresh.copies.length = 16 →
    ∃ t, exec .zeroFillComplete s = .next t ∧ t = { s with mirror := t.mirror, refresh := t.refresh, report := t.report }
      ∧ (∀ a, ownedLocal s.layout.table a = true → Memory.read t.mirror.mem a = 0)
      ∧ (∀ a, ownedLocal s.layout.table a = false → Memory.read t.mirror.mem a = Memory.read s.mirror.mem a)
      ∧ (∀ w, w < 16 → (s.entry w).enabled = true → (s.entry w).mirrored = true → (t.copy w).fresh = true
          ∧ (t.copy w).accepted = 64 * 2 ^ (s.entry w).size ∧ (t.copy w).applied = 64 * 2 ^ (s.entry w).size)
      ∧ t.refresh.service = s.refresh.service ∧ t.mirror.inbound = s.mirror.inbound
      ∧ t.report = (s.postAll ((mirroredWindows s.layout.table).map .fresh)).report

/-- A completed fill read loads the chunk buffer with the window's chunk, current unless an entry for the window has come
since the request (R69). A delivered snapshot hands over MARK and the bytes from its local address, result DONE for a FRESH
copy and STALE for a STALE one, the continuation address at the first address (R67, R68, R168), all at the delivery (the
model's choice, log 17). Memory is unchanged. -/
def Obligations.FillReadAndSnapshotCopyMemory : Prop :=
  (∀ (s : State) (r : FillRead), s.mirror.holder = some (.fillRead r) → r.discard = false →
     (s.entry r.window).loc.toNat * 64 + r.offset + (s.entry r.window).chunk ≤ 16384 →
     ∃ t, exec .fillReadComplete s = .next t ∧ t = { s with mirror := t.mirror, sched := t.sched }
       ∧ t.sched = { s.sched with
           chunk := some { window := r.window, offset := r.offset, current := !r.spoiled, data :=
             (List.range (s.entry r.window).chunk).map (fun i =>
               Memory.read s.mirror.mem ((s.entry r.window).loc.toNat * 64 + r.offset + i)) } }
       ∧ t.mirror.inbound = s.mirror.inbound ∧ ∀ a, Memory.read t.mirror.mem a = Memory.read s.mirror.mem a)
  ∧ (∀ (s : State) (q : Snapshot) (fresh : Bool) (first : Word), s.mirror.holder = some (.snapshot q fresh false) →
     s.port.cmd = .reading first → q.address + q.length ≤ 16384 →
     ∃ t, exec .snapshotDelivered s = .next t ∧ t = { s with mirror := t.mirror, port := t.port }
       ∧ t.port.response = 0x5A :: (List.range q.length).map (fun i => Memory.read s.mirror.mem (q.address + i))
       ∧ t.port.lastResult = (if fresh then .done else .stale) ∧ t.port.lastDetail = none ∧ t.port.cont = first
       ∧ t.port.selected = s.port.selected ∧ t.port.statusByte = s.port.statusByte
       ∧ t.mirror.inbound = s.mirror.inbound ∧ ∀ a, Memory.read t.mirror.mem a = Memory.read s.mirror.mem a)

/-- At a free memory the arbiter grants, in this order: a snapshot passed over 4 times, the application (the zero-fill
ahead of the head entry), the fill read, the snapshot (R65, R66, R70). -/
def Obligations.ArbiterGrantsByPrecedence : Prop :=
  ∀ s : State, s.mirror.holder = none →
    (∀ q, s.mirror.snapReq = some q → 4 ≤ q.passes →
      s.arbitrate.mirror.holder = some (.snapshot q (s.copy q.window).fresh false)
      ∧ s.arbitrate.mirror.snapReq = none)
    ∧ ((∀ q, s.mirror.snapReq = some q → q.passes < 4) →
      (s.mirror.zeroPending = true → s.arbitrate.mirror.holder = some (.zeroFill false)
        ∧ s.arbitrate.mirror.zeroPending = false)
      ∧ (s.mirror.zeroPending = false → s.mirror.inbound ≠ [] → s.arbitrate.mirror.holder = some .application)
      ∧ (s.mirror.zeroPending = false → s.mirror.inbound = [] →
        (∀ r, s.mirror.fillReq = some r → s.arbitrate.mirror.holder = some (.fillRead r)
          ∧ s.arbitrate.mirror.fillReq = none)
        ∧ (s.mirror.fillReq = none → ∀ q, s.mirror.snapReq = some q →
          s.arbitrate.mirror.holder = some (.snapshot q (s.copy q.window).fresh false)))
      ∧ (s.arbitrate.mirror.holder.isSome → ∀ q, s.arbitrate.mirror.snapReq = some q →
        ∃ q', s.mirror.snapReq = some q' ∧ q.passes = q'.passes + 1))

/-! ### The local port -/

/-- The fall of CS# latches the status byte: the station state code in bits 2 to 0, ATTN in bit 3, publication full in
bit 4, outcome pending in bit 5, change pending in bit 6, 0 in bit 7; it is shifted out during the code byte, and HOLD
bytes during the address bytes of READ (R162, R163, R168, R186). -/
def Obligations.SelectionLatchesTheStatusByte : Prop :=
  ∀ s : State, s.pins.rstAsserted = false → s.port.selected = false →
    ∃ t, exec .selectionStart s = .next t ∧ t = { s with port := t.port }
      ∧ t.port.selected = true ∧ t.port.cmd = .awaiting
      ∧ (t.port.statusByte &&& 0x07).toNat = (match s.ctl.state with
          | .stopped => 0 | .listening => 1 | .joining => 2 | .active => 3 | .leaving => 4 | .muted => 5
          | .incompatible => 6)
      ∧ (t.port.statusByte.getLsbD 3 = true ↔ s.report.outcomes ≠ [] ∨ s.report.changes ≠ [])
      ∧ (t.port.statusByte.getLsbD 4 = true ↔ 16 ≤ s.pub.queue.length)
      ∧ (t.port.statusByte.getLsbD 5 = true ↔ s.report.outcomes ≠ [])
      ∧ (t.port.statusByte.getLsbD 6 = true ↔ s.report.changes ≠ [])
      ∧ t.port.statusByte.getLsbD 7 = false
      ∧ t.port.lastResult = s.port.lastResult ∧ t.port.lastDetail = s.port.lastDetail ∧ t.port.cont = s.port.cont
      ∧ (∀ code, t.sdoByte code 0 = .byte t.port.statusByte) ∧ (∀ k, 0 < k → t.sdoByte 0x02 k = .byte 0x00)

/-- The rise of CS# ends the command, and SDO is high impedance: a waiting snapshot is withdrawn and a granted one discarded;
a read cut before its MARK byte leaves result, detail and address as they were before it, at the delivered burst of which
nothing is shifted out by the model's own restoring of them (log 17); after any other command all three stand. Windows of
a cut TAKE CHANGES go back ahead of the rest in their order, and outcomes stay (R162, R167, R168, R172, R173). With CS#
high it changes nothing (the model's form of it, log 1). -/
def Obligations.SelectionEndEndsTheCommand : Prop :=
  (∀ (s : State) (shifted : Nat), s.port.selected = true →
    ∃ t, exec (.selectionEnd shifted) s = .next t
      ∧ t = { s with port := t.port, mirror := t.mirror, report := t.report }
      ∧ t.port.selected = false ∧ t.port.cmd = .awaiting ∧ t.port.response = []
      ∧ t.port.statusByte = s.port.statusByte ∧ (∀ code k, t.sdoByte code k = .highImpedance)
      ∧ t.report.outcomes = s.report.outcomes ∧ t.report.overflow = s.report.overflow
      ∧ t.mirror.inbound = s.mirror.inbound ∧ t.mirror.mem = s.mirror.mem
      ∧ (∀ first, s.port.cmd = .reading first → t.mirror.snapReq = none
          ∧ ∀ q fresh discard, t.mirror.holder = some (.snapshot q fresh discard) → discard = true)
      ∧ (∀ windows, s.port.cmd = .changesLatched windows →
          t.report.changes = windows.drop (shifted - 1)
            ++ s.report.changes.filter fun w => !(windows.drop (shifted - 1)).contains w)
      ∧ (∀ data result detail cont, s.port.cmd = .burst data 0 result detail cont → shifted = 0 →
          t.port.lastResult = result ∧ t.port.lastDetail = detail ∧ t.port.cont = cont)
      ∧ ((∀ data result detail cont, s.port.cmd = .burst data 0 result detail cont → shifted ≠ 0) →
          t.port.lastResult = s.port.lastResult ∧ t.port.lastDetail = s.port.lastDetail ∧ t.port.cont = s.port.cont)
      ∧ ((∀ windows, s.port.cmd ≠ .changesLatched windows) → t.report = s.report))
  ∧ (∀ (s : State) (shifted : Nat), s.port.selected = false → exec (.selectionEnd shifted) s = .next s)

/-- Outside a selection, and after its one command, no further port command changes anything (R162; the model's form of it,
log 1). An unknown code sets the last result ILLEGAL, and FF is shifted out for the rest of the selection (R162, R164;
last detail none is the model's reading, log 10). -/
def Obligations.OneCommandInASelection : Prop :=
  (∀ (s : State) (i : Instr), (s.port.selected = false ∨ s.port.cmd ≠ .awaiting) →
     (i = .status ∨ (∃ a, i = .read a) ∨ i = .readOn ∨ (∃ a, i = .write a) ∨ i = .writeOn ∨ (∃ w, i = .claim w)
       ∨ (∃ w, i = .release w) ∨ i = .takeOutcome ∨ i = .takeChanges ∨ i = .readRoster ∨ (∃ w, i = .readQueue w)
       ∨ (∃ w, i = .refetch w) ∨ (∃ x fl p b z o l c, i = .loadEntry x fl p b z o l c) ∨ (∃ x, i = .readEntry x)
       ∨ i = .start ∨ i = .leave ∨ ∃ c, i = .illegalCode c) →
     exec i s = .next s)
  ∧ (∀ (s : State) (code : Byte), s.port.selected = true → s.port.cmd = .awaiting → portCodes.contains code = false →
     ∃ t, exec (.illegalCode code) s = .next t ∧ t = { s with port := t.port }
       ∧ t.port.lastResult = .illegal ∧ t.port.lastDetail = none ∧ t.port.cont = s.port.cont
       ∧ t.port.statusByte = s.port.statusByte ∧ t.port.selected = true ∧ ∀ code k, t.sdoByte code k = .byte 0xFF)

/-- STATUS latches its sixteen bytes and clears the overflow flag in the same step (R167, R180, R187); the last result
stays (the model's reading, log 19). The codes of the station states (R184), and of the reasons, results and detail tests
(R187), are those the spec lists. -/
def Obligations.StatusShowsTheStationAndClearsOverflow : Prop :=
  (∀ s : State, s.port.selected = true → s.port.cmd = .awaiting →
    ∃ t, exec .status s = .next t ∧ t = { s with port := t.port, report.overflow := false }
      ∧ t.port = { s.port with
          cmd := .complete
          response := [byteOf s.ctl.state.code, byteOf s.ctl.reason.code, byteOf s.station, byteOf s.pins.rate.toNat,
            byteOf (s.layout.signature.toNat / 256), byteOf s.layout.signature.toNat, byteOf s.port.lastResult.code]
            ++ (match s.port.lastDetail with
                | none => [0x00, 0xFF]
                | some d => [byteOf d.test.code, byteOf (match d.entry with | some n => n | none => 0xFF)])
            ++ [s.pub.lastTag, byteOf s.pub.queue.length, byteOf s.sched.control.length,
                byteOf s.mirror.inbound.length, byteOf s.report.outcomes.length, byteOf s.report.changes.length,
                if s.report.overflow then 0x01 else 0x00] })
  ∧ (∀ state : StationState, state.code = match state with
      | .stopped => 0 | .listening => 1 | .joining => 2 | .active => 3 | .leaving => 4 | .muted => 5 | .incompatible => 6)
  ∧ (∀ reason : Reason, reason.code = match reason with
      | .pinReset => 0x00 | .start => 0x01 | .reference => 0x02 | .joinFailed => 0x03 | .founded => 0x04
      | .census => 0x05 | .departed => 0x06 | .objections => 0x07 | .recovered => 0x08 | .signature => 0x09
      | .duplicateId => 0x0A | .leave => 0x0B | .left => 0x0C | .departAbandoned => 0x0D)
  ∧ (∀ result : Result, result.code = match result with
      | .done => 0x00 | .notActive => 0x01 | .unmapped => 0x02 | .stale => 0x03 | .denied => 0x04 | .full => 0x05
      | .redundant => 0x06 | .notGuarded => 0x07 | .cancelledLocal => 0x08 | .wrongState => 0x09 | .tableError => 0x0A
      | .illegal => 0x0B)
  ∧ (∀ test : TableTest, test.code = match test with
      | .noWindow => 0x01 | .alignment => 0x02 | .noOwner => 0x03 | .leasePolicy => 0x04 | .watchUnmirrored => 0x05
      | .localRange => 0x06 | .localOverlap => 0x07 | .tooManyGuarded => 0x08)

/-- READ, and READ ON from the continuation address: in a mirrored window a snapshot of the local bytes is asked for,
result and address stay, and HOLD is shifted out; elsewhere MARK and 00 bytes follow at once with result UNMAPPED. The
burst ends with its decoded run, after 32 bytes at most; each data byte out moves the address on by one, FFFF to 0000
(R49, R51, R65, R67, R165, R168). Result and address of a read elsewhere are set when it is taken (the model's choice,
log 17). An address decodes to the lowest-numbered enabled window whose region, BASE to BASE + size − 1, holds it, none in
STOPPED; two addresses lie in one run when both decode to one window at following offsets or neither to any, never across
FFFF (R48 to R51). -/
def Obligations.ReadAsksForASnapshotOrAnswersUnmapped : Prop :=
  (∀ (s : State) (i : Instr) (first : Word), s.port.selected = true → s.port.cmd = .awaiting →
     (i = .read first ∨ (i = .readOn ∧ s.port.cont = first)) →
     (1 ≤ s.burstLength first.toNat ∧ s.burstLength first.toNat ≤ 32
       ∧ (∀ j, j + 1 < s.burstLength first.toNat → s.sameRun (first.toNat + j) = true)
       ∧ (s.burstLength first.toNat < 32 → s.sameRun (first.toNat + s.burstLength first.toNat - 1) = false))
     ∧ (∀ w o, s.decode first.toNat = some (w, o) → (s.entry w).isMirrored = true →
       ∃ t, exec i s = .next t
         ∧ t = { s with port := { s.port with cmd := .reading first, response := [] }, mirror := t.mirror }
         ∧ (∀ code k, t.sdoByte code k = .byte 0x00) ∧ t.mirror.mem = s.mirror.mem ∧ t.mirror.inbound = s.mirror.inbound
         ∧ (s.mirror.holder.isSome → t.mirror = { s.mirror with
             snapReq := some ⟨w, (s.entry w).loc.toNat * 64 + o, s.burstLength first.toNat, 0⟩ })
         ∧ (s.mirror.holder = none → s.mirror.zeroPending = false → s.mirror.inbound = [] → s.mirror.fillReq = none →
           t.mirror = { s.mirror with
             snapReq := none
             holder := some (.snapshot ⟨w, (s.entry w).loc.toNat * 64 + o, s.burstLength first.toNat, 0⟩
               (s.copy w).fresh false) }))
     ∧ ((∀ w o, s.decode first.toNat = some (w, o) → (s.entry w).isMirrored = false) →
       exec i s = .next { s with port := { s.port with
         cmd := .burst (List.replicate (s.burstLength first.toNat) 0x00) 0 s.port.lastResult s.port.lastDetail s.port.cont
         response := 0x5A :: List.replicate (s.burstLength first.toNat) 0x00
         lastResult := .unmapped
         lastDetail := none
         cont := first } }))
  ∧ (∀ (s : State) (data : List Byte) (out : Nat) (result : Result) (detail : Option TableFault) (cont : Word),
     s.port.cmd = .burst data out result detail cont →
     exec .readDataByteOut s = .next (if out < data.length then
       { s with port := { s.port with cmd := .burst data (out + 1) result detail cont, cont := s.port.cont + 1 } } else s))
  ∧ (∀ (s : State) (a : Nat), (s.ctl.state = .stopped → s.decode a = none)
    ∧ (s.ctl.state ≠ .stopped → ∀ w o, s.decode a = some (w, o) ↔
      ((s.entry w).enabled = true ∧ (s.entry w).base.toNat ≤ a
        ∧ a < (s.entry w).base.toNat + 64 * 2 ^ (s.entry w).size ∧ o = a - (s.entry w).base.toNat)
      ∧ ∀ v, v < w → (s.entry v).enabled = true → (s.entry v).base.toNat ≤ a →
          ¬ a < (s.entry v).base.toNat + 64 * 2 ^ (s.entry v).size)
    ∧ (s.sameRun a = true ↔ a ≠ 0xFFFF ∧ ((∃ w o, s.decode a = some (w, o) ∧ s.decode (a + 1) = some (w, o + 1))
        ∨ (s.decode a = none ∧ s.decode (a + 1) = none))))

/-- WRITE sets the continuation address and the last result DONE, WRITE ON keeps the address. A data byte is tested in
order: unmapped, denied by the window's policy, state not ACTIVE, no place. A refused byte sets its result, keeps the
address and ends the write; a placed one joins the tail record where that is an unselected WRITE of its window with fewer
than 32 bytes that it continues, or makes a record with a new tag, and the address moves on (R53, R74 to R76, R165, R169).
The order of the tests holds in every station state (the model's reading, log 42). -/
def Obligations.WriteByteIsPlacedOrRefused : Prop :=
  (∀ (s : State) (i : Instr) (first : Word), s.port.selected = true → s.port.cmd = .awaiting →
     (i = .write first ∨ (i = .writeOn ∧ s.port.cont = first)) →
     ∃ t, exec i s = .next t ∧ (∀ code k, t.sdoByte code k = .byte 0x00)
       ∧ t = { s with port := { s.port with
           cmd := .writing, response := [], cont := first, lastResult := .done, lastDetail := none } })
  ∧ (∀ (s : State) (b : Byte), s.port.selected = true → s.port.cmd = .writing →
     (s.decode s.port.cont.toNat = none → exec (.writeDataByte b) s = .next { s with port := { s.port with
       cmd := .refusedWrite, lastResult := .unmapped, lastDetail := none } })
     ∧ ∀ w o, s.decode s.port.cont.toNat = some (w, o) →
       (((s.entry w).policy = .owned ∧ (s.entry w).owner ≠ some s.station
           ∨ (s.entry w).policy = .guarded ∧ (s.holdOf w = .unheld ∨ s.holdOf w = .expiring)) →
         exec (.writeDataByte b) s = .next { s with port := { s.port with
           cmd := .refusedWrite, lastResult := .denied, lastDetail := none } })
       ∧ (((s.entry w).policy = .shared ∨ ((s.entry w).policy = .owned ∧ (s.entry w).owner = some s.station)
           ∨ ((s.entry w).policy = .guarded ∧ (s.holdOf w = .claiming ∨ s.holdOf w = .waiting ∨ s.holdOf w = .held))) →
         (s.ctl.state ≠ .active → exec (.writeDataByte b) s = .next { s with port := { s.port with
           cmd := .refusedWrite, lastResult := .notActive, lastDetail := none } })
         ∧ (s.ctl.state = .active →
           (∀ (records : List PubRecord) (tag : Byte) (offset : Nat) (data : List Byte),
             s.pub.queue = records ++ [{ kind := .write offset data, tag := tag, window := w, selected := false }] →
             data.length < 32 → o = offset + data.length →
             exec (.writeDataByte b) s = .next { s with
               pub := { s.pub with
                 queue := records ++ [{ kind := .write offset (data ++ [b]), tag := tag, window := w, selected := false }]
                 lastTag := tag }
               port.cont := s.port.cont + 1 })
           ∧ ((∀ tail offset data, s.pub.queue.getLast? = some tail → tail.kind = .write offset data →
                ¬ (tail.selected = false ∧ tail.window = w ∧ data.length < 32 ∧ o = offset + data.length)) →
             s.pub.queue.length < 16 →
             exec (.writeDataByte b) s = .next { s with
               pub :=
                 { queue := s.pub.queue ++
                     [{ kind := .write o [b], tag := s.pub.tagCounter, window := w, selected := false }]
                   tagCounter := s.pub.tagCounter + 1
                   lastTag := s.pub.tagCounter }
               port.cont := s.port.cont + 1 })
           ∧ ((∀ tail offset data, s.pub.queue.getLast? = some tail → tail.kind = .write offset data →
                ¬ (tail.selected = false ∧ tail.window = w ∧ data.length < 32 ∧ o = offset + data.length)) →
             16 ≤ s.pub.queue.length →
             exec (.writeDataByte b) s = .next { s with port := { s.port with
               cmd := .refusedWrite, lastResult := .full, lastDetail := none } }))))

/-- CLAIM is answered with the first result that applies; on DONE a CLAIM record with a new tag joins the queue and the
hold is CLAIMING, every other result changes the port alone, the memory's waiting grants aside (R75, R107, R170). -/
def Obligations.ClaimIsAnsweredAndQueued : Prop :=
  ∀ (s : State) (window : Byte), s.port.selected = true → s.port.cmd = .awaiting →
    ∃ t result, exec (.claim window) s = .next t
      ∧ result = (if s.ctl.state ≠ .active then Result.notActive
          else if (s.entry window.toNat).isGuarded = false then .notGuarded
          else if s.inQueue window.toNat = true ∨ (∃ r ∈ s.pub.queue, r.kind = .claim ∧ r.window = window.toNat) then
            .redundant
          else if 16 ≤ s.pub.queue.length then .full
          else .done)
      ∧ t = { s with port := t.port, pub := t.pub, claims := t.claims, mirror := t.mirror }
      ∧ t.mirror.mem = s.mirror.mem ∧ t.mirror.inbound = s.mirror.inbound
      ∧ t.port = { s.port with cmd := .complete, response := [byteOf result.code], lastResult := result, lastDetail := none }
      ∧ (result = .done →
          t.pub.queue = s.pub.queue ++
            [{ kind := .claim, tag := s.pub.tagCounter, window := window.toNat, selected := false }]
          ∧ t.pub.tagCounter = s.pub.tagCounter + 1 ∧ t.pub.lastTag = s.pub.tagCounter
          ∧ t.claims = s.claims.map fun g => if g.window = window.toNat then { g with hold := .claiming } else g)
      ∧ (result ≠ .done → t.pub = s.pub ∧ t.claims = s.claims)

/-- RELEASE is answered with the first case that applies: an unselected CLAIM record is cancelled with ABANDONED,
OVERTAKEN, and the hold becomes NONE; otherwise a RELEASE record with a new tag joins the queue and the hold stays; every
other result changes the port alone, the memory's waiting grants aside (R75, R108, R170). -/
def Obligations.ReleaseCancelsOrQueues : Prop :=
  ∀ (s : State) (window : Byte), s.port.selected = true → s.port.cmd = .awaiting →
    ∃ t result, exec (.release window) s = .next t
      ∧ result = (if s.ctl.state ≠ .active then Result.notActive
          else if (s.entry window.toNat).isGuarded = false then .notGuarded
          else if ∃ r ∈ s.pub.queue, r.kind = .claim ∧ r.window = window.toNat ∧ r.selected = false then .cancelledLocal
          else if s.inQueue window.toNat = false
            ∧ (∀ r ∈ s.pub.queue, ¬ (r.kind = .claim ∧ r.window = window.toNat)) then .redundant
          else if 16 ≤ s.pub.queue.length then .full
          else .done)
      ∧ t = { s with port := t.port, pub := t.pub, claims := t.claims, mirror := t.mirror, report := t.report }
      ∧ t.mirror.mem = s.mirror.mem ∧ t.mirror.inbound = s.mirror.inbound
      ∧ t.port = { s.port with cmd := .complete, response := [byteOf result.code], lastResult := result, lastDetail := none }
      ∧ (∀ ahead r rest, result = .cancelledLocal → s.pub.queue = ahead ++ r :: rest →
          (r.kind = .claim ∧ r.window = window.toNat ∧ r.selected = false) →
          (∀ x ∈ ahead, ¬ (x.kind = .claim ∧ x.window = window.toNat ∧ x.selected = false)) →
          t.pub = { s.pub with queue := ahead ++ rest }
          ∧ t.claims = (s.claims.map fun g => if g.window = window.toNat then { g with hold := .unheld } else g)
          ∧ t.report = (s.post (.abandoned r.tag window.toNat .overtaken)).report)
      ∧ (result = .done → t.claims = s.claims ∧ t.report = s.report
          ∧ t.pub.queue = s.pub.queue ++
            [{ kind := .release, tag := s.pub.tagCounter, window := window.toNat, selected := false }]
          ∧ t.pub.tagCounter = s.pub.tagCounter + 1 ∧ t.pub.lastTag = s.pub.tagCounter)
      ∧ (result ≠ .done → result ≠ .cancelledLocal → t.pub = s.pub ∧ t.claims = s.claims ∧ t.report = s.report)

/-- R171: REFETCH is answered with the first result that applies. On DONE the copy's FILL entries are withdrawn, the WRITE
entries and those of other windows kept in order, a granted head alone standing marked (R64), and its record starts again
from offset 0 with its request pending (R142); every other result changes the port alone, the memory's waiting grants
aside. -/
def Obligations.RefetchIsAnsweredInOrder : Prop :=
  ∀ (s : State) (window : Byte), s.port.selected = true → s.port.cmd = .awaiting → s.layout.table.length = 16 →
    ∃ t result, exec (.refetch window) s = .next t
      ∧ result = (if s.ctl.state ≠ .active then Result.notActive
          else if 15 < window.toNat ∨ (s.entry window.toNat).enabled = false
            ∨ (s.entry window.toNat).mirrored = false then .unmapped
          else if (s.copy window.toNat).fresh = true then .redundant
          else .done)
      ∧ t = { s with port := t.port, refresh := t.refresh, mirror := t.mirror, sched := t.sched }
      ∧ t.port = { s.port with cmd := .complete, response := [byteOf result.code], lastResult := result, lastDetail := none }
      ∧ t.mirror.mem = s.mirror.mem ∧ t.sched.inflight = s.sched.inflight
      ∧ (result = .done →
          t.refresh.service = s.refresh.service
          ∧ t.refresh.copies = s.refresh.copies.set window.toNat ⟨false, 0, 0, true, .running 4096, 0, false⟩
          ∧ (∀ e ∈ t.mirror.inbound, e.kind = .fill → e.window = window.toNat → e.withdrawn = true)
          ∧ (s.mirror.holder ≠ some .application → t.mirror.inbound =
              s.mirror.inbound.filter fun e => !(e.kind == .fill && e.window == window.toNat))
          ∧ (∀ head rest, s.mirror.holder = some .application → s.mirror.inbound = head :: rest → t.mirror.inbound =
              (if head.kind = .fill ∧ head.window = window.toNat then { head with withdrawn := true } else head)
                :: rest.filter fun e => !(e.kind == .fill && e.window == window.toNat)))
      ∧ (result ≠ .done → t.refresh = s.refresh ∧ t.mirror.inbound = s.mirror.inbound ∧ t.sched = s.sched)

/-- TAKE OUTCOME latches the head record, or a NONE record on an empty queue, and sets DONE; nothing leaves the queue until
the fifth byte is out, which takes off the head (R172). TAKE CHANGES latches the count and the windows oldest first,
empties the set and sets DONE (R173, R190). -/
def Obligations.OutcomesAndChangesAreTaken : Prop :=
  (∀ s : State, s.port.selected = true → s.port.cmd = .awaiting → s.report.outcomes = [] →
    exec .takeOutcome s = .next { s with port := { s.port with
      cmd := .complete, response := [0x00, 0x00, 0xFF, 0x00, 0x00], lastResult := .done, lastDetail := none } })
  ∧ (∀ (s : State) (o : OutcomeRecord) (rest : List OutcomeRecord), s.port.selected = true → s.port.cmd = .awaiting →
    s.report.outcomes = o :: rest →
    o.bytes.length = 5 ∧ exec .takeOutcome s = .next { s with port := { s.port with
      cmd := .outcomeLatched, response := o.bytes, lastResult := .done, lastDetail := none } })
  ∧ (∀ s : State, s.port.cmd = .outcomeLatched →
    exec .outcomeRemoval s = .next { s with
      report := { s.report with outcomes := s.report.outcomes.tail }, port.cmd := .complete })
  ∧ (∀ s : State, s.port.cmd ≠ .outcomeLatched → exec .outcomeRemoval s = .next s)
  ∧ (∀ (s : State) (shifted : Nat), ∃ t, exec (.selectionEnd shifted) s = .next t
    ∧ t.report.outcomes = s.report.outcomes)
  ∧ (∀ s : State, s.port.selected = true → s.port.cmd = .awaiting →
      exec .takeChanges s = .next { s with
        report := { s.report with changes := [] }
        port := { s.port with
          cmd := .changesLatched s.report.changes
          response := BitVec.ofNat 8 s.report.changes.length :: s.report.changes.map (BitVec.ofNat 8)
          lastResult := .done
          lastDetail := none } })

/-- R188: the five bytes of an outcome record, kind by kind. -/
def Obligations.OutcomeRecordLayout : Prop :=
  (∀ t w o, w < 16 → (OutcomeRecord.rejected t w o).bytes
    = [0xC1, t, BitVec.ofNat 8 w, BitVec.ofNat 8 (o / 256), BitVec.ofNat 8 o])
  ∧ (∀ t w r, w < 16 → (OutcomeRecord.abandoned t w r).bytes = [0xC2, t, BitVec.ofNat 8 w, (match r with
      | .attempts => 0x01 | .overtaken => 0x02 | .leaving => 0x03 | .departed => 0x04 | .muted => 0x05), 0x00])
  ∧ (∀ t w, w < 16 → (OutcomeRecord.granted (some t) w).bytes = [0xC3, t, BitVec.ofNat 8 w, 0x00, 0x00])
  ∧ (∀ t w p, w < 16 → 1 ≤ p → p ≤ 7 →
      (OutcomeRecord.waiting (some t) w p).bytes = [0xC4, t, BitVec.ofNat 8 w, BitVec.ofNat 8 p, 0x00])
  ∧ (∀ t w, w < 16 → (OutcomeRecord.claimRefused (some t) w).bytes = [0xC5, t, BitVec.ofNat 8 w, 0x08, 0x00])
  ∧ (∀ t w p, w < 16 → p ≤ 7 →
      (OutcomeRecord.cancelled (some t) w (some p)).bytes = [0xC6, t, BitVec.ofNat 8 w, BitVec.ofNat 8 p, 0x00]
      ∧ (OutcomeRecord.cancelled none w (some p)).bytes = [0x86, 0x00, BitVec.ofNat 8 w, BitVec.ofNat 8 p, 0x00]
      ∧ (OutcomeRecord.cancelled (some t) w none).bytes = [0xC6, t, BitVec.ofNat 8 w, 0xFF, 0x00])
  ∧ (∀ w r, w < 16 → (OutcomeRecord.lostHold w r).bytes = [0x87, 0x00, BitVec.ofNat 8 w, (match r with
      | .lease => 0x06 | .departed => 0x04 | .muted => 0x05), 0x00])
  ∧ (∀ w, w < 16 → (OutcomeRecord.fresh w).bytes = [0x88, 0x00, BitVec.ofNat 8 w, 0x00, 0x00]
      ∧ (OutcomeRecord.fetchFailed w).bytes = [0x89, 0x00, BitVec.ofNat 8 w, 0x00, 0x00])
  ∧ (∀ st r, (OutcomeRecord.state st r).bytes = [0x0A, 0x00, 0xFF, BitVec.ofNat 8 st.code, BitVec.ofNat 8 r.code])
  ∧ noRecordBytes = [0x00, 0x00, 0xFF, 0x00, 0x00]

/-- READ ROSTER, READ QUEUE and READ ENTRY answer with the roster codes, the claim queue head first or a count of 0 with
NOT_GUARDED, and the entry's eight bytes or eight 00 with ILLEGAL, and change the port alone (R47, R174, R189, R190). -/
def Obligations.ReadsOfRosterQueueAndEntry : Prop :=
  ∀ s : State, s.port.selected = true → s.port.cmd = .awaiting →
    exec .readRoster s = .next { s with port := { s.port with
      cmd := .complete
      lastResult := .done
      lastDetail := none
      response := (List.range 32).map fun n => match s.status n with
        | .absent => 0x00
        | .joined => 0x01
        | .active => 0x02
        | .foreign => 0x03 } }
    ∧ (∀ w : Byte, (s.entry w.toNat).enabled = true → (s.entry w.toNat).policy = .guarded →
      exec (.readQueue w) s = .next { s with port := { s.port with
        cmd := .complete
        lastResult := .done
        lastDetail := none
        response := BitVec.ofNat 8 (s.claimQueue w.toNat).length :: (s.claimQueue w.toNat).map (BitVec.ofNat 8) } })
    ∧ (∀ w : Byte, (s.entry w.toNat).enabled = false ∨ (s.entry w.toNat).policy ≠ .guarded →
      exec (.readQueue w) s = .next { s with port := { s.port with
        cmd := .complete, lastResult := .notGuarded, lastDetail := none, response := [0x00] } })
    ∧ (∀ x : Byte, x.toNat ≤ 15 → exec (.readEntry x) s = .next { s with port := { s.port with
        cmd := .complete
        lastResult := .done
        lastDetail := none
        response :=
          [BitVec.ofNat 8 ((if (s.entry x.toNat).enabled then 1 else 0) + (if (s.entry x.toNat).mirrored then 2 else 0)
              + (if (s.entry x.toNat).watched then 4 else 0)),
            (match (s.entry x.toNat).policy with
              | .owned => 0x01
              | .shared => 0x02
              | .guarded => 0x03),
            BitVec.ofNat 8 ((s.entry x.toNat).base.toNat / 256), BitVec.ofNat 8 (s.entry x.toNat).base.toNat,
            BitVec.ofNat 8 (s.entry x.toNat).size,
            (match (s.entry x.toNat).owner with
              | none => 0xFF
              | some n => BitVec.ofNat 8 n),
            (s.entry x.toNat).lease, (s.entry x.toNat).loc] } })
    ∧ (∀ x : Byte, 15 < x.toNat → exec (.readEntry x) s = .next { s with port := { s.port with
        cmd := .complete, lastResult := .illegal, lastDetail := none, response := List.replicate 8 0x00 } })

/-- LOAD ENTRY: WRONG_STATE outside STOPPED; in STOPPED an index above 15 or an unknown policy, size or owner code is
ILLEGAL and leaves the table; otherwise the nine fields replace the entry whole, with DONE (R47, R166, R175, R181, R184,
R189). A refused one changes no byte of memory; a taken one none but those of a grant left over from the run that ended,
which completes there (the model's reading, log 18). -/
def Obligations.LoadEntryReplacesTheEntryWhole : Prop :=
  ∀ (s : State) (index flags policy : Byte) (base : Word) (size owner lease loc : Byte), s.port.selected = true →
    s.port.cmd = .awaiting → s.layout.table.length = 16 →
    ∃ t result, exec (.loadEntry index flags policy base size owner lease loc) s = .next t
      ∧ result = (if s.ctl.state ≠ .stopped then Result.wrongState
          else if 15 < index.toNat ∨ (policy ≠ 0x01 ∧ policy ≠ 0x02 ∧ policy ≠ 0x03) ∨ 8 < size.toNat
            ∨ (31 < owner.toNat ∧ owner ≠ 0xFF) then .illegal
          else .done)
      ∧ t.port = { s.port with cmd := .complete, response := [byteOf result.code], lastResult := result, lastDetail := none }
      ∧ t = { s with port := t.port, layout := t.layout, mirror := t.mirror, report := t.report }
      ∧ t.layout.signature = s.layout.signature ∧ t.report.outcomes = s.report.outcomes
      ∧ (result ≠ .done → t.layout = s.layout ∧ t.report = s.report ∧ t.mirror.mem = s.mirror.mem
          ∧ t.mirror.inbound = s.mirror.inbound)
      ∧ (result = .done →
          (∀ e rest, s.mirror.holder = some .application → s.mirror.inbound = e :: rest → t.mirror.inbound = rest
            ∧ ∀ a, a < (s.entry e.window).loc.toNat * 64 + e.offset
                ∨ (s.entry e.window).loc.toNat * 64 + e.offset + e.data.length ≤ a →
              Memory.read t.mirror.mem a = Memory.read s.mirror.mem a)
          ∧ (∀ ended, s.mirror.holder = some (.zeroFill ended) → t.mirror.inbound = s.mirror.inbound
            ∧ ∀ a, ownedLocal s.layout.table a = false → Memory.read t.mirror.mem a = Memory.read s.mirror.mem a)
          ∧ ((s.mirror.holder = some .application → s.mirror.inbound = []) →
              (∀ ended, s.mirror.holder ≠ some (.zeroFill ended)) →
            t.mirror.inbound = s.mirror.inbound ∧ t.mirror.mem = s.mirror.mem))
      ∧ (result = .done → t.layout.table = s.layout.table.set index.toNat
          { enabled := flags.getLsbD 0, base := base, size := size.toNat
            policy := if policy = 0x01 then .owned else if policy = 0x02 then .shared else .guarded
            owner := if owner = 0xFF then none else some owner.toNat
            lease := lease, mirrored := flags.getLsbD 1, loc := loc, watched := flags.getLsbD 2 }
        ∧ t.report.changes = (if flags.getLsbD 0 = true ∧ flags.getLsbD 1 = true ∧ flags.getLsbD 2 = true
            then s.report.changes else s.report.changes.filter (· != index.toNat)))

/-- START: WRONG_STATE outside STOPPED, and TABLE_ERROR in it with the first test of R55 that fails at the lowest entry,
changing the port alone (the memory's waiting grants aside); with no test failing, DONE takes the station to LISTENING with
reason START in one step, its signature the code of the 112 bytes of R57 (R55 to R57, R149, R175, R181). -/
def Obligations.StartValidatesThenListens : Prop :=
  ∀ s : State, s.port.selected = true → s.port.cmd = .awaiting →
    ∃ t, exec .start s = .next t
      ∧ (s.ctl.state ≠ .stopped → t.port = { s.port with
            cmd := .complete, response := [0x09, 0x00, 0xFF], lastResult := .wrongState, lastDetail := none }
          ∧ t = { s with port := t.port, mirror := t.mirror } ∧ t.mirror.mem = s.mirror.mem
          ∧ t.mirror.inbound = s.mirror.inbound)
      ∧ (∀ d, s.ctl.state = .stopped → FirstFailure s.layout.table d →
          t.port = { s.port with
            cmd := .complete, response := 0x0A :: detailBytes (some d), lastResult := .tableError, lastDetail := some d }
          ∧ t = { s with port := t.port, mirror := t.mirror } ∧ t.mirror.mem = s.mirror.mem
          ∧ t.mirror.inbound = s.mirror.inbound)
      ∧ (PassesValidation s.layout.table ∨ ∃ d, FirstFailure s.layout.table d)
      ∧ (s.ctl.state = .stopped → PassesValidation s.layout.table →
          t.port = { s.port with
            cmd := .complete, response := [0x00, 0x00, 0xFF], lastResult := .done, lastDetail := none }
          ∧ t.ctl.state = .listening ∧ t.ctl.reason = .start ∧ t.ctl.censusPending = false ∧ t.ctl.answer = .stopped
          ∧ t.layout.table = s.layout.table ∧ t.layout.signature = crc (signatureBytes112 s.layout.table)
          ∧ (signatureBytes112 s.layout.table).length = 112
          ∧ t.claims.map (·.window) = (List.range 16).filter (fun w => (s.entry w).isGuarded)
          ∧ (∀ g ∈ t.claims, g.queue = [] ∧ g.hold = .unheld ∧ g.lease = .stopped ∧ g.tag = none)
          ∧ (∀ a, ownedLocal s.layout.table a = false → Memory.wf s.mirror.mem → Memory.read t.mirror.mem a = 0)
          ∧ (∀ a, ownedLocal s.layout.table a = true → Memory.wf s.mirror.mem → s.mirror.holder = none →
              Memory.read t.mirror.mem a = Memory.read s.mirror.mem a)
          ∧ (∀ w, (t.copy w).fresh = false ∧ (t.copy w).accepted = 0 ∧ (t.copy w).applied = 0)
          ∧ (∀ n, t.status n = .absent) ∧ t.pub = { s.pub with queue := [] } ∧ t.sched.control = []
          ∧ t.sched.inflight = none ∧ t.sched.turn = .publications ∧ t.mirror.inbound = [] ∧ t.refresh.service = []
          ∧ t.line.reference = none ∧ t.line.state = .idleGap ∧ t.line.awaitSync = true ∧ t.line.silence = 0
          ∧ t.rx.objectionRun = 0 ∧ t.rx.cleanRun = 0 ∧ t.pins = s.pins
          ∧ t.report.outcomes = (s.post (.state .listening .start)).report.outcomes
          ∧ t.report.changes = s.report.changes.filter fun w => (s.entry w).isWatched)

/-- LEAVE by the station state: WRONG_STATE in STOPPED; STOPPED at once from LISTENING, MUTED and INCOMPATIBLE; LEAVING
from JOINING and ACTIVE, with the publications that are not on the line abandoned, the holds lost and DEPART of this
station admitted, behind a control frame on the line; a waiting frame is abandoned at once; REDUNDANT in LEAVING (R80, R88,
R90, R112, R160). The result is LEAVE's own also where it changes the station state (the model's reading of R164, R175 and
R176, log 35). -/
def Obligations.LeaveActsByTheStationState : Prop :=
  ∀ s : State, s.port.selected = true → s.port.cmd = .awaiting →
    ∃ t result, exec .leave s = .next t
      ∧ t.port = { s.port with cmd := .complete, response := [byteOf result.code], lastResult := result, lastDetail := none }
      ∧ (s.ctl.state = .stopped → result = Result.wrongState ∧ t = { s with port := t.port, mirror := t.mirror })
      ∧ (s.ctl.state = .leaving → result = Result.redundant ∧ t = { s with port := t.port, mirror := t.mirror })
      ∧ (s.ctl.state = .listening ∨ s.ctl.state = .muted ∨ s.ctl.state = .incompatible →
          result = .done ∧ t.ctl.state = .stopped ∧ t.ctl.reason = .leave ∧ t.line.reference = s.line.reference
          ∧ t.line.state = .idleGap ∧ t.layout = s.layout ∧ t.pub = s.pub ∧ (∀ bit, t.drivesAt bit = false)
          ∧ (∀ a, Memory.read t.mirror.mem a = Memory.read s.mirror.mem a)
          ∧ t.report = (s.post (.state .stopped .leave)).report)
      ∧ (s.ctl.state = .joining ∨ s.ctl.state = .active →
          result = .done ∧ t.ctl.state = .leaving ∧ t.ctl.reason = .leave ∧ t.refresh.service = []
          ∧ t.claims.map (·.queue) = s.claims.map (·.queue) ∧ (∀ g ∈ t.claims, g.hold = .unheld ∧ g.lease = .stopped)
          ∧ t.roster = { s.roster with announce := .stopped } ∧ t.line = s.line ∧ t.mirror.inbound = s.mirror.inbound
          ∧ .depart s.station ∈ t.sched.control
          ∧ (∀ e ∈ t.sched.control, e = .depart s.station
              ∨ ∃ g, s.sched.inflight = some g ∧ g.onLine = true ∧ g.source = .control e)
          ∧ ((∀ g, s.sched.inflight = some g → g.onLine = false) →
            t.sched.inflight = none ∧ t.pub = { s.pub with queue := [] } ∧ t.sched.control = [.depart s.station]
            ∧ t.report = (s.postAll ((s.pub.queue.map fun r => .abandoned r.tag r.window .leaving)
              ++ ((s.claims.filter fun g => g.hold == .held).map fun g => .lostHold g.window .departed)
              ++ [.state .leaving .leave])).report)
          ∧ (∀ g, s.sched.inflight = some g → g.onLine = true → t.sched.inflight = some g
            ∧ (g.source = .publication → t.pub = { s.pub with queue := s.pub.queue.take 1 }
              ∧ t.sched.control = [.depart s.station]
              ∧ t.report = (s.postAll (((s.pub.queue.drop 1).map fun r => .abandoned r.tag r.window .leaving)
                ++ ((s.claims.filter fun g => g.hold == .held).map fun g => .lostHold g.window .departed)
                ++ [.state .leaving .leave])).report)
            ∧ (g.source ≠ .publication → t.pub = { s.pub with queue := [] }
              ∧ t.report = (s.postAll ((s.pub.queue.map fun r => .abandoned r.tag r.window .leaving)
                ++ ((s.claims.filter fun g => g.hold == .held).map fun g => .lostHold g.window .departed)
                ++ [.state .leaving .leave])).report)
            ∧ (∀ e, g.source = .control e →
              t.sched.control = if e = .depart s.station then [e] else [e, .depart s.station])
            ∧ (∀ w r, g.source = .service w r → t.sched.control = [.depart s.station]
              ∧ t.sched.chunk = s.sched.chunk)))
end

