-- ==== Sys2Proof/Laws/State.lean ====
section
/-! SUPPORT. What each direct update of the state leaves unchanged, unit by unit, true by rfl. -/

namespace Sys2Proof.Machine

@[simp] theorem State.setCopy_frame (s : State) (w : Nat) (f : Copy → Copy) :
    (s.setCopy w f).pins = s.pins ∧ (s.setCopy w f).line = s.line ∧ (s.setCopy w f).rx = s.rx ∧
    (s.setCopy w f).layout = s.layout ∧ (s.setCopy w f).mirror = s.mirror ∧ (s.setCopy w f).pub = s.pub ∧
    (s.setCopy w f).sched = s.sched ∧ (s.setCopy w f).claims = s.claims ∧ (s.setCopy w f).roster = s.roster ∧
    (s.setCopy w f).ctl = s.ctl ∧ (s.setCopy w f).port = s.port ∧ (s.setCopy w f).report = s.report ∧
    (s.setCopy w f).pending = s.pending := ⟨rfl, rfl, rfl, rfl, rfl, rfl, rfl, rfl, rfl, rfl, rfl, rfl, rfl⟩

@[simp] theorem State.mapCopies_frame (s : State) (f : Copy → Copy) :
    (s.mapCopies f).pins = s.pins ∧ (s.mapCopies f).line = s.line ∧ (s.mapCopies f).rx = s.rx ∧
    (s.mapCopies f).layout = s.layout ∧ (s.mapCopies f).mirror = s.mirror ∧ (s.mapCopies f).pub = s.pub ∧
    (s.mapCopies f).sched = s.sched ∧ (s.mapCopies f).claims = s.claims ∧ (s.mapCopies f).roster = s.roster ∧
    (s.mapCopies f).ctl = s.ctl ∧ (s.mapCopies f).port = s.port ∧ (s.mapCopies f).report = s.report ∧
    (s.mapCopies f).pending = s.pending := ⟨rfl, rfl, rfl, rfl, rfl, rfl, rfl, rfl, rfl, rfl, rfl, rfl, rfl⟩

@[simp] theorem State.mapMirrored_frame (s : State) (f : Nat → Copy → Copy) :
    (s.mapMirrored f).pins = s.pins ∧ (s.mapMirrored f).line = s.line ∧ (s.mapMirrored f).rx = s.rx ∧
    (s.mapMirrored f).layout = s.layout ∧ (s.mapMirrored f).mirror = s.mirror ∧ (s.mapMirrored f).pub = s.pub ∧
    (s.mapMirrored f).sched = s.sched ∧ (s.mapMirrored f).claims = s.claims ∧
    (s.mapMirrored f).roster = s.roster ∧ (s.mapMirrored f).ctl = s.ctl ∧ (s.mapMirrored f).port = s.port ∧
    (s.mapMirrored f).report = s.report ∧ (s.mapMirrored f).pending = s.pending := ⟨rfl, rfl, rfl, rfl, rfl, rfl, rfl, rfl, rfl, rfl, rfl, rfl, rfl⟩

@[simp] theorem State.setGuard_frame (s : State) (w : Nat) (f : Guard → Guard) :
    (s.setGuard w f).pins = s.pins ∧ (s.setGuard w f).line = s.line ∧ (s.setGuard w f).rx = s.rx ∧
    (s.setGuard w f).layout = s.layout ∧ (s.setGuard w f).mirror = s.mirror ∧ (s.setGuard w f).pub = s.pub ∧
    (s.setGuard w f).sched = s.sched ∧ (s.setGuard w f).roster = s.roster ∧
    (s.setGuard w f).refresh = s.refresh ∧ (s.setGuard w f).ctl = s.ctl ∧ (s.setGuard w f).port = s.port ∧
    (s.setGuard w f).report = s.report ∧ (s.setGuard w f).pending = s.pending := ⟨rfl, rfl, rfl, rfl, rfl, rfl, rfl, rfl, rfl, rfl, rfl, rfl, rfl⟩

@[simp] theorem State.setEntry_frame (s : State) (n : Nat) (e : RosterEntry) :
    (s.setEntry n e).pins = s.pins ∧ (s.setEntry n e).line = s.line ∧ (s.setEntry n e).rx = s.rx ∧
    (s.setEntry n e).layout = s.layout ∧ (s.setEntry n e).mirror = s.mirror ∧ (s.setEntry n e).pub = s.pub ∧
    (s.setEntry n e).sched = s.sched ∧ (s.setEntry n e).claims = s.claims ∧
    (s.setEntry n e).refresh = s.refresh ∧ (s.setEntry n e).ctl = s.ctl ∧ (s.setEntry n e).port = s.port ∧
    (s.setEntry n e).report = s.report ∧ (s.setEntry n e).pending = s.pending := ⟨rfl, rfl, rfl, rfl, rfl, rfl, rfl, rfl, rfl, rfl, rfl, rfl, rfl⟩

@[simp] theorem State.passSnapshot_frame (s : State) :
    s.passSnapshot.pins = s.pins ∧ s.passSnapshot.line = s.line ∧ s.passSnapshot.rx = s.rx ∧
    s.passSnapshot.layout = s.layout ∧ s.passSnapshot.pub = s.pub ∧ s.passSnapshot.sched = s.sched ∧
    s.passSnapshot.claims = s.claims ∧ s.passSnapshot.roster = s.roster ∧ s.passSnapshot.refresh = s.refresh ∧
    s.passSnapshot.ctl = s.ctl ∧ s.passSnapshot.port = s.port ∧ s.passSnapshot.report = s.report ∧
    s.passSnapshot.pending = s.pending := ⟨rfl, rfl, rfl, rfl, rfl, rfl, rfl, rfl, rfl, rfl, rfl, rfl, rfl⟩

@[simp] theorem State.grantSnapshot_frame (s : State) (q : Snapshot) :
    (s.grantSnapshot q).pins = s.pins ∧ (s.grantSnapshot q).line = s.line ∧ (s.grantSnapshot q).rx = s.rx ∧
    (s.grantSnapshot q).layout = s.layout ∧ (s.grantSnapshot q).pub = s.pub ∧
    (s.grantSnapshot q).sched = s.sched ∧ (s.grantSnapshot q).claims = s.claims ∧
    (s.grantSnapshot q).roster = s.roster ∧ (s.grantSnapshot q).refresh = s.refresh ∧
    (s.grantSnapshot q).ctl = s.ctl ∧ (s.grantSnapshot q).port = s.port ∧
    (s.grantSnapshot q).report = s.report ∧ (s.grantSnapshot q).pending = s.pending := ⟨rfl, rfl, rfl, rfl, rfl, rfl, rfl, rfl, rfl, rfl, rfl, rfl, rfl⟩

@[simp] theorem State.grantFillRead_frame (s : State) (r : FillRead) :
    (s.grantFillRead r).pins = s.pins ∧ (s.grantFillRead r).line = s.line ∧ (s.grantFillRead r).rx = s.rx ∧
    (s.grantFillRead r).layout = s.layout ∧ (s.grantFillRead r).pub = s.pub ∧
    (s.grantFillRead r).sched = s.sched ∧ (s.grantFillRead r).claims = s.claims ∧
    (s.grantFillRead r).roster = s.roster ∧ (s.grantFillRead r).refresh = s.refresh ∧
    (s.grantFillRead r).ctl = s.ctl ∧ (s.grantFillRead r).port = s.port ∧
    (s.grantFillRead r).report = s.report ∧ (s.grantFillRead r).pending = s.pending := ⟨rfl, rfl, rfl, rfl, rfl, rfl, rfl, rfl, rfl, rfl, rfl, rfl, rfl⟩

@[simp] theorem State.spoilChunk_frame (s : State) (w : Nat) :
    (s.spoilChunk w).pins = s.pins ∧ (s.spoilChunk w).line = s.line ∧ (s.spoilChunk w).rx = s.rx ∧
    (s.spoilChunk w).layout = s.layout ∧ (s.spoilChunk w).pub = s.pub ∧ (s.spoilChunk w).claims = s.claims ∧
    (s.spoilChunk w).roster = s.roster ∧ (s.spoilChunk w).refresh = s.refresh ∧ (s.spoilChunk w).ctl = s.ctl ∧
    (s.spoilChunk w).port = s.port ∧ (s.spoilChunk w).report = s.report ∧ (s.spoilChunk w).pending = s.pending := ⟨rfl, rfl, rfl, rfl, rfl, rfl, rfl, rfl, rfl, rfl, rfl, rfl⟩

@[simp] theorem State.withdraw_frame (s : State) (p : Inbound → Bool) :
    (s.withdraw p).pins = s.pins ∧ (s.withdraw p).line = s.line ∧ (s.withdraw p).rx = s.rx ∧
    (s.withdraw p).layout = s.layout ∧ (s.withdraw p).pub = s.pub ∧ (s.withdraw p).sched = s.sched ∧
    (s.withdraw p).claims = s.claims ∧ (s.withdraw p).roster = s.roster ∧ (s.withdraw p).refresh = s.refresh ∧
    (s.withdraw p).ctl = s.ctl ∧ (s.withdraw p).port = s.port ∧ (s.withdraw p).report = s.report ∧
    (s.withdraw p).pending = s.pending := ⟨rfl, rfl, rfl, rfl, rfl, rfl, rfl, rfl, rfl, rfl, rfl, rfl, rfl⟩

@[simp] theorem State.emptyInbound_frame (s : State) :
    s.emptyInbound.pins = s.pins ∧ s.emptyInbound.line = s.line ∧ s.emptyInbound.rx = s.rx ∧
    s.emptyInbound.layout = s.layout ∧ s.emptyInbound.pub = s.pub ∧ s.emptyInbound.sched = s.sched ∧
    s.emptyInbound.claims = s.claims ∧ s.emptyInbound.roster = s.roster ∧ s.emptyInbound.refresh = s.refresh ∧
    s.emptyInbound.ctl = s.ctl ∧ s.emptyInbound.port = s.port ∧ s.emptyInbound.report = s.report ∧
    s.emptyInbound.pending = s.pending := ⟨rfl, rfl, rfl, rfl, rfl, rfl, rfl, rfl, rfl, rfl, rfl, rfl, rfl⟩

@[simp] theorem State.endZeroFill_frame (s : State) :
    s.endZeroFill.pins = s.pins ∧ s.endZeroFill.line = s.line ∧ s.endZeroFill.rx = s.rx ∧
    s.endZeroFill.layout = s.layout ∧ s.endZeroFill.pub = s.pub ∧ s.endZeroFill.sched = s.sched ∧
    s.endZeroFill.claims = s.claims ∧ s.endZeroFill.roster = s.roster ∧ s.endZeroFill.refresh = s.refresh ∧
    s.endZeroFill.ctl = s.ctl ∧ s.endZeroFill.port = s.port ∧ s.endZeroFill.report = s.report ∧
    s.endZeroFill.pending = s.pending := ⟨rfl, rfl, rfl, rfl, rfl, rfl, rfl, rfl, rfl, rfl, rfl, rfl, rfl⟩

@[simp] theorem State.discardFillRead_frame (s : State) :
    s.discardFillRead.pins = s.pins ∧ s.discardFillRead.line = s.line ∧ s.discardFillRead.rx = s.rx ∧
    s.discardFillRead.layout = s.layout ∧ s.discardFillRead.pub = s.pub ∧ s.discardFillRead.sched = s.sched ∧
    s.discardFillRead.claims = s.claims ∧ s.discardFillRead.roster = s.roster ∧
    s.discardFillRead.refresh = s.refresh ∧ s.discardFillRead.ctl = s.ctl ∧ s.discardFillRead.port = s.port ∧
    s.discardFillRead.report = s.report ∧ s.discardFillRead.pending = s.pending := ⟨rfl, rfl, rfl, rfl, rfl, rfl, rfl, rfl, rfl, rfl, rfl, rfl, rfl⟩

@[simp] theorem State.emptyChunk_frame (s : State) :
    s.emptyChunk.pins = s.pins ∧ s.emptyChunk.line = s.line ∧ s.emptyChunk.rx = s.rx ∧
    s.emptyChunk.layout = s.layout ∧ s.emptyChunk.pub = s.pub ∧ s.emptyChunk.claims = s.claims ∧
    s.emptyChunk.roster = s.roster ∧ s.emptyChunk.refresh = s.refresh ∧ s.emptyChunk.ctl = s.ctl ∧
    s.emptyChunk.port = s.port ∧ s.emptyChunk.report = s.report ∧ s.emptyChunk.pending = s.pending := ⟨rfl, rfl, rfl, rfl, rfl, rfl, rfl, rfl, rfl, rfl, rfl, rfl⟩

@[simp] theorem State.clearService_frame (s : State) :
    s.clearService.pins = s.pins ∧ s.clearService.line = s.line ∧ s.clearService.rx = s.rx ∧
    s.clearService.layout = s.layout ∧ s.clearService.pub = s.pub ∧ s.clearService.claims = s.claims ∧
    s.clearService.roster = s.roster ∧ s.clearService.ctl = s.ctl ∧ s.clearService.port = s.port ∧
    s.clearService.report = s.report ∧ s.clearService.pending = s.pending := ⟨rfl, rfl, rfl, rfl, rfl, rfl, rfl, rfl, rfl, rfl, rfl⟩

@[simp] theorem State.makeRecord_frame (s : State) (kind : PubKind) (w : Nat) :
    (s.makeRecord kind w).pins = s.pins ∧ (s.makeRecord kind w).line = s.line ∧
    (s.makeRecord kind w).rx = s.rx ∧ (s.makeRecord kind w).layout = s.layout ∧
    (s.makeRecord kind w).mirror = s.mirror ∧ (s.makeRecord kind w).sched = s.sched ∧
    (s.makeRecord kind w).claims = s.claims ∧ (s.makeRecord kind w).roster = s.roster ∧
    (s.makeRecord kind w).refresh = s.refresh ∧ (s.makeRecord kind w).ctl = s.ctl ∧
    (s.makeRecord kind w).port = s.port ∧ (s.makeRecord kind w).report = s.report ∧
    (s.makeRecord kind w).pending = s.pending := ⟨rfl, rfl, rfl, rfl, rfl, rfl, rfl, rfl, rfl, rfl, rfl, rfl, rfl⟩

@[simp] theorem State.clearClaims_frame (s : State) :
    s.clearClaims.pins = s.pins ∧ s.clearClaims.line = s.line ∧ s.clearClaims.rx = s.rx ∧
    s.clearClaims.layout = s.layout ∧ s.clearClaims.mirror = s.mirror ∧ s.clearClaims.pub = s.pub ∧
    s.clearClaims.sched = s.sched ∧ s.clearClaims.roster = s.roster ∧ s.clearClaims.refresh = s.refresh ∧
    s.clearClaims.ctl = s.ctl ∧ s.clearClaims.port = s.port ∧ s.clearClaims.report = s.report ∧
    s.clearClaims.pending = s.pending := ⟨rfl, rfl, rfl, rfl, rfl, rfl, rfl, rfl, rfl, rfl, rfl, rfl, rfl⟩

@[simp] theorem State.clearControl_frame (s : State) :
    s.clearControl.pins = s.pins ∧ s.clearControl.line = s.line ∧ s.clearControl.rx = s.rx ∧
    s.clearControl.layout = s.layout ∧ s.clearControl.mirror = s.mirror ∧ s.clearControl.pub = s.pub ∧
    s.clearControl.claims = s.claims ∧ s.clearControl.roster = s.roster ∧ s.clearControl.refresh = s.refresh ∧
    s.clearControl.ctl = s.ctl ∧ s.clearControl.port = s.port ∧ s.clearControl.report = s.report ∧
    s.clearControl.pending = s.pending := ⟨rfl, rfl, rfl, rfl, rfl, rfl, rfl, rfl, rfl, rfl, rfl, rfl, rfl⟩

@[simp] theorem State.resetTurn_frame (s : State) :
    s.resetTurn.pins = s.pins ∧ s.resetTurn.line = s.line ∧ s.resetTurn.rx = s.rx ∧
    s.resetTurn.layout = s.layout ∧ s.resetTurn.mirror = s.mirror ∧ s.resetTurn.pub = s.pub ∧
    s.resetTurn.claims = s.claims ∧ s.resetTurn.roster = s.roster ∧ s.resetTurn.refresh = s.refresh ∧
    s.resetTurn.ctl = s.ctl ∧ s.resetTurn.port = s.port ∧ s.resetTurn.report = s.report ∧
    s.resetTurn.pending = s.pending := ⟨rfl, rfl, rfl, rfl, rfl, rfl, rfl, rfl, rfl, rfl, rfl, rfl, rfl⟩

@[simp] theorem State.clearRoster_frame (s : State) :
    s.clearRoster.pins = s.pins ∧ s.clearRoster.line = s.line ∧ s.clearRoster.rx = s.rx ∧
    s.clearRoster.layout = s.layout ∧ s.clearRoster.mirror = s.mirror ∧ s.clearRoster.pub = s.pub ∧
    s.clearRoster.sched = s.sched ∧ s.clearRoster.claims = s.claims ∧ s.clearRoster.refresh = s.refresh ∧
    s.clearRoster.ctl = s.ctl ∧ s.clearRoster.port = s.port ∧ s.clearRoster.report = s.report ∧
    s.clearRoster.pending = s.pending := ⟨rfl, rfl, rfl, rfl, rfl, rfl, rfl, rfl, rfl, rfl, rfl, rfl, rfl⟩

@[simp] theorem State.clearCopies_frame (s : State) :
    s.clearCopies.pins = s.pins ∧ s.clearCopies.line = s.line ∧ s.clearCopies.rx = s.rx ∧
    s.clearCopies.layout = s.layout ∧ s.clearCopies.mirror = s.mirror ∧ s.clearCopies.pub = s.pub ∧
    s.clearCopies.sched = s.sched ∧ s.clearCopies.claims = s.claims ∧ s.clearCopies.roster = s.roster ∧
    s.clearCopies.ctl = s.ctl ∧ s.clearCopies.port = s.port ∧ s.clearCopies.report = s.report ∧
    s.clearCopies.pending = s.pending := ⟨rfl, rfl, rfl, rfl, rfl, rfl, rfl, rfl, rfl, rfl, rfl, rfl, rfl⟩

@[simp] theorem State.haltLine_frame (s : State) :
    s.haltLine.pins = s.pins ∧ s.haltLine.layout = s.layout ∧ s.haltLine.mirror = s.mirror ∧
    s.haltLine.pub = s.pub ∧ s.haltLine.sched = s.sched ∧ s.haltLine.claims = s.claims ∧
    s.haltLine.roster = s.roster ∧ s.haltLine.refresh = s.refresh ∧ s.haltLine.ctl = s.ctl ∧
    s.haltLine.port = s.port ∧ s.haltLine.report = s.report ∧ s.haltLine.pending = s.pending := ⟨rfl, rfl, rfl, rfl, rfl, rfl, rfl, rfl, rfl, rfl, rfl, rfl⟩

@[simp] theorem State.dropService_frame (s : State) (w r : Nat) :
    (s.dropService w r).pins = s.pins ∧ (s.dropService w r).line = s.line ∧ (s.dropService w r).rx = s.rx ∧
    (s.dropService w r).layout = s.layout ∧ (s.dropService w r).mirror = s.mirror ∧
    (s.dropService w r).pub = s.pub ∧ (s.dropService w r).sched = s.sched ∧
    (s.dropService w r).claims = s.claims ∧ (s.dropService w r).roster = s.roster ∧
    (s.dropService w r).ctl = s.ctl ∧ (s.dropService w r).port = s.port ∧
    (s.dropService w r).report = s.report ∧ (s.dropService w r).pending = s.pending := ⟨rfl, rfl, rfl, rfl, rfl, rfl, rfl, rfl, rfl, rfl, rfl, rfl, rfl⟩

@[simp] theorem State.dropServiceOf_frame (s : State) (r : Nat) :
    (s.dropServiceOf r).pins = s.pins ∧ (s.dropServiceOf r).line = s.line ∧ (s.dropServiceOf r).rx = s.rx ∧
    (s.dropServiceOf r).layout = s.layout ∧ (s.dropServiceOf r).mirror = s.mirror ∧
    (s.dropServiceOf r).pub = s.pub ∧ (s.dropServiceOf r).sched = s.sched ∧
    (s.dropServiceOf r).claims = s.claims ∧ (s.dropServiceOf r).roster = s.roster ∧
    (s.dropServiceOf r).ctl = s.ctl ∧ (s.dropServiceOf r).port = s.port ∧
    (s.dropServiceOf r).report = s.report ∧ (s.dropServiceOf r).pending = s.pending := ⟨rfl, rfl, rfl, rfl, rfl, rfl, rfl, rfl, rfl, rfl, rfl, rfl, rfl⟩

@[simp] theorem State.requestAll_frame (s : State) :
    s.requestAll.pins = s.pins ∧ s.requestAll.line = s.line ∧ s.requestAll.rx = s.rx ∧
    s.requestAll.layout = s.layout ∧ s.requestAll.mirror = s.mirror ∧ s.requestAll.pub = s.pub ∧
    s.requestAll.sched = s.sched ∧ s.requestAll.claims = s.claims ∧ s.requestAll.roster = s.roster ∧
    s.requestAll.ctl = s.ctl ∧ s.requestAll.port = s.port ∧ s.requestAll.report = s.report ∧
    s.requestAll.pending = s.pending := ⟨rfl, rfl, rfl, rfl, rfl, rfl, rfl, rfl, rfl, rfl, rfl, rfl, rfl⟩

@[simp] theorem State.setPresent_frame (s : State) (n : Nat) (st : RosterStatus) :
    (s.setPresent n st).pins = s.pins ∧ (s.setPresent n st).line = s.line ∧ (s.setPresent n st).rx = s.rx ∧
    (s.setPresent n st).layout = s.layout ∧ (s.setPresent n st).mirror = s.mirror ∧
    (s.setPresent n st).pub = s.pub ∧ (s.setPresent n st).sched = s.sched ∧
    (s.setPresent n st).claims = s.claims ∧ (s.setPresent n st).refresh = s.refresh ∧
    (s.setPresent n st).ctl = s.ctl ∧ (s.setPresent n st).port = s.port ∧
    (s.setPresent n st).report = s.report ∧ (s.setPresent n st).pending = s.pending := ⟨rfl, rfl, rfl, rfl, rfl, rfl, rfl, rfl, rfl, rfl, rfl, rfl, rfl⟩

@[simp] theorem State.setAbsent_frame (s : State) (n : Nat) :
    (s.setAbsent n).pins = s.pins ∧ (s.setAbsent n).line = s.line ∧ (s.setAbsent n).rx = s.rx ∧
    (s.setAbsent n).layout = s.layout ∧ (s.setAbsent n).mirror = s.mirror ∧ (s.setAbsent n).pub = s.pub ∧
    (s.setAbsent n).sched = s.sched ∧ (s.setAbsent n).claims = s.claims ∧ (s.setAbsent n).refresh = s.refresh ∧
    (s.setAbsent n).ctl = s.ctl ∧ (s.setAbsent n).port = s.port ∧ (s.setAbsent n).report = s.report ∧
    (s.setAbsent n).pending = s.pending := ⟨rfl, rfl, rfl, rfl, rfl, rfl, rfl, rfl, rfl, rfl, rfl, rfl, rfl⟩

/-- An own RELEASE changes the hold, the tag and the lease of a guard position alone, and leaves no hold HELD or EXPIRING. -/
@[simp] theorem Guard.released_frame (g : Guard) :
    g.released.window = g.window ∧ g.released.queue = g.queue ∧ g.released.hold ≠ .held ∧ g.released.hold ≠ .expiring := by
  unfold Guard.released
  split <;> simp_all [Guard.unhold]

@[simp] theorem State.completeJoined_frame (s : State) (kept : Nat) :
    (s.completeJoined kept).pins = s.pins ∧ (s.completeJoined kept).line = s.line ∧ (s.completeJoined kept).rx = s.rx ∧
    (s.completeJoined kept).layout = s.layout ∧ (s.completeJoined kept).mirror = s.mirror ∧ (s.completeJoined kept).pub = s.pub ∧
    (s.completeJoined kept).sched = s.sched ∧ (s.completeJoined kept).claims = s.claims ∧
    (s.completeJoined kept).refresh = s.refresh ∧ (s.completeJoined kept).ctl = s.ctl ∧ (s.completeJoined kept).port = s.port ∧
    (s.completeJoined kept).report = s.report ∧ (s.completeJoined kept).pending = s.pending := ⟨rfl, rfl, rfl, rfl, rfl, rfl, rfl, rfl, rfl, rfl, rfl, rfl, rfl⟩

@[simp] theorem State.learnFromCensus_frame (s : State) (sender : Nat) :
    (s.learnFromCensus sender).pins = s.pins ∧ (s.learnFromCensus sender).line = s.line ∧
    (s.learnFromCensus sender).rx = s.rx ∧ (s.learnFromCensus sender).layout = s.layout ∧
    (s.learnFromCensus sender).mirror = s.mirror ∧ (s.learnFromCensus sender).pub = s.pub ∧
    (s.learnFromCensus sender).sched = s.sched ∧ (s.learnFromCensus sender).claims = s.claims ∧
    (s.learnFromCensus sender).refresh = s.refresh ∧ (s.learnFromCensus sender).ctl = s.ctl ∧
    (s.learnFromCensus sender).port = s.port ∧ (s.learnFromCensus sender).report = s.report ∧
    (s.learnFromCensus sender).pending = s.pending := ⟨rfl, rfl, rfl, rfl, rfl, rfl, rfl, rfl, rfl, rfl, rfl, rfl, rfl⟩

@[simp] theorem State.staleChunk_frame (s : State) :
    s.staleChunk.pins = s.pins ∧ s.staleChunk.line = s.line ∧ s.staleChunk.rx = s.rx ∧
    s.staleChunk.layout = s.layout ∧ s.staleChunk.pub = s.pub ∧ s.staleChunk.claims = s.claims ∧
    s.staleChunk.roster = s.roster ∧ s.staleChunk.refresh = s.refresh ∧ s.staleChunk.ctl = s.ctl ∧
    s.staleChunk.port = s.port ∧ s.staleChunk.report = s.report ∧ s.staleChunk.pending = s.pending := ⟨rfl, rfl, rfl, rfl, rfl, rfl, rfl, rfl, rfl, rfl, rfl, rfl⟩

@[simp] theorem State.supply_frame (s : State) (source : Source) (frame : Frame) (attempts : Nat) :
    (s.supply source frame attempts).pins = s.pins ∧ (s.supply source frame attempts).layout = s.layout ∧
    (s.supply source frame attempts).mirror = s.mirror ∧ (s.supply source frame attempts).pub = s.pub ∧
    (s.supply source frame attempts).claims = s.claims ∧ (s.supply source frame attempts).roster = s.roster ∧
    (s.supply source frame attempts).refresh = s.refresh ∧ (s.supply source frame attempts).ctl = s.ctl ∧
    (s.supply source frame attempts).port = s.port ∧ (s.supply source frame attempts).report = s.report ∧
    (s.supply source frame attempts).pending = s.pending := ⟨rfl, rfl, rfl, rfl, rfl, rfl, rfl, rfl, rfl, rfl, rfl⟩

@[simp] theorem State.beginGap_frame (s : State) (voided : Bool) :
    (s.beginGap voided).pins = s.pins ∧ (s.beginGap voided).layout = s.layout ∧
    (s.beginGap voided).mirror = s.mirror ∧ (s.beginGap voided).pub = s.pub ∧
    (s.beginGap voided).sched = s.sched ∧ (s.beginGap voided).claims = s.claims ∧
    (s.beginGap voided).roster = s.roster ∧ (s.beginGap voided).refresh = s.refresh ∧
    (s.beginGap voided).ctl = s.ctl ∧ (s.beginGap voided).port = s.port ∧
    (s.beginGap voided).report = s.report ∧ (s.beginGap voided).pending = s.pending := ⟨rfl, rfl, rfl, rfl, rfl, rfl, rfl, rfl, rfl, rfl, rfl, rfl⟩

@[simp] theorem State.hearReference_frame (s : State) (f : RxFrame) :
    (s.hearReference f).pins = s.pins ∧ (s.hearReference f).rx = s.rx ∧ (s.hearReference f).layout = s.layout ∧
    (s.hearReference f).mirror = s.mirror ∧ (s.hearReference f).pub = s.pub ∧
    (s.hearReference f).sched = s.sched ∧ (s.hearReference f).claims = s.claims ∧
    (s.hearReference f).roster = s.roster ∧ (s.hearReference f).refresh = s.refresh ∧
    (s.hearReference f).ctl = s.ctl ∧ (s.hearReference f).port = s.port ∧
    (s.hearReference f).report = s.report ∧ (s.hearReference f).pending = s.pending := ⟨rfl, rfl, rfl, rfl, rfl, rfl, rfl, rfl, rfl, rfl, rfl, rfl, rfl⟩

@[simp] theorem State.beginReceiving_frame (s : State) :
    s.beginReceiving.pins = s.pins ∧ s.beginReceiving.layout = s.layout ∧ s.beginReceiving.mirror = s.mirror ∧
    s.beginReceiving.pub = s.pub ∧ s.beginReceiving.sched = s.sched ∧ s.beginReceiving.claims = s.claims ∧
    s.beginReceiving.roster = s.roster ∧ s.beginReceiving.refresh = s.refresh ∧ s.beginReceiving.ctl = s.ctl ∧
    s.beginReceiving.port = s.port ∧ s.beginReceiving.report = s.report ∧ s.beginReceiving.pending = s.pending := ⟨rfl, rfl, rfl, rfl, rfl, rfl, rfl, rfl, rfl, rfl, rfl, rfl⟩

@[simp] theorem State.beginVerdict_frame (s : State) (f : RxFrame) :
    (s.beginVerdict f).pins = s.pins ∧ (s.beginVerdict f).layout = s.layout ∧
    (s.beginVerdict f).mirror = s.mirror ∧ (s.beginVerdict f).pub = s.pub ∧
    (s.beginVerdict f).sched = s.sched ∧ (s.beginVerdict f).claims = s.claims ∧
    (s.beginVerdict f).roster = s.roster ∧ (s.beginVerdict f).refresh = s.refresh ∧
    (s.beginVerdict f).ctl = s.ctl ∧ (s.beginVerdict f).port = s.port ∧ (s.beginVerdict f).report = s.report ∧
    (s.beginVerdict f).pending = s.pending := ⟨rfl, rfl, rfl, rfl, rfl, rfl, rfl, rfl, rfl, rfl, rfl, rfl⟩

@[simp] theorem State.withdrawFrame_frame (s : State) :
    s.withdrawFrame.pins = s.pins ∧ s.withdrawFrame.layout = s.layout ∧ s.withdrawFrame.mirror = s.mirror ∧
    s.withdrawFrame.pub = s.pub ∧ s.withdrawFrame.sched = s.sched ∧ s.withdrawFrame.claims = s.claims ∧
    s.withdrawFrame.roster = s.roster ∧ s.withdrawFrame.refresh = s.refresh ∧ s.withdrawFrame.ctl = s.ctl ∧
    s.withdrawFrame.port = s.port ∧ s.withdrawFrame.report = s.report ∧ s.withdrawFrame.pending = s.pending := ⟨rfl, rfl, rfl, rfl, rfl, rfl, rfl, rfl, rfl, rfl, rfl, rfl⟩

@[simp] theorem State.releaseMemory_frame (s : State) :
    s.releaseMemory.pins = s.pins ∧ s.releaseMemory.line = s.line ∧ s.releaseMemory.rx = s.rx ∧
    s.releaseMemory.layout = s.layout ∧ s.releaseMemory.pub = s.pub ∧ s.releaseMemory.sched = s.sched ∧
    s.releaseMemory.claims = s.claims ∧ s.releaseMemory.roster = s.roster ∧
    s.releaseMemory.refresh = s.refresh ∧ s.releaseMemory.ctl = s.ctl ∧ s.releaseMemory.port = s.port ∧
    s.releaseMemory.report = s.report ∧ s.releaseMemory.pending = s.pending := ⟨rfl, rfl, rfl, rfl, rfl, rfl, rfl, rfl, rfl, rfl, rfl, rfl, rfl⟩

@[simp] theorem State.applyEntry_frame (s : State) (e : Inbound) (rest : List Inbound) :
    (s.applyEntry e rest).pins = s.pins ∧ (s.applyEntry e rest).line = s.line ∧
    (s.applyEntry e rest).rx = s.rx ∧ (s.applyEntry e rest).layout = s.layout ∧
    (s.applyEntry e rest).pub = s.pub ∧ (s.applyEntry e rest).sched = s.sched ∧
    (s.applyEntry e rest).claims = s.claims ∧ (s.applyEntry e rest).roster = s.roster ∧
    (s.applyEntry e rest).refresh = s.refresh ∧ (s.applyEntry e rest).ctl = s.ctl ∧
    (s.applyEntry e rest).port = s.port ∧ (s.applyEntry e rest).report = s.report ∧
    (s.applyEntry e rest).pending = s.pending := ⟨rfl, rfl, rfl, rfl, rfl, rfl, rfl, rfl, rfl, rfl, rfl, rfl, rfl⟩

@[simp] theorem State.zeroRanges_frame (s : State) :
    s.zeroRanges.pins = s.pins ∧ s.zeroRanges.line = s.line ∧ s.zeroRanges.rx = s.rx ∧
    s.zeroRanges.layout = s.layout ∧ s.zeroRanges.pub = s.pub ∧ s.zeroRanges.sched = s.sched ∧
    s.zeroRanges.claims = s.claims ∧ s.zeroRanges.roster = s.roster ∧ s.zeroRanges.refresh = s.refresh ∧
    s.zeroRanges.ctl = s.ctl ∧ s.zeroRanges.port = s.port ∧ s.zeroRanges.report = s.report ∧
    s.zeroRanges.pending = s.pending := ⟨rfl, rfl, rfl, rfl, rfl, rfl, rfl, rfl, rfl, rfl, rfl, rfl, rfl⟩

@[simp] theorem State.deliver_frame (s : State) (first : Word) (data : List Byte) (result : Result) :
    (s.deliver first data result).pins = s.pins ∧ (s.deliver first data result).line = s.line ∧
    (s.deliver first data result).rx = s.rx ∧ (s.deliver first data result).layout = s.layout ∧
    (s.deliver first data result).mirror = s.mirror ∧ (s.deliver first data result).pub = s.pub ∧
    (s.deliver first data result).sched = s.sched ∧ (s.deliver first data result).claims = s.claims ∧
    (s.deliver first data result).roster = s.roster ∧ (s.deliver first data result).refresh = s.refresh ∧
    (s.deliver first data result).ctl = s.ctl ∧ (s.deliver first data result).report = s.report ∧
    (s.deliver first data result).pending = s.pending := ⟨rfl, rfl, rfl, rfl, rfl, rfl, rfl, rfl, rfl, rfl, rfl, rfl, rfl⟩

@[simp] theorem State.answer_frame (s : State) (result : Result) (response : List Byte) :
    (s.answer result response).pins = s.pins ∧ (s.answer result response).line = s.line ∧
    (s.answer result response).rx = s.rx ∧ (s.answer result response).layout = s.layout ∧
    (s.answer result response).mirror = s.mirror ∧ (s.answer result response).pub = s.pub ∧
    (s.answer result response).sched = s.sched ∧ (s.answer result response).claims = s.claims ∧
    (s.answer result response).roster = s.roster ∧ (s.answer result response).refresh = s.refresh ∧
    (s.answer result response).ctl = s.ctl ∧ (s.answer result response).report = s.report ∧
    (s.answer result response).pending = s.pending := ⟨rfl, rfl, rfl, rfl, rfl, rfl, rfl, rfl, rfl, rfl, rfl, rfl, rfl⟩

@[simp] theorem State.answerResult_frame (s : State) (result : Result) :
    (s.answerResult result).pins = s.pins ∧ (s.answerResult result).line = s.line ∧
    (s.answerResult result).rx = s.rx ∧ (s.answerResult result).layout = s.layout ∧
    (s.answerResult result).mirror = s.mirror ∧ (s.answerResult result).pub = s.pub ∧
    (s.answerResult result).sched = s.sched ∧ (s.answerResult result).claims = s.claims ∧
    (s.answerResult result).roster = s.roster ∧ (s.answerResult result).refresh = s.refresh ∧
    (s.answerResult result).ctl = s.ctl ∧ (s.answerResult result).report = s.report ∧
    (s.answerResult result).pending = s.pending := ⟨rfl, rfl, rfl, rfl, rfl, rfl, rfl, rfl, rfl, rfl, rfl, rfl, rfl⟩

@[simp] theorem State.answerStart_frame (s : State) (result : Result) (detail : Option TableFault) :
    (s.answerStart result detail).pins = s.pins ∧ (s.answerStart result detail).line = s.line ∧
    (s.answerStart result detail).rx = s.rx ∧ (s.answerStart result detail).layout = s.layout ∧
    (s.answerStart result detail).mirror = s.mirror ∧ (s.answerStart result detail).pub = s.pub ∧
    (s.answerStart result detail).sched = s.sched ∧ (s.answerStart result detail).claims = s.claims ∧
    (s.answerStart result detail).roster = s.roster ∧ (s.answerStart result detail).refresh = s.refresh ∧
    (s.answerStart result detail).ctl = s.ctl ∧ (s.answerStart result detail).report = s.report ∧
    (s.answerStart result detail).pending = s.pending := ⟨rfl, rfl, rfl, rfl, rfl, rfl, rfl, rfl, rfl, rfl, rfl, rfl, rfl⟩

@[simp] theorem State.dropSnapshot_frame (s : State) :
    s.dropSnapshot.pins = s.pins ∧ s.dropSnapshot.line = s.line ∧ s.dropSnapshot.rx = s.rx ∧
    s.dropSnapshot.layout = s.layout ∧ s.dropSnapshot.pub = s.pub ∧ s.dropSnapshot.sched = s.sched ∧
    s.dropSnapshot.claims = s.claims ∧ s.dropSnapshot.roster = s.roster ∧ s.dropSnapshot.refresh = s.refresh ∧
    s.dropSnapshot.ctl = s.ctl ∧ s.dropSnapshot.port = s.port ∧ s.dropSnapshot.report = s.report ∧
    s.dropSnapshot.pending = s.pending := ⟨rfl, rfl, rfl, rfl, rfl, rfl, rfl, rfl, rfl, rfl, rfl, rfl, rfl⟩

@[simp] theorem State.putBackChanges_frame (s : State) (windows : List Nat) :
    (s.putBackChanges windows).pins = s.pins ∧ (s.putBackChanges windows).line = s.line ∧
    (s.putBackChanges windows).rx = s.rx ∧ (s.putBackChanges windows).layout = s.layout ∧
    (s.putBackChanges windows).mirror = s.mirror ∧ (s.putBackChanges windows).pub = s.pub ∧
    (s.putBackChanges windows).sched = s.sched ∧ (s.putBackChanges windows).claims = s.claims ∧
    (s.putBackChanges windows).roster = s.roster ∧ (s.putBackChanges windows).refresh = s.refresh ∧
    (s.putBackChanges windows).ctl = s.ctl ∧ (s.putBackChanges windows).port = s.port ∧
    (s.putBackChanges windows).pending = s.pending := ⟨rfl, rfl, rfl, rfl, rfl, rfl, rfl, rfl, rfl, rfl, rfl, rfl, rfl⟩

@[simp] theorem State.closePort_frame (s : State) :
    s.closePort.pins = s.pins ∧ s.closePort.line = s.line ∧ s.closePort.rx = s.rx ∧
    s.closePort.layout = s.layout ∧ s.closePort.mirror = s.mirror ∧ s.closePort.pub = s.pub ∧
    s.closePort.sched = s.sched ∧ s.closePort.claims = s.claims ∧ s.closePort.roster = s.roster ∧
    s.closePort.refresh = s.refresh ∧ s.closePort.ctl = s.ctl ∧ s.closePort.report = s.report ∧
    s.closePort.pending = s.pending := ⟨rfl, rfl, rfl, rfl, rfl, rfl, rfl, rfl, rfl, rfl, rfl, rfl, rfl⟩

@[simp] theorem State.beginWrite_frame (s : State) (first : Word) :
    (s.beginWrite first).pins = s.pins ∧ (s.beginWrite first).line = s.line ∧ (s.beginWrite first).rx = s.rx ∧
    (s.beginWrite first).layout = s.layout ∧ (s.beginWrite first).mirror = s.mirror ∧
    (s.beginWrite first).pub = s.pub ∧ (s.beginWrite first).sched = s.sched ∧
    (s.beginWrite first).claims = s.claims ∧ (s.beginWrite first).roster = s.roster ∧
    (s.beginWrite first).refresh = s.refresh ∧ (s.beginWrite first).ctl = s.ctl ∧
    (s.beginWrite first).report = s.report ∧ (s.beginWrite first).pending = s.pending := ⟨rfl, rfl, rfl, rfl, rfl, rfl, rfl, rfl, rfl, rfl, rfl, rfl, rfl⟩

@[simp] theorem State.refuseByte_frame (s : State) (result : Result) :
    (s.refuseByte result).pins = s.pins ∧ (s.refuseByte result).line = s.line ∧
    (s.refuseByte result).rx = s.rx ∧ (s.refuseByte result).layout = s.layout ∧
    (s.refuseByte result).mirror = s.mirror ∧ (s.refuseByte result).pub = s.pub ∧
    (s.refuseByte result).sched = s.sched ∧ (s.refuseByte result).claims = s.claims ∧
    (s.refuseByte result).roster = s.roster ∧ (s.refuseByte result).refresh = s.refresh ∧
    (s.refuseByte result).ctl = s.ctl ∧ (s.refuseByte result).report = s.report ∧
    (s.refuseByte result).pending = s.pending := ⟨rfl, rfl, rfl, rfl, rfl, rfl, rfl, rfl, rfl, rfl, rfl, rfl, rfl⟩

@[simp] theorem State.advanceCont_frame (s : State) :
    s.advanceCont.pins = s.pins ∧ s.advanceCont.line = s.line ∧ s.advanceCont.rx = s.rx ∧
    s.advanceCont.layout = s.layout ∧ s.advanceCont.mirror = s.mirror ∧ s.advanceCont.pub = s.pub ∧
    s.advanceCont.sched = s.sched ∧ s.advanceCont.claims = s.claims ∧ s.advanceCont.roster = s.roster ∧
    s.advanceCont.refresh = s.refresh ∧ s.advanceCont.ctl = s.ctl ∧ s.advanceCont.report = s.report ∧
    s.advanceCont.pending = s.pending := ⟨rfl, rfl, rfl, rfl, rfl, rfl, rfl, rfl, rfl, rfl, rfl, rfl, rfl⟩

@[simp] theorem State.removeOutcome_frame (s : State) :
    s.removeOutcome.pins = s.pins ∧ s.removeOutcome.line = s.line ∧ s.removeOutcome.rx = s.rx ∧
    s.removeOutcome.layout = s.layout ∧ s.removeOutcome.mirror = s.mirror ∧ s.removeOutcome.pub = s.pub ∧
    s.removeOutcome.sched = s.sched ∧ s.removeOutcome.claims = s.claims ∧ s.removeOutcome.roster = s.roster ∧
    s.removeOutcome.refresh = s.refresh ∧ s.removeOutcome.ctl = s.ctl ∧ s.removeOutcome.pending = s.pending := ⟨rfl, rfl, rfl, rfl, rfl, rfl, rfl, rfl, rfl, rfl, rfl, rfl⟩

@[simp] theorem State.latchChanges_frame (s : State) :
    s.latchChanges.pins = s.pins ∧ s.latchChanges.line = s.line ∧ s.latchChanges.rx = s.rx ∧
    s.latchChanges.layout = s.layout ∧ s.latchChanges.mirror = s.mirror ∧ s.latchChanges.pub = s.pub ∧
    s.latchChanges.sched = s.sched ∧ s.latchChanges.claims = s.claims ∧ s.latchChanges.roster = s.roster ∧
    s.latchChanges.refresh = s.refresh ∧ s.latchChanges.ctl = s.ctl ∧ s.latchChanges.pending = s.pending := ⟨rfl, rfl, rfl, rfl, rfl, rfl, rfl, rfl, rfl, rfl, rfl, rfl⟩

@[simp] theorem State.keepIfWatched_frame (s : State) (w : Nat) :
    (s.keepIfWatched w).pins = s.pins ∧ (s.keepIfWatched w).line = s.line ∧ (s.keepIfWatched w).rx = s.rx ∧
    (s.keepIfWatched w).layout = s.layout ∧ (s.keepIfWatched w).mirror = s.mirror ∧
    (s.keepIfWatched w).pub = s.pub ∧ (s.keepIfWatched w).sched = s.sched ∧
    (s.keepIfWatched w).claims = s.claims ∧ (s.keepIfWatched w).roster = s.roster ∧
    (s.keepIfWatched w).refresh = s.refresh ∧ (s.keepIfWatched w).ctl = s.ctl ∧
    (s.keepIfWatched w).port = s.port ∧ (s.keepIfWatched w).pending = s.pending := ⟨rfl, rfl, rfl, rfl, rfl, rfl, rfl, rfl, rfl, rfl, rfl, rfl, rfl⟩

@[simp] theorem State.startLine_frame (s : State) :
    s.startLine.pins = s.pins ∧ s.startLine.layout = s.layout ∧ s.startLine.mirror = s.mirror ∧
    s.startLine.pub = s.pub ∧ s.startLine.sched = s.sched ∧ s.startLine.claims = s.claims ∧
    s.startLine.roster = s.roster ∧ s.startLine.refresh = s.refresh ∧ s.startLine.ctl = s.ctl ∧
    s.startLine.port = s.port ∧ s.startLine.report = s.report ∧ s.startLine.pending = s.pending := ⟨rfl, rfl, rfl, rfl, rfl, rfl, rfl, rfl, rfl, rfl, rfl, rfl⟩

@[simp] theorem State.startTable_frame (s : State) :
    s.startTable.pins = s.pins ∧ s.startTable.line = s.line ∧ s.startTable.rx = s.rx ∧
    s.startTable.mirror = s.mirror ∧ s.startTable.pub = s.pub ∧ s.startTable.sched = s.sched ∧
    s.startTable.roster = s.roster ∧ s.startTable.refresh = s.refresh ∧ s.startTable.ctl = s.ctl ∧
    s.startTable.port = s.port ∧ s.startTable.pending = s.pending := ⟨rfl, rfl, rfl, rfl, rfl, rfl, rfl, rfl, rfl, rfl, rfl⟩

end Sys2Proof.Machine
end

