-- ==== Sys2Proof/Laws/Frames.lean ====
section
/-! SUPPORT. What each shared operation leaves unchanged, unit by unit: one lemma an operation, for simp. -/

namespace Sys2Proof.Machine

/-- What each step of a fold keeps, the fold keeps. -/
theorem foldl_keeps {α β : Type} (f : State → β → State) (g : State → α) (h : ∀ s b, g (f s b) = g s)
    (l : List β) (s : State) : g (l.foldl f s) = g s := by
  induction l generalizing s with
  | nil => rfl
  | cons b l ih => rw [List.foldl_cons, ih, h]

/-- What each step of a fold preserves, the fold preserves. -/
theorem foldl_preserves {β : Type} (P : State → Prop) (f : State → β → State) (hf : ∀ s b, P s → P (f s b)) (l : List β)
    {s : State} (h : P s) : P (l.foldl f s) := by
  induction l generalizing s with
  | nil => exact h
  | cons b l ih => exact ih (hf s b h)

/-- What every timer's ct preserves, the ct of all of them preserves. -/
theorem State.tickTimers_preserves (P : State → Prop) (announce : ∀ s, P s → P s.tickAnnounce)
    (silence : ∀ s n, P s → P (s.tickSilence n)) (answer : ∀ s, P s → P s.tickAnswer)
    (lease : ∀ s w, P s → P (s.tickLease w)) (fetch : ∀ s w, P s → P (s.tickFetch w)) {s : State} (h : P s) :
    P s.tickTimers :=
  foldl_preserves P _ fetch _ (foldl_preserves P _ lease _ (answer _ (foldl_preserves P _ silence _ (announce _ h))))

@[simp] theorem State.post_frame (s : State) (o : OutcomeRecord) :
    (s.post o).pins = s.pins ∧ (s.post o).line = s.line ∧ (s.post o).rx = s.rx ∧ (s.post o).layout = s.layout ∧
    (s.post o).mirror = s.mirror ∧ (s.post o).pub = s.pub ∧ (s.post o).sched = s.sched ∧
    (s.post o).claims = s.claims ∧ (s.post o).roster = s.roster ∧ (s.post o).refresh = s.refresh ∧
    (s.post o).ctl = s.ctl ∧ (s.post o).port = s.port ∧ (s.post o).pending = s.pending := by
  unfold State.post; try dsimp only
  (repeat' split) <;> simp

@[simp] theorem State.postAll_frame (s : State) (os : List OutcomeRecord) :
    (s.postAll os).pins = s.pins ∧ (s.postAll os).line = s.line ∧ (s.postAll os).rx = s.rx ∧
    (s.postAll os).layout = s.layout ∧ (s.postAll os).mirror = s.mirror ∧ (s.postAll os).pub = s.pub ∧
    (s.postAll os).sched = s.sched ∧ (s.postAll os).claims = s.claims ∧ (s.postAll os).roster = s.roster ∧
    (s.postAll os).refresh = s.refresh ∧ (s.postAll os).ctl = s.ctl ∧ (s.postAll os).port = s.port ∧
    (s.postAll os).pending = s.pending := by
  induction os generalizing s with
  | nil => simp [State.postAll]
  | cons o os ih => simpa [State.postAll] using ih (s.post o)

@[simp] theorem State.noteChange_frame (s : State) (w : Nat) :
    (s.noteChange w).pins = s.pins ∧ (s.noteChange w).line = s.line ∧ (s.noteChange w).rx = s.rx ∧
    (s.noteChange w).layout = s.layout ∧ (s.noteChange w).mirror = s.mirror ∧ (s.noteChange w).pub = s.pub ∧
    (s.noteChange w).sched = s.sched ∧ (s.noteChange w).claims = s.claims ∧
    (s.noteChange w).roster = s.roster ∧ (s.noteChange w).refresh = s.refresh ∧ (s.noteChange w).ctl = s.ctl ∧
    (s.noteChange w).port = s.port ∧ (s.noteChange w).pending = s.pending := by
  unfold State.noteChange; try dsimp only
  (repeat' split) <;> simp

@[simp] theorem State.grantApplication_frame (s : State) :
    s.grantApplication.pins = s.pins ∧ s.grantApplication.line = s.line ∧ s.grantApplication.rx = s.rx ∧
    s.grantApplication.layout = s.layout ∧ s.grantApplication.pub = s.pub ∧
    s.grantApplication.sched = s.sched ∧ s.grantApplication.claims = s.claims ∧
    s.grantApplication.roster = s.roster ∧ s.grantApplication.refresh = s.refresh ∧
    s.grantApplication.ctl = s.ctl ∧ s.grantApplication.port = s.port ∧ s.grantApplication.report = s.report ∧
    s.grantApplication.pending = s.pending := by
  unfold State.grantApplication; try dsimp only
  (repeat' split) <;> simp

@[simp] theorem State.keepChunk_frame (s : State) (f : InFlight) :
    (s.keepChunk f).pins = s.pins ∧ (s.keepChunk f).line = s.line ∧ (s.keepChunk f).rx = s.rx ∧
    (s.keepChunk f).layout = s.layout ∧ (s.keepChunk f).pub = s.pub ∧ (s.keepChunk f).claims = s.claims ∧
    (s.keepChunk f).roster = s.roster ∧ (s.keepChunk f).refresh = s.refresh ∧ (s.keepChunk f).ctl = s.ctl ∧
    (s.keepChunk f).port = s.port ∧ (s.keepChunk f).report = s.report ∧ (s.keepChunk f).pending = s.pending := by
  unfold State.keepChunk; try dsimp only
  (repeat' split) <;> simp

@[simp] theorem State.waitAgain_frame (s : State) (f : InFlight) (attempts : Nat) :
    (s.waitAgain f attempts).pins = s.pins ∧ (s.waitAgain f attempts).line = s.line ∧
    (s.waitAgain f attempts).rx = s.rx ∧ (s.waitAgain f attempts).layout = s.layout ∧
    (s.waitAgain f attempts).pub = s.pub ∧ (s.waitAgain f attempts).claims = s.claims ∧
    (s.waitAgain f attempts).roster = s.roster ∧ (s.waitAgain f attempts).refresh = s.refresh ∧
    (s.waitAgain f attempts).ctl = s.ctl ∧ (s.waitAgain f attempts).port = s.port ∧
    (s.waitAgain f attempts).report = s.report ∧ (s.waitAgain f attempts).pending = s.pending := by
  simp [State.waitAgain]

@[simp] theorem State.leaveSource_frame (s : State) (f : InFlight) :
    (s.leaveSource f).pins = s.pins ∧ (s.leaveSource f).line = s.line ∧ (s.leaveSource f).rx = s.rx ∧
    (s.leaveSource f).layout = s.layout ∧ (s.leaveSource f).claims = s.claims ∧
    (s.leaveSource f).roster = s.roster ∧ (s.leaveSource f).refresh = s.refresh ∧
    (s.leaveSource f).ctl = s.ctl ∧ (s.leaveSource f).port = s.port ∧ (s.leaveSource f).report = s.report ∧
    (s.leaveSource f).pending = s.pending := by
  unfold State.leaveSource; try dsimp only
  (repeat' split) <;> simp

@[simp] theorem State.arbitrate_frame (s : State) :
    s.arbitrate.pins = s.pins ∧ s.arbitrate.line = s.line ∧ s.arbitrate.rx = s.rx ∧
    s.arbitrate.layout = s.layout ∧ s.arbitrate.pub = s.pub ∧ s.arbitrate.sched = s.sched ∧
    s.arbitrate.claims = s.claims ∧ s.arbitrate.roster = s.roster ∧ s.arbitrate.refresh = s.refresh ∧
    s.arbitrate.ctl = s.ctl ∧ s.arbitrate.port = s.port ∧ s.arbitrate.report = s.report ∧
    s.arbitrate.pending = s.pending := by
  unfold State.arbitrate; try dsimp only
  (repeat' split) <;> simp

@[simp] theorem State.enqueue_frame (s : State) (e : Inbound) :
    (s.enqueue e).pins = s.pins ∧ (s.enqueue e).line = s.line ∧ (s.enqueue e).rx = s.rx ∧
    (s.enqueue e).layout = s.layout ∧ (s.enqueue e).pub = s.pub ∧ (s.enqueue e).claims = s.claims ∧
    (s.enqueue e).roster = s.roster ∧ (s.enqueue e).refresh = s.refresh ∧ (s.enqueue e).ctl = s.ctl ∧
    (s.enqueue e).port = s.port ∧ (s.enqueue e).report = s.report ∧ (s.enqueue e).pending = s.pending := by
  unfold State.enqueue; try dsimp only
  (repeat' split) <;> simp

@[simp] theorem State.requestFill_frame (s : State) :
    s.requestFill.pins = s.pins ∧ s.requestFill.line = s.line ∧ s.requestFill.rx = s.rx ∧
    s.requestFill.layout = s.layout ∧ s.requestFill.pub = s.pub ∧ s.requestFill.sched = s.sched ∧
    s.requestFill.claims = s.claims ∧ s.requestFill.roster = s.roster ∧ s.requestFill.refresh = s.refresh ∧
    s.requestFill.ctl = s.ctl ∧ s.requestFill.port = s.port ∧ s.requestFill.report = s.report ∧
    s.requestFill.pending = s.pending := by
  unfold State.requestFill; try dsimp only
  (repeat' split) <;> simp

@[simp] theorem State.settleMemory_frame (s : State) :
    s.settleMemory.pins = s.pins ∧ s.settleMemory.line = s.line ∧ s.settleMemory.rx = s.rx ∧
    s.settleMemory.layout = s.layout ∧ s.settleMemory.pub = s.pub ∧ s.settleMemory.sched = s.sched ∧
    s.settleMemory.claims = s.claims ∧ s.settleMemory.roster = s.roster ∧ s.settleMemory.refresh = s.refresh ∧
    s.settleMemory.ctl = s.ctl ∧ s.settleMemory.port = s.port ∧ s.settleMemory.report = s.report ∧
    s.settleMemory.pending = s.pending := by
  simp [State.settleMemory]

@[simp] theorem State.offer_frame (s : State) (e : ControlEntry) :
    (s.offer e).pins = s.pins ∧ (s.offer e).line = s.line ∧ (s.offer e).rx = s.rx ∧
    (s.offer e).layout = s.layout ∧ (s.offer e).mirror = s.mirror ∧ (s.offer e).pub = s.pub ∧
    (s.offer e).claims = s.claims ∧ (s.offer e).roster = s.roster ∧ (s.offer e).refresh = s.refresh ∧
    (s.offer e).ctl = s.ctl ∧ (s.offer e).port = s.port ∧ (s.offer e).report = s.report ∧
    (s.offer e).pending = s.pending := by
  unfold State.offer; try dsimp only
  (repeat' split) <;> simp

@[simp] theorem State.offerDue_frame (s : State) :
    s.offerDue.pins = s.pins ∧ s.offerDue.line = s.line ∧ s.offerDue.rx = s.rx ∧ s.offerDue.layout = s.layout ∧
    s.offerDue.mirror = s.mirror ∧ s.offerDue.pub = s.pub ∧ s.offerDue.claims = s.claims ∧
    s.offerDue.roster = s.roster ∧ s.offerDue.refresh = s.refresh ∧ s.offerDue.ctl = s.ctl ∧
    s.offerDue.port = s.port ∧ s.offerDue.report = s.report ∧ s.offerDue.pending = s.pending := by
  unfold State.offerDue
  generalize s.dueOffers = es
  induction es generalizing s with
  | nil => simp
  | cons e es ih => simpa using ih (s.offer e)

@[simp] theorem State.leaveControl_frame (s : State) :
    s.leaveControl.pins = s.pins ∧ s.leaveControl.line = s.line ∧ s.leaveControl.rx = s.rx ∧
    s.leaveControl.layout = s.layout ∧ s.leaveControl.mirror = s.mirror ∧ s.leaveControl.pub = s.pub ∧
    s.leaveControl.claims = s.claims ∧ s.leaveControl.roster = s.roster ∧ s.leaveControl.refresh = s.refresh ∧
    s.leaveControl.ctl = s.ctl ∧ s.leaveControl.port = s.port ∧ s.leaveControl.report = s.report ∧
    s.leaveControl.pending = s.pending := by
  simp [State.leaveControl]

@[simp] theorem State.removeClaims_frame (s : State) (st : Nat) (which : Guard → Bool) :
    (s.removeClaims st which).pins = s.pins ∧ (s.removeClaims st which).line = s.line ∧
    (s.removeClaims st which).rx = s.rx ∧ (s.removeClaims st which).layout = s.layout ∧
    (s.removeClaims st which).mirror = s.mirror ∧ (s.removeClaims st which).pub = s.pub ∧
    (s.removeClaims st which).sched = s.sched ∧ (s.removeClaims st which).roster = s.roster ∧
    (s.removeClaims st which).refresh = s.refresh ∧ (s.removeClaims st which).ctl = s.ctl ∧
    (s.removeClaims st which).port = s.port ∧ (s.removeClaims st which).pending = s.pending := by
  simp [State.removeClaims]

@[simp] theorem State.endOwnHolds_frame (s : State) :
    s.endOwnHolds.pins = s.pins ∧ s.endOwnHolds.line = s.line ∧ s.endOwnHolds.rx = s.rx ∧
    s.endOwnHolds.layout = s.layout ∧ s.endOwnHolds.mirror = s.mirror ∧ s.endOwnHolds.pub = s.pub ∧
    s.endOwnHolds.sched = s.sched ∧ s.endOwnHolds.roster = s.roster ∧ s.endOwnHolds.refresh = s.refresh ∧
    s.endOwnHolds.ctl = s.ctl ∧ s.endOwnHolds.port = s.port ∧ s.endOwnHolds.report = s.report ∧
    s.endOwnHolds.pending = s.pending := by
  simp [State.endOwnHolds]
@[simp] theorem State.removeAllClaims_frame (s : State) (st : Nat) :
    (s.removeAllClaims st).pins = s.pins ∧ (s.removeAllClaims st).line = s.line ∧
    (s.removeAllClaims st).rx = s.rx ∧ (s.removeAllClaims st).layout = s.layout ∧
    (s.removeAllClaims st).mirror = s.mirror ∧ (s.removeAllClaims st).pub = s.pub ∧
    (s.removeAllClaims st).sched = s.sched ∧ (s.removeAllClaims st).roster = s.roster ∧
    (s.removeAllClaims st).refresh = s.refresh ∧ (s.removeAllClaims st).ctl = s.ctl ∧
    (s.removeAllClaims st).port = s.port ∧ (s.removeAllClaims st).pending = s.pending := by
  simp [State.removeAllClaims]

@[simp] theorem State.acceptClaim_frame (s : State) (sender : Nat) (sent : Bool) (w : Nat) :
    (s.acceptClaim sender sent w).pins = s.pins ∧ (s.acceptClaim sender sent w).line = s.line ∧
    (s.acceptClaim sender sent w).rx = s.rx ∧ (s.acceptClaim sender sent w).layout = s.layout ∧
    (s.acceptClaim sender sent w).mirror = s.mirror ∧ (s.acceptClaim sender sent w).pub = s.pub ∧
    (s.acceptClaim sender sent w).sched = s.sched ∧ (s.acceptClaim sender sent w).roster = s.roster ∧
    (s.acceptClaim sender sent w).refresh = s.refresh ∧ (s.acceptClaim sender sent w).ctl = s.ctl ∧
    (s.acceptClaim sender sent w).port = s.port ∧ (s.acceptClaim sender sent w).pending = s.pending := by
  unfold State.acceptClaim; try dsimp only
  (repeat' split) <;> simp

@[simp] theorem State.acceptRelease_frame (s : State) (sender : Nat) (sent : Bool) (w : Nat) :
    (s.acceptRelease sender sent w).pins = s.pins ∧ (s.acceptRelease sender sent w).line = s.line ∧
    (s.acceptRelease sender sent w).rx = s.rx ∧ (s.acceptRelease sender sent w).layout = s.layout ∧
    (s.acceptRelease sender sent w).mirror = s.mirror ∧ (s.acceptRelease sender sent w).pub = s.pub ∧
    (s.acceptRelease sender sent w).sched = s.sched ∧ (s.acceptRelease sender sent w).roster = s.roster ∧
    (s.acceptRelease sender sent w).refresh = s.refresh ∧ (s.acceptRelease sender sent w).ctl = s.ctl ∧
    (s.acceptRelease sender sent w).port = s.port ∧ (s.acceptRelease sender sent w).pending = s.pending := by
  unfold State.acceptRelease; try dsimp only
  (repeat' split) <;> simp

@[simp] theorem State.expireLease_frame (s : State) (w : Nat) :
    (s.expireLease w).pins = s.pins ∧ (s.expireLease w).line = s.line ∧ (s.expireLease w).rx = s.rx ∧
    (s.expireLease w).layout = s.layout ∧ (s.expireLease w).mirror = s.mirror ∧ (s.expireLease w).pub = s.pub ∧
    (s.expireLease w).roster = s.roster ∧ (s.expireLease w).refresh = s.refresh ∧
    (s.expireLease w).ctl = s.ctl ∧ (s.expireLease w).port = s.port ∧ (s.expireLease w).pending = s.pending := by
  unfold State.expireLease; try dsimp only
  (repeat' split) <;> simp

@[simp] theorem State.dropHolds_frame (s : State) (reason : LossReason) :
    (s.dropHolds reason).pins = s.pins ∧ (s.dropHolds reason).line = s.line ∧ (s.dropHolds reason).rx = s.rx ∧
    (s.dropHolds reason).layout = s.layout ∧ (s.dropHolds reason).mirror = s.mirror ∧
    (s.dropHolds reason).pub = s.pub ∧ (s.dropHolds reason).sched = s.sched ∧
    (s.dropHolds reason).roster = s.roster ∧ (s.dropHolds reason).refresh = s.refresh ∧
    (s.dropHolds reason).ctl = s.ctl ∧ (s.dropHolds reason).port = s.port ∧
    (s.dropHolds reason).pending = s.pending := by
  simp [State.dropHolds]

@[simp] theorem State.cancelClaim_frame (s : State) (r : PubRecord) :
    (s.cancelClaim r).pins = s.pins ∧ (s.cancelClaim r).line = s.line ∧ (s.cancelClaim r).rx = s.rx ∧
    (s.cancelClaim r).layout = s.layout ∧ (s.cancelClaim r).mirror = s.mirror ∧
    (s.cancelClaim r).sched = s.sched ∧ (s.cancelClaim r).roster = s.roster ∧
    (s.cancelClaim r).refresh = s.refresh ∧ (s.cancelClaim r).ctl = s.ctl ∧ (s.cancelClaim r).port = s.port ∧
    (s.cancelClaim r).pending = s.pending := by
  simp [State.cancelClaim]

@[simp] theorem State.abandonQueue_frame (s : State) (reason : AbandonReason) :
    (s.abandonQueue reason).pins = s.pins ∧ (s.abandonQueue reason).line = s.line ∧
    (s.abandonQueue reason).rx = s.rx ∧ (s.abandonQueue reason).layout = s.layout ∧
    (s.abandonQueue reason).mirror = s.mirror ∧ (s.abandonQueue reason).sched = s.sched ∧
    (s.abandonQueue reason).claims = s.claims ∧ (s.abandonQueue reason).roster = s.roster ∧
    (s.abandonQueue reason).refresh = s.refresh ∧ (s.abandonQueue reason).ctl = s.ctl ∧
    (s.abandonQueue reason).port = s.port ∧ (s.abandonQueue reason).pending = s.pending := by
  simp [State.abandonQueue]

@[simp] theorem State.moveTo_frame (s : State) (state : StationState) (reason : Reason) :
    (s.moveTo state reason).pins = s.pins ∧ (s.moveTo state reason).line = s.line ∧
    (s.moveTo state reason).rx = s.rx ∧ (s.moveTo state reason).layout = s.layout ∧
    (s.moveTo state reason).mirror = s.mirror ∧ (s.moveTo state reason).pub = s.pub ∧
    (s.moveTo state reason).sched = s.sched ∧ (s.moveTo state reason).claims = s.claims ∧
    (s.moveTo state reason).roster = s.roster ∧ (s.moveTo state reason).refresh = s.refresh ∧
    (s.moveTo state reason).port = s.port ∧ (s.moveTo state reason).pending = s.pending := by
  simp [State.moveTo]

@[simp] theorem State.enterJoining_frame (s : State) (reason : Reason) :
    (s.enterJoining reason).pins = s.pins ∧ (s.enterJoining reason).line = s.line ∧
    (s.enterJoining reason).rx = s.rx ∧ (s.enterJoining reason).layout = s.layout ∧
    (s.enterJoining reason).mirror = s.mirror ∧ (s.enterJoining reason).pub = s.pub ∧
    (s.enterJoining reason).claims = s.claims ∧ (s.enterJoining reason).refresh = s.refresh ∧
    (s.enterJoining reason).port = s.port ∧ (s.enterJoining reason).pending = s.pending := by
  simp [State.enterJoining]

@[simp] theorem State.joinFailed_frame (s : State) :
    s.joinFailed.pins = s.pins ∧ s.joinFailed.rx = s.rx ∧ s.joinFailed.layout = s.layout ∧
    s.joinFailed.pub = s.pub ∧ s.joinFailed.refresh = s.refresh ∧ s.joinFailed.port = s.port ∧
    s.joinFailed.pending = s.pending := by
  simp [State.joinFailed]

@[simp] theorem State.rejoin_frame (s : State) (reason : Reason) :
    (s.rejoin reason).pins = s.pins ∧ (s.rejoin reason).line = s.line ∧ (s.rejoin reason).rx = s.rx ∧
    (s.rejoin reason).layout = s.layout ∧ (s.rejoin reason).port = s.port ∧
    (s.rejoin reason).pending = s.pending := by
  simp [State.rejoin]

@[simp] theorem State.forsake_frame (s : State) (abandon : AbandonReason) (loss : LossReason) :
    (s.forsake abandon loss).pins = s.pins ∧ (s.forsake abandon loss).line = s.line ∧
    (s.forsake abandon loss).rx = s.rx ∧ (s.forsake abandon loss).layout = s.layout ∧
    (s.forsake abandon loss).ctl = s.ctl ∧ (s.forsake abandon loss).port = s.port ∧
    (s.forsake abandon loss).pending = s.pending := by
  simp [State.forsake]

@[simp] theorem State.enterMuted_frame (s : State) :
    s.enterMuted.pins = s.pins ∧ s.enterMuted.line = s.line ∧ s.enterMuted.layout = s.layout ∧
    s.enterMuted.port = s.port ∧ s.enterMuted.pending = s.pending := by
  simp [State.enterMuted]

@[simp] theorem State.enterIncompatible_frame (s : State) (reason : Reason) :
    (s.enterIncompatible reason).pins = s.pins ∧ (s.enterIncompatible reason).line = s.line ∧
    (s.enterIncompatible reason).rx = s.rx ∧ (s.enterIncompatible reason).layout = s.layout ∧
    (s.enterIncompatible reason).port = s.port ∧ (s.enterIncompatible reason).pending = s.pending := by
  simp [State.enterIncompatible]

@[simp] theorem State.stop_frame (s : State) (reason : Reason) :
    (s.stop reason).pins = s.pins ∧ (s.stop reason).layout = s.layout ∧ (s.stop reason).pub = s.pub ∧
    (s.stop reason).port = s.port ∧ (s.stop reason).pending = s.pending := by
  simp [State.stop]

@[simp] theorem State.dropAbandoned_frame (s : State) :
    s.dropAbandoned.pins = s.pins ∧ s.dropAbandoned.line = s.line ∧ s.dropAbandoned.rx = s.rx ∧
    s.dropAbandoned.layout = s.layout ∧ s.dropAbandoned.claims = s.claims ∧ s.dropAbandoned.roster = s.roster ∧
    s.dropAbandoned.refresh = s.refresh ∧ s.dropAbandoned.ctl = s.ctl ∧ s.dropAbandoned.port = s.port ∧
    s.dropAbandoned.report = s.report ∧ s.dropAbandoned.pending = s.pending := by
  unfold State.dropAbandoned
  split
  · cases s.sched.inflight <;> simp
  · simp

@[simp] theorem State.found_frame (s : State) :
    s.found.pins = s.pins ∧ s.found.line = s.line ∧ s.found.rx = s.rx ∧ s.found.layout = s.layout ∧
    s.found.claims = s.claims ∧ s.found.roster = s.roster ∧ s.found.refresh = s.refresh ∧
    s.found.port = s.port ∧ s.found.pending = s.pending := by
  simp [State.found]

@[simp] theorem State.foundingTest_frame (s : State) :
    s.foundingTest.pins = s.pins ∧ s.foundingTest.line = s.line ∧ s.foundingTest.rx = s.rx ∧
    s.foundingTest.layout = s.layout ∧ s.foundingTest.claims = s.claims ∧ s.foundingTest.roster = s.roster ∧
    s.foundingTest.refresh = s.refresh ∧ s.foundingTest.port = s.port ∧ s.foundingTest.pending = s.pending := by
  unfold State.foundingTest; try dsimp only
  (repeat' split) <;> simp

@[simp] theorem State.clearServiceAtLeave_frame (s : State) :
    s.clearServiceAtLeave.pins = s.pins ∧ s.clearServiceAtLeave.line = s.line ∧
    s.clearServiceAtLeave.rx = s.rx ∧ s.clearServiceAtLeave.layout = s.layout ∧
    s.clearServiceAtLeave.pub = s.pub ∧ s.clearServiceAtLeave.claims = s.claims ∧
    s.clearServiceAtLeave.roster = s.roster ∧ s.clearServiceAtLeave.ctl = s.ctl ∧
    s.clearServiceAtLeave.port = s.port ∧ s.clearServiceAtLeave.report = s.report ∧
    s.clearServiceAtLeave.pending = s.pending := by
  unfold State.clearServiceAtLeave; try dsimp only
  (repeat' split) <;> simp

@[simp] theorem State.leaveGroup_frame (s : State) :
    s.leaveGroup.pins = s.pins ∧ s.leaveGroup.line = s.line ∧ s.leaveGroup.rx = s.rx ∧
    s.leaveGroup.layout = s.layout ∧ s.leaveGroup.port = s.port ∧ s.leaveGroup.pending = s.pending := by
  simp [State.leaveGroup]

@[simp] theorem State.countExpiry_frame (s : State) (w : Nat) :
    (s.countExpiry w).pins = s.pins ∧ (s.countExpiry w).line = s.line ∧ (s.countExpiry w).rx = s.rx ∧
    (s.countExpiry w).layout = s.layout ∧ (s.countExpiry w).mirror = s.mirror ∧ (s.countExpiry w).pub = s.pub ∧
    (s.countExpiry w).sched = s.sched ∧ (s.countExpiry w).claims = s.claims ∧
    (s.countExpiry w).roster = s.roster ∧ (s.countExpiry w).ctl = s.ctl ∧ (s.countExpiry w).port = s.port ∧
    (s.countExpiry w).pending = s.pending := by
  unfold State.countExpiry; try dsimp only
  (repeat' split) <;> simp

@[simp] theorem State.expireFetch_frame (s : State) (w : Nat) :
    (s.expireFetch w).pins = s.pins ∧ (s.expireFetch w).line = s.line ∧ (s.expireFetch w).rx = s.rx ∧
    (s.expireFetch w).layout = s.layout ∧ (s.expireFetch w).mirror = s.mirror ∧ (s.expireFetch w).pub = s.pub ∧
    (s.expireFetch w).claims = s.claims ∧ (s.expireFetch w).roster = s.roster ∧ (s.expireFetch w).ctl = s.ctl ∧
    (s.expireFetch w).port = s.port ∧ (s.expireFetch w).pending = s.pending := by
  unfold State.expireFetch; try dsimp only
  (repeat' split) <;> simp

@[simp] theorem State.abandonFetch_frame (s : State) (w : Nat) :
    (s.abandonFetch w).pins = s.pins ∧ (s.abandonFetch w).line = s.line ∧ (s.abandonFetch w).rx = s.rx ∧
    (s.abandonFetch w).layout = s.layout ∧ (s.abandonFetch w).mirror = s.mirror ∧
    (s.abandonFetch w).pub = s.pub ∧ (s.abandonFetch w).sched = s.sched ∧
    (s.abandonFetch w).claims = s.claims ∧ (s.abandonFetch w).roster = s.roster ∧
    (s.abandonFetch w).ctl = s.ctl ∧ (s.abandonFetch w).port = s.port ∧ (s.abandonFetch w).pending = s.pending := by
  unfold State.abandonFetch; try dsimp only
  (repeat' split) <;> simp

@[simp] theorem State.volunteer_frame (s : State) (w requester origin : Nat) :
    (s.volunteer w requester origin).pins = s.pins ∧ (s.volunteer w requester origin).line = s.line ∧
    (s.volunteer w requester origin).rx = s.rx ∧ (s.volunteer w requester origin).layout = s.layout ∧
    (s.volunteer w requester origin).mirror = s.mirror ∧ (s.volunteer w requester origin).pub = s.pub ∧
    (s.volunteer w requester origin).sched = s.sched ∧ (s.volunteer w requester origin).claims = s.claims ∧
    (s.volunteer w requester origin).roster = s.roster ∧ (s.volunteer w requester origin).ctl = s.ctl ∧
    (s.volunteer w requester origin).port = s.port ∧ (s.volunteer w requester origin).report = s.report ∧
    (s.volunteer w requester origin).pending = s.pending := by
  unfold State.volunteer; try dsimp only
  (repeat' split) <;> simp

@[simp] theorem State.fetchAccepted_frame (s : State) (w origin : Nat) :
    (s.fetchAccepted w origin).pins = s.pins ∧ (s.fetchAccepted w origin).line = s.line ∧
    (s.fetchAccepted w origin).rx = s.rx ∧ (s.fetchAccepted w origin).layout = s.layout ∧
    (s.fetchAccepted w origin).mirror = s.mirror ∧ (s.fetchAccepted w origin).pub = s.pub ∧
    (s.fetchAccepted w origin).sched = s.sched ∧ (s.fetchAccepted w origin).claims = s.claims ∧
    (s.fetchAccepted w origin).roster = s.roster ∧ (s.fetchAccepted w origin).ctl = s.ctl ∧
    (s.fetchAccepted w origin).port = s.port ∧ (s.fetchAccepted w origin).report = s.report ∧
    (s.fetchAccepted w origin).pending = s.pending := by
  unfold State.fetchAccepted; try dsimp only
  (repeat' split) <;> simp

@[simp] theorem State.acceptFetch_frame (s : State) (sender : Nat) (sent : Bool) (w origin : Nat) :
    (s.acceptFetch sender sent w origin).pins = s.pins ∧ (s.acceptFetch sender sent w origin).line = s.line ∧
    (s.acceptFetch sender sent w origin).rx = s.rx ∧ (s.acceptFetch sender sent w origin).layout = s.layout ∧
    (s.acceptFetch sender sent w origin).mirror = s.mirror ∧ (s.acceptFetch sender sent w origin).pub = s.pub ∧
    (s.acceptFetch sender sent w origin).sched = s.sched ∧
    (s.acceptFetch sender sent w origin).claims = s.claims ∧
    (s.acceptFetch sender sent w origin).roster = s.roster ∧ (s.acceptFetch sender sent w origin).ctl = s.ctl ∧
    (s.acceptFetch sender sent w origin).port = s.port ∧
    (s.acceptFetch sender sent w origin).report = s.report ∧
    (s.acceptFetch sender sent w origin).pending = s.pending := by
  unfold State.acceptFetch; try dsimp only
  (repeat' split) <;> simp

@[simp] theorem State.advanceService_frame (s : State) (w requester next : Nat) :
    (s.advanceService w requester next).pins = s.pins ∧ (s.advanceService w requester next).line = s.line ∧
    (s.advanceService w requester next).rx = s.rx ∧ (s.advanceService w requester next).layout = s.layout ∧
    (s.advanceService w requester next).mirror = s.mirror ∧ (s.advanceService w requester next).pub = s.pub ∧
    (s.advanceService w requester next).sched = s.sched ∧
    (s.advanceService w requester next).claims = s.claims ∧
    (s.advanceService w requester next).roster = s.roster ∧ (s.advanceService w requester next).ctl = s.ctl ∧
    (s.advanceService w requester next).port = s.port ∧ (s.advanceService w requester next).report = s.report ∧
    (s.advanceService w requester next).pending = s.pending := by
  unfold State.advanceService; try dsimp only
  (repeat' split) <;> simp

@[simp] theorem State.takeChunk_frame (s : State) (w offset : Nat) (data : List Byte) :
    (s.takeChunk w offset data).pins = s.pins ∧ (s.takeChunk w offset data).line = s.line ∧
    (s.takeChunk w offset data).rx = s.rx ∧ (s.takeChunk w offset data).layout = s.layout ∧
    (s.takeChunk w offset data).pub = s.pub ∧ (s.takeChunk w offset data).claims = s.claims ∧
    (s.takeChunk w offset data).roster = s.roster ∧ (s.takeChunk w offset data).ctl = s.ctl ∧
    (s.takeChunk w offset data).port = s.port ∧ (s.takeChunk w offset data).report = s.report ∧
    (s.takeChunk w offset data).pending = s.pending := by
  simp [State.takeChunk]

@[simp] theorem State.acceptFill_frame (s : State) (sent : Bool) (w offset requester : Nat) (data : List Byte) :
    (s.acceptFill sent w offset requester data).pins = s.pins ∧
    (s.acceptFill sent w offset requester data).line = s.line ∧
    (s.acceptFill sent w offset requester data).rx = s.rx ∧
    (s.acceptFill sent w offset requester data).layout = s.layout ∧
    (s.acceptFill sent w offset requester data).pub = s.pub ∧
    (s.acceptFill sent w offset requester data).claims = s.claims ∧
    (s.acceptFill sent w offset requester data).roster = s.roster ∧
    (s.acceptFill sent w offset requester data).ctl = s.ctl ∧
    (s.acceptFill sent w offset requester data).port = s.port ∧
    (s.acceptFill sent w offset requester data).report = s.report ∧
    (s.acceptFill sent w offset requester data).pending = s.pending := by
  unfold State.acceptFill; try dsimp only
  (repeat' split) <;> simp

@[simp] theorem State.becomeFresh_frame (s : State) (w : Nat) :
    (s.becomeFresh w).pins = s.pins ∧ (s.becomeFresh w).line = s.line ∧ (s.becomeFresh w).rx = s.rx ∧
    (s.becomeFresh w).layout = s.layout ∧ (s.becomeFresh w).mirror = s.mirror ∧ (s.becomeFresh w).pub = s.pub ∧
    (s.becomeFresh w).sched = s.sched ∧ (s.becomeFresh w).claims = s.claims ∧
    (s.becomeFresh w).roster = s.roster ∧ (s.becomeFresh w).ctl = s.ctl ∧ (s.becomeFresh w).port = s.port ∧
    (s.becomeFresh w).pending = s.pending := by
  unfold State.becomeFresh; try dsimp only
  (repeat' split) <;> simp

@[simp] theorem State.fillApplied_frame (s : State) (w len : Nat) :
    (s.fillApplied w len).pins = s.pins ∧ (s.fillApplied w len).line = s.line ∧
    (s.fillApplied w len).rx = s.rx ∧ (s.fillApplied w len).layout = s.layout ∧
    (s.fillApplied w len).mirror = s.mirror ∧ (s.fillApplied w len).pub = s.pub ∧
    (s.fillApplied w len).sched = s.sched ∧ (s.fillApplied w len).claims = s.claims ∧
    (s.fillApplied w len).roster = s.roster ∧ (s.fillApplied w len).ctl = s.ctl ∧
    (s.fillApplied w len).port = s.port ∧ (s.fillApplied w len).pending = s.pending := by
  unfold State.fillApplied; try dsimp only
  (repeat' split) <;> simp

@[simp] theorem State.zeroFilled_frame (s : State) :
    s.zeroFilled.pins = s.pins ∧ s.zeroFilled.line = s.line ∧ s.zeroFilled.rx = s.rx ∧
    s.zeroFilled.layout = s.layout ∧ s.zeroFilled.mirror = s.mirror ∧ s.zeroFilled.pub = s.pub ∧
    s.zeroFilled.sched = s.sched ∧ s.zeroFilled.claims = s.claims ∧ s.zeroFilled.roster = s.roster ∧
    s.zeroFilled.ctl = s.ctl ∧ s.zeroFilled.port = s.port ∧ s.zeroFilled.pending = s.pending := by
  simp [State.zeroFilled]

@[simp] theorem State.restartFill_frame (s : State) (w : Nat) :
    (s.restartFill w).pins = s.pins ∧ (s.restartFill w).line = s.line ∧ (s.restartFill w).rx = s.rx ∧
    (s.restartFill w).layout = s.layout ∧ (s.restartFill w).pub = s.pub ∧ (s.restartFill w).sched = s.sched ∧
    (s.restartFill w).claims = s.claims ∧ (s.restartFill w).roster = s.roster ∧ (s.restartFill w).ctl = s.ctl ∧
    (s.restartFill w).port = s.port ∧ (s.restartFill w).report = s.report ∧
    (s.restartFill w).pending = s.pending := by
  simp [State.restartFill]

@[simp] theorem State.strip_frame (s : State) (n : Nat) :
    (s.strip n).pins = s.pins ∧ (s.strip n).line = s.line ∧ (s.strip n).rx = s.rx ∧
    (s.strip n).layout = s.layout ∧ (s.strip n).mirror = s.mirror ∧ (s.strip n).pub = s.pub ∧
    (s.strip n).sched = s.sched ∧ (s.strip n).roster = s.roster ∧ (s.strip n).ctl = s.ctl ∧
    (s.strip n).port = s.port ∧ (s.strip n).pending = s.pending := by
  simp [State.strip]

@[simp] theorem State.stripPresent_frame (s : State) (n : Nat) :
    (s.stripPresent n).pins = s.pins ∧ (s.stripPresent n).line = s.line ∧ (s.stripPresent n).rx = s.rx ∧
    (s.stripPresent n).layout = s.layout ∧ (s.stripPresent n).mirror = s.mirror ∧
    (s.stripPresent n).pub = s.pub ∧ (s.stripPresent n).sched = s.sched ∧
    (s.stripPresent n).roster = s.roster ∧ (s.stripPresent n).ctl = s.ctl ∧ (s.stripPresent n).port = s.port ∧
    (s.stripPresent n).pending = s.pending := by
  unfold State.stripPresent; try dsimp only
  (repeat' split) <;> simp

@[simp] theorem State.setApart_frame (s : State) (sender : Nat) :
    (s.setApart sender).pins = s.pins ∧ (s.setApart sender).line = s.line ∧ (s.setApart sender).rx = s.rx ∧
    (s.setApart sender).layout = s.layout ∧ (s.setApart sender).mirror = s.mirror ∧
    (s.setApart sender).pub = s.pub ∧ (s.setApart sender).sched = s.sched ∧ (s.setApart sender).ctl = s.ctl ∧
    (s.setApart sender).port = s.port ∧ (s.setApart sender).pending = s.pending := by
  simp [State.setApart]

@[simp] theorem State.startAnswer_frame (s : State) (sent : Bool) :
    (s.startAnswer sent).pins = s.pins ∧ (s.startAnswer sent).line = s.line ∧ (s.startAnswer sent).rx = s.rx ∧
    (s.startAnswer sent).layout = s.layout ∧ (s.startAnswer sent).mirror = s.mirror ∧
    (s.startAnswer sent).pub = s.pub ∧ (s.startAnswer sent).sched = s.sched ∧
    (s.startAnswer sent).claims = s.claims ∧ (s.startAnswer sent).roster = s.roster ∧
    (s.startAnswer sent).refresh = s.refresh ∧ (s.startAnswer sent).port = s.port ∧
    (s.startAnswer sent).report = s.report ∧ (s.startAnswer sent).pending = s.pending := by
  unfold State.startAnswer; try dsimp only
  (repeat' split) <;> simp

@[simp] theorem State.acceptJoin_frame (s : State) (sender : Nat) (sent : Bool) :
    (s.acceptJoin sender sent).pins = s.pins ∧ (s.acceptJoin sender sent).line = s.line ∧
    (s.acceptJoin sender sent).rx = s.rx ∧ (s.acceptJoin sender sent).layout = s.layout ∧
    (s.acceptJoin sender sent).mirror = s.mirror ∧ (s.acceptJoin sender sent).pub = s.pub ∧
    (s.acceptJoin sender sent).sched = s.sched ∧ (s.acceptJoin sender sent).port = s.port ∧
    (s.acceptJoin sender sent).pending = s.pending := by
  simp [State.acceptJoin]

@[simp] theorem State.acceptPresence_frame (s : State) (sender : Nat) (sent : Bool) (mode : PresenceMode) (sig : Word) :
    (s.acceptPresence sender sent mode sig).pins = s.pins ∧
    (s.acceptPresence sender sent mode sig).line = s.line ∧ (s.acceptPresence sender sent mode sig).rx = s.rx ∧
    (s.acceptPresence sender sent mode sig).layout = s.layout ∧
    (s.acceptPresence sender sent mode sig).mirror = s.mirror ∧
    (s.acceptPresence sender sent mode sig).pub = s.pub ∧
    (s.acceptPresence sender sent mode sig).sched = s.sched ∧
    (s.acceptPresence sender sent mode sig).port = s.port ∧
    (s.acceptPresence sender sent mode sig).pending = s.pending := by
  unfold State.acceptPresence; try dsimp only
  (repeat' split) <;> simp

@[simp] theorem State.installCensus_frame (s : State) (map : List RosterStatus) (groups : List (List Nat)) :
    (s.installCensus map groups).pins = s.pins ∧ (s.installCensus map groups).line = s.line ∧
    (s.installCensus map groups).rx = s.rx ∧ (s.installCensus map groups).layout = s.layout ∧
    (s.installCensus map groups).port = s.port ∧ (s.installCensus map groups).pending = s.pending := by
  simp [State.installCensus]

@[simp] theorem State.acceptCensus_frame (s : State) (sender : Nat) (sig : Word) (map : List RosterStatus) (groups : List (List Nat)) :
    (s.acceptCensus sender sig map groups).pins = s.pins ∧
    (s.acceptCensus sender sig map groups).line = s.line ∧ (s.acceptCensus sender sig map groups).rx = s.rx ∧
    (s.acceptCensus sender sig map groups).layout = s.layout ∧
    (s.acceptCensus sender sig map groups).port = s.port ∧
    (s.acceptCensus sender sig map groups).pending = s.pending := by
  unfold State.acceptCensus; try dsimp only
  (repeat' split) <;> simp

@[simp] theorem State.departSelf_frame (s : State) :
    s.departSelf.pins = s.pins ∧ s.departSelf.layout = s.layout ∧ s.departSelf.port = s.port ∧
    s.departSelf.pending = s.pending := by
  unfold State.departSelf; try dsimp only
  (repeat' split) <;> simp

@[simp] theorem State.acceptDepart_frame (s : State) (subject : Nat) :
    (s.acceptDepart subject).pins = s.pins ∧ (s.acceptDepart subject).layout = s.layout ∧
    (s.acceptDepart subject).port = s.port ∧ (s.acceptDepart subject).pending = s.pending := by
  unfold State.acceptDepart; try dsimp only
  (repeat' split) <;> simp

@[simp] theorem State.abandonWith_frame (s : State) (f : InFlight) (reason : AbandonReason) :
    (s.abandonWith f reason).pins = s.pins ∧ (s.abandonWith f reason).line = s.line ∧
    (s.abandonWith f reason).rx = s.rx ∧ (s.abandonWith f reason).layout = s.layout ∧
    (s.abandonWith f reason).claims = s.claims ∧ (s.abandonWith f reason).roster = s.roster ∧
    (s.abandonWith f reason).refresh = s.refresh ∧ (s.abandonWith f reason).ctl = s.ctl ∧
    (s.abandonWith f reason).port = s.port ∧ (s.abandonWith f reason).pending = s.pending := by
  unfold State.abandonWith; try dsimp only
  (repeat' split) <;> simp

@[simp] theorem State.dropWaiting_frame (s : State) :
    s.dropWaiting.pins = s.pins ∧ s.dropWaiting.line = s.line ∧ s.dropWaiting.rx = s.rx ∧
    s.dropWaiting.layout = s.layout ∧ s.dropWaiting.pub = s.pub ∧ s.dropWaiting.claims = s.claims ∧
    s.dropWaiting.roster = s.roster ∧ s.dropWaiting.refresh = s.refresh ∧ s.dropWaiting.ctl = s.ctl ∧
    s.dropWaiting.port = s.port ∧ s.dropWaiting.report = s.report ∧ s.dropWaiting.pending = s.pending := by
  unfold State.dropWaiting; try dsimp only
  (repeat' split) <;> simp

@[simp] theorem State.dropOvertaken_frame (s : State) :
    s.dropOvertaken.pins = s.pins ∧ s.dropOvertaken.line = s.line ∧ s.dropOvertaken.rx = s.rx ∧
    s.dropOvertaken.layout = s.layout ∧ s.dropOvertaken.claims = s.claims ∧ s.dropOvertaken.roster = s.roster ∧
    s.dropOvertaken.refresh = s.refresh ∧ s.dropOvertaken.ctl = s.ctl ∧ s.dropOvertaken.port = s.port ∧
    s.dropOvertaken.pending = s.pending := by
  simp [State.dropOvertaken]

@[simp] theorem State.unclaim_frame (s : State) (records : List PubRecord) :
    (s.unclaim records).pins = s.pins ∧ (s.unclaim records).line = s.line ∧ (s.unclaim records).rx = s.rx ∧
    (s.unclaim records).layout = s.layout ∧ (s.unclaim records).mirror = s.mirror ∧
    (s.unclaim records).pub = s.pub ∧ (s.unclaim records).sched = s.sched ∧
    (s.unclaim records).roster = s.roster ∧ (s.unclaim records).refresh = s.refresh ∧
    (s.unclaim records).ctl = s.ctl ∧ (s.unclaim records).port = s.port ∧
    (s.unclaim records).report = s.report ∧ (s.unclaim records).pending = s.pending := by
  unfold State.unclaim; try dsimp only
  (repeat' split) <;> simp

@[simp] theorem State.abandonAttempts_frame (s : State) (f : InFlight) :
    (s.abandonAttempts f).pins = s.pins ∧ (s.abandonAttempts f).layout = s.layout ∧
    (s.abandonAttempts f).port = s.port ∧ (s.abandonAttempts f).pending = s.pending := by
  unfold State.abandonAttempts; try dsimp only
  (repeat' split) <;> simp

@[simp] theorem State.reportLost_frame (s : State) :
    s.reportLost.pins = s.pins ∧ s.reportLost.line = s.line ∧ s.reportLost.rx = s.rx ∧
    s.reportLost.layout = s.layout ∧ s.reportLost.claims = s.claims ∧ s.reportLost.roster = s.roster ∧
    s.reportLost.refresh = s.refresh ∧ s.reportLost.ctl = s.ctl ∧ s.reportLost.port = s.port ∧
    s.reportLost.pending = s.pending := by
  unfold State.reportLost; try dsimp only
  (repeat' split) <;> simp

@[simp] theorem State.reportFailed_frame (s : State) (faulted : Bool) :
    (s.reportFailed faulted).pins = s.pins ∧ (s.reportFailed faulted).layout = s.layout ∧
    (s.reportFailed faulted).port = s.port ∧ (s.reportFailed faulted).pending = s.pending := by
  unfold State.reportFailed; try dsimp only
  (repeat' split) <;> simp

@[simp] theorem State.finishAbandon_frame (s : State) :
    s.finishAbandon.pins = s.pins ∧ s.finishAbandon.layout = s.layout ∧ s.finishAbandon.port = s.port ∧
    s.finishAbandon.pending = s.pending := by
  unfold State.finishAbandon; try dsimp only
  (repeat' split) <;> simp

@[simp] theorem State.settle_frame (s : State) (rejected : Bool) :
    (s.settle rejected).pins = s.pins ∧ (s.settle rejected).layout = s.layout ∧
    (s.settle rejected).port = s.port ∧ (s.settle rejected).pending = s.pending := by
  unfold State.settle; try dsimp only
  (repeat' split) <;> simp

@[simp] theorem State.supplyFill_frame (s : State) (e : Service) (attempts : Nat) :
    (s.supplyFill e attempts).pins = s.pins ∧ (s.supplyFill e attempts).layout = s.layout ∧
    (s.supplyFill e attempts).pub = s.pub ∧ (s.supplyFill e attempts).claims = s.claims ∧
    (s.supplyFill e attempts).roster = s.roster ∧ (s.supplyFill e attempts).refresh = s.refresh ∧
    (s.supplyFill e attempts).ctl = s.ctl ∧ (s.supplyFill e attempts).port = s.port ∧
    (s.supplyFill e attempts).report = s.report ∧ (s.supplyFill e attempts).pending = s.pending := by
  unfold State.supplyFill; try dsimp only
  (repeat' split) <;> simp

@[simp] theorem State.resupply_frame (s : State) (f : InFlight) :
    (s.resupply f).pins = s.pins ∧ (s.resupply f).layout = s.layout ∧ (s.resupply f).pub = s.pub ∧
    (s.resupply f).claims = s.claims ∧ (s.resupply f).roster = s.roster ∧ (s.resupply f).refresh = s.refresh ∧
    (s.resupply f).ctl = s.ctl ∧ (s.resupply f).port = s.port ∧ (s.resupply f).report = s.report ∧
    (s.resupply f).pending = s.pending := by
  unfold State.resupply; try dsimp only
  (repeat' split) <;> simp

@[simp] theorem State.selectPublication_frame (s : State) (r : PubRecord) (rest : List PubRecord) :
    (s.selectPublication r rest).pins = s.pins ∧ (s.selectPublication r rest).layout = s.layout ∧
    (s.selectPublication r rest).mirror = s.mirror ∧ (s.selectPublication r rest).claims = s.claims ∧
    (s.selectPublication r rest).roster = s.roster ∧ (s.selectPublication r rest).refresh = s.refresh ∧
    (s.selectPublication r rest).ctl = s.ctl ∧ (s.selectPublication r rest).port = s.port ∧
    (s.selectPublication r rest).report = s.report ∧ (s.selectPublication r rest).pending = s.pending := by
  simp [State.selectPublication]

@[simp] theorem State.selectFill_frame (s : State) (e : Service) :
    (s.selectFill e).pins = s.pins ∧ (s.selectFill e).layout = s.layout ∧ (s.selectFill e).pub = s.pub ∧
    (s.selectFill e).claims = s.claims ∧ (s.selectFill e).roster = s.roster ∧
    (s.selectFill e).refresh = s.refresh ∧ (s.selectFill e).ctl = s.ctl ∧ (s.selectFill e).port = s.port ∧
    (s.selectFill e).report = s.report ∧ (s.selectFill e).pending = s.pending := by
  simp [State.selectFill]

@[simp] theorem State.selectByTurn_frame (s : State) :
    s.selectByTurn.pins = s.pins ∧ s.selectByTurn.layout = s.layout ∧ s.selectByTurn.claims = s.claims ∧
    s.selectByTurn.roster = s.roster ∧ s.selectByTurn.refresh = s.refresh ∧ s.selectByTurn.ctl = s.ctl ∧
    s.selectByTurn.port = s.port ∧ s.selectByTurn.report = s.report ∧ s.selectByTurn.pending = s.pending := by
  unfold State.selectByTurn; try dsimp only
  (repeat' split) <;> simp

@[simp] theorem State.select_frame (s : State) :
    s.select.pins = s.pins ∧ s.select.layout = s.layout ∧ s.select.claims = s.claims ∧
    s.select.roster = s.roster ∧ s.select.refresh = s.refresh ∧ s.select.ctl = s.ctl ∧ s.select.port = s.port ∧
    s.select.report = s.report ∧ s.select.pending = s.pending := by
  unfold State.select; try dsimp only
  (repeat' split) <;> simp

@[simp] theorem State.atOpportunity_frame (s : State) :
    s.atOpportunity.pins = s.pins ∧ s.atOpportunity.layout = s.layout ∧ s.atOpportunity.claims = s.claims ∧
    s.atOpportunity.roster = s.roster ∧ s.atOpportunity.refresh = s.refresh ∧ s.atOpportunity.ctl = s.ctl ∧
    s.atOpportunity.port = s.port ∧ s.atOpportunity.pending = s.pending := by
  unfold State.atOpportunity; try dsimp only
  (repeat' split) <;> simp

@[simp] theorem State.acceptTimers_frame (s : State) (sender : Nat) (sent : Bool) :
    (s.acceptTimers sender sent).pins = s.pins ∧ (s.acceptTimers sender sent).rx = s.rx ∧
    (s.acceptTimers sender sent).layout = s.layout ∧ (s.acceptTimers sender sent).mirror = s.mirror ∧
    (s.acceptTimers sender sent).pub = s.pub ∧ (s.acceptTimers sender sent).sched = s.sched ∧
    (s.acceptTimers sender sent).claims = s.claims ∧ (s.acceptTimers sender sent).refresh = s.refresh ∧
    (s.acceptTimers sender sent).ctl = s.ctl ∧ (s.acceptTimers sender sent).port = s.port ∧
    (s.acceptTimers sender sent).report = s.report ∧ (s.acceptTimers sender sent).pending = s.pending := by
  unfold State.acceptTimers; try dsimp only
  (repeat' split) <;> simp

@[simp] theorem State.acceptWrite_frame (s : State) (sender w offset : Nat) (data : List Byte) :
    (s.acceptWrite sender w offset data).pins = s.pins ∧ (s.acceptWrite sender w offset data).line = s.line ∧
    (s.acceptWrite sender w offset data).rx = s.rx ∧ (s.acceptWrite sender w offset data).layout = s.layout ∧
    (s.acceptWrite sender w offset data).pub = s.pub ∧ (s.acceptWrite sender w offset data).claims = s.claims ∧
    (s.acceptWrite sender w offset data).roster = s.roster ∧
    (s.acceptWrite sender w offset data).refresh = s.refresh ∧
    (s.acceptWrite sender w offset data).ctl = s.ctl ∧ (s.acceptWrite sender w offset data).port = s.port ∧
    (s.acceptWrite sender w offset data).report = s.report ∧
    (s.acceptWrite sender w offset data).pending = s.pending := by
  unfold State.acceptWrite; try dsimp only
  (repeat' split) <;> simp

@[simp] theorem State.acceptBody_frame (s : State) (sender : Nat) (sent : Bool) (b : Body) :
    (s.acceptBody sender sent b).pins = s.pins ∧ (s.acceptBody sender sent b).layout = s.layout ∧
    (s.acceptBody sender sent b).port = s.port ∧ (s.acceptBody sender sent b).pending = s.pending := by
  unfold State.acceptBody; try dsimp only
  (repeat' split) <;> simp

@[simp] theorem State.acceptEffect_frame (s : State) (sender : Nat) (sent : Bool) (body : Option Body) :
    (s.acceptEffect sender sent body).pins = s.pins ∧ (s.acceptEffect sender sent body).layout = s.layout ∧
    (s.acceptEffect sender sent body).port = s.port ∧ (s.acceptEffect sender sent body).pending = s.pending := by
  unfold State.acceptEffect; try dsimp only
  (repeat' split) <;> simp

@[simp] theorem State.accept_frame (s : State) (sender : Nat) (sent : Bool) (body : Option Body) :
    (s.accept sender sent body).pins = s.pins ∧ (s.accept sender sent body).layout = s.layout ∧
    (s.accept sender sent body).port = s.port ∧ (s.accept sender sent body).pending = s.pending := by
  unfold State.accept; try dsimp only
  (repeat' split) <;> simp

@[simp] theorem State.windowVoided_frame (s : State) (f : RxFrame) :
    (s.windowVoided f).pins = s.pins ∧ (s.windowVoided f).layout = s.layout ∧
    (s.windowVoided f).port = s.port ∧ (s.windowVoided f).pending = s.pending := by
  unfold State.windowVoided; try dsimp only
  (repeat' split) <;> simp

@[simp] theorem State.overhear_frame (s : State) (f : RxFrame) :
    (s.overhear f).pins = s.pins ∧ (s.overhear f).layout = s.layout ∧ (s.overhear f).port = s.port ∧
    (s.overhear f).pending = s.pending := by
  unfold State.overhear; try dsimp only
  (repeat' split) <;> simp

@[simp] theorem State.windowAccepted_frame (s : State) (f : RxFrame) :
    (s.windowAccepted f).pins = s.pins ∧ (s.windowAccepted f).layout = s.layout ∧
    (s.windowAccepted f).port = s.port ∧ (s.windowAccepted f).pending = s.pending := by
  unfold State.windowAccepted; try dsimp only
  (repeat' split) <;> simp

@[simp] theorem State.deferredFounding_frame (s : State) :
    s.deferredFounding.pins = s.pins ∧ s.deferredFounding.line = s.line ∧ s.deferredFounding.rx = s.rx ∧
    s.deferredFounding.layout = s.layout ∧ s.deferredFounding.claims = s.claims ∧
    s.deferredFounding.roster = s.roster ∧ s.deferredFounding.refresh = s.refresh ∧
    s.deferredFounding.port = s.port ∧ s.deferredFounding.pending = s.pending := by
  unfold State.deferredFounding; try dsimp only
  (repeat' split) <;> simp

@[simp] theorem State.afterWindow_frame (s : State) :
    s.afterWindow.pins = s.pins ∧ s.afterWindow.layout = s.layout ∧ s.afterWindow.port = s.port ∧
    s.afterWindow.pending = s.pending := by
  simp [State.afterWindow]

@[simp] theorem State.endWindow_frame (s : State) (f : RxFrame) (samples : BitVec 20) :
    (s.endWindow f samples).pins = s.pins ∧ (s.endWindow f samples).layout = s.layout ∧
    (s.endWindow f samples).port = s.port ∧ (s.endWindow f samples).pending = s.pending := by
  unfold State.endWindow; try dsimp only
  (repeat' split) <;> simp

@[simp] theorem State.meetSync_frame (s : State) :
    s.meetSync.pins = s.pins ∧ s.meetSync.rx = s.rx ∧ s.meetSync.layout = s.layout ∧
    s.meetSync.mirror = s.mirror ∧ s.meetSync.pub = s.pub ∧ s.meetSync.sched = s.sched ∧
    s.meetSync.claims = s.claims ∧ s.meetSync.roster = s.roster ∧ s.meetSync.refresh = s.refresh ∧
    s.meetSync.ctl = s.ctl ∧ s.meetSync.port = s.port ∧ s.meetSync.report = s.report ∧
    s.meetSync.pending = s.pending := by
  unfold State.meetSync; try dsimp only
  (repeat' split) <;> simp

@[simp] theorem State.completeGap_frame (s : State) :
    s.completeGap.pins = s.pins ∧ s.completeGap.rx = s.rx ∧ s.completeGap.layout = s.layout ∧
    s.completeGap.mirror = s.mirror ∧ s.completeGap.pub = s.pub ∧ s.completeGap.sched = s.sched ∧
    s.completeGap.claims = s.claims ∧ s.completeGap.roster = s.roster ∧ s.completeGap.refresh = s.refresh ∧
    s.completeGap.ctl = s.ctl ∧ s.completeGap.port = s.port ∧ s.completeGap.report = s.report ∧
    s.completeGap.pending = s.pending := by
  unfold State.completeGap; try dsimp only
  (repeat' split) <;> simp

@[simp] theorem State.restartCycle_frame (s : State) :
    s.restartCycle.pins = s.pins ∧ s.restartCycle.rx = s.rx ∧ s.restartCycle.layout = s.layout ∧
    s.restartCycle.mirror = s.mirror ∧ s.restartCycle.pub = s.pub ∧ s.restartCycle.sched = s.sched ∧
    s.restartCycle.claims = s.claims ∧ s.restartCycle.roster = s.roster ∧ s.restartCycle.refresh = s.refresh ∧
    s.restartCycle.ctl = s.ctl ∧ s.restartCycle.port = s.port ∧ s.restartCycle.report = s.report ∧
    s.restartCycle.pending = s.pending := by
  unfold State.restartCycle; try dsimp only
  (repeat' split) <;> simp

@[simp] theorem State.reachSilence_frame (s : State) :
    s.reachSilence.pins = s.pins ∧ s.reachSilence.rx = s.rx ∧ s.reachSilence.layout = s.layout ∧
    s.reachSilence.mirror = s.mirror ∧ s.reachSilence.pub = s.pub ∧ s.reachSilence.claims = s.claims ∧
    s.reachSilence.refresh = s.refresh ∧ s.reachSilence.port = s.port ∧ s.reachSilence.pending = s.pending := by
  unfold State.reachSilence; try dsimp only
  (repeat' split) <;> simp

@[simp] theorem State.strayLevel_frame (s : State) :
    s.strayLevel.pins = s.pins ∧ s.strayLevel.rx = s.rx ∧ s.strayLevel.layout = s.layout ∧
    s.strayLevel.mirror = s.mirror ∧ s.strayLevel.pub = s.pub ∧ s.strayLevel.sched = s.sched ∧
    s.strayLevel.claims = s.claims ∧ s.strayLevel.roster = s.roster ∧ s.strayLevel.refresh = s.refresh ∧
    s.strayLevel.ctl = s.ctl ∧ s.strayLevel.port = s.port ∧ s.strayLevel.report = s.report ∧
    s.strayLevel.pending = s.pending := by
  unfold State.strayLevel; try dsimp only
  (repeat' split) <;> simp

@[simp] theorem State.becomeStuck_frame (s : State) :
    s.becomeStuck.pins = s.pins ∧ s.becomeStuck.layout = s.layout ∧ s.becomeStuck.mirror = s.mirror ∧
    s.becomeStuck.pub = s.pub ∧ s.becomeStuck.sched = s.sched ∧ s.becomeStuck.claims = s.claims ∧
    s.becomeStuck.roster = s.roster ∧ s.becomeStuck.refresh = s.refresh ∧ s.becomeStuck.ctl = s.ctl ∧
    s.becomeStuck.port = s.port ∧ s.becomeStuck.report = s.report ∧ s.becomeStuck.pending = s.pending := by
  unfold State.becomeStuck; try dsimp only
  (repeat' split) <;> simp

@[simp] theorem State.freeLine_frame (s : State) :
    s.freeLine.pins = s.pins ∧ s.freeLine.rx = s.rx ∧ s.freeLine.layout = s.layout ∧
    s.freeLine.mirror = s.mirror ∧ s.freeLine.pub = s.pub ∧ s.freeLine.sched = s.sched ∧
    s.freeLine.claims = s.claims ∧ s.freeLine.roster = s.roster ∧ s.freeLine.refresh = s.refresh ∧
    s.freeLine.ctl = s.ctl ∧ s.freeLine.port = s.port ∧ s.freeLine.report = s.report ∧
    s.freeLine.pending = s.pending := by
  unfold State.freeLine; try dsimp only
  (repeat' split) <;> simp

@[simp] theorem State.senseStart_frame (s : State) :
    s.senseStart.pins = s.pins ∧ s.senseStart.layout = s.layout ∧ s.senseStart.mirror = s.mirror ∧
    s.senseStart.pub = s.pub ∧ s.senseStart.sched = s.sched ∧ s.senseStart.claims = s.claims ∧
    s.senseStart.roster = s.roster ∧ s.senseStart.refresh = s.refresh ∧ s.senseStart.ctl = s.ctl ∧
    s.senseStart.port = s.port ∧ s.senseStart.report = s.report ∧ s.senseStart.pending = s.pending := by
  unfold State.senseStart; try dsimp only
  (repeat' split) <;> simp

@[simp] theorem State.endFrame_frame (s : State) (samples : List CharSamples) :
    (s.endFrame samples).pins = s.pins ∧ (s.endFrame samples).layout = s.layout ∧
    (s.endFrame samples).mirror = s.mirror ∧ (s.endFrame samples).pub = s.pub ∧
    (s.endFrame samples).sched = s.sched ∧ (s.endFrame samples).claims = s.claims ∧
    (s.endFrame samples).roster = s.roster ∧ (s.endFrame samples).refresh = s.refresh ∧
    (s.endFrame samples).ctl = s.ctl ∧ (s.endFrame samples).port = s.port ∧
    (s.endFrame samples).report = s.report ∧ (s.endFrame samples).pending = s.pending := by
  unfold State.endFrame; try dsimp only
  (repeat' split) <;> simp

@[simp] theorem State.endVerdict_frame (s : State) (samples : BitVec 20) :
    (s.endVerdict samples).pins = s.pins ∧ (s.endVerdict samples).layout = s.layout ∧
    (s.endVerdict samples).port = s.port ∧ (s.endVerdict samples).pending = s.pending := by
  unfold State.endVerdict; try dsimp only
  (repeat' split) <;> simp

@[simp] theorem State.takeOpportunity_frame (s : State) :
    s.takeOpportunity.pins = s.pins ∧ s.takeOpportunity.layout = s.layout ∧
    s.takeOpportunity.claims = s.claims ∧ s.takeOpportunity.roster = s.roster ∧
    s.takeOpportunity.refresh = s.refresh ∧ s.takeOpportunity.ctl = s.ctl ∧ s.takeOpportunity.port = s.port ∧
    s.takeOpportunity.pending = s.pending := by
  unfold State.takeOpportunity; try dsimp only
  (repeat' split) <;> simp

@[simp] theorem State.loseArbitration_frame (s : State) (bit : Nat) :
    (s.loseArbitration bit).pins = s.pins ∧ (s.loseArbitration bit).layout = s.layout ∧
    (s.loseArbitration bit).claims = s.claims ∧ (s.loseArbitration bit).roster = s.roster ∧
    (s.loseArbitration bit).refresh = s.refresh ∧ (s.loseArbitration bit).ctl = s.ctl ∧
    (s.loseArbitration bit).port = s.port ∧ (s.loseArbitration bit).pending = s.pending := by
  unfold State.loseArbitration; try dsimp only
  (repeat' split) <;> simp

@[simp] theorem State.faultLine_frame (s : State) (bit : Nat) :
    (s.faultLine bit).pins = s.pins ∧ (s.faultLine bit).layout = s.layout ∧ (s.faultLine bit).port = s.port ∧
    (s.faultLine bit).pending = s.pending := by
  unfold State.faultLine; try dsimp only
  (repeat' split) <;> simp

@[simp] theorem State.expireAnnounce_frame (s : State) :
    s.expireAnnounce.pins = s.pins ∧ s.expireAnnounce.line = s.line ∧ s.expireAnnounce.rx = s.rx ∧
    s.expireAnnounce.layout = s.layout ∧ s.expireAnnounce.mirror = s.mirror ∧ s.expireAnnounce.pub = s.pub ∧
    s.expireAnnounce.claims = s.claims ∧ s.expireAnnounce.refresh = s.refresh ∧ s.expireAnnounce.ctl = s.ctl ∧
    s.expireAnnounce.port = s.port ∧ s.expireAnnounce.report = s.report ∧ s.expireAnnounce.pending = s.pending := by
  unfold State.expireAnnounce; try dsimp only
  (repeat' split) <;> simp

@[simp] theorem State.expireSilence_frame (s : State) (n : Nat) :
    (s.expireSilence n).pins = s.pins ∧ (s.expireSilence n).line = s.line ∧ (s.expireSilence n).rx = s.rx ∧
    (s.expireSilence n).layout = s.layout ∧ (s.expireSilence n).mirror = s.mirror ∧
    (s.expireSilence n).pub = s.pub ∧ (s.expireSilence n).claims = s.claims ∧
    (s.expireSilence n).refresh = s.refresh ∧ (s.expireSilence n).ctl = s.ctl ∧
    (s.expireSilence n).port = s.port ∧ (s.expireSilence n).report = s.report ∧
    (s.expireSilence n).pending = s.pending := by
  unfold State.expireSilence; try dsimp only
  (repeat' split) <;> simp

@[simp] theorem State.expireAnswer_frame (s : State) :
    s.expireAnswer.pins = s.pins ∧ s.expireAnswer.line = s.line ∧ s.expireAnswer.rx = s.rx ∧
    s.expireAnswer.layout = s.layout ∧ s.expireAnswer.claims = s.claims ∧ s.expireAnswer.roster = s.roster ∧
    s.expireAnswer.refresh = s.refresh ∧ s.expireAnswer.port = s.port ∧ s.expireAnswer.pending = s.pending := by
  unfold State.expireAnswer; try dsimp only
  (repeat' split) <;> simp

@[simp] theorem State.tickAnnounce_frame (s : State) :
    s.tickAnnounce.pins = s.pins ∧ s.tickAnnounce.line = s.line ∧ s.tickAnnounce.rx = s.rx ∧
    s.tickAnnounce.layout = s.layout ∧ s.tickAnnounce.mirror = s.mirror ∧ s.tickAnnounce.pub = s.pub ∧
    s.tickAnnounce.claims = s.claims ∧ s.tickAnnounce.refresh = s.refresh ∧ s.tickAnnounce.ctl = s.ctl ∧
    s.tickAnnounce.port = s.port ∧ s.tickAnnounce.report = s.report ∧ s.tickAnnounce.pending = s.pending := by
  unfold State.tickAnnounce; try dsimp only
  (repeat' split) <;> simp

@[simp] theorem State.tickSilence_frame (s : State) (n : Nat) :
    (s.tickSilence n).pins = s.pins ∧ (s.tickSilence n).line = s.line ∧ (s.tickSilence n).rx = s.rx ∧
    (s.tickSilence n).layout = s.layout ∧ (s.tickSilence n).mirror = s.mirror ∧ (s.tickSilence n).pub = s.pub ∧
    (s.tickSilence n).claims = s.claims ∧ (s.tickSilence n).refresh = s.refresh ∧
    (s.tickSilence n).ctl = s.ctl ∧ (s.tickSilence n).port = s.port ∧ (s.tickSilence n).report = s.report ∧
    (s.tickSilence n).pending = s.pending := by
  unfold State.tickSilence; try dsimp only
  (repeat' split) <;> simp

@[simp] theorem State.tickAnswer_frame (s : State) :
    s.tickAnswer.pins = s.pins ∧ s.tickAnswer.line = s.line ∧ s.tickAnswer.rx = s.rx ∧
    s.tickAnswer.layout = s.layout ∧ s.tickAnswer.claims = s.claims ∧ s.tickAnswer.roster = s.roster ∧
    s.tickAnswer.refresh = s.refresh ∧ s.tickAnswer.port = s.port ∧ s.tickAnswer.pending = s.pending := by
  unfold State.tickAnswer; try dsimp only
  (repeat' split) <;> simp

@[simp] theorem State.tickLease_frame (s : State) (w : Nat) :
    (s.tickLease w).pins = s.pins ∧ (s.tickLease w).line = s.line ∧ (s.tickLease w).rx = s.rx ∧
    (s.tickLease w).layout = s.layout ∧ (s.tickLease w).mirror = s.mirror ∧ (s.tickLease w).pub = s.pub ∧
    (s.tickLease w).roster = s.roster ∧ (s.tickLease w).refresh = s.refresh ∧ (s.tickLease w).ctl = s.ctl ∧
    (s.tickLease w).port = s.port ∧ (s.tickLease w).pending = s.pending := by
  unfold State.tickLease; try dsimp only
  (repeat' split) <;> simp

@[simp] theorem State.tickFetch_frame (s : State) (w : Nat) :
    (s.tickFetch w).pins = s.pins ∧ (s.tickFetch w).line = s.line ∧ (s.tickFetch w).rx = s.rx ∧
    (s.tickFetch w).layout = s.layout ∧ (s.tickFetch w).mirror = s.mirror ∧ (s.tickFetch w).pub = s.pub ∧
    (s.tickFetch w).claims = s.claims ∧ (s.tickFetch w).roster = s.roster ∧ (s.tickFetch w).ctl = s.ctl ∧
    (s.tickFetch w).port = s.port ∧ (s.tickFetch w).pending = s.pending := by
  unfold State.tickFetch; try dsimp only
  (repeat' split) <;> simp

@[simp] theorem State.tickTimers_frame (s : State) :
    s.tickTimers.pins = s.pins ∧ s.tickTimers.layout = s.layout ∧ s.tickTimers.port = s.port ∧
    s.tickTimers.pending = s.pending := by
  have keep : ∀ {α : Type} (g : State → α), (∀ s n, g (State.tickSilence s n) = g s) →
      (∀ s w, g (State.tickLease s w) = g s) → (∀ s w, g (State.tickFetch s w) = g s) →
      (∀ s, g (State.tickAnnounce s) = g s) → (∀ s, g (State.tickAnswer s) = g s) → g s.tickTimers = g s := by
    intro α g h1 h2 h3 h4 h5
    unfold State.tickTimers
    rw [foldl_keeps _ g h3, foldl_keeps _ g h2, h5, foldl_keeps _ g h1, h4]
  refine ⟨keep _ ?_ ?_ ?_ ?_ ?_, keep _ ?_ ?_ ?_ ?_ ?_, keep _ ?_ ?_ ?_ ?_ ?_, keep _ ?_ ?_ ?_ ?_ ?_⟩ <;> simp

@[simp] theorem State.tickIdle_frame (s : State) :
    s.tickIdle.pins = s.pins ∧ s.tickIdle.rx = s.rx ∧ s.tickIdle.layout = s.layout ∧
    s.tickIdle.mirror = s.mirror ∧ s.tickIdle.pub = s.pub ∧ s.tickIdle.claims = s.claims ∧
    s.tickIdle.refresh = s.refresh ∧ s.tickIdle.port = s.port ∧ s.tickIdle.pending = s.pending := by
  unfold State.tickIdle; try dsimp only
  (repeat' split) <;> simp

@[simp] theorem State.tickSlot_frame (s : State) :
    s.tickSlot.pins = s.pins ∧ s.tickSlot.layout = s.layout ∧ s.tickSlot.claims = s.claims ∧
    s.tickSlot.roster = s.roster ∧ s.tickSlot.refresh = s.refresh ∧ s.tickSlot.ctl = s.ctl ∧
    s.tickSlot.port = s.port ∧ s.tickSlot.pending = s.pending := by
  unfold State.tickSlot; try dsimp only
  (repeat' split) <;> simp

@[simp] theorem State.tickFrame_frame (s : State) :
    s.tickFrame.pins = s.pins ∧ s.tickFrame.layout = s.layout ∧ s.tickFrame.mirror = s.mirror ∧
    s.tickFrame.pub = s.pub ∧ s.tickFrame.sched = s.sched ∧ s.tickFrame.claims = s.claims ∧
    s.tickFrame.roster = s.roster ∧ s.tickFrame.refresh = s.refresh ∧ s.tickFrame.ctl = s.ctl ∧
    s.tickFrame.port = s.port ∧ s.tickFrame.report = s.report ∧ s.tickFrame.pending = s.pending := by
  unfold State.tickFrame; try dsimp only
  (repeat' split) <;> simp

@[simp] theorem State.tickVerdict_frame (s : State) :
    s.tickVerdict.pins = s.pins ∧ s.tickVerdict.layout = s.layout ∧ s.tickVerdict.port = s.port ∧
    s.tickVerdict.pending = s.pending := by
  unfold State.tickVerdict; try dsimp only
  (repeat' split) <;> simp

@[simp] theorem State.tickStuck_frame (s : State) :
    s.tickStuck.pins = s.pins ∧ s.tickStuck.rx = s.rx ∧ s.tickStuck.layout = s.layout ∧
    s.tickStuck.mirror = s.mirror ∧ s.tickStuck.pub = s.pub ∧ s.tickStuck.sched = s.sched ∧
    s.tickStuck.claims = s.claims ∧ s.tickStuck.roster = s.roster ∧ s.tickStuck.refresh = s.refresh ∧
    s.tickStuck.ctl = s.ctl ∧ s.tickStuck.port = s.port ∧ s.tickStuck.report = s.report ∧
    s.tickStuck.pending = s.pending := by
  unfold State.tickStuck; try dsimp only
  (repeat' split) <;> simp

@[simp] theorem State.tickLine_frame (s : State) :
    s.tickLine.pins = s.pins ∧ s.tickLine.layout = s.layout ∧ s.tickLine.port = s.port ∧
    s.tickLine.pending = s.pending := by
  unfold State.tickLine; try dsimp only
  (repeat' split) <;> simp

@[simp] theorem State.tick_frame (s : State) :
    s.tick.pins = s.pins ∧ s.tick.layout = s.layout ∧ s.tick.port = s.port ∧ s.tick.pending = s.pending := by
  unfold State.tick; try dsimp only
  (repeat' split) <;> simp

@[simp] theorem State.reportApplied_frame (s : State) (e : Inbound) :
    (s.reportApplied e).pins = s.pins ∧ (s.reportApplied e).line = s.line ∧ (s.reportApplied e).rx = s.rx ∧
    (s.reportApplied e).layout = s.layout ∧ (s.reportApplied e).mirror = s.mirror ∧
    (s.reportApplied e).pub = s.pub ∧ (s.reportApplied e).sched = s.sched ∧
    (s.reportApplied e).claims = s.claims ∧ (s.reportApplied e).roster = s.roster ∧
    (s.reportApplied e).ctl = s.ctl ∧ (s.reportApplied e).port = s.port ∧
    (s.reportApplied e).pending = s.pending := by
  unfold State.reportApplied; try dsimp only
  (repeat' split) <;> simp

@[simp] theorem State.storeChunk_frame (s : State) (r : FillRead) :
    (s.storeChunk r).pins = s.pins ∧ (s.storeChunk r).line = s.line ∧ (s.storeChunk r).rx = s.rx ∧
    (s.storeChunk r).layout = s.layout ∧ (s.storeChunk r).mirror = s.mirror ∧ (s.storeChunk r).pub = s.pub ∧
    (s.storeChunk r).claims = s.claims ∧ (s.storeChunk r).roster = s.roster ∧
    (s.storeChunk r).refresh = s.refresh ∧ (s.storeChunk r).ctl = s.ctl ∧ (s.storeChunk r).port = s.port ∧
    (s.storeChunk r).report = s.report ∧ (s.storeChunk r).pending = s.pending := by
  unfold State.storeChunk; try dsimp only
  (repeat' split) <;> simp

@[simp] theorem State.handBurst_frame (s : State) (data : List Byte) (fresh discard : Bool) :
    (s.handBurst data fresh discard).pins = s.pins ∧ (s.handBurst data fresh discard).line = s.line ∧
    (s.handBurst data fresh discard).rx = s.rx ∧ (s.handBurst data fresh discard).layout = s.layout ∧
    (s.handBurst data fresh discard).mirror = s.mirror ∧ (s.handBurst data fresh discard).pub = s.pub ∧
    (s.handBurst data fresh discard).sched = s.sched ∧ (s.handBurst data fresh discard).claims = s.claims ∧
    (s.handBurst data fresh discard).roster = s.roster ∧ (s.handBurst data fresh discard).refresh = s.refresh ∧
    (s.handBurst data fresh discard).ctl = s.ctl ∧ (s.handBurst data fresh discard).report = s.report ∧
    (s.handBurst data fresh discard).pending = s.pending := by
  unfold State.handBurst; try dsimp only
  (repeat' split) <;> simp

@[simp] theorem State.openSelection_frame (s : State) :
    s.openSelection.pins = s.pins ∧ s.openSelection.line = s.line ∧ s.openSelection.rx = s.rx ∧
    s.openSelection.layout = s.layout ∧ s.openSelection.mirror = s.mirror ∧ s.openSelection.pub = s.pub ∧
    s.openSelection.sched = s.sched ∧ s.openSelection.claims = s.claims ∧ s.openSelection.roster = s.roster ∧
    s.openSelection.refresh = s.refresh ∧ s.openSelection.ctl = s.ctl ∧ s.openSelection.report = s.report ∧
    s.openSelection.pending = s.pending := by
  unfold State.openSelection; try dsimp only
  (repeat' split) <;> simp

@[simp] theorem State.cutCommand_frame (s : State) (shifted : Nat) :
    (s.cutCommand shifted).pins = s.pins ∧ (s.cutCommand shifted).line = s.line ∧
    (s.cutCommand shifted).rx = s.rx ∧ (s.cutCommand shifted).layout = s.layout ∧
    (s.cutCommand shifted).pub = s.pub ∧ (s.cutCommand shifted).sched = s.sched ∧
    (s.cutCommand shifted).claims = s.claims ∧ (s.cutCommand shifted).roster = s.roster ∧
    (s.cutCommand shifted).refresh = s.refresh ∧ (s.cutCommand shifted).ctl = s.ctl ∧
    (s.cutCommand shifted).pending = s.pending := by
  unfold State.cutCommand; try dsimp only
  (repeat' split) <;> simp

@[simp] theorem State.requestSnapshot_frame (s : State) (first : Word) (w o : Nat) :
    (s.requestSnapshot first w o).pins = s.pins ∧ (s.requestSnapshot first w o).line = s.line ∧
    (s.requestSnapshot first w o).rx = s.rx ∧ (s.requestSnapshot first w o).layout = s.layout ∧
    (s.requestSnapshot first w o).pub = s.pub ∧ (s.requestSnapshot first w o).sched = s.sched ∧
    (s.requestSnapshot first w o).claims = s.claims ∧ (s.requestSnapshot first w o).roster = s.roster ∧
    (s.requestSnapshot first w o).refresh = s.refresh ∧ (s.requestSnapshot first w o).ctl = s.ctl ∧
    (s.requestSnapshot first w o).report = s.report ∧ (s.requestSnapshot first w o).pending = s.pending := by
  simp [State.requestSnapshot]

@[simp] theorem State.beginRead_frame (s : State) (first : Word) :
    (s.beginRead first).pins = s.pins ∧ (s.beginRead first).line = s.line ∧ (s.beginRead first).rx = s.rx ∧
    (s.beginRead first).layout = s.layout ∧ (s.beginRead first).pub = s.pub ∧
    (s.beginRead first).sched = s.sched ∧ (s.beginRead first).claims = s.claims ∧
    (s.beginRead first).roster = s.roster ∧ (s.beginRead first).refresh = s.refresh ∧
    (s.beginRead first).ctl = s.ctl ∧ (s.beginRead first).report = s.report ∧
    (s.beginRead first).pending = s.pending := by
  unfold State.beginRead; try dsimp only
  (repeat' split) <;> simp

@[simp] theorem State.byteOut_frame (s : State) :
    s.byteOut.pins = s.pins ∧ s.byteOut.line = s.line ∧ s.byteOut.rx = s.rx ∧ s.byteOut.layout = s.layout ∧
    s.byteOut.mirror = s.mirror ∧ s.byteOut.pub = s.pub ∧ s.byteOut.sched = s.sched ∧
    s.byteOut.claims = s.claims ∧ s.byteOut.roster = s.roster ∧ s.byteOut.refresh = s.refresh ∧
    s.byteOut.ctl = s.ctl ∧ s.byteOut.report = s.report ∧ s.byteOut.pending = s.pending := by
  unfold State.byteOut; try dsimp only
  (repeat' split) <;> simp

@[simp] theorem State.latchOutcome_frame (s : State) :
    s.latchOutcome.pins = s.pins ∧ s.latchOutcome.line = s.line ∧ s.latchOutcome.rx = s.rx ∧
    s.latchOutcome.layout = s.layout ∧ s.latchOutcome.mirror = s.mirror ∧ s.latchOutcome.pub = s.pub ∧
    s.latchOutcome.sched = s.sched ∧ s.latchOutcome.claims = s.claims ∧ s.latchOutcome.roster = s.roster ∧
    s.latchOutcome.refresh = s.refresh ∧ s.latchOutcome.ctl = s.ctl ∧ s.latchOutcome.report = s.report ∧
    s.latchOutcome.pending = s.pending := by
  unfold State.latchOutcome; try dsimp only
  (repeat' split) <;> simp

@[simp] theorem State.showQueue_frame (s : State) (w : Nat) :
    (s.showQueue w).pins = s.pins ∧ (s.showQueue w).line = s.line ∧ (s.showQueue w).rx = s.rx ∧
    (s.showQueue w).layout = s.layout ∧ (s.showQueue w).mirror = s.mirror ∧ (s.showQueue w).pub = s.pub ∧
    (s.showQueue w).sched = s.sched ∧ (s.showQueue w).claims = s.claims ∧ (s.showQueue w).roster = s.roster ∧
    (s.showQueue w).refresh = s.refresh ∧ (s.showQueue w).ctl = s.ctl ∧ (s.showQueue w).report = s.report ∧
    (s.showQueue w).pending = s.pending := by
  unfold State.showQueue; try dsimp only
  (repeat' split) <;> simp

@[simp] theorem State.showEntry_frame (s : State) (index : Nat) :
    (s.showEntry index).pins = s.pins ∧ (s.showEntry index).line = s.line ∧ (s.showEntry index).rx = s.rx ∧
    (s.showEntry index).layout = s.layout ∧ (s.showEntry index).mirror = s.mirror ∧
    (s.showEntry index).pub = s.pub ∧ (s.showEntry index).sched = s.sched ∧
    (s.showEntry index).claims = s.claims ∧ (s.showEntry index).roster = s.roster ∧
    (s.showEntry index).refresh = s.refresh ∧ (s.showEntry index).ctl = s.ctl ∧
    (s.showEntry index).report = s.report ∧ (s.showEntry index).pending = s.pending := by
  unfold State.showEntry; try dsimp only
  (repeat' split) <;> simp

@[simp] theorem State.finishWithdrawn_frame (s : State) :
    s.finishWithdrawn.pins = s.pins ∧ s.finishWithdrawn.line = s.line ∧ s.finishWithdrawn.rx = s.rx ∧
    s.finishWithdrawn.layout = s.layout ∧ s.finishWithdrawn.pub = s.pub ∧ s.finishWithdrawn.sched = s.sched ∧
    s.finishWithdrawn.claims = s.claims ∧ s.finishWithdrawn.roster = s.roster ∧
    s.finishWithdrawn.refresh = s.refresh ∧ s.finishWithdrawn.ctl = s.ctl ∧ s.finishWithdrawn.port = s.port ∧
    s.finishWithdrawn.report = s.report ∧ s.finishWithdrawn.pending = s.pending := by
  unfold State.finishWithdrawn; try dsimp only
  (repeat' split) <;> simp

@[simp] theorem State.setTableEntry_frame (s : State) (index : Nat) (e : Entry) :
    (s.setTableEntry index e).pins = s.pins ∧ (s.setTableEntry index e).line = s.line ∧
    (s.setTableEntry index e).rx = s.rx ∧ (s.setTableEntry index e).pub = s.pub ∧
    (s.setTableEntry index e).sched = s.sched ∧ (s.setTableEntry index e).claims = s.claims ∧
    (s.setTableEntry index e).roster = s.roster ∧ (s.setTableEntry index e).refresh = s.refresh ∧
    (s.setTableEntry index e).ctl = s.ctl ∧ (s.setTableEntry index e).port = s.port ∧
    (s.setTableEntry index e).pending = s.pending := by
  simp [State.setTableEntry]

@[simp] theorem State.startMemory_frame (s : State) :
    s.startMemory.pins = s.pins ∧ s.startMemory.line = s.line ∧ s.startMemory.rx = s.rx ∧
    s.startMemory.layout = s.layout ∧ s.startMemory.pub = s.pub ∧ s.startMemory.sched = s.sched ∧
    s.startMemory.claims = s.claims ∧ s.startMemory.roster = s.roster ∧ s.startMemory.refresh = s.refresh ∧
    s.startMemory.ctl = s.ctl ∧ s.startMemory.port = s.port ∧ s.startMemory.report = s.report ∧
    s.startMemory.pending = s.pending := by
  simp [State.startMemory]

@[simp] theorem State.startStation_frame (s : State) :
    s.startStation.pins = s.pins ∧ s.startStation.port = s.port ∧ s.startStation.pending = s.pending := by
  simp [State.startStation]

@[simp] theorem State.hostStart_frame (s : State) :
    s.hostStart.pins = s.pins ∧ s.hostStart.pending = s.pending := by
  unfold State.hostStart; try dsimp only
  (repeat' split) <;> simp

/-- Placing a byte touches the publication unit only (R76). -/
theorem State.placeByte_frame {s t : State} {w o : Nat} {b : Byte} (h : s.placeByte w o b = some t) :
    t = { s with pub := t.pub } := by
  unfold State.placeByte at h
  (repeat' split at h) <;> simp_all [State.makeRecord] <;> subst h <;> rfl

@[simp] theorem State.writeByte_frame (s : State) (b : Byte) :
    (s.writeByte b).pins = s.pins ∧ (s.writeByte b).line = s.line ∧ (s.writeByte b).rx = s.rx ∧
    (s.writeByte b).layout = s.layout ∧ (s.writeByte b).mirror = s.mirror ∧ (s.writeByte b).sched = s.sched ∧
    (s.writeByte b).claims = s.claims ∧ (s.writeByte b).roster = s.roster ∧ (s.writeByte b).refresh = s.refresh ∧
    (s.writeByte b).ctl = s.ctl ∧ (s.writeByte b).report = s.report ∧ (s.writeByte b).pending = s.pending := by
  unfold State.writeByte
  (repeat' split) <;> simp
  rename_i placed h
  rw [State.placeByte_frame h]
  simp

@[simp] theorem State.hostClaim_frame (s : State) (w : Nat) :
    (s.hostClaim w).1.pins = s.pins ∧ (s.hostClaim w).1.line = s.line ∧ (s.hostClaim w).1.rx = s.rx ∧
    (s.hostClaim w).1.layout = s.layout ∧ (s.hostClaim w).1.mirror = s.mirror ∧ (s.hostClaim w).1.sched = s.sched ∧
    (s.hostClaim w).1.roster = s.roster ∧ (s.hostClaim w).1.refresh = s.refresh ∧ (s.hostClaim w).1.ctl = s.ctl ∧
    (s.hostClaim w).1.port = s.port ∧ (s.hostClaim w).1.report = s.report ∧
    (s.hostClaim w).1.pending = s.pending := by
  unfold State.hostClaim
  (repeat' split) <;> simp

@[simp] theorem State.hostRelease_frame (s : State) (w : Nat) :
    (s.hostRelease w).1.pins = s.pins ∧ (s.hostRelease w).1.line = s.line ∧ (s.hostRelease w).1.rx = s.rx ∧
    (s.hostRelease w).1.layout = s.layout ∧ (s.hostRelease w).1.mirror = s.mirror ∧
    (s.hostRelease w).1.sched = s.sched ∧ (s.hostRelease w).1.roster = s.roster ∧
    (s.hostRelease w).1.refresh = s.refresh ∧ (s.hostRelease w).1.ctl = s.ctl ∧ (s.hostRelease w).1.port = s.port ∧
    (s.hostRelease w).1.pending = s.pending := by
  unfold State.hostRelease
  (repeat' split) <;> simp

@[simp] theorem State.hostRefetch_frame (s : State) (w : Nat) :
    (s.hostRefetch w).1.pins = s.pins ∧ (s.hostRefetch w).1.line = s.line ∧ (s.hostRefetch w).1.rx = s.rx ∧
    (s.hostRefetch w).1.layout = s.layout ∧ (s.hostRefetch w).1.pub = s.pub ∧
    (s.hostRefetch w).1.claims = s.claims ∧ (s.hostRefetch w).1.roster = s.roster ∧
    (s.hostRefetch w).1.ctl = s.ctl ∧ (s.hostRefetch w).1.port = s.port ∧ (s.hostRefetch w).1.report = s.report ∧
    (s.hostRefetch w).1.pending = s.pending := by
  unfold State.hostRefetch
  (repeat' split) <;> simp

@[simp] theorem State.hostLoad_frame (s : State) (index : Nat) (e : Option Entry) :
    (s.hostLoad index e).1.pins = s.pins ∧ (s.hostLoad index e).1.line = s.line ∧
    (s.hostLoad index e).1.rx = s.rx ∧ (s.hostLoad index e).1.pub = s.pub ∧
    (s.hostLoad index e).1.sched = s.sched ∧ (s.hostLoad index e).1.claims = s.claims ∧
    (s.hostLoad index e).1.roster = s.roster ∧ (s.hostLoad index e).1.refresh = s.refresh ∧
    (s.hostLoad index e).1.ctl = s.ctl ∧ (s.hostLoad index e).1.port = s.port ∧
    (s.hostLoad index e).1.pending = s.pending := by
  unfold State.hostLoad
  (repeat' split) <;> simp

@[simp] theorem State.hostLeave_frame (s : State) :
    s.hostLeave.1.pins = s.pins ∧ s.hostLeave.1.layout = s.layout ∧ s.hostLeave.1.port = s.port ∧
    s.hostLeave.1.pending = s.pending := by
  unfold State.hostLeave
  split <;> simp

end Sys2Proof.Machine
end

