-- ==== Sys2Proof/Laws/Codec.lean ====
section
/-! SUPPORT. Frames on the line: what a parsed frame satisfies, and each part of the way from a frame to its characters
and back. -/

namespace Sys2Proof.Machine

/-! ### What parsing yields -/

theorem parseGroups_sound {map : List RosterStatus} {limit : Nat} {bytes : List Byte} {groups : List (List Nat)}
    (h : parseGroups map limit bytes = some groups) :
    groups.length ≤ limit ∧ ∀ g ∈ groups, groupSound map g = true := by
  induction limit generalizing bytes groups with
  | zero => cases bytes <;> simp_all [parseGroups]
  | succ n ih =>
    cases bytes with
    | nil => simp only [parseGroups, Option.some.injEq] at h; subst h; simp
    | cons count rest =>
      simp only [parseGroups] at h
      split at h
      · rename_i hc
        obtain ⟨gs, hgs, rfl⟩ := Option.map_eq_some_iff.1 h
        obtain ⟨hl, hall⟩ := ih hgs
        exact ⟨by simpa using hl, by rintro g (_ | ⟨_, hg⟩); exacts [hc.2, hall g hg]⟩
      · simp at h

theorem mapOf_length (bytes : List Byte) : (mapOf bytes).length = Config.stations := by simp [mapOf]

theorem parseBody_fits {sender : Nat} {kind : Byte} {bytes : List Byte} {b : Body}
    (h : parseBody sender kind bytes = some b) : b.fits sender := by
  have two : ∀ hi lo : Byte, ofTwoBytes hi lo < 65536 := fun hi lo => by
    have := hi.isLt; have := lo.isLt; unfold ofTwoBytes; omega
  unfold parseBody at h
  split at h
  · split at h
    · obtain rfl := Option.some.inj h
      exact ⟨by simp only [Config.windows]; omega, two _ _, by omega, by omega⟩
    · simp at h
  · split at h
    · obtain rfl := Option.some.inj h
      simp only [Body.fits, Config.windows]; omega
    · simp at h
  · split at h
    · obtain ⟨r, -, rfl⟩ := Option.map_eq_some_iff.1 h
      simp only [Body.fits, Config.windows]; omega
    · simp at h
  · unfold parsePresence at h
    dsimp only at h
    split at h
    · split at h <;> simp at h; subst h; trivial
    · split at h <;> simp at h; subst h; trivial
    · split at h <;> simp at h; subst h; trivial
    · unfold parseCensus at h
      dsimp only at h
      split at h
      · rename_i hc
        obtain ⟨gs, hgs, rfl⟩ := Option.map_eq_some_iff.1 h
        exact ⟨mapOf_length _, hc.2, parseGroups_sound hgs⟩
      · simp at h
    · simp at h
  · unfold parseDepart at h
    (repeat' split at h) <;> simp at h <;> (subst h; simp_all [Body.fits, Config.stations]; try omega)
  · split at h
    · rename_i hc
      obtain rfl := Option.some.inj h
      exact ⟨by simp only [Config.windows]; omega, two _ _, hc.2⟩
    · simp at h
  · unfold parseFill at h
    split at h
    · rename_i hc
      obtain rfl := Option.some.inj h
      exact ⟨by simp only [Config.windows]; omega, two _ _, hc.2.1, by simp only [Config.stations]; omega, hc.2.2.2⟩
    · simp at h
  · simp at h

/-- A frame that the receiver reads keeps the first-tier limits (R28, R30). -/
theorem parseFrame_fits {bytes : List Byte} {f : Frame} (h : parseFrame bytes = some f) : f.fits := by
  unfold parseFrame at h
  split at h
  · split at h
    · rename_i hc
      obtain ⟨b, hb, rfl⟩ := Option.map_eq_some_iff.1 h
      exact ⟨by simp only [Config.stations]; omega, parseBody_fits hb⟩
    · simp at h
  · simp at h

/-- Only the kind CLAIM is read as a CLAIM, of the window that its one body byte gives (R25, R184). -/
theorem parseBody_claim_kind {sender : Nat} {kind : Byte} {bytes : List Byte} {w : Nat}
    (h : parseBody sender kind bytes = some (.claim w)) : kind = 0x02 ∧ ∃ x : Byte, bytes = [x] ∧ w = x.toNat := by
  unfold parseBody at h
  split at h
  · split at h <;> simp at h
  · split at h
    · simp only [Option.some.injEq, Body.claim.injEq] at h
      exact ⟨rfl, _, rfl, h.symm⟩
    · simp at h
  · split at h <;> simp at h
  · unfold parsePresence parseCensus at h
    dsimp only at h
    (repeat' split at h) <;> simp at h
  · unfold parseDepart at h
    (repeat' split at h) <;> simp at h
  · split at h <;> simp at h
  · unfold parseFill at h
    split at h <;> simp at h
  · simp at h

/-- A frame that is read as a CLAIM was sent as one (R184). -/
theorem parseFrame_claim {f g : Frame} {w : Nat} (h : parseFrame f.bytes = some g) (hw : g.body = .claim w) :
    ∃ v, f.body = .claim v ∧ w = v % 256 := by
  unfold parseFrame at h
  split at h
  · rename_i sender kind len rest hb
    split at h
    · obtain ⟨b, hp, rfl⟩ := Option.map_eq_some_iff.1 h
      obtain rfl : b = .claim w := hw
      obtain ⟨hk, x, hx, hxw⟩ := parseBody_claim_kind hp
      simp only [Frame.bytes, Frame.checked, List.cons_append, List.cons.injEq] at hb
      obtain ⟨-, hkind, hlen, hrest⟩ := hb
      rw [hk] at hkind
      cases hf : f.body with
      | claim v =>
        refine ⟨v, rfl, ?_⟩
        rw [hf] at hlen hrest
        rw [← hlen, ← hrest] at hx
        simp only [Body.bytes, List.length_singleton, byteOf, List.cons_append, List.nil_append] at hx
        have : x = byteOf v := by simpa [byteOf] using hx.symm
        rw [hxw, this]
        simp [byteOf]
      | _ => rw [hf] at hkind; simp [Body.kindCode] at hkind
    · cases h
  · cases h

/-- Only the kind FILL is read as a FILL, of the window that its first body byte gives (R25, R184). -/
theorem parseBody_fill_kind {sender : Nat} {kind : Byte} {bytes : List Byte} {w o r : Nat} {data : List Byte}
    (h : parseBody sender kind bytes = some (.fill w o r data)) : kind = 0x07 ∧ ∃ x rest, bytes = x :: rest ∧ w = x.toNat := by
  unfold parseBody at h
  split at h
  · split at h <;> simp at h
  · split at h <;> simp at h
  · split at h
    · obtain ⟨y, -, hy⟩ := Option.map_eq_some_iff.1 h
      cases hy
    · simp at h
  · unfold parsePresence parseCensus at h
    dsimp only at h
    (repeat' split at h) <;> simp at h
  · unfold parseDepart at h
    (repeat' split at h) <;> simp at h
  · split at h <;> simp at h
  · unfold parseFill at h
    split at h
    · simp only [Option.some.injEq, Body.fill.injEq] at h
      exact ⟨rfl, _, _, rfl, h.1.symm⟩
    · simp at h
  · simp at h

/-- A frame that is read as a FILL was sent as one (R184). -/
theorem parseFrame_fill {f g : Frame} {w o r : Nat} {data : List Byte} (h : parseFrame f.bytes = some g)
    (hw : g.body = .fill w o r data) : ∃ v o' r' data', f.body = .fill v o' r' data' ∧ w = v % 256 := by
  unfold parseFrame at h
  split at h
  · rename_i sender kind len rest hb
    split at h
    · obtain ⟨b, hp, rfl⟩ := Option.map_eq_some_iff.1 h
      obtain rfl : b = .fill w o r data := hw
      obtain ⟨hk, x, tail, hx, hxw⟩ := parseBody_fill_kind hp
      simp only [Frame.bytes, Frame.checked, List.cons_append, List.cons.injEq] at hb
      obtain ⟨-, hkind, hlen, hrest⟩ := hb
      rw [hk] at hkind
      cases hf : f.body with
      | fill v o' r' data' =>
        refine ⟨v, o', r', data', rfl, ?_⟩
        rw [hf] at hrest
        rw [← hrest] at hx
        simp only [Body.bytes, List.cons_append] at hx
        cases hn : len.toNat with
        | zero => rw [hn] at hx; simp at hx
        | succ n =>
          rw [hn, List.take_succ_cons] at hx
          injection hx with hx
          rw [hxw, ← hx]
          simp [byteOf]
      | _ => rw [hf] at hkind; simp [Body.kindCode] at hkind
    · cases h
  · cases h

/-- A frame's sender is its first byte (R23). -/
theorem parseFrame_sender {bytes : List Byte} {f : Frame} (h : parseFrame bytes = some f) :
    f.sender = (bytes.headD 0).toNat := by
  unfold parseFrame at h
  split at h
  · split at h
    · obtain ⟨b, hb, rfl⟩ := Option.map_eq_some_iff.1 h
      rfl
    · simp at h
  · simp at h

/-! ### Bytes -/

theorem toNat_byteOf {n : Nat} (h : n < 256) : (byteOf n).toNat = n := by
  simp [byteOf, BitVec.toNat_ofNat]; omega

theorem byteOf_toNat (b : Byte) : byteOf b.toNat = b := by simp [byteOf]

theorem ofTwoBytes_twoBytes {n : Nat} (h : n < 65536) :
    ofTwoBytes (byteOf (n / 256)) (byteOf n) = n := by
  simp [ofTwoBytes, byteOf, BitVec.toNat_ofNat]; omega

theorem word_of_twoBytes (w : Word) : (byteOf (w.toNat / 256) ++ byteOf w.toNat : Word) = w := by
  apply BitVec.eq_of_toNat_eq
  have := w.isLt
  simp only [byteOf, BitVec.toNat_append, BitVec.toNat_ofNat]
  rw [Nat.shiftLeft_eq, Nat.mul_comm, ← Nat.two_pow_add_eq_or_of_lt (i := 8) (by omega)]
  omega

@[simp] theorem twoBytes_length (n : Nat) : (twoBytes n).length = 2 := rfl

/-! ### The census body -/

@[simp] theorem mapBytes_length (map : List RosterStatus) : (mapBytes map).length = 8 := by simp [mapBytes]

theorem RosterStatus.code_lt (st : RosterStatus) : st.code < 4 := by cases st <;> decide

theorem RosterStatus.ofCode_of_mod {n : Nat} {st : RosterStatus} (h : n % 4 = st.code) : RosterStatus.ofCode n = st := by
  unfold RosterStatus.ofCode
  rw [h]
  cases st <;> rfl

/-- A roster map of 32 statuses comes back from its eight bytes (R185). -/
theorem mapOf_mapBytes {map : List RosterStatus} (h : map.length = Config.stations) : mapOf (mapBytes map) = map := by
  refine List.ext_getElem (by simp [mapOf, h]) fun n h1 h2 => ?_
  have hn : n < 32 := by rw [h] at h2; exact h2
  have hb : (mapBytes map).getD (n / 4) 0 = mapByte map (n / 4) := by
    simp [mapBytes, List.getD_eq_getElem?_getD, show n / 4 < 8 by omega]
  simp only [mapOf, List.getElem_map, List.getElem_range, hb]
  apply RosterStatus.ofCode_of_mod
  have c0 := (map.getD (4 * (n / 4)) .absent).code_lt
  have c1 := (map.getD (4 * (n / 4) + 1) .absent).code_lt
  have c2 := (map.getD (4 * (n / 4) + 2) .absent).code_lt
  have c3 := (map.getD (4 * (n / 4) + 3) .absent).code_lt
  have hg : map.getD n .absent = map[n] := by simp [List.getD_eq_getElem?_getD, h2]
  rw [← hg]
  unfold mapByte
  rw [toNat_byteOf (by omega)]
  obtain hj | hj | hj | hj : n % 4 = 0 ∨ n % 4 = 1 ∨ n % 4 = 2 ∨ n % 4 = 3 := by omega
  · have hm : map.getD (4 * (n / 4)) .absent = map.getD n .absent := by rw [show 4 * (n / 4) = n by omega]
    rw [hj, ← hm]; omega
  · have hm : map.getD (4 * (n / 4) + 1) .absent = map.getD n .absent := by rw [show 4 * (n / 4) + 1 = n by omega]
    rw [hj, ← hm]; omega
  · have hm : map.getD (4 * (n / 4) + 2) .absent = map.getD n .absent := by rw [show 4 * (n / 4) + 2 = n by omega]
    rw [hj, ← hm]; omega
  · have hm : map.getD (4 * (n / 4) + 3) .absent = map.getD n .absent := by rw [show 4 * (n / 4) + 3 = n by omega]
    rw [hj, ← hm]; omega

theorem groupSound_iff {map : List RosterStatus} {g : List Nat} : groupSound map g = true ↔
    g.length ≤ Config.claimQueueLimit ∧ (∀ n ∈ g, n < Config.stations) ∧ g.Nodup
      ∧ ∀ n ∈ g, map.getD n .absent = .active := by
  simp [groupSound, and_assoc]

/-- Bytes of station numbers read back as the numbers. -/
theorem map_byteOf_toNat {g : List Nat} (h : ∀ n ∈ g, n < Config.stations) :
    (g.map byteOf).map BitVec.toNat = g := by
  rw [List.map_map]
  refine (List.map_congr_left fun n hn => ?_).trans (List.map_id g)
  exact toNat_byteOf (Nat.lt_trans (h n hn) (by decide))

/-- The census groups come back from their bytes (R26, R185). -/
theorem parseGroups_groupBytes {map : List RosterStatus} {groups : List (List Nat)} {limit : Nat}
    (hl : groups.length ≤ limit) (h : ∀ g ∈ groups, groupSound map g = true) :
    parseGroups map limit (groupBytes groups) = some groups := by
  induction groups generalizing limit with
  | nil => cases limit <;> rfl
  | cons g gs ih =>
    obtain ⟨n, rfl⟩ : ∃ n, limit = n + 1 := ⟨limit - 1, by simp at hl; omega⟩
    have hg := h g (by simp)
    obtain ⟨hq, hn, -, -⟩ := groupSound_iff.1 hg
    have hc : (byteOf g.length).toNat = g.length := toNat_byteOf (Nat.lt_of_le_of_lt hq (by decide))
    have hb : groupBytes (g :: gs) = byteOf g.length :: (g.map byteOf ++ groupBytes gs) := rfl
    rw [hb, parseGroups]
    simp only [hc]
    rw [List.take_left' (by simp), List.drop_left' (by simp), map_byteOf_toNat hn,
      ih (by simpa using hl) fun g' hg' => h g' (by simp [hg'])]
    simp [hg]

theorem groupBytes_length_le {map : List RosterStatus} {groups : List (List Nat)}
    (h : ∀ g ∈ groups, groupSound map g = true) : (groupBytes groups).length ≤ 9 * groups.length := by
  induction groups with
  | nil => simp [groupBytes]
  | cons g gs ih =>
    have hq := (groupSound_iff.1 (h g (by simp))).1
    have := ih fun g' hg' => h g' (by simp [hg'])
    simp only [groupBytes, List.flatMap_cons, List.length_append, queueResponse, List.length_cons, List.length_map] at this ⊢
    simp only [Config.claimQueueLimit] at hq
    omega

/-! ### Bodies and frames -/

theorem Body.bytes_length_le {b : Body} {sender : Nat} (h : b.fits sender) : b.bytes.length ≤ Config.bodyLimit := by
  have key : b.bytes.length ≤ 132 := by
    cases b with
    | write w o data =>
      have h2 : data.length ≤ 32 := h.2.2.2
      simp only [Body.bytes, twoBytes, List.length_cons, List.length_append, List.length_nil]; omega
    | census sig map groups =>
      have hb := groupBytes_length_le h.2.2.2
      have hl : groups.length ≤ 4 := h.2.2.1
      simp only [Body.bytes, twoBytes, List.length_cons, List.length_append, List.length_nil, mapBytes_length]
      omega
    | fill w o requester data =>
      have hd := h.2.2.2.2.2
      simp only [Body.bytes, twoBytes, List.length_cons, List.length_append, List.length_nil]; omega
    | claim w => simp [Body.bytes]
    | release w r => simp [Body.bytes]
    | presence m sig => simp [Body.bytes, twoBytes]
    | depart p r => simp [Body.bytes]
    | fetch w o => simp [Body.bytes, twoBytes]
  exact key

/-! What the parser does with each kind (R28). -/

section ParseKinds
variable (sender : Nat) (w hi lo requester mode p r : Byte) (data rest : List Byte)

theorem parseBody_write : parseBody sender 0x01 (w :: hi :: lo :: data) =
    if w.toNat ≤ 15 ∧ 1 ≤ data.length ∧ data.length ≤ Config.writeDataLimit then
      some (.write w.toNat (ofTwoBytes hi lo) data) else none := rfl

theorem parseBody_claim : parseBody sender 0x02 [w] = if w.toNat ≤ 15 then some (.claim w.toNat) else none := rfl

theorem parseBody_release : parseBody sender 0x03 [w, r] =
    if w.toNat ≤ 15 then (ReleaseReason.ofCode r).map (.release w.toNat) else none := rfl

theorem parseBody_presence :
    parseBody sender 0x04 (mode :: hi :: lo :: rest) = parsePresence sender mode hi lo rest := rfl

theorem parseBody_depart : parseBody sender 0x05 [p, r] = parseDepart sender p r := rfl

theorem parseBody_fetch : parseBody sender 0x06 [w, hi, lo] =
    if w.toNat ≤ 15 ∧ ofTwoBytes hi lo % 64 = 0 then some (.fetch w.toNat (ofTwoBytes hi lo)) else none := rfl

theorem parseBody_fill : parseBody sender 0x07 (w :: hi :: lo :: requester :: data) =
    parseFill sender w hi lo requester data := rfl

end ParseKinds

/-- A body within the limits comes back from its bytes (R185). -/
theorem parseBody_bytes {b : Body} {sender : Nat} (hs : sender < Config.stations) (h : b.fits sender) :
    parseBody sender b.kindCode b.bytes = some b := by
  cases b with
  | write w o data =>
    obtain ⟨hw, ho, h1, h2⟩ := h
    simp only [Config.windows] at hw
    have e : Body.bytes (.write w o data) = byteOf w :: byteOf (o / 256) :: byteOf o :: data := rfl
    rw [e, Body.kindCode, parseBody_write, toNat_byteOf (show w < 256 by omega), ofTwoBytes_twoBytes ho,
      if_pos ⟨by omega, h1, h2⟩]
  | claim w =>
    have hw : w < 16 := h
    rw [Body.bytes, Body.kindCode, parseBody_claim, toNat_byteOf (show w < 256 by omega), if_pos (by omega)]
  | release w r =>
    have hw : w < 16 := h
    rw [Body.bytes, Body.kindCode, parseBody_release, toNat_byteOf (show w < 256 by omega), if_pos (by omega)]
    cases r <;> rfl
  | presence m sig =>
    have e : Body.bytes (.presence m sig) = m.code :: byteOf (sig.toNat / 256) :: byteOf sig.toNat :: [] := rfl
    rw [e, Body.kindCode, parseBody_presence]
    cases m <;> simp [parsePresence, PresenceMode.code, word_of_twoBytes]
  | census sig map groups =>
    obtain ⟨hm, ha, hl, hg⟩ := h
    have e : Body.bytes (.census sig map groups) =
      0x03 :: byteOf (sig.toNat / 256) :: byteOf sig.toNat :: (mapBytes map ++ groupBytes groups) := by
      simp [Body.bytes, twoBytes]
    rw [e, Body.kindCode, parseBody_presence]
    simp only [parsePresence, parseCensus, word_of_twoBytes]
    rw [List.take_left' (by simp), List.drop_left' (by simp), mapOf_mapBytes hm, parseGroups_groupBytes hl hg]
    simpa using ha
  | depart p r =>
    cases r with
    | silent =>
      obtain ⟨hp, hne⟩ := h
      have hp : p < 32 := hp
      rw [Body.bytes, Body.kindCode, parseBody_depart]
      simp only [parseDepart, DepartReason.code, toNat_byteOf (show p < 256 by omega)]
      rw [if_neg (by omega), if_neg hne]
      rfl
    | leaving =>
      have hp : p = sender := h
      subst hp
      have hs : p < 32 := hs
      rw [Body.bytes, Body.kindCode, parseBody_depart]
      simp only [parseDepart, DepartReason.code, toNat_byteOf (show p < 256 by omega)]
      rw [if_neg (by omega), if_pos trivial]
      rfl
  | fetch w o =>
    obtain ⟨hw, ho, hm⟩ := h
    have hw : w < 16 := hw
    have e : Body.bytes (.fetch w o) = byteOf w :: byteOf (o / 256) :: byteOf o :: [] := rfl
    rw [e, Body.kindCode, parseBody_fetch, toNat_byteOf (show w < 256 by omega), ofTwoBytes_twoBytes ho,
      if_pos ⟨by omega, hm⟩]
  | fill w o requester data =>
    obtain ⟨hw, ho, hm, hr, hne, hd⟩ := h
    have hw : w < 16 := hw
    have hr : requester < 32 := hr
    have e : Body.bytes (.fill w o requester data) =
      byteOf w :: byteOf (o / 256) :: byteOf o :: byteOf requester :: data := rfl
    rw [e, Body.kindCode, parseBody_fill, parseFill, toNat_byteOf (show w < 256 by omega),
      toNat_byteOf (show requester < 256 by omega), ofTwoBytes_twoBytes ho, if_pos ⟨by omega, hm, by omega, hne, hd⟩]

theorem Frame.bytes_eq (f : Frame) : f.bytes = byteOf f.sender :: f.body.kindCode :: byteOf f.body.bytes.length ::
    (f.body.bytes ++ twoBytes (crc f.checked).toNat) := by
  simp [Frame.bytes, Frame.checked]

theorem Frame.bytes_length {f : Frame} : f.bytes.length = 5 + f.body.bytes.length := by
  simp [Frame.bytes_eq]; omega

/-- The check code of a frame's bytes is the one its sender computed (R24). -/
theorem checkFault_bytes (f : Frame) : checkFault f.bytes = false := by
  have hl : f.bytes.length - 2 = f.checked.length := by simp [Frame.bytes]
  unfold checkFault
  rw [hl]
  simp [Frame.bytes]

/-! ### What is read is what stands in the characters -/

theorem twoBytes_ofTwoBytes (hi lo : Byte) : twoBytes (ofTwoBytes hi lo) = [hi, lo] := by
  have h1 := hi.isLt
  have h2 := lo.isLt
  simp only [twoBytes, ofTwoBytes, byteOf, List.cons.injEq, and_true]
  constructor <;> apply BitVec.eq_of_toNat_eq <;> rw [BitVec.toNat_ofNat] <;> omega

theorem twoBytes_word (hi lo : Byte) : twoBytes (hi ++ lo : Word).toNat = [hi, lo] := by
  have h1 := hi.isLt
  have h2 := lo.isLt
  have h : (hi ++ lo : Word).toNat = ofTwoBytes hi lo := by
    rw [BitVec.toNat_append, Nat.shiftLeft_eq, Nat.mul_comm, ← Nat.two_pow_add_eq_or_of_lt (i := 8) (by omega), ofTwoBytes]
    omega
  rw [h, twoBytes_ofTwoBytes]

theorem RosterStatus.code_ofCode (n : Nat) : (RosterStatus.ofCode n).code = n % 4 := by
  have : n % 4 < 4 := Nat.mod_lt _ (by decide)
  unfold RosterStatus.ofCode
  split <;> simp_all [RosterStatus.code]
  omega

/-- Eight map bytes stand for themselves (R185). -/
theorem mapBytes_mapOf {bytes : List Byte} (h : bytes.length = 8) : mapBytes (mapOf bytes) = bytes := by
  refine List.ext_getElem (by simp [h]) fun k h1 h2 => ?_
  have hk : k < 8 := by omega
  have at_ : ∀ j, j < 4 → ((mapOf bytes).getD (4 * k + j) .absent).code = bytes[k].toNat / 4 ^ j % 4 := by
    intro j hj
    have hb : bytes.getD ((4 * k + j) / 4) 0 = bytes[k] := by
      rw [show (4 * k + j) / 4 = k by omega, List.getD_eq_getElem?_getD, List.getElem?_eq_getElem h2]; rfl
    rw [List.getD_eq_getElem?_getD, mapOf, List.getElem?_map, List.getElem?_range (by show 4 * k + j < 32; omega)]
    simp only [Option.map_some, Option.getD_some, RosterStatus.code_ofCode, hb]
    rw [show (4 * k + j) % 4 = j by omega]
  have h0 := at_ 0 (by decide)
  have h1' := at_ 1 (by decide)
  have h2' := at_ 2 (by decide)
  have h3 := at_ 3 (by decide)
  simp only [mapBytes, List.getElem_map, List.getElem_range, mapByte]
  rw [Nat.add_zero] at h0
  rw [h0, h1', h2', h3]
  have := bytes[k].isLt
  refine Eq.trans ?_ (byteOf_toNat bytes[k])
  congr 1
  omega

theorem groupBytes_parseGroups {map : List RosterStatus} {limit : Nat} {bytes : List Byte} {groups : List (List Nat)}
    (h : parseGroups map limit bytes = some groups) : groupBytes groups = bytes := by
  induction limit generalizing bytes groups with
  | zero => cases bytes <;> simp_all [parseGroups, groupBytes]
  | succ n ih =>
    cases bytes with
    | nil => simp only [parseGroups, Option.some.injEq] at h; subst h; rfl
    | cons count rest =>
      simp only [parseGroups] at h
      split at h
      · rename_i hc
        obtain ⟨gs, hgs, rfl⟩ := Option.map_eq_some_iff.1 h
        have hn : ∀ l : List Byte, (l.map BitVec.toNat).map byteOf = l := by
          intro l; rw [List.map_map]; refine (List.map_congr_left fun b _ => byteOf_toNat b).trans (List.map_id l)
        have hb : ∀ g : List Nat, groupBytes (g :: gs) = byteOf g.length :: (g.map byteOf ++ groupBytes gs) := fun _ => rfl
        rw [hb, hn, ih hgs, List.length_map, List.length_take, Nat.min_eq_left hc.1, byteOf_toNat, List.take_append_drop]
      · simp at h

/-- A body that is read has the kind and the bytes it was read from (R184, R185). -/
theorem bytes_parseBody {sender : Nat} {kind : Byte} {bytes : List Byte} {b : Body}
    (h : parseBody sender kind bytes = some b) : b.kindCode = kind ∧ b.bytes = bytes := by
  unfold parseBody at h
  split at h
  · split at h
    · obtain rfl := Option.some.inj h
      exact ⟨rfl, by simp [Body.bytes, byteOf_toNat, twoBytes_ofTwoBytes]⟩
    · simp at h
  · split at h
    · obtain rfl := Option.some.inj h
      exact ⟨rfl, by simp [Body.bytes, byteOf_toNat]⟩
    · simp at h
  · split at h
    · obtain ⟨r, hr, rfl⟩ := Option.map_eq_some_iff.1 h
      refine ⟨rfl, ?_⟩
      unfold ReleaseReason.ofCode at hr
      split at hr <;> simp at hr <;> subst hr <;> simp [Body.bytes, byteOf_toNat, ReleaseReason.code]
    · simp at h
  · rename_i mode hi lo rest
    unfold parsePresence at h
    dsimp only at h
    split at h
    · split at h <;> simp at h; subst h
      simp_all [Body.bytes, Body.kindCode, twoBytes_word, PresenceMode.code]
    · split at h <;> simp at h; subst h
      simp_all [Body.bytes, Body.kindCode, twoBytes_word, PresenceMode.code]
    · split at h <;> simp at h; subst h
      simp_all [Body.bytes, Body.kindCode, twoBytes_word, PresenceMode.code]
    · unfold parseCensus at h
      dsimp only at h
      split at h
      · rename_i hc
        obtain ⟨gs, hgs, rfl⟩ := Option.map_eq_some_iff.1 h
        refine ⟨rfl, ?_⟩
        simp only [Body.bytes, twoBytes_word, mapBytes_mapOf (bytes := rest.take 8) (by simp; exact hc.1),
          groupBytes_parseGroups hgs]
        simp
      · simp at h
    · simp at h
  · unfold parseDepart at h
    (repeat' split at h) <;> simp at h <;> (subst h; simp [Body.bytes, Body.kindCode, byteOf_toNat, DepartReason.code])
  · split at h
    · obtain rfl := Option.some.inj h
      exact ⟨rfl, by simp [Body.bytes, byteOf_toNat, twoBytes_ofTwoBytes]⟩
    · simp at h
  · unfold parseFill at h
    split at h
    · obtain rfl := Option.some.inj h
      exact ⟨rfl, by simp [Body.bytes, byteOf_toNat, twoBytes_ofTwoBytes]⟩
    · simp at h
  · simp at h

/-- A frame that is read without check fault is the one whose bytes the characters are (R23, R24, R28). -/
theorem bytes_parseFrame {bytes : List Byte} {f : Frame} (h : parseFrame bytes = some f) (hc : checkFault bytes = false) :
    f.bytes = bytes := by
  unfold parseFrame at h
  split at h
  · rename_i sender kind len rest
    split at h
    · rename_i hl
      obtain ⟨b, hb, rfl⟩ := Option.map_eq_some_iff.1 h
      obtain ⟨hk, hbytes⟩ := bytes_parseBody hb
      have hlen : b.bytes.length = len.toNat := by rw [hbytes, List.length_take]; omega
      have hchecked : (Frame.mk sender.toNat b).checked = sender :: kind :: len :: rest.take len.toNat := by
        rw [Frame.checked, hlen, hbytes, hk, byteOf_toNat, byteOf_toNat]
      have htake : (sender :: kind :: len :: rest).take ((sender :: kind :: len :: rest).length - 2)
          = sender :: kind :: len :: rest.take len.toNat := by
        rw [show (sender :: kind :: len :: rest).length - 2 = len.toNat + 3 by simp only [List.length_cons]; omega]
        rfl
      have hcrc : (sender :: kind :: len :: rest).drop ((sender :: kind :: len :: rest).length - 2)
          = twoBytes (crc (sender :: kind :: len :: rest.take len.toNat)).toNat := by
        rw [← htake]; simpa [checkFault] using hc
      rw [Frame.bytes, hchecked, ← hcrc, ← htake, List.take_append_drop]
    · simp at h
  · simp at h

/-! ### Characters -/

theorem startSampled_charSamples (b : Byte) : startSampled (charSamples b) = true := by
  revert b; decide +kernel

theorem rxChar_charSamples (b : Byte) : rxChar (charSamples b) = ⟨b, false⟩ := by
  revert b; decide +kernel

/-- Characters sent intact are received intact (R2, R3). -/
theorem takeStarted_charSamples (bytes : List Byte) :
    takeStarted (bytes.map charSamples) = bytes.map fun b => ⟨b, false⟩ := by
  induction bytes with
  | nil => rfl
  | cons b rest ih =>
    simp only [takeStarted] at ih ⊢
    simp [startSampled_charSamples, rxChar_charSamples, ih]

end Sys2Proof.Machine
end

