-- ==== Sys2Proof/Laws/Memory.lean ====
section
/-! SUPPORT. Mirror memory: a read after a write gives the byte written, a write leaves every other address alone, and
every memory operation keeps the canonical form; then which operations leave the memory alone. -/

namespace Sys2Proof.Machine

/-- The list is sorted by address: the part of the canonical form that reads rest on. -/
abbrev Memory.Rising (m : Memory) : Prop := m.Pairwise fun c d => c.1 < d.1

/-- A byte whose address lies below every listed one reads 00. -/
theorem Memory.read_below {m : Memory} {a : Nat} (h : ∀ c ∈ m, a < c.1) : Memory.read m a = 0 := by
  induction m with
  | nil => rfl
  | cons c rest ih =>
    obtain ⟨k, v⟩ := c
    have hk : a < k := h (k, v) (by simp)
    simp only [Memory.read, if_neg (by omega : ¬ k = a)]
    exact ih fun d hd => h d (by simp [hd])

theorem Memory.mem_put {m : Memory} {a : Nat} {b : Byte} {c : Host.Cell} (h : c ∈ Memory.put m a b) :
    c ∈ m ∨ (c = (a, b) ∧ b ≠ 0) := by
  induction m with
  | nil =>
    unfold Memory.put at h
    split at h <;> simp_all
  | cons d rest ih =>
    obtain ⟨k, v⟩ := d
    unfold Memory.put at h
    (repeat' split at h) <;> simp only [List.mem_cons] at h ⊢ <;> grind

theorem Memory.rising_put {m : Memory} {a : Nat} {b : Byte} (h : Memory.Rising m) :
    Memory.Rising (Memory.put m a b) := by
  induction m with
  | nil => unfold Memory.put; split <;> simp
  | cons d rest ih =>
    obtain ⟨k, v⟩ := d
    obtain ⟨hk, hr⟩ := List.pairwise_cons.1 h
    unfold Memory.put
    (repeat' split)
    · exact h
    · refine List.pairwise_cons.2 ⟨fun c hc => ?_, h⟩
      rcases List.mem_cons.1 hc with rfl | hc
      · assumption
      · exact Nat.lt_trans (by assumption) (hk c hc)
    · exact hr
    · exact List.pairwise_cons.2 ⟨fun c hc => by have := hk c hc; simp_all, hr⟩
    · refine List.pairwise_cons.2 ⟨fun c hc => ?_, ih hr⟩
      rcases Memory.mem_put hc with hc | ⟨rfl, -⟩
      · exact hk c hc
      · simp only; omega

/-- Reading after a write: the byte written at its address, what stood there everywhere else. -/
theorem Memory.read_put {m : Memory} (h : Memory.Rising m) (a c : Nat) (b : Byte) :
    Memory.read (Memory.put m a b) c = if c = a then b else Memory.read m c := by
  induction m with
  | nil =>
    unfold Memory.put
    split <;> simp only [Memory.read] <;> grind
  | cons d rest ih =>
    obtain ⟨k, v⟩ := d
    obtain ⟨hk, hr⟩ := List.pairwise_cons.1 h
    have below : ∀ x, x ≤ k → Memory.read rest x = 0 := fun x hx =>
      Memory.read_below fun e he => Nat.lt_of_le_of_lt hx (hk e he)
    unfold Memory.put
    (repeat' split) <;> grind [Memory.read]

theorem Memory.wf_put {m : Memory} {a : Nat} {b : Byte} (h : Memory.wf m) (ha : a < Config.mirrorBytes) :
    Memory.wf (Memory.put m a b) := by
  refine ⟨Memory.rising_put h.1, fun c hc => ?_⟩
  rcases Memory.mem_put hc with hc | ⟨rfl, hb⟩
  · exact h.2 c hc
  · exact ⟨ha, hb⟩

theorem Memory.wf_write {m : Memory} (h : Memory.wf m) (a : Nat) (b : Byte) : Memory.wf (Memory.write m a b) := by
  unfold Memory.write
  split
  · exact Memory.wf_put h ‹_›
  · exact h

theorem Memory.wf_writeBytes {m : Memory} (h : Memory.wf m) (a : Nat) (bs : List Byte) :
    Memory.wf (Memory.writeBytes m a bs) := by
  induction bs generalizing m a with
  | nil => exact h
  | cons b bs ih => exact ih (Memory.wf_write h a b) (a + 1)

theorem Memory.wf_keep {m : Memory} (h : Memory.wf m) (wanted : Nat → Bool) : Memory.wf (Memory.keep m wanted) :=
  ⟨h.1.sublist List.filter_sublist, fun c hc => h.2 c (List.mem_of_mem_filter hc)⟩

/-- Putting a byte leaves every other address as it was, in any memory. -/
theorem Memory.read_put_other (m : Memory) {a c : Nat} (h : c ≠ a) (b : Byte) :
    Memory.read (Memory.put m a b) c = Memory.read m c := by
  induction m with
  | nil => unfold Memory.put; split <;> simp [Memory.read, h.symm]
  | cons d m ih =>
    obtain ⟨k, v⟩ := d
    unfold Memory.put
    (repeat' split) <;> simp_all [Memory.read, Ne.symm h]
    · exact fun hk => absurd hk.symm h
    · rw [if_neg (Ne.symm h), if_neg (Ne.symm h)]

/-- A byte outside those written is as before. -/
theorem Memory.read_writeBytes_outside (m : Memory) (a : Nat) (bs : List Byte) {c : Nat}
    (hc : c < a ∨ a + bs.length ≤ c) : Memory.read (Memory.writeBytes m a bs) c = Memory.read m c := by
  induction bs generalizing m a with
  | nil => rfl
  | cons b bs ih =>
    have hl : (b :: bs).length = bs.length + 1 := rfl
    rw [Memory.writeBytes, ih _ (a + 1) (by omega)]
    unfold Memory.write
    split
    · rw [Memory.read_put_other m (by omega)]
    · rfl

/-- A byte that is kept is as before, in any memory. -/
theorem Memory.read_keep_wanted (m : Memory) {wanted : Nat → Bool} {c : Nat} (hc : wanted c = true) :
    Memory.read (Memory.keep m wanted) c = Memory.read m c := by
  induction m with
  | nil => rfl
  | cons d m ih =>
    obtain ⟨k, v⟩ := d
    unfold Memory.keep at ih ⊢
    rw [List.filter_cons]
    split
    · simp only [Memory.read, ih]
    · rename_i hk
      have : k ≠ c := by rintro rfl; exact hk hc
      simp only [Memory.read, if_neg this, ih]

/-- A byte written reads back, within the address space. -/
theorem Memory.read_writeBytes_inside {m : Memory} (h : Memory.wf m) (a : Nat) (bs : List Byte) {j : Nat}
    (hj : j < bs.length) (ha : a + j < Config.mirrorBytes) :
    Memory.read (Memory.writeBytes m a bs) (a + j) = bs[j] := by
  induction bs generalizing m a j with
  | nil => simp at hj
  | cons b bs ih =>
    rw [Memory.writeBytes]
    cases j with
    | zero =>
      rw [Memory.read_writeBytes_outside _ (a + 1) bs (by omega)]
      simp only [Memory.write, Nat.add_zero] at ha ⊢
      rw [if_pos ha, Memory.read_put h.1, if_pos rfl]
      rfl
    | succ j =>
      have := ih (Memory.wf_write h a b) (a + 1) (j := j) (by simpa using hj) (by omega)
      rw [show a + (j + 1) = a + 1 + j by omega, this]
      rfl

/-- Keeping wanted addresses: their bytes stand, every other byte is 00. -/
theorem Memory.read_keep {m : Memory} (h : Memory.wf m) (wanted : Nat → Bool) (c : Nat) :
    Memory.read (Memory.keep m wanted) c = if wanted c then Memory.read m c else 0 := by
  induction m with
  | nil => simp [Memory.keep, Memory.read]
  | cons d rest ih =>
    obtain ⟨k, v⟩ := d
    obtain ⟨hk, hr⟩ := List.pairwise_cons.1 h.1
    have ih := ih ⟨hr, fun e he => h.2 e (by simp [he])⟩
    have below : wanted k = false → Memory.read rest k = 0 := fun _ => Memory.read_below fun e he => hk e he
    simp only [Memory.keep] at ih ⊢
    by_cases hw : wanted k <;> simp only [List.filter_cons, hw, Memory.read] <;> grind [Memory.read]

/-- An address above 3FFF reads 00: no such byte is listed. -/
theorem Memory.read_above {m : Memory} (h : Memory.wf m) {a : Nat} (ha : Config.mirrorBytes ≤ a) :
    Memory.read m a = 0 := by
  induction m with
  | nil => rfl
  | cons d rest ih =>
    obtain ⟨k, v⟩ := d
    have hk := (h.2 (k, v) (by simp)).1
    rw [Memory.read, if_neg (by simp only at hk; omega)]
    exact ih ⟨(List.pairwise_cons.1 h.1).2, fun e he => h.2 e (by simp [he])⟩

@[simp] theorem Memory.readBytes_length (m : Memory) (a n : Nat) : (Memory.readBytes m a n).length = n := by
  simp [Memory.readBytes]

theorem Memory.wf_nil : Memory.wf [] := ⟨List.Pairwise.nil, by simp⟩

/-! ### Operations that leave the memory alone (R59) -/

@[simp] theorem State.passSnapshot_mem (s : State) :
    s.passSnapshot.mirror.mem = s.mirror.mem := rfl

@[simp] theorem State.grantSnapshot_mem (s : State) (q : Snapshot) :
    (s.grantSnapshot q).mirror.mem = s.mirror.mem := rfl

@[simp] theorem State.grantFillRead_mem (s : State) (r : FillRead) :
    (s.grantFillRead r).mirror.mem = s.mirror.mem := rfl

@[simp] theorem State.spoilChunk_mem (s : State) (w : Nat) :
    (s.spoilChunk w).mirror.mem = s.mirror.mem := rfl

@[simp] theorem State.withdraw_mem (s : State) (p : Inbound → Bool) :
    (s.withdraw p).mirror.mem = s.mirror.mem := rfl

@[simp] theorem State.emptyInbound_mem (s : State) :
    s.emptyInbound.mirror.mem = s.mirror.mem := rfl

@[simp] theorem State.endZeroFill_mem (s : State) :
    s.endZeroFill.mirror.mem = s.mirror.mem := rfl

@[simp] theorem State.discardFillRead_mem (s : State) :
    s.discardFillRead.mirror.mem = s.mirror.mem := rfl

@[simp] theorem State.emptyChunk_mem (s : State) :
    s.emptyChunk.mirror.mem = s.mirror.mem := rfl

@[simp] theorem State.clearService_mem (s : State) :
    s.clearService.mirror.mem = s.mirror.mem := rfl

@[simp] theorem State.staleChunk_mem (s : State) :
    s.staleChunk.mirror.mem = s.mirror.mem := rfl

@[simp] theorem State.releaseMemory_mem (s : State) :
    s.releaseMemory.mirror.mem = s.mirror.mem := rfl

@[simp] theorem State.dropSnapshot_mem (s : State) :
    s.dropSnapshot.mirror.mem = s.mirror.mem := rfl

@[simp] theorem State.grantApplication_mem (s : State) :
    s.grantApplication.mirror.mem = s.mirror.mem := by
  unfold State.grantApplication; try dsimp only
  (repeat' split) <;> simp

@[simp] theorem State.keepChunk_mem (s : State) (f : InFlight) :
    (s.keepChunk f).mirror.mem = s.mirror.mem := by
  unfold State.keepChunk; try dsimp only
  (repeat' split) <;> simp

@[simp] theorem State.waitAgain_mem (s : State) (f : InFlight) (attempts : Nat) :
    (s.waitAgain f attempts).mirror.mem = s.mirror.mem := by
  simp [State.waitAgain]

@[simp] theorem State.leaveSource_mem (s : State) (f : InFlight) :
    (s.leaveSource f).mirror.mem = s.mirror.mem := by
  unfold State.leaveSource; try dsimp only
  (repeat' split) <;> simp

@[simp] theorem State.arbitrate_mem (s : State) :
    s.arbitrate.mirror.mem = s.mirror.mem := by
  unfold State.arbitrate; try dsimp only
  (repeat' split) <;> simp

@[simp] theorem State.enqueue_mem (s : State) (e : Inbound) :
    (s.enqueue e).mirror.mem = s.mirror.mem := by
  unfold State.enqueue; try dsimp only
  (repeat' split) <;> simp

@[simp] theorem State.requestFill_mem (s : State) :
    s.requestFill.mirror.mem = s.mirror.mem := by
  unfold State.requestFill; try dsimp only
  (repeat' split) <;> simp

@[simp] theorem State.settleMemory_mem (s : State) :
    s.settleMemory.mirror.mem = s.mirror.mem := by
  simp [State.settleMemory]

@[simp] theorem State.joinFailed_mem (s : State) :
    s.joinFailed.mirror.mem = s.mirror.mem := by
  simp [State.joinFailed]

@[simp] theorem State.rejoin_mem (s : State) (reason : Reason) :
    (s.rejoin reason).mirror.mem = s.mirror.mem := by
  simp [State.rejoin]

@[simp] theorem State.forsake_mem (s : State) (abandon : AbandonReason) (loss : LossReason) :
    (s.forsake abandon loss).mirror.mem = s.mirror.mem := by
  simp [State.forsake]

@[simp] theorem State.enterMuted_mem (s : State) :
    s.enterMuted.mirror.mem = s.mirror.mem := by
  simp [State.enterMuted]

@[simp] theorem State.enterIncompatible_mem (s : State) (reason : Reason) :
    (s.enterIncompatible reason).mirror.mem = s.mirror.mem := by
  simp [State.enterIncompatible]

@[simp] theorem State.stop_mem (s : State) (reason : Reason) :
    (s.stop reason).mirror.mem = s.mirror.mem := by
  simp [State.stop]

@[simp] theorem State.dropAbandoned_mem (s : State) :
    s.dropAbandoned.mirror.mem = s.mirror.mem := by
  unfold State.dropAbandoned
  split
  · cases s.sched.inflight <;> simp
  · simp

@[simp] theorem State.found_mem (s : State) :
    s.found.mirror.mem = s.mirror.mem := by
  simp [State.found]

@[simp] theorem State.foundingTest_mem (s : State) :
    s.foundingTest.mirror.mem = s.mirror.mem := by
  unfold State.foundingTest; try dsimp only
  (repeat' split) <;> simp

@[simp] theorem State.clearServiceAtLeave_mem (s : State) :
    s.clearServiceAtLeave.mirror.mem = s.mirror.mem := by
  unfold State.clearServiceAtLeave; try dsimp only
  (repeat' split) <;> simp

@[simp] theorem State.leaveGroup_mem (s : State) :
    s.leaveGroup.mirror.mem = s.mirror.mem := by
  simp [State.leaveGroup]

@[simp] theorem State.takeChunk_mem (s : State) (w offset : Nat) (data : List Byte) :
    (s.takeChunk w offset data).mirror.mem = s.mirror.mem := by
  simp [State.takeChunk]

@[simp] theorem State.acceptFill_mem (s : State) (sent : Bool) (w offset requester : Nat) (data : List Byte) :
    (s.acceptFill sent w offset requester data).mirror.mem = s.mirror.mem := by
  unfold State.acceptFill; try dsimp only
  (repeat' split) <;> simp

@[simp] theorem State.restartFill_mem (s : State) (w : Nat) :
    (s.restartFill w).mirror.mem = s.mirror.mem := by
  simp [State.restartFill]

@[simp] theorem State.installCensus_mem (s : State) (map : List RosterStatus) (groups : List (List Nat)) :
    (s.installCensus map groups).mirror.mem = s.mirror.mem := by
  simp [State.installCensus]

@[simp] theorem State.acceptCensus_mem (s : State) (sender : Nat) (sig : Word) (map : List RosterStatus) (groups : List (List Nat)) :
    (s.acceptCensus sender sig map groups).mirror.mem = s.mirror.mem := by
  unfold State.acceptCensus; try dsimp only
  (repeat' split) <;> simp

@[simp] theorem State.departSelf_mem (s : State) :
    s.departSelf.mirror.mem = s.mirror.mem := by
  unfold State.departSelf; try dsimp only
  (repeat' split) <;> simp

@[simp] theorem State.acceptDepart_mem (s : State) (subject : Nat) :
    (s.acceptDepart subject).mirror.mem = s.mirror.mem := by
  unfold State.acceptDepart; try dsimp only
  (repeat' split) <;> simp

@[simp] theorem State.abandonWith_mem (s : State) (f : InFlight) (reason : AbandonReason) :
    (s.abandonWith f reason).mirror.mem = s.mirror.mem := by
  unfold State.abandonWith; try dsimp only
  (repeat' split) <;> simp

@[simp] theorem State.dropWaiting_mem (s : State) :
    s.dropWaiting.mirror.mem = s.mirror.mem := by
  unfold State.dropWaiting; try dsimp only
  (repeat' split) <;> simp

@[simp] theorem State.dropOvertaken_mem (s : State) :
    s.dropOvertaken.mirror.mem = s.mirror.mem := by
  simp [State.dropOvertaken]

@[simp] theorem State.abandonAttempts_mem (s : State) (f : InFlight) :
    (s.abandonAttempts f).mirror.mem = s.mirror.mem := by
  unfold State.abandonAttempts; try dsimp only
  (repeat' split) <;> simp

@[simp] theorem State.reportLost_mem (s : State) :
    s.reportLost.mirror.mem = s.mirror.mem := by
  unfold State.reportLost; try dsimp only
  (repeat' split) <;> simp

@[simp] theorem State.reportFailed_mem (s : State) (faulted : Bool) :
    (s.reportFailed faulted).mirror.mem = s.mirror.mem := by
  unfold State.reportFailed; try dsimp only
  (repeat' split) <;> simp

@[simp] theorem State.finishAbandon_mem (s : State) :
    s.finishAbandon.mirror.mem = s.mirror.mem := by
  unfold State.finishAbandon; try dsimp only
  (repeat' split) <;> simp

@[simp] theorem State.settle_mem (s : State) (rejected : Bool) :
    (s.settle rejected).mirror.mem = s.mirror.mem := by
  unfold State.settle; try dsimp only
  (repeat' split) <;> simp

@[simp] theorem State.supplyFill_mem (s : State) (e : Service) (attempts : Nat) :
    (s.supplyFill e attempts).mirror.mem = s.mirror.mem := by
  unfold State.supplyFill; try dsimp only
  (repeat' split) <;> simp

@[simp] theorem State.resupply_mem (s : State) (f : InFlight) :
    (s.resupply f).mirror.mem = s.mirror.mem := by
  unfold State.resupply; try dsimp only
  (repeat' split) <;> simp

@[simp] theorem State.selectFill_mem (s : State) (e : Service) :
    (s.selectFill e).mirror.mem = s.mirror.mem := by
  simp [State.selectFill]

@[simp] theorem State.selectByTurn_mem (s : State) :
    s.selectByTurn.mirror.mem = s.mirror.mem := by
  unfold State.selectByTurn; try dsimp only
  (repeat' split) <;> simp

@[simp] theorem State.select_mem (s : State) :
    s.select.mirror.mem = s.mirror.mem := by
  unfold State.select; try dsimp only
  (repeat' split) <;> simp

@[simp] theorem State.atOpportunity_mem (s : State) :
    s.atOpportunity.mirror.mem = s.mirror.mem := by
  unfold State.atOpportunity; try dsimp only
  (repeat' split) <;> simp

@[simp] theorem State.acceptWrite_mem (s : State) (sender w offset : Nat) (data : List Byte) :
    (s.acceptWrite sender w offset data).mirror.mem = s.mirror.mem := by
  unfold State.acceptWrite; try dsimp only
  (repeat' split) <;> simp

@[simp] theorem State.acceptBody_mem (s : State) (sender : Nat) (sent : Bool) (b : Body) :
    (s.acceptBody sender sent b).mirror.mem = s.mirror.mem := by
  unfold State.acceptBody; try dsimp only
  (repeat' split) <;> simp

@[simp] theorem State.acceptEffect_mem (s : State) (sender : Nat) (sent : Bool) (body : Option Body) :
    (s.acceptEffect sender sent body).mirror.mem = s.mirror.mem := by
  unfold State.acceptEffect; try dsimp only
  (repeat' split) <;> simp

@[simp] theorem State.accept_mem (s : State) (sender : Nat) (sent : Bool) (body : Option Body) :
    (s.accept sender sent body).mirror.mem = s.mirror.mem := by
  unfold State.accept; try dsimp only
  (repeat' split) <;> simp

@[simp] theorem State.windowVoided_mem (s : State) (f : RxFrame) :
    (s.windowVoided f).mirror.mem = s.mirror.mem := by
  unfold State.windowVoided; try dsimp only
  (repeat' split) <;> simp

@[simp] theorem State.overhear_mem (s : State) (f : RxFrame) :
    (s.overhear f).mirror.mem = s.mirror.mem := by
  unfold State.overhear; try dsimp only
  (repeat' split) <;> simp

@[simp] theorem State.windowAccepted_mem (s : State) (f : RxFrame) :
    (s.windowAccepted f).mirror.mem = s.mirror.mem := by
  unfold State.windowAccepted; try dsimp only
  (repeat' split) <;> simp

@[simp] theorem State.deferredFounding_mem (s : State) :
    s.deferredFounding.mirror.mem = s.mirror.mem := by
  unfold State.deferredFounding; try dsimp only
  (repeat' split) <;> simp

@[simp] theorem State.afterWindow_mem (s : State) :
    s.afterWindow.mirror.mem = s.mirror.mem := by
  simp [State.afterWindow]

@[simp] theorem State.endWindow_mem (s : State) (f : RxFrame) (samples : BitVec 20) :
    (s.endWindow f samples).mirror.mem = s.mirror.mem := by
  unfold State.endWindow; try dsimp only
  (repeat' split) <;> simp

@[simp] theorem State.endVerdict_mem (s : State) (samples : BitVec 20) :
    (s.endVerdict samples).mirror.mem = s.mirror.mem := by
  unfold State.endVerdict; try dsimp only
  (repeat' split) <;> simp

@[simp] theorem State.takeOpportunity_mem (s : State) :
    s.takeOpportunity.mirror.mem = s.mirror.mem := by
  unfold State.takeOpportunity; try dsimp only
  (repeat' split) <;> simp

@[simp] theorem State.loseArbitration_mem (s : State) (bit : Nat) :
    (s.loseArbitration bit).mirror.mem = s.mirror.mem := by
  unfold State.loseArbitration; try dsimp only
  (repeat' split) <;> simp

@[simp] theorem State.faultLine_mem (s : State) (bit : Nat) :
    (s.faultLine bit).mirror.mem = s.mirror.mem := by
  unfold State.faultLine; try dsimp only
  (repeat' split) <;> simp

@[simp] theorem State.expireAnswer_mem (s : State) :
    s.expireAnswer.mirror.mem = s.mirror.mem := by
  unfold State.expireAnswer; try dsimp only
  (repeat' split) <;> simp

@[simp] theorem State.tickAnswer_mem (s : State) :
    s.tickAnswer.mirror.mem = s.mirror.mem := by
  unfold State.tickAnswer; try dsimp only
  (repeat' split) <;> simp

@[simp] theorem State.tickTimers_mem (s : State) :
    s.tickTimers.mirror.mem = s.mirror.mem := by
  unfold State.tickTimers
  rw [foldl_keeps _ (fun s => s.mirror.mem) (by simp), foldl_keeps _ (fun s => s.mirror.mem) (by simp)]
  simp only [State.tickAnswer_mem]
  rw [foldl_keeps _ (fun s => s.mirror.mem) (by simp)]
  simp

@[simp] theorem State.tickSlot_mem (s : State) :
    s.tickSlot.mirror.mem = s.mirror.mem := by
  unfold State.tickSlot; try dsimp only
  (repeat' split) <;> simp

@[simp] theorem State.tickVerdict_mem (s : State) :
    s.tickVerdict.mirror.mem = s.mirror.mem := by
  unfold State.tickVerdict; try dsimp only
  (repeat' split) <;> simp

@[simp] theorem State.tickLine_mem (s : State) :
    s.tickLine.mirror.mem = s.mirror.mem := by
  unfold State.tickLine; try dsimp only
  (repeat' split) <;> simp

@[simp] theorem State.tick_mem (s : State) :
    s.tick.mirror.mem = s.mirror.mem := by
  unfold State.tick; try dsimp only
  (repeat' split) <;> simp

@[simp] theorem State.cutCommand_mem (s : State) (shifted : Nat) :
    (s.cutCommand shifted).mirror.mem = s.mirror.mem := by
  unfold State.cutCommand; try dsimp only
  (repeat' split) <;> simp

@[simp] theorem State.requestSnapshot_mem (s : State) (first : Word) (w o : Nat) :
    (s.requestSnapshot first w o).mirror.mem = s.mirror.mem := by
  simp [State.requestSnapshot]

@[simp] theorem State.beginRead_mem (s : State) (first : Word) :
    (s.beginRead first).mirror.mem = s.mirror.mem := by
  unfold State.beginRead; try dsimp only
  (repeat' split) <;> simp

@[simp] theorem State.hostRefetch_mem (s : State) (w : Nat) : (s.hostRefetch w).1.mirror.mem = s.mirror.mem := by
  unfold State.hostRefetch
  (repeat' split) <;> simp

@[simp] theorem State.hostLeave_mem (s : State) : s.hostLeave.1.mirror.mem = s.mirror.mem := by
  unfold State.hostLeave
  split <;> simp

end Sys2Proof.Machine
end

