-- ==== Sys2Proof/Laws/Sound.lean ====
section
/-! SUPPORT. Every shared operation keeps a sound state sound: one lemma an operation, named so that they chain as the
operations do. -/

namespace Sys2Proof.Machine

variable {s t : State}

/-! ### Direct updates -/

namespace State.Sound

/-- A state that differs in what soundness does not read is sound. -/
theorem of_units (h : s.Sound) (h1 : t.mirror.Sound) (h2 : t.sched.Sound) (h3 : t.report.Sound)
    (h4 : t.pub = s.pub) (h5 : t.claims = s.claims) (h6 : t.ctl = s.ctl) (h7 : t.refresh = s.refresh)
    (h8 : t.rx = s.rx) (h9 : t.layout = s.layout) (h10 : t.roster = s.roster) (h11 : t.port = s.port) : t.Sound where
  mirror := h1
  sched := h2
  report := h3
  pubs := h4 ▸ h.pubs
  guards := h5 ▸ h.guards
  guardCount := h5 ▸ h.guardCount
  positions := h5 ▸ h.positions
  holds := by rw [h5, h6]; exact h.holds
  census := h6 ▸ h.census
  service := h7 ▸ h.service
  served := h7 ▸ h.served
  objections := h8 ▸ h.objections
  clean := h8 ▸ h.clean
  table := h9 ▸ h.table
  roster := h10 ▸ h.roster
  copies := h7 ▸ h.copies
  latched := h11 ▸ h.latched

theorem setCopy (h : s.Sound) (w : Nat) (f : Copy → Copy) : (s.setCopy w f).Sound :=
  { h with copies := by simpa [State.setCopy] using h.copies }

theorem mapCopies (h : s.Sound) (f : Copy → Copy) : (s.mapCopies f).Sound :=
  { h with copies := by simpa [State.mapCopies] using h.copies }

theorem mapMirrored (h : s.Sound) (f : Nat → Copy → Copy) : (s.mapMirrored f).Sound :=
  { h with copies := by simpa [State.mapMirrored] using h.copies }

/-- A change of guard records is sound when it keeps the windows, each queue within limits, and holds only in
ACTIVE. -/
theorem mapClaims (h : s.Sound) (f : Guard → Guard) (hw : ∀ g, (f g).window = g.window)
    (hq : ∀ g ∈ s.claims, g.Sound → (f g).Sound)
    (hh : s.ctl.state ≠ .active → ∀ g ∈ s.claims, (f g).hold = .unheld) :
    State.Sound { s with claims := s.claims.map f } :=
  { h with
    guards := by
      intro g hg
      obtain ⟨g', hg', rfl⟩ := List.mem_map.1 hg
      exact hq g' hg' (h.guards g' hg')
    guardCount := by simpa using h.guardCount
    positions := by simpa [Function.comp_def, hw] using h.positions
    holds := by
      intro ha g hg
      obtain ⟨g', hg', rfl⟩ := List.mem_map.1 hg
      exact hh ha g' hg' }

theorem setGuard (h : s.Sound) (w : Nat) (f : Guard → Guard) (hw : ∀ g, (f g).window = g.window)
    (hq : ∀ g ∈ s.claims, g.window = w → g.Sound → (f g).Sound)
    (hh : s.ctl.state ≠ .active → ∀ g ∈ s.claims, (f g).hold = .unheld) : (s.setGuard w f).Sound := by
  refine h.mapClaims _ (fun g => ?_) (fun g hm hg => ?_) fun ha g hg => ?_
  · split
    · exact hw g
    · rfl
  · split
    · exact hq g hm ‹_› hg
    · exact hg
  · split
    · exact hh ha g hg
    · exact h.holds ha g hg

theorem setEntry (h : s.Sound) (n : Nat) (e : RosterEntry) : (s.setEntry n e).Sound :=
  { h with roster := by simpa [State.setEntry] using h.roster }

/-! ### Reports -/

theorem post (h : s.Sound) (o : OutcomeRecord) : (s.post o).Sound := by
  unfold State.post
  split
  · exact { h with report := ⟨by simp only [List.length_append, List.length_singleton]; omega, h.report.changes⟩ }
  · exact { h with report := ⟨h.report.outcomes, h.report.changes⟩ }

theorem postAll (h : s.Sound) (os : List OutcomeRecord) : (s.postAll os).Sound := by
  induction os generalizing s with
  | nil => exact h
  | cons o os ih => exact ih (h.post o)

theorem noteChange (h : s.Sound) (w : Nat) : (s.noteChange w).Sound := by
  unfold State.noteChange
  split
  · exact h
  · rename_i hw
    refine { h with report := ⟨h.report.outcomes, ?_⟩ }
    have hw : w ∉ s.report.changes := by simpa using hw
    exact List.nodup_append.2 ⟨h.report.changes, by simp, by
      intro a ha b hb; simp only [List.mem_singleton] at hb; rintro rfl; exact hw (hb ▸ ha)⟩

/-! ### The memory -/

theorem grantSnapshot (h : s.Sound) (q : Snapshot) : (s.grantSnapshot q).Sound :=
  { h with mirror := ⟨h.mirror.mem, h.mirror.inbound, by simp [State.grantSnapshot]⟩ }

/-- A snapshot below the pass limit may be passed over. -/
theorem passSnapshot (h : s.Sound) (hp : ∀ q, s.mirror.snapReq = some q → q.passes < Config.passLimit) :
    s.passSnapshot.Sound :=
  { h with mirror := ⟨h.mirror.mem, h.mirror.inbound, by
      intro q hq
      simp only [State.passSnapshot, Option.map_eq_some_iff] at hq
      obtain ⟨q', hq', rfl⟩ := hq
      exact hp q' hq'⟩ }

theorem grantApplication (h : s.Sound) (hp : ∀ q, s.mirror.snapReq = some q → q.passes < Config.passLimit) :
    s.grantApplication.Sound := by
  have hs := (h.passSnapshot hp).mirror
  unfold State.grantApplication
  split <;> exact { h with mirror := ⟨hs.mem, hs.inbound, hs.passes⟩ }

theorem grantFillRead (h : s.Sound) (r : FillRead)
    (hp : ∀ q, s.mirror.snapReq = some q → q.passes < Config.passLimit) : (s.grantFillRead r).Sound :=
  have hs := (h.passSnapshot hp).mirror
  { h with mirror := ⟨hs.mem, hs.inbound, hs.passes⟩ }

theorem arbitrate (h : s.Sound) : s.arbitrate.Sound := by
  unfold State.arbitrate
  split
  · exact h
  · split
    · exact h.grantSnapshot _
    · rename_i hn
      have hp : ∀ q, s.mirror.snapReq = some q → q.passes < Config.passLimit := by
        intro q hq
        rw [hq] at hn
        by_contra hc
        simp [Option.filter, show Config.passLimit ≤ q.passes by omega] at hn
      split
      · exact h.grantApplication hp
      · split
        · exact h.grantFillRead _ hp
        · split
          · exact h.grantSnapshot _
          · exact h

theorem spoilChunk (h : s.Sound) (w : Nat) : (s.spoilChunk w).Sound :=
  { h with sched := ⟨h.sched.control, h.sched.distinct, h.sched.attempts⟩
           mirror := ⟨h.mirror.mem, h.mirror.inbound, h.mirror.passes⟩ }

theorem enqueue (h : s.Sound) (e : Inbound) : (s.enqueue e).Sound := by
  unfold State.enqueue
  split
  · refine State.Sound.spoilChunk (s := { s with mirror.inbound := s.mirror.inbound ++ [e] })
      { h with mirror := ⟨h.mirror.mem, ?_, h.mirror.passes⟩ } _
    simp only [List.length_append, List.length_singleton]; omega
  · exact h

theorem withdraw (h : s.Sound) (p : Inbound → Bool) : (s.withdraw p).Sound := by
  refine { h with mirror := ⟨h.mirror.mem, ?_, h.mirror.passes⟩ }
  have hl := h.mirror.inbound
  simp only [State.withdraw]
  split
  · rename_i e rest _ he
    rw [he] at hl
    have := List.length_filter_le (fun x => !p x) rest
    simp only [List.length_cons] at hl ⊢; omega
  · exact Nat.le_trans (List.length_filter_le _ _) hl

theorem emptyInbound (h : s.Sound) : s.emptyInbound.Sound := h.withdraw _

theorem endZeroFill (h : s.Sound) : s.endZeroFill.Sound :=
  { h with mirror := ⟨h.mirror.mem, h.mirror.inbound, h.mirror.passes⟩ }

theorem requestFill (h : s.Sound) : s.requestFill.Sound := by
  unfold State.requestFill
  split
  · exact h
  · split
    · exact { h with mirror := ⟨h.mirror.mem, h.mirror.inbound, h.mirror.passes⟩ }
    · exact h

theorem settleMemory (h : s.Sound) : s.settleMemory.Sound := h.requestFill.arbitrate

theorem discardFillRead (h : s.Sound) : s.discardFillRead.Sound :=
  { h with mirror := ⟨h.mirror.mem, h.mirror.inbound, h.mirror.passes⟩ }

theorem emptyChunk (h : s.Sound) : s.emptyChunk.Sound :=
  { h.discardFillRead with sched := ⟨h.sched.control, h.sched.distinct, h.sched.attempts⟩ }

theorem clearService (h : s.Sound) : s.clearService.Sound :=
  { h.emptyChunk with service := by simp [State.clearService], served := by simp [State.clearService] }

theorem releaseMemory (h : s.Sound) : s.releaseMemory.Sound :=
  { h with mirror := ⟨h.mirror.mem, h.mirror.inbound, h.mirror.passes⟩ }

theorem dropSnapshot (h : s.Sound) : s.dropSnapshot.Sound :=
  { h with mirror := ⟨h.mirror.mem, h.mirror.inbound, by simp [State.dropSnapshot]⟩ }

theorem applyEntry (h : s.Sound) (e : Inbound) {rest : List Inbound} (hr : rest.length ≤ Config.inboundLimit) :
    (s.applyEntry e rest).Sound :=
  { h with mirror := ⟨Memory.wf_writeBytes h.mirror.mem _ _, hr, h.mirror.passes⟩ }

theorem zeroRanges (h : s.Sound) : s.zeroRanges.Sound :=
  { h with mirror := ⟨Memory.wf_keep h.mirror.mem fun a => !ownedLocal s.layout.table a, h.mirror.inbound,
      h.mirror.passes⟩ }

/-! ### Publications, the control list -/

theorem makeRecord (h : s.Sound) (kind : PubKind) (w : Nat) (hp : s.pub.queue.length < Config.publicationLimit) :
    (s.makeRecord kind w).Sound :=
  { h with pubs := by simp only [State.makeRecord, List.length_append, List.length_singleton]; omega }

/-- A shorter publication queue is sound. -/
theorem shrinkQueue (h : s.Sound) {q : List PubRecord} (hq : q.length ≤ s.pub.queue.length) :
    State.Sound { s with pub.queue := q } :=
  { h with pubs := Nat.le_trans hq h.pubs }

theorem placeByte (h : s.Sound) {w o : Nat} {b : Byte} {t : State} (ht : s.placeByte w o b = some t) : t.Sound := by
  unfold State.placeByte at ht
  split at ht
  · rename_i r hr
    obtain rfl := Option.some.inj ht
    have hne : s.pub.queue ≠ [] := by
      rintro hn
      simp [State.joinedTail, hn] at hr
    have hl := h.pubs
    refine { h with pubs := ?_ }
    have := List.length_pos_of_ne_nil hne
    simp only [List.length_append, List.length_dropLast, List.length_singleton]; omega
  · split at ht
    · obtain rfl := Option.some.inj ht
      exact h.makeRecord _ _ ‹_›
    · simp at ht

theorem offer (h : s.Sound) (e : ControlEntry) : (s.offer e).Sound := by
  unfold State.offer
  split
  · exact h
  · split
    · rename_i hc _
      have hc : e ∉ s.sched.control := by simpa using hc
      refine { h with sched := ⟨?_, ?_, h.sched.attempts⟩ }
      · simp only [List.length_append, List.length_singleton]; omega
      · exact List.nodup_append.2 ⟨h.sched.distinct, by simp, by
          intro a ha b hb; simp only [List.mem_singleton] at hb; rintro rfl; exact hc (hb ▸ ha)⟩
    · exact h

theorem offerDue (h : s.Sound) : s.offerDue.Sound := by
  unfold State.offerDue
  generalize s.dueOffers = es
  induction es generalizing s with
  | nil => exact h
  | cons e es ih => exact ih (h.offer e)

theorem clearControl (h : s.Sound) : s.clearControl.Sound :=
  { h with sched := ⟨by simp [State.clearControl], by simp [State.clearControl], by simp [State.clearControl]⟩ }

theorem resetTurn (h : s.Sound) : s.resetTurn.Sound :=
  { h with sched := ⟨h.sched.control, h.sched.distinct, h.sched.attempts⟩ }

/-! ### Claims -/

end State.Sound

theorem Guard.Sound.without {g : Guard} (h : g.Sound) (st : Nat) : (g.without st).Sound :=
  ⟨Nat.le_trans (List.length_erase_le) h.queue, h.distinct.erase st⟩

theorem Guard.Sound.claimed {g : Guard} (h : g.Sound) (s : State) (sender : Nat) :
    (g.claimed sender (s.claimCase sender g)).Sound := by
  unfold State.claimCase
  split
  · exact h
  · split
    · exact h
    · split
      · exact h
      · rename_i _ hc _
        have hc : sender ∉ g.queue := by simpa using hc
        refine ⟨?_, ?_⟩
        · simp only [Guard.claimed, List.length_append, List.length_singleton]; omega
        · exact List.nodup_append.2 ⟨h.distinct, by simp, by
            intro a ha b hb; simp only [List.mem_singleton] at hb; rintro rfl; exact hc (hb ▸ ha)⟩

namespace State.Sound

theorem removeClaims (h : s.Sound) (st : Nat) (which : Guard → Bool) : (s.removeClaims st which).Sound := by
  refine State.Sound.postAll (h.mapClaims _ (fun g => ?_) (fun g _ hg => ?_) fun ha g hg => ?_) _
  · unfold State.removeFromGuard; (repeat' split) <;> rfl
  · (repeat' split)
    · unfold State.removeFromGuard
      (repeat' split) <;> exact ⟨(hg.without st).queue, (hg.without st).distinct⟩
    · exact hg
  · have hh := h.holds ha g hg
    have : s.isActive = false := by simpa [State.isActive] using ha
    unfold State.removeFromGuard
    (repeat' split) <;> simp_all [Guard.without]

theorem removeAllClaims (h : s.Sound) (st : Nat) : (s.removeAllClaims st).Sound := h.removeClaims st _

theorem endOwnHolds (h : s.Sound) : s.endOwnHolds.Sound :=
  h.mapClaims _ (fun g => by split <;> rfl) (fun g _ hg => by split <;> exact ⟨hg.queue, hg.distinct⟩)
    fun ha g hg => by split <;> first | rfl | exact h.holds ha g hg

theorem clearClaims (h : s.Sound) : s.clearClaims.Sound :=
  h.mapClaims Guard.cleared (fun _ => rfl) (fun _ _ _ => ⟨by simp [Guard.cleared], by simp [Guard.cleared]⟩)
    fun _ _ _ => rfl

theorem dropHolds (h : s.Sound) (reason : LossReason) : (s.dropHolds reason).Sound :=
  (h.mapClaims Guard.unhold (fun _ => rfl) (fun _ _ hg => ⟨hg.queue, hg.distinct⟩) fun _ _ _ => rfl).postAll _

/-- Guard positions are distinct: the record found for a window is the only one of that window. -/
theorem guardOf_unique (h : s.Sound) {w : Nat} {g g' : Guard} (hg : s.guardOf w = some g) (hm : g' ∈ s.claims)
    (hw : g'.window = w) : g' = g := by
  have hgm := List.mem_of_find?_eq_some hg
  have hgw : g.window = w := by simpa using List.find?_some hg
  exact List.inj_on_of_nodup_map h.positions hm hgm (hw.trans hgw.symm)

theorem acceptClaim (h : s.Sound) (sender : Nat) (sent : Bool) (w : Nat) : (s.acceptClaim sender sent w).Sound := by
  unfold State.acceptClaim
  split
  · exact h
  · rename_i g hg
    have hq : (s.setGuard w (·.claimed sender (s.claimCase sender g))).Sound := by
      refine h.setGuard w _ (fun g' => ?_) (fun g' hm hw hs => ?_) fun ha g' hm => ?_
      · unfold Guard.claimed; split <;> rfl
      · rw [h.guardOf_unique hg hm hw]
        exact (h.guardOf_unique hg hm hw ▸ hs).claimed s sender
      · have := h.holds ha g' hm
        unfold Guard.claimed; split <;> exact this
    dsimp only
    (repeat' split)
    · rename_i ha
      have ha : s.ctl.state = .active := by simpa [State.isActive] using ha
      refine State.Sound.postAll (hq.setGuard w _ (fun g' => ?_) (fun g' _ _ hs => ?_) fun hn => ?_) _
      · unfold State.heldAfterClaim; split <;> rfl
      · unfold State.heldAfterClaim; split <;> exact ⟨hs.queue, hs.distinct⟩
      · exact absurd ha hn
    · exact hq.postAll _
    · exact hq

theorem releasedGuard (h : s.Sound) (w : Nat) : (s.setGuard w Guard.released).Sound := by
  refine h.setGuard w _ (fun g => by simp) (fun g _ _ hs => ⟨by simpa using hs.queue, by simpa using hs.distinct⟩)
    fun ha g hg => ?_
  simp [Guard.released, Guard.unhold, h.holds ha g hg]

theorem acceptRelease (h : s.Sound) (sender : Nat) (sent : Bool) (w : Nat) :
    (s.acceptRelease sender sent w).Sound := by
  unfold State.acceptRelease
  dsimp only
  split
  · exact ((h.removeClaims _ _).releasedGuard w).post _
  · exact h.removeClaims _ _

theorem expireLease (h : s.Sound) (w : Nat) : (s.expireLease w).Sound := by
  unfold State.expireLease
  split
  · exact h
  · split
    · rename_i g hg hh
      refine State.Sound.offerDue (State.Sound.post (h.setGuard w
        (fun g => { g with hold := .expiring, lease := .runOut }) (fun _ => rfl)
        (fun _ _ _ hs => ⟨hs.queue, hs.distinct⟩) fun ha => ?_) _)
      have := h.holds ha g (List.mem_of_find?_eq_some hg)
      simp_all
    · exact h

theorem cancelClaim (h : s.Sound) (r : PubRecord) : (s.cancelClaim r).Sound :=
  ((h.shrinkQueue (List.length_erase_le)).post _).setGuard _ _ (fun _ => rfl)
    (fun _ _ _ hs => ⟨hs.queue, hs.distinct⟩) fun _ _ _ => rfl

theorem hostClaim (h : s.Sound) (w : Nat) : (s.hostClaim w).1.Sound := by
  unfold State.hostClaim
  (repeat' split) <;> try exact h
  rename_i ha _ _ _
  refine (h.makeRecord _ _ (by omega)).setGuard w _ (fun _ => rfl) (fun _ _ _ hs => ⟨hs.queue, hs.distinct⟩) ?_
  intro hn
  simp_all [State.isActive]

theorem hostRelease (h : s.Sound) (w : Nat) : (s.hostRelease w).1.Sound := by
  unfold State.hostRelease
  (repeat' split) <;> try exact h
  · exact h.cancelClaim _
  · exact h.makeRecord _ _ (by omega)

/-! ### Leaving the source -/

/-- Any part of the control list, and any in-flight frame of at most 16 attempts, is sound. -/
theorem withSched (h : s.Sound) {c : Scheduler} (hc : c.control.Sublist s.sched.control)
    (ha : ∀ f, c.inflight = some f → f.attempts ≤ Config.attemptLimit) : State.Sound { s with sched := c } :=
  { h with sched := ⟨Nat.le_trans hc.length_le h.sched.control, h.sched.distinct.sublist hc, ha⟩ }

theorem leaveSource (h : s.Sound) (f : InFlight) : (s.leaveSource f).Sound := by
  unfold State.leaveSource
  split
  · exact State.Sound.withSched (h.shrinkQueue (q := s.pub.queue.tail) (by simp)) (c := { s.sched with inflight := none })
      (List.Sublist.refl _) (by simp)
  · exact h.withSched (c := { s.sched with control := _, inflight := none }) List.erase_sublist (by simp)
  · exact h.emptyChunk.withSched (c := { s.emptyChunk.sched with inflight := none }) (List.Sublist.refl _) (by simp)

/-! ### Transitions -/

theorem abandonQueue (h : s.Sound) (reason : AbandonReason) : (s.abandonQueue reason).Sound :=
  (h.shrinkQueue (q := []) (by simp)).postAll _

theorem clearRoster (h : s.Sound) : s.clearRoster.Sound := { h with roster := by simp [State.clearRoster] }

theorem clearCopies (h : s.Sound) : s.clearCopies.Sound := h.mapCopies _

/-- A transition is sound when a state other than ACTIVE is entered with every hold NONE. -/
theorem moveTo (h : s.Sound) (state : StationState) (reason : Reason)
    (hh : state ≠ .active → ∀ g ∈ s.claims, g.hold = .unheld) : (s.moveTo state reason).Sound :=
  have hm : State.Sound { s with ctl := ⟨state, reason, decide (state = StationState.joining), .stopped, false, false⟩ } :=
    { h with holds := hh, census := rfl }
  hm.post _

theorem haltLine (h : s.Sound) : s.haltLine.Sound := { h with }

theorem enterJoining (h : s.Sound) (reason : Reason) (hh : ∀ g ∈ s.claims, g.hold = .unheld) :
    (s.enterJoining reason).Sound :=
  (State.Sound.moveTo (s := { s with roster.announce := .running Config.announceTicks }) { h with } _ _
    fun _ => hh).offer _

/-- Cleared claims hold nothing. -/
theorem cleared_unheld {s : State} : ∀ g ∈ s.clearClaims.claims, g.hold = .unheld := by
  intro g hg
  obtain ⟨g', -, rfl⟩ := List.mem_map.1 hg
  rfl

/-- Dropped holds are NONE. -/
theorem dropped_unheld {s : State} (reason : LossReason) : ∀ g ∈ (s.dropHolds reason).claims, g.hold = .unheld := by
  intro g hg
  simp only [State.dropHolds, State.postAll_frame] at hg
  obtain ⟨g', -, rfl⟩ := List.mem_map.1 hg
  rfl

theorem joinFailed (h : s.Sound) : s.joinFailed.Sound := by
  have hc := h.clearControl.clearRoster.clearClaims.emptyChunk
  refine State.Sound.moveTo (s := { s.clearControl.clearRoster.clearClaims.emptyChunk with
    line.reference := none, line.silence := 0 }) { hc with } _ _ fun _ => ?_
  simpa using cleared_unheld (s := s.clearControl.clearRoster)

theorem rejoin (h : s.Sound) (reason : Reason) : (s.rejoin reason).Sound := by
  refine State.Sound.enterJoining (((((((h.abandonQueue _).clearControl.resetTurn.clearService).dropHolds
    _).clearClaims).clearCopies.withdraw _).endZeroFill).clearRoster) _ ?_
  simpa using cleared_unheld (s := _)

theorem forsake (h : s.Sound) (abandon : AbandonReason) (loss : LossReason) : (s.forsake abandon loss).Sound :=
  ((((h.abandonQueue _).clearControl.resetTurn.clearService.dropHolds _).clearClaims).emptyInbound.endZeroFill).clearCopies.clearRoster

theorem forsake_unheld (abandon : AbandonReason) (loss : LossReason) :
    ∀ g ∈ (s.forsake abandon loss).claims, g.hold = .unheld := by
  simpa [State.forsake] using cleared_unheld (s := _)

theorem enterMuted (h : s.Sound) : s.enterMuted.Sound := by
  have hf := h.forsake .muted .muted
  refine State.Sound.moveTo (s := { s.forsake .muted .muted with rx.objectionRun := 0, rx.cleanRun := 0 })
    { hf with objections := by simp, clean := by simp } _ _ fun _ => ?_
  exact forsake_unheld _ _

theorem enterIncompatible (h : s.Sound) (reason : Reason) : (s.enterIncompatible reason).Sound :=
  (h.forsake _ _).moveTo _ _ fun _ => forsake_unheld _ _

theorem stop (h : s.Sound) (reason : Reason) : (s.stop reason).Sound := by
  refine State.Sound.moveTo (((h.clearControl.emptyInbound.endZeroFill.clearRoster.clearClaims.clearService).mapCopies
    _).haltLine) _ _ fun _ => ?_
  simpa using cleared_unheld (s := _)

theorem dropAbandoned (h : s.Sound) : s.dropAbandoned.Sound := by
  unfold State.dropAbandoned
  split
  · cases s.sched.inflight with
    | none => exact h
    | some f => exact h.leaveSource f
  · exact h

theorem found (h : s.Sound) : s.found.Sound := by
  have he := h.dropAbandoned.emptyInbound.emptyChunk
  exact State.Sound.moveTo (s := { s.dropAbandoned.emptyInbound.emptyChunk with mirror.zeroPending := true })
    { he with mirror := ⟨he.mirror.mem, he.mirror.inbound, he.mirror.passes⟩ } _ _ fun hn => absurd rfl hn

theorem foundingTest (h : s.Sound) : s.foundingTest.Sound := by
  unfold State.foundingTest
  split
  · exact h.found
  · exact { h with }

theorem clearServiceAtLeave (h : s.Sound) : s.clearServiceAtLeave.Sound := by
  unfold State.clearServiceAtLeave
  (repeat' split)
  · exact { h with service := by simp, served := by simp }
  · exact h.clearService
  · exact h.clearService

theorem keptControl_small (s : State) : s.keptControl = [] ∨ ∃ e, s.keptControl = [e] := by
  unfold State.keptControl
  (repeat' split) <;> simp

theorem leaveControl (h : s.Sound) : s.leaveControl.Sound := by
  refine State.Sound.offer (s := { s with sched.control := s.keptControl
                                          sched.inflight := s.frameOnLine
                                          sched.turn := .publications })
    { h with sched := ⟨?_, ?_, fun f hf => h.sched.attempts f ?_⟩ } _
  · rcases keptControl_small s with he | ⟨e, he⟩ <;> simp [he, Config.controlLimit]
  · rcases keptControl_small s with he | ⟨e, he⟩ <;> simp [he]
  · exact (Option.filter_eq_some_iff.1 hf).1

theorem keptRecords_le (s : State) : s.keptRecords.length ≤ s.pub.queue.length := by
  unfold State.keptRecords
  (repeat' split) <;> simp

theorem leaveGroup (h : s.Sound) : s.leaveGroup.Sound := by
  have hq : State.Sound { s with pub.queue := s.keptRecords } := h.shrinkQueue (keptRecords_le s)
  have hd := (((hq.postAll (abandonedOutcomes (s.pub.queue.drop s.keptRecords.length)
    .leaving)).clearServiceAtLeave.leaveControl).dropHolds .departed).mapCopies Copy.unfetched
  refine State.Sound.moveTo (s := { State.mapCopies _ Copy.unfetched with roster.announce := .stopped })
    { hd with } _ _ fun _ => ?_
  simpa using dropped_unheld _ (s := _)

/-! ### The refresh unit -/

theorem countExpiry (h : s.Sound) (w : Nat) : (s.countExpiry w).Sound := by
  unfold State.countExpiry
  split
  · exact h.setCopy _ _
  · exact (h.setCopy _ _).post _

theorem expireFetch (h : s.Sound) (w : Nat) : (s.expireFetch w).Sound := by
  unfold State.expireFetch
  split
  · exact (h.countExpiry w).offerDue
  · exact h

theorem abandonFetch (h : s.Sound) (w : Nat) : (s.abandonFetch w).Sound := by
  unfold State.abandonFetch
  split
  · exact h.countExpiry w
  · exact h

theorem requestAll (h : s.Sound) : s.requestAll.Sound := h.mapMirrored _

/-- A service table within its capacity, one entry a window and requester, is sound. -/
theorem withService (h : s.Sound) {table : List Service} (ht : table.length ≤ Config.serviceLimit)
    (hd : (table.map fun e => (e.window, e.requester)).Nodup) : State.Sound { s with refresh.service := table } :=
  { h with service := ht, served := hd }

/-- Any part of the service table is sound. -/
theorem filterService (h : s.Sound) (p : Service → Bool) : State.Sound { s with refresh.service := s.refresh.service.filter p } :=
  h.withService (Nat.le_trans (List.length_filter_le _ _) h.service)
    (h.served.sublist (List.filter_sublist.map _))

/-- Other next offsets are sound. -/
theorem mapService (h : s.Sound) (p : Service → Bool) (next : Nat) :
    State.Sound { s with refresh.service := s.refresh.service.map fun e => if p e then { e with next := next } else e } := by
  refine h.withService (by simpa using h.service) ?_
  have : (fun e : Service => (e.window, e.requester)) ∘ (fun e => if p e then { e with next := next } else e)
      = fun e => (e.window, e.requester) := by
    funext e; dsimp only [Function.comp_apply]; split <;> rfl
  rw [List.map_map, this]; exact h.served

theorem dropService (h : s.Sound) (w r : Nat) : (s.dropService w r).Sound := h.filterService _

theorem dropServiceOf (h : s.Sound) (r : Nat) : (s.dropServiceOf r).Sound := h.filterService _

theorem volunteer (h : s.Sound) (w requester origin : Nat) : (s.volunteer w requester origin).Sound := by
  unfold State.volunteer
  (repeat' split)
  · exact h.mapService _ _
  · rename_i hn _
    refine h.withService (by simp only [List.length_append, List.length_singleton]; omega) ?_
    simp only [State.serviceOf, Option.not_isSome_iff_eq_none, List.find?_eq_none, Bool.and_eq_true, beq_iff_eq,
      not_and] at hn
    rw [List.map_append, List.nodup_append]
    refine ⟨h.served, by simp, ?_⟩
    rintro a ha b hb rfl
    obtain ⟨e, he, rfl⟩ := List.mem_map.1 ha
    simp only [List.map_cons, List.map_nil, List.mem_singleton, Prod.mk.injEq] at hb
    exact hn e he hb.1 hb.2
  · exact h

theorem acceptFetch (h : s.Sound) (sender : Nat) (sent : Bool) (w origin : Nat) :
    (s.acceptFetch sender sent w origin).Sound := by
  unfold State.acceptFetch State.fetchAccepted
  (repeat' split)
  · exact h.setCopy _ _
  · exact h
  · exact h.volunteer _ _ _
  · exact h

theorem advanceService (h : s.Sound) (w requester next : Nat) : (s.advanceService w requester next).Sound := by
  unfold State.advanceService
  split
  · exact h.mapService _ _
  · exact h.dropService _ _

theorem acceptFill (h : s.Sound) (sent : Bool) (w offset requester : Nat) (data : List Byte) :
    (s.acceptFill sent w offset requester data).Sound := by
  unfold State.acceptFill State.takeChunk
  dsimp only
  (repeat' split)
  · exact (h.setCopy _ _).enqueue _
  · exact h
  · exact ((h.setCopy _ _).enqueue _).dropService _ _
  · exact h.dropService _ _

theorem becomeFresh (h : s.Sound) (w : Nat) : (s.becomeFresh w).Sound := by
  unfold State.becomeFresh
  dsimp only
  split
  · exact ((h.setCopy _ _).post _).noteChange _
  · exact (h.setCopy _ _).post _

theorem fillApplied (h : s.Sound) (w len : Nat) : (s.fillApplied w len).Sound := by
  unfold State.fillApplied
  dsimp only
  split
  · exact (h.setCopy _ _).becomeFresh _
  · exact h.setCopy _ _

theorem zeroFilled (h : s.Sound) : s.zeroFilled.Sound := (h.mapMirrored _).postAll _

theorem hostRefetch (h : s.Sound) (w : Nat) : (s.hostRefetch w).1.Sound := by
  unfold State.hostRefetch
  (repeat' split) <;> try exact h
  exact ((h.withdraw _).setCopy _ _).offerDue

/-! ### The roster unit -/

theorem strip (h : s.Sound) (n : Nat) : (s.strip n).Sound := (h.removeAllClaims n).dropServiceOf n

theorem stripPresent (h : s.Sound) (n : Nat) : (s.stripPresent n).Sound := by
  unfold State.stripPresent
  (repeat' split)
  · exact h.endOwnHolds.strip n
  · exact h.strip n
  · exact h

theorem setPresent (h : s.Sound) (n : Nat) (st : RosterStatus) : (s.setPresent n st).Sound := h.setEntry _ _

theorem completeJoined (h : s.Sound) (kept : Nat) : (s.completeJoined kept).Sound :=
  { h with roster := by simpa [State.completeJoined] using h.roster }

theorem startAnswer (h : s.Sound) (sent : Bool) : (s.startAnswer sent).Sound := by
  unfold State.startAnswer
  split
  · exact { h with }
  · exact h

theorem acceptPresence (h : s.Sound) (sender : Nat) (sent : Bool) (mode : PresenceMode) (sig : Word) :
    (s.acceptPresence sender sent mode sig).Sound := by
  unfold State.acceptPresence
  (repeat' split)
  · exact (h.stripPresent sender).setPresent _ _
  · exact ((h.stripPresent sender).setPresent _ _).startAnswer _
  · exact h.setPresent _ _
  · exact h

/-- An installed census is sound when its groups are within the limits of R30 and every hold is NONE. -/
theorem installCensus (h : s.Sound) (map : List RosterStatus) {groups : List (List Nat)}
    (hg : ∀ g ∈ groups, groupSound map g = true) : (s.installCensus map groups).Sound := by
  have hi : State.Sound { s with
      roster.entries := (List.range Config.stations).map (s.installedEntry map)
      claims := s.claims.mapIdx fun i (g : Guard) => { g with queue := groups.getD i [] } } :=
    { h with
      roster := by simp
      guards := by
        intro g hm
        obtain ⟨i, hi, rfl⟩ := List.mem_mapIdx.1 hm
        by_cases hl : i < groups.length
        · have hs := groupSound_iff.1 (hg groups[i] (List.getElem_mem hl))
          exact ⟨by simpa [hl] using hs.1, by simpa [hl] using hs.2.2.1⟩
        · exact ⟨by simp [hl], by simp [hl]⟩
      guardCount := by simpa using h.guardCount
      positions := by
        have : (s.claims.mapIdx fun i (g : Guard) => { g with queue := groups.getD i [] }).map (·.window)
            = s.claims.map (·.window) := by
          refine List.ext_getElem (by simp) fun i h1 h2 => by simp
        rw [this]; exact h.positions
      holds := by
        intro hn g hm
        obtain ⟨i, hi, rfl⟩ := List.mem_mapIdx.1 hm
        exact h.holds hn s.claims[i] (List.getElem_mem hi) }
  exact (hi.dropAbandoned.moveTo .active .census fun hn => absurd rfl hn).requestAll

theorem acceptCensus (h : s.Sound) (sender : Nat) (sig : Word) (map : List RosterStatus) {groups : List (List Nat)}
    (hg : ∀ g ∈ groups, groupSound map g = true) : (s.acceptCensus sender sig map groups).Sound := by
  unfold State.acceptCensus
  (repeat' split)
  · exact h.enterIncompatible _
  · exact (h.stripPresent sender).setPresent _ _
  · exact h.installCensus map hg
  · exact (h.completeJoined _).setPresent _ _
  · exact h.completeJoined _

theorem departSelf (h : s.Sound) : s.departSelf.Sound := by
  unfold State.departSelf
  split
  · exact h.stop _
  all_goals first | exact h.rejoin _ | exact h

theorem acceptDepart (h : s.Sound) (subject : Nat) : (s.acceptDepart subject).Sound := by
  unfold State.acceptDepart
  dsimp only
  split
  · exact ((h.strip subject).setEntry _ _).departSelf
  · exact (h.strip subject).setEntry _ _

/-! ### The transmit scheduler -/

theorem abandonWith (h : s.Sound) (f : InFlight) (reason : AbandonReason) : (s.abandonWith f reason).Sound := by
  unfold State.abandonWith
  split
  · exact (h.leaveSource f).postAll _
  · exact h.leaveSource f
  · exact h.leaveSource f

theorem dropWaiting (h : s.Sound) : s.dropWaiting.Sound := by
  have hn : State.Sound { s with sched.inflight := none } := h.withSched (List.Sublist.refl _) (by simp)
  unfold State.dropWaiting
  (repeat' split) <;> try exact h
  · exact h.emptyChunk.withSched (c := { s.emptyChunk.sched with inflight := none }) (List.Sublist.refl _) (by simp)
  · exact hn
  · exact hn

theorem sortRecords_le (s : State) (ahead records : List PubRecord) :
    (s.sortRecords ahead records).1.length ≤ records.length := by
  induction records generalizing ahead with
  | nil => simp [State.sortRecords]
  | cons r rest ih =>
    have := ih (ahead ++ [r])
    simp only [State.sortRecords]
    split <;> simp only [List.length_cons] <;> omega

theorem sortedQueue_le (s : State) : s.sortedQueue.1.length ≤ s.pub.queue.length := by
  unfold State.sortedQueue
  split
  · exact sortRecords_le s _ _
  · rename_i he
    have h1 := sortRecords_le s s.keptRecords (s.pub.queue.drop 1)
    have h2 : s.keptRecords.length ≤ 1 := by
      unfold State.keptRecords; (repeat' split) <;> simp
    have h3 : s.keptRecords ≠ [] := by simpa using he
    have h4 := keptRecords_le s
    have h5 := List.length_pos_of_ne_nil h3
    simp only [List.length_append, List.length_drop] at h1 ⊢
    omega

theorem dropOvertaken (h : s.Sound) : s.dropOvertaken.Sound := by
  refine State.Sound.postAll (s := { s.dropWaiting with sched.control := _, pub.queue := s.sortedQueue.1 }) ?_ _
  have hq : State.Sound { s.dropWaiting with pub.queue := s.sortedQueue.1 } :=
    h.dropWaiting.shrinkQueue (by simpa using sortedQueue_le s)
  refine hq.withSched (c := { s.dropWaiting.sched with control := _ }) ?_ h.dropWaiting.sched.attempts
  have : s.dropWaiting.sched.control = s.sched.control := by
    unfold State.dropWaiting; (repeat' split) <;> rfl
  simp only [this]
  exact List.filter_sublist

theorem unclaim (h : s.Sound) (records : List PubRecord) : (s.unclaim records).Sound := by
  unfold State.unclaim
  (repeat' split) <;> try exact h
  rename_i ha
  refine h.setGuard _ _ (fun g => ?_) (fun g _ _ hs => ?_) fun hn => ?_
  · split <;> rfl
  · split
    · exact ⟨hs.queue, hs.distinct⟩
    · exact hs
  · simp_all [State.isActive]

theorem abandonAttempts (h : s.Sound) (f : InFlight) : (s.abandonAttempts f).Sound := by
  have hg := h.abandonWith f .attempts
  unfold State.abandonAttempts
  dsimp only
  (repeat' split) <;>
    first | exact hg | exact hg.unclaim _ | exact hg.joinFailed | exact hg.stop _ | exact hg.abandonFetch _
          | exact hg.dropService _ _

theorem staleChunk (h : s.Sound) : s.staleChunk.Sound :=
  State.Sound.withSched h.discardFillRead (c := s.staleChunk.sched) (List.Sublist.refl _) h.sched.attempts

theorem keepChunk (h : s.Sound) (f : InFlight) : (s.keepChunk f).Sound := by
  unfold State.keepChunk
  split
  · exact h.staleChunk
  · exact h
  · exact h

theorem waitAgain (h : s.Sound) {f : InFlight} {attempts : Nat} (ha : attempts ≤ Config.attemptLimit) :
    (s.waitAgain f attempts).Sound :=
  State.Sound.withSched (h.keepChunk f) (c := { (s.keepChunk f).sched with inflight := _ }) (List.Sublist.refl _)
    (by rintro f' hf; obtain rfl := Option.some.inj hf; exact ha)

theorem reportLost (h : s.Sound) : s.reportLost.Sound := by
  unfold State.reportLost
  split
  · exact h
  · rename_i f hf
    split
    · exact h.abandonWith f _
    · exact h.waitAgain (h.sched.attempts f hf)

theorem reportFailed (h : s.Sound) (faulted : Bool) : (s.reportFailed faulted).Sound := by
  unfold State.reportFailed
  split
  · exact h
  · rename_i f hf
    (repeat' split)
    · exact h.abandonWith f _
    · exact h.waitAgain (by omega)
    · exact { h.waitAgain (f := f) (attempts := Config.attemptLimit) (by simp) with }
    · exact h.abandonAttempts f

theorem finishAbandon (h : s.Sound) : s.finishAbandon.Sound := by
  have hd : State.Sound { s with ctl.abandonDue := false } := { h with }
  unfold State.finishAbandon
  (repeat' split)
  · exact hd.abandonAttempts _
  · exact hd
  · exact h

theorem settle (h : s.Sound) (rejected : Bool) : (s.settle rejected).Sound := by
  unfold State.settle
  split
  · exact h
  · rename_i f hf
    have hl := h.leaveSource f
    (repeat' split) <;> first | exact hl | exact hl.postAll _ | exact hl.stop _ | exact hl.advanceService _ _ _

theorem supply (h : s.Sound) (source : Source) (frame : Frame) {attempts : Nat}
    (ha : attempts ≤ Config.attemptLimit) : (s.supply source frame attempts).Sound :=
  have hi : State.Sound { s with sched := { s.sched with inflight := some ⟨source, frame, attempts, true⟩ } } :=
    h.withSched (List.Sublist.refl _) (by rintro f hf; obtain rfl := Option.some.inj hf; exact ha)
  { hi with }

theorem supplyFill (h : s.Sound) (e : Service) {attempts : Nat} (hr : s.fillReady e = true)
    (ha : attempts ≤ Config.attemptLimit) : (s.supplyFill e attempts).Sound := by
  unfold State.supplyFill
  dsimp only
  split
  · exact h.supply _ _ ha
  · rename_i hc
    refine (h.grantFillRead _ fun q hq => ?_).supply _ _ ha
    simp [State.fillReady, hc, State.readableNow, hq] at hr

theorem resupply (h : s.Sound) {f : InFlight} (ha : f.attempts ≤ Config.attemptLimit) : (s.resupply f).Sound := by
  unfold State.resupply
  (repeat' split) <;> first | exact h | exact h.supply _ _ ha | exact h.supplyFill _ (by assumption) ha

theorem selectPublication (h : s.Sound) {r : PubRecord} {rest : List PubRecord} (hq : s.pub.queue = r :: rest) :
    (s.selectPublication r rest).Sound := by
  have hp : State.Sound { s with pub.queue := { r with selected := true } :: rest } :=
    h.shrinkQueue (by simp [hq])
  refine State.Sound.supply (s := { s with pub.queue := { r with selected := true } :: rest, sched.turn := .service })
    (hp.withSched (c := { s.sched with turn := .service }) (List.Sublist.refl _) h.sched.attempts) _ _ (by simp)

theorem fillReady_turn (s : State) (e : Service) (turn : Turn) :
    State.fillReady { s with sched.turn := turn } e = s.fillReady e := rfl

theorem selectFill (h : s.Sound) {e : Service} (hr : s.fillReady e = true) : (s.selectFill e).Sound :=
  State.Sound.supplyFill (s := { s with sched.turn := .publications })
    (h.withSched (c := { s.sched with turn := .publications }) (List.Sublist.refl _) h.sched.attempts) e
    (by rw [fillReady_turn]; exact hr) (by simp)

theorem selectByTurn (h : s.Sound) : s.selectByTurn.Sound := by
  unfold State.selectByTurn
  split
  · rename_i r rest e hq he
    have hr := (Option.filter_eq_some_iff.1 he).2
    split
    · exact h.selectPublication hq
    · exact h.selectFill hr
  · exact h.selectPublication (by assumption)
  · rename_i he
    exact h.selectFill (Option.filter_eq_some_iff.1 he).2
  · exact h

theorem select (h : s.Sound) : s.select.Sound := by
  have ht : State.Sound { s with sched.control := s.sched.control.dropWhile s.entryOvertaken } :=
    h.withSched (c := { s.sched with control := _ }) (List.dropWhile_sublist _) h.sched.attempts
  unfold State.select
  dsimp only
  (repeat' split) <;> first | exact ht | exact ht.supply _ _ (by simp) | exact ht.selectByTurn

theorem atOpportunity (h : s.Sound) : s.atOpportunity.Sound := by
  unfold State.atOpportunity
  split
  · exact h
  · split
    · rename_i f hf
      split
      · exact h.abandonWith f _
      · exact h.resupply (h.sched.attempts f hf)
    · exact h.select

/-! ### Acceptance -/

theorem acceptTimers (h : s.Sound) (sender : Nat) (sent : Bool) : (s.acceptTimers sender sent).Sound := by
  have hl : State.Sound { s with line.reference := some sender } := { h with }
  unfold State.acceptTimers
  dsimp only
  (repeat' split) <;> first | exact hl | exact { hl with } | exact hl.setEntry _ _

theorem acceptWrite (h : s.Sound) (sender w offset : Nat) (data : List Byte) :
    (s.acceptWrite sender w offset data).Sound := by
  unfold State.acceptWrite
  split
  · exact h.enqueue _
  · exact h

theorem acceptBody (h : s.Sound) (sender : Nat) (sent : Bool) {b : Body} (hb : b.fits sender) :
    (s.acceptBody sender sent b).Sound := by
  cases b with
  | write w o data => exact h.acceptWrite _ _ _ _
  | claim w => exact h.acceptClaim _ _ _
  | release w r => exact h.acceptRelease _ _ _
  | presence m sig => exact h.acceptPresence _ _ _ _
  | census sig map groups => exact h.acceptCensus _ _ _ hb.2.2.2
  | depart p r => exact h.acceptDepart _
  | fetch w o => exact h.acceptFetch _ _ _ _
  | fill w o r data => exact h.acceptFill _ _ _ _ _

theorem acceptEffect (h : s.Sound) (sender : Nat) (sent : Bool) {body : Option Body}
    (hb : ∀ b, body = some b → b.fits sender) : (s.acceptEffect sender sent body).Sound := by
  unfold State.acceptEffect
  (repeat' split)
  · exact (h.acceptBody _ _ (hb _ rfl)).dropOvertaken
  · exact h
  · exact h

theorem accept (h : s.Sound) (sender : Nat) (sent : Bool) {body : Option Body}
    (hb : ∀ b, body = some b → b.fits sender) : (s.accept sender sent body).Sound := by
  have ht := h.acceptTimers sender sent
  unfold State.accept
  dsimp only
  (repeat' split)
  · exact ht.enterIncompatible _
  · exact (ht.acceptEffect _ _ hb).settle _
  · exact ht.acceptEffect _ _ hb

/-! ### The window end -/

theorem beginGap (h : s.Sound) (voided : Bool) : (s.beginGap voided).Sound := { h with }

theorem windowVoided (h : s.Sound) (f : RxFrame) : (s.windowVoided f).Sound := by
  have hr : (if f.sending then s.reportFailed false else s).Sound := by
    split
    · exact h.reportFailed _
    · exact h
  have hc : (if s.ctl.state = .muted then
      { (if f.sending then s.reportFailed false else s) with rx.cleanRun := 0 }
      else (if f.sending then s.reportFailed false else s)).Sound := by
    split
    · exact { hr with clean := by simp }
    · exact hr
  unfold State.windowVoided
  dsimp only
  split
  · exact hc.enterMuted
  · exact hc

/-- In LISTENING and MUTED every hold is NONE. -/
theorem unheld (h : s.Sound) (hn : s.ctl.state ≠ .active) : ∀ g ∈ s.claims, g.hold = .unheld := h.holds hn

theorem overhear (h : s.Sound) (f : RxFrame) : (s.overhear f).Sound := by
  have hh : (s.hearReference f).Sound := { h with }
  unfold State.overhear
  dsimp only
  split
  · rename_i hl
    split
    · exact hh.enterJoining _ (by simpa using h.holds (by simp [hl]))
    · exact hh
  · (repeat' split)
    · exact { hh with clean := by simp }
    · exact { hh with clean := by simp only; omega }
    · exact State.Sound.rejoin (s := { s.hearReference f with rx.cleanRun := Config.cleanLimit })
        { hh with clean := by simp } _
  all_goals exact hh

theorem windowAccepted (h : s.Sound) (f : RxFrame) : (s.windowAccepted f).Sound := by
  have hc : State.Sound { s with rx.objectionRun := 0 } := { h with objections := by simp }
  unfold State.windowAccepted
  dsimp only
  split
  · refine hc.accept _ _ fun b hb => ?_
    obtain ⟨g, hg, rfl⟩ := Option.map_eq_some_iff.1 hb
    rw [senderOf, ← parseFrame_sender hg]
    exact (parseFrame_fits hg).2
  · exact hc.overhear f

theorem deferredFounding (h : s.Sound) : s.deferredFounding.Sound := by
  unfold State.deferredFounding
  split
  · exact h.foundingTest
  · exact h

theorem afterWindow (h : s.Sound) : s.afterWindow.Sound := h.deferredFounding.finishAbandon.offerDue.settleMemory

theorem endWindow (h : s.Sound) (f : RxFrame) (samples : BitVec 20) : (s.endWindow f samples).Sound := by
  have hg := h.beginGap (f.voidedBy samples)
  unfold State.endWindow
  dsimp only
  split
  · exact (hg.windowVoided f).afterWindow
  · exact (hg.windowAccepted f).afterWindow

/-! ### The line interface -/

/-- The line interface's own state plays no part in soundness. -/
theorem withLine (h : s.Sound) (l : Line) : State.Sound { s with line := l } := { h with }

theorem meetSync (h : s.Sound) : s.meetSync.Sound := by
  unfold State.meetSync; split; exacts [h.withLine _, h]

theorem completeGap (h : s.Sound) : s.completeGap.Sound := by
  unfold State.completeGap; split; exacts [h.withLine _, h]

theorem restartCycle (h : s.Sound) : s.restartCycle.Sound := by
  unfold State.restartCycle; split; exacts [h.withLine _, h]

theorem reachSilence (h : s.Sound) : s.reachSilence.Sound := by
  unfold State.reachSilence
  dsimp only
  (repeat' split)
  · rename_i hl
    exact (h.withLine _).enterJoining _ (h.holds (by simp_all))
  · exact h.withLine _
  · exact h

theorem strayLevel (h : s.Sound) : s.strayLevel.Sound := by
  unfold State.strayLevel; (repeat' split); exacts [h.withLine _, h.withLine _, h]

theorem becomeStuck (h : s.Sound) : s.becomeStuck.Sound := by
  unfold State.becomeStuck
  split
  · exact { h with clean := by simp }
  · exact h

theorem freeLine (h : s.Sound) : s.freeLine.Sound := by
  unfold State.freeLine; split; exacts [h.withLine _, h]

theorem senseStart (h : s.Sound) : s.senseStart.Sound := by
  unfold State.senseStart
  split
  · exact { h with }
  · exact h.strayLevel

theorem beginVerdict (h : s.Sound) (f : RxFrame) : (s.beginVerdict f).Sound := by
  refine { h with objections := ?_ }
  have := h.objections
  simp only [State.beginVerdict]
  split <;> omega

theorem endFrame (h : s.Sound) (samples : List CharSamples) : (s.endFrame samples).Sound := by
  unfold State.endFrame
  (repeat' split) <;> first | exact h.beginVerdict _ | exact h

theorem endVerdict (h : s.Sound) (samples : BitVec 20) : (s.endVerdict samples).Sound := by
  unfold State.endVerdict
  (repeat' split) <;> first | exact h.endWindow _ _ | exact h

theorem takeOpportunity (h : s.Sound) : s.takeOpportunity.Sound := by
  unfold State.takeOpportunity
  split
  · exact (State.Sound.atOpportunity (s := { s with line.slot := s.ownSlot.getD 0, line.offered := true })
      (h.withLine _)).offerDue.settleMemory
  · exact h

theorem withdrawFrame (h : s.Sound) : s.withdrawFrame.Sound := { h with }

theorem loseArbitration (h : s.Sound) (bit : Nat) : (s.loseArbitration bit).Sound := by
  unfold State.loseArbitration
  split
  · exact h.withdrawFrame.reportLost.offerDue.settleMemory
  · exact h

theorem faultLine (h : s.Sound) (bit : Nat) : (s.faultLine bit).Sound := by
  unfold State.faultLine
  split
  · exact (h.withdrawFrame.reportFailed true).offerDue.settleMemory
  · exact h

/-! ### Timers and ticks -/

theorem expireAnnounce (h : s.Sound) : s.expireAnnounce.Sound := by
  unfold State.expireAnnounce
  split
  · exact State.Sound.offerDue (s := { s with roster.announce := .runOut }) { h with }
  · exact h

theorem expireSilence (h : s.Sound) (n : Nat) : (s.expireSilence n).Sound := by
  unfold State.expireSilence
  split
  · exact (h.setEntry _ _).offerDue
  · exact h

theorem expireAnswer (h : s.Sound) : s.expireAnswer.Sound := by
  unfold State.expireAnswer
  (repeat' split)
  · exact { h with }
  · exact h.foundingTest.offerDue.settleMemory
  · exact h

theorem tickAnnounce (h : s.Sound) : s.tickAnnounce.Sound := by
  unfold State.tickAnnounce
  split
  · exact h.expireAnnounce
  · exact { h with }

theorem tickSilence (h : s.Sound) (n : Nat) : (s.tickSilence n).Sound := by
  unfold State.tickSilence
  (repeat' split) <;> first | exact h | exact h.expireSilence n | exact h.setEntry _ _

theorem tickAnswer (h : s.Sound) : s.tickAnswer.Sound := by
  unfold State.tickAnswer
  split
  · exact h.expireAnswer
  · exact { h with }

theorem tickLease (h : s.Sound) (w : Nat) : (s.tickLease w).Sound := by
  unfold State.tickLease
  (repeat' split)
  · exact h
  · exact h.expireLease w
  · refine h.setGuard w _ (fun _ => rfl) (fun _ _ _ hs => ⟨hs.queue, hs.distinct⟩) fun hn g hg => h.holds hn g hg

theorem tickFetch (h : s.Sound) (w : Nat) : (s.tickFetch w).Sound := by
  unfold State.tickFetch
  split
  · exact h.expireFetch w
  · exact h.setCopy _ _

/-- A fold of sound steps is sound. -/
theorem tickTimers (h : s.Sound) : s.tickTimers.Sound :=
  State.tickTimers_preserves State.Sound (fun _ h => h.tickAnnounce) (fun _ n h => h.tickSilence n)
    (fun _ h => h.tickAnswer) (fun _ w h => h.tickLease w) (fun _ w h => h.tickFetch w) h

theorem tickLine (h : s.Sound) : s.tickLine.Sound := by
  unfold State.tickLine
  split
  · unfold State.tickIdle
    dsimp only
    have hm := State.Sound.meetSync (h.withLine { s.line with count := s.line.count + 1, silence := s.line.silence + 1 })
    (repeat' split) <;> first | exact hm | exact hm.completeGap | exact hm.reachSilence | exact hm.completeGap.reachSilence
  · unfold State.tickSlot
    dsimp only
    (repeat' split) <;>
      first | exact h.takeOpportunity.withLine _ | exact h.withLine _ | exact h.takeOpportunity.restartCycle
            | exact h.restartCycle
  · exact h
  · unfold State.tickFrame
    dsimp only
    (repeat' split) <;> first | exact h.withLine _ | exact (h.withLine _).endFrame _
  · unfold State.tickVerdict
    dsimp only
    split
    · exact (h.withLine _).endVerdict _
    · exact h.withLine _
  · unfold State.tickStuck
    dsimp only
    split
    · exact (h.withLine _).freeLine
    · exact h.withLine _

theorem tick (h : s.Sound) : s.tick.Sound := by
  unfold State.tick
  split
  · exact h.tickTimers.tickLine
  · exact h

/-! ### Memory completions and the local port -/

theorem reportApplied (h : s.Sound) (e : Inbound) : (s.reportApplied e).Sound := by
  unfold State.reportApplied
  (repeat' split) <;> first | exact h | exact h.noteChange _ | exact h.fillApplied _ _

theorem storeChunk (h : s.Sound) (r : FillRead) : (s.storeChunk r).Sound := by
  unfold State.storeChunk
  split
  · exact h
  · exact h.withSched (List.Sublist.refl _) h.sched.attempts

/-- Of the local port's own state, soundness reads only the windows of an open TAKE CHANGES. -/
theorem withPort (h : s.Sound) (p : Port)
    (hp : ∀ windows, p.cmd = .changesLatched windows → windows.Nodup := by intro _ hc; cases hc) :
    State.Sound { s with port := p } := { h with latched := hp }

theorem handBurst (h : s.Sound) (data : List Byte) (fresh discard : Bool) : (s.handBurst data fresh discard).Sound := by
  unfold State.handBurst
  (repeat' split) <;> first | exact h | exact h.withPort _

theorem openSelection (h : s.Sound) : s.openSelection.Sound := by
  unfold State.openSelection
  split
  · exact h.withPort _
  · exact h

theorem putBackChanges (h : s.Sound) {windows : List Nat} (hw : windows.Nodup) : (s.putBackChanges windows).Sound := by
  refine { h with report := ⟨h.report.outcomes, ?_⟩ }
  refine List.nodup_append.2 ⟨hw, h.report.changes.filter _, ?_⟩
  intro a ha b hb
  rintro rfl
  simp_all

theorem byteOut (h : s.Sound) : s.byteOut.Sound := by
  unfold State.byteOut
  (repeat' split) <;> first | exact h | exact h.withPort _

theorem requestSnapshot (h : s.Sound) (first : Word) (w o : Nat) : (s.requestSnapshot first w o).Sound := by
  have hp := h.withPort { s.port with cmd := .reading first, response := [] }
  refine State.Sound.arbitrate { hp with mirror := ⟨h.mirror.mem, h.mirror.inbound, ?_⟩ }
  rintro q hq
  obtain rfl := Option.some.inj hq
  simp

theorem beginRead (h : s.Sound) (first : Word) : (s.beginRead first).Sound := by
  unfold State.beginRead
  (repeat' split) <;> first | exact h.requestSnapshot _ _ _ | exact h.withPort _

theorem cutCommand (h : s.Sound) (shifted : Nat) : (s.cutCommand shifted).Sound := by
  unfold State.cutCommand
  split
  · exact h.dropSnapshot
  · rename_i hc
    split
    · exact h.withPort _ fun _ hc' => by simp [hc] at hc'
    · exact h
  · rename_i windows hc
    exact h.putBackChanges ((h.latched windows hc).sublist (List.drop_sublist _ _))
  all_goals exact h

theorem closePort (h : s.Sound) : s.closePort.Sound := h.withPort _

theorem writeByte (h : s.Sound) (b : Byte) : (s.writeByte b).Sound := by
  unfold State.writeByte
  (repeat' split)
  · exact h.withPort _
  · exact h.withPort _
  · exact h.withPort _
  · rename_i hp
    have placed := h.placeByte hp
    exact placed.withPort _ placed.latched
  · exact h.withPort _

theorem latchOutcome (h : s.Sound) : s.latchOutcome.Sound := by
  unfold State.latchOutcome
  split <;> exact h.withPort _

theorem removeOutcome (h : s.Sound) : s.removeOutcome.Sound :=
  { h.withPort { s.port with cmd := .complete } with
    report := ⟨by have := h.report.outcomes; simp only [State.removeOutcome, List.length_tail]; omega,
      h.report.changes⟩ }

theorem latchChanges (h : s.Sound) : s.latchChanges.Sound :=
  { h with
    report := ⟨h.report.outcomes, List.nodup_nil⟩
    latched := by rintro windows hc; cases hc; exact h.report.changes }

theorem showQueue (h : s.Sound) (w : Nat) : (s.showQueue w).Sound := by
  unfold State.showQueue; split <;> exact h.withPort _

theorem showEntry (h : s.Sound) (index : Nat) : (s.showEntry index).Sound := by
  unfold State.showEntry; split <;> exact h.withPort _

theorem finishWithdrawn (h : s.Sound) : s.finishWithdrawn.Sound := by
  unfold State.finishWithdrawn
  split
  · rename_i e rest _ he
    refine (h.applyEntry e ?_).releaseMemory
    have := h.mirror.inbound
    simp only [he, List.length_cons] at this
    omega
  · exact h.releaseMemory
  · exact h.zeroRanges.releaseMemory
  · exact h.releaseMemory
  · exact h
  · exact h

theorem keepIfWatched (h : s.Sound) (w : Nat) : (s.keepIfWatched w).Sound := by
  refine { h with report := ⟨h.report.outcomes, ?_⟩ }
  simp only [State.keepIfWatched]
  split
  · exact h.report.changes
  · exact h.report.changes.filter _

theorem hostLoad (h : s.Sound) (index : Nat) (loaded : Option Entry) : (s.hostLoad index loaded).1.Sound := by
  unfold State.hostLoad
  (repeat' split) <;> try exact h
  refine State.Sound.keepIfWatched (s := { s.finishWithdrawn with layout.table := s.layout.table.set index _ })
    { h.finishWithdrawn with table := ?_ } _
  simpa using h.table

theorem startMemory (h : s.Sound) : s.startMemory.Sound :=
  { h.finishWithdrawn with
    mirror := ⟨Memory.wf_keep h.finishWithdrawn.mirror.mem (ownedLocal s.layout.table), by simp [State.startMemory],
      h.finishWithdrawn.mirror.passes⟩ }

/-! ### The validated table -/

/-- How many of the first `n` windows are GUARDED. -/
def guardedBelow (table : List Entry) (n : Nat) : Nat :=
  ((List.range n).filter fun j => (table.getD j Entry.reset).isGuarded).length

end State.Sound

/-- A sound table has at most four GUARDED windows (R55). -/
theorem guardWindows_le {table : List Entry} (h : validate table = none) :
    (guardWindows table).length ≤ Config.guardLimit := by
  have pass : ∀ i, i < 16 → (table.getD i Entry.reset).isGuarded →
      ((List.range (i + 1)).filter fun j => (table.getD j Entry.reset).isGuarded).length ≠ 5 := by
    intro i hi hg h5
    unfold validate at h
    split at h
    · simp at h
    · have hc := List.findSome?_eq_none_iff.1 h i (by simpa using hi)
      have he : (table.getD i Entry.reset).enabled = true := by
        unfold Entry.isGuarded at hg; simp_all
      simp only [Option.map_eq_none_iff, checkEntry] at hc
      (repeat' split at hc) <;> simp_all
  have bound : ∀ n, n ≤ 16 →
      ((List.range n).filter fun j => (table.getD j Entry.reset).isGuarded).length ≤ 4 := by
    intro n
    induction n with
    | zero => simp
    | succ n ih =>
      intro hn
      have := ih (by omega)
      have hp := pass n (by omega)
      rw [List.range_succ, List.filter_append] at hp ⊢
      by_cases hg : (table.getD n Entry.reset).isGuarded
      · have := hp hg
        simp only [List.filter_cons, hg, if_true, List.filter_nil, List.length_append, List.length_singleton] at this ⊢
        omega
      · simp only [List.filter_cons, hg, List.filter_nil, List.append_nil, Bool.false_eq_true, if_false]
        exact this
  exact bound 16 (by omega)

namespace State.Sound

theorem startStation (h : s.Sound) (hv : validate s.layout.table = none) : s.startStation.Sound := by
  have hm := h.startMemory
  have hl : s.startMemory.startLine.Sound := { hm with objections := by simp [State.startLine], clean := by simp [State.startLine] }
  have ht : s.startMemory.startLine.startTable.Sound :=
    { hl with
      report := ⟨hl.report.outcomes, hl.report.changes.filter _⟩
      guards := by
        intro g hg
        simp only [State.startTable, freshGuards, List.mem_map] at hg
        obtain ⟨w, -, rfl⟩ := hg
        exact ⟨by simp, by simp⟩
      guardCount := by simpa [State.startTable, freshGuards] using guardWindows_le hv
      positions := by
        simp only [State.startTable, freshGuards, List.map_map, Function.comp_def, List.map_id']
        exact List.nodup_range.filter _
      holds := by
        intro _ g hg
        simp only [State.startTable, freshGuards, List.mem_map] at hg
        obtain ⟨w, -, rfl⟩ := hg
        rfl }
  have he := ht.clearControl.resetTurn.clearService.clearCopies.clearRoster
  refine State.Sound.moveTo (s := { s.startMemory.startLine.startTable.clearControl.resetTurn.clearService.clearCopies.clearRoster
    with pub.queue := [] }) (he.shrinkQueue (by simp)) _ _ fun _ => ?_
  intro g hg
  simp only [State.clearRoster_frame, State.clearCopies_frame, State.clearService_frame, State.resetTurn_frame,
    State.clearControl_frame, State.startTable, freshGuards, List.mem_map] at hg
  obtain ⟨w, -, rfl⟩ := hg
  rfl

theorem hostStart (h : s.Sound) : s.hostStart.Sound := by
  unfold State.hostStart
  (repeat' split)
  · exact h.withPort _
  · exact h.withPort _
  · exact (h.startStation (by assumption)).withPort _

theorem hostLeave (h : s.Sound) : s.hostLeave.1.Sound := by
  unfold State.hostLeave
  split
  · exact h
  · exact h.stop _
  · exact h.stop _
  · exact h.stop _
  · exact h.leaveGroup
  · exact h.leaveGroup
  · exact h

end State.Sound

end Sys2Proof.Machine
end

