-- ==== Sys2Proof/Laws/Units.lean ====
section
/-! SUPPORT. Equality of states unit by unit, what the operations at the end of an event leave unchanged inside the
units they touch, and what a post depends on. -/

namespace Sys2Proof.Machine

/-- States equal in every unit are equal. -/
theorem State.eq_of_units {s t : State} (h1 : s.pins = t.pins) (h2 : s.line = t.line) (h3 : s.rx = t.rx)
    (h4 : s.layout = t.layout) (h5 : s.mirror = t.mirror) (h6 : s.pub = t.pub) (h7 : s.sched = t.sched)
    (h8 : s.claims = t.claims) (h9 : s.roster = t.roster) (h10 : s.refresh = t.refresh) (h11 : s.ctl = t.ctl)
    (h12 : s.port = t.port) (h13 : s.report = t.report) (h14 : s.pending = t.pending) : s = t := by
  cases s; cases t; simp_all

@[simp] theorem State.arbitrate_inbound (s : State) : s.arbitrate.mirror.inbound = s.mirror.inbound := by
  unfold State.arbitrate State.grantApplication
  (repeat' split) <;> simp [State.grantSnapshot, State.grantFillRead, State.passSnapshot]

@[simp] theorem State.requestFill_inbound (s : State) : s.requestFill.mirror.inbound = s.mirror.inbound := by
  unfold State.requestFill; (repeat' split) <;> rfl

@[simp] theorem State.settleMemory_inbound (s : State) : s.settleMemory.mirror.inbound = s.mirror.inbound := by
  simp [State.settleMemory]

@[simp] theorem State.offer_inflight (s : State) (e : ControlEntry) : (s.offer e).sched.inflight = s.sched.inflight := by
  unfold State.offer; (repeat' split) <;> rfl

@[simp] theorem State.offer_chunk (s : State) (e : ControlEntry) : (s.offer e).sched.chunk = s.sched.chunk := by
  unfold State.offer; (repeat' split) <;> rfl

@[simp] theorem State.offer_turn (s : State) (e : ControlEntry) : (s.offer e).sched.turn = s.sched.turn := by
  unfold State.offer; (repeat' split) <;> rfl

@[simp] theorem State.offerDue_inflight (s : State) : s.offerDue.sched.inflight = s.sched.inflight :=
  foldl_keeps State.offer (fun s => s.sched.inflight) State.offer_inflight _ s

@[simp] theorem State.offerDue_chunk (s : State) : s.offerDue.sched.chunk = s.sched.chunk :=
  foldl_keeps State.offer (fun s => s.sched.chunk) State.offer_chunk _ s

@[simp] theorem State.offerDue_turn (s : State) : s.offerDue.sched.turn = s.sched.turn :=
  foldl_keeps State.offer (fun s => s.sched.turn) State.offer_turn _ s

/-- An offer keeps the entries of the control list in their places. -/
theorem State.offer_prefix (s : State) (e : ControlEntry) : s.sched.control <+: (s.offer e).sched.control := by
  unfold State.offer; (repeat' split) <;> simp

/-- The offers at the end of an event keep the entries of the control list in their places. -/
theorem State.offerDue_prefix (s : State) : s.sched.control <+: s.offerDue.sched.control := by
  unfold State.offerDue
  generalize s.dueOffers = es
  induction es generalizing s with
  | nil => exact List.prefix_rfl
  | cons e es ih => exact (s.offer_prefix e).trans (ih (s.offer e))

/-- A post depends on the reports alone. -/
theorem State.post_report {s t : State} (h : s.report = t.report) (o : OutcomeRecord) :
    (s.post o).report = (t.post o).report := by
  unfold State.post; rw [h]; split <;> simp

/-- Posting in order depends on the reports alone. -/
theorem State.postAll_report {s t : State} (h : s.report = t.report) (os : List OutcomeRecord) :
    (s.postAll os).report = (t.postAll os).report := by
  induction os generalizing s t with
  | nil => exact h
  | cons o os ih => exact ih (State.post_report h o)

theorem State.postAll_append (s : State) (os ps : List OutcomeRecord) :
    s.postAll (os ++ ps) = (s.postAll os).postAll ps := by simp [State.postAll]

/-! ### What a transition leaves of the group -/

@[simp] theorem State.moveTo_ctl (s : State) (state : StationState) (reason : Reason) :
    (s.moveTo state reason).ctl =
      { state := state, reason := reason, censusPending := decide (state = StationState.joining), answer := .stopped,
        foundingDue := false, abandonDue := false } := by
  simp [State.moveTo]

/-- Nothing of the group is held: no publication, no in-flight frame, and every claim queue is empty. -/
structure State.Forsaken (s : State) : Prop where
  pub : s.pub.queue = []
  inflight : s.sched.inflight = none
  queues : ∀ g ∈ s.claims, g.queue = []

theorem State.clearClaims_queue (s : State) : ∀ g ∈ s.clearClaims.claims, g.queue = [] := by
  intro g hg
  obtain ⟨g', -, rfl⟩ := List.mem_map.1 hg
  rfl

theorem State.forsake_forsaken (s : State) (abandon : AbandonReason) (loss : LossReason) :
    (s.forsake abandon loss).Forsaken := by
  refine ⟨?_, ?_, ?_⟩
  · simp [State.forsake, State.abandonQueue]
  · simp [State.forsake, State.clearService, State.emptyChunk, State.clearControl, State.resetTurn]
  · simpa [State.forsake] using State.clearClaims_queue _

theorem State.rejoin_forsaken (s : State) (reason : Reason) : (s.rejoin reason).Forsaken := by
  refine ⟨?_, ?_, ?_⟩
  · simp [State.rejoin, State.enterJoining, State.abandonQueue]
  · simp [State.rejoin, State.enterJoining, State.clearService, State.emptyChunk, State.clearControl, State.resetTurn]
  · simpa [State.rejoin, State.enterJoining] using State.clearClaims_queue _

@[simp] theorem State.clearServiceAtLeave_inflight (s : State) :
    s.clearServiceAtLeave.sched.inflight = s.sched.inflight := by
  unfold State.clearServiceAtLeave
  (repeat' split) <;> rfl

@[simp] theorem State.leaveControl_inflight (s : State) : s.leaveControl.sched.inflight = s.frameOnLine := by
  simp [State.leaveControl]

/-- LEAVE keeps the frame that is on the line in flight, and no other (R88, R90). -/
theorem State.leaveGroup_inflight (s : State) : s.leaveGroup.sched.inflight = s.frameOnLine := by
  simp [State.leaveGroup, State.dropHolds, State.frameOnLine]

/-! ### Timer expiries only offer -/

@[simp] theorem State.expireAnnounce_inflight (s : State) : s.expireAnnounce.sched.inflight = s.sched.inflight := by
  unfold State.expireAnnounce; split <;> simp

@[simp] theorem State.expireSilence_inflight (s : State) (n : Nat) :
    (s.expireSilence n).sched.inflight = s.sched.inflight := by
  unfold State.expireSilence; split <;> simp [State.setEntry]

@[simp] theorem State.expireLease_inflight (s : State) (w : Nat) :
    (s.expireLease w).sched.inflight = s.sched.inflight := by
  unfold State.expireLease; (repeat' split) <;> simp [State.setGuard]

@[simp] theorem State.tickLease_inflight (s : State) (w : Nat) : (s.tickLease w).sched.inflight = s.sched.inflight := by
  unfold State.tickLease; (repeat' split) <;> simp [State.setGuard]

@[simp] theorem State.expireFetch_inflight (s : State) (w : Nat) :
    (s.expireFetch w).sched.inflight = s.sched.inflight := by
  unfold State.expireFetch; split <;> simp

@[simp] theorem State.hostRefetch_inflight (s : State) (w : Nat) :
    (s.hostRefetch w).1.sched.inflight = s.sched.inflight := by
  unfold State.hostRefetch; (repeat' split) <;> simp [State.restartFill]

@[simp] theorem State.tickAnnounce_inflight (s : State) : s.tickAnnounce.sched.inflight = s.sched.inflight := by
  unfold State.tickAnnounce; split <;> simp

@[simp] theorem State.tickSilence_inflight (s : State) (n : Nat) :
    (s.tickSilence n).sched.inflight = s.sched.inflight := by
  unfold State.tickSilence; (repeat' split) <;> simp [State.setEntry]

@[simp] theorem State.tickFetch_inflight (s : State) (w : Nat) : (s.tickFetch w).sched.inflight = s.sched.inflight := by
  unfold State.tickFetch; split <;> simp

end Sys2Proof.Machine
end

