-- ==== Sys2Proof/Laws/Holds.lean ====
section
/-! SUPPORT. Every shared operation keeps the holds in agreement with the claim queues (R103): one lemma an operation,
named so that they chain as the operations do. -/

namespace Sys2Proof.Machine

variable {s t : State}

/-! ### What agreement reads -/

/-- The part of the state that `State.HoldsAgree` reads. -/
def State.holdsView (s : State) :=
  (s.pins, s.port.selected, s.ctl.state, s.ctl.foundingDue, s.claims, s.pub.queue, s.sched.inflight)

theorem State.holdsView_eq {s t : State} (h : t.holdsView = s.holdsView) :
    t.pins = s.pins ∧ t.port.selected = s.port.selected ∧ t.ctl.state = s.ctl.state
      ∧ t.ctl.foundingDue = s.ctl.foundingDue ∧ t.claims = s.claims ∧ t.pub.queue = s.pub.queue
      ∧ t.sched.inflight = s.sched.inflight := by
  simpa [State.holdsView] using h

/-- What a frame is carried by does not show in the other units. -/
theorem State.Carries.of_eq {g : InFlight} (h : s.Carries g) (hp : t.pins = s.pins) (hq : t.pub.queue = s.pub.queue) :
    t.Carries g :=
  ⟨by rw [State.station, hp]; exact h.sender, by rw [hq]; exact h.record, h.others⟩

namespace State.HoldsAgree

theorem of_view (h : s.HoldsAgree) (hv : t.holdsView = s.holdsView) : t.HoldsAgree := by
  obtain ⟨h1, h2, h3, h4, h5, h6, h7⟩ := State.holdsView_eq hv
  have hn : t.station = s.station := by simp [State.station, h1]
  constructor
  · rw [h1, h3, h2]; exact h.reset
  · rw [hn]; exact h.number
  · rw [h4, h3]; exact h.founding
  · rw [h3, h5, hn]; exact h.heads
  · rw [h3, h5, hn]; exact h.outside
  · rw [h3, h6]; exact h.quiet
  · rw [h3, h6]; exact h.claims
  · rw [h3, h6]; exact h.windows
  · rw [h3, h6, h5, hn]; exact h.unsent
  · rw [h3, h7]
    intro hs g hg
    exact (h.inflight hs g hg).of_eq h1 h6

/-- Out of STOPPED, RST# is released (R148). -/
theorem released (h : s.HoldsAgree) (hr : s.ctl.state ≠ .stopped) : s.pins.rstAsserted = false := by
  cases hrst : s.pins.rstAsserted with
  | false => rfl
  | true => exact absurd (h.reset hrst).1 hr

/-- A station out of reset that holds nothing of the group agrees. -/
theorem of_blank (h : s.HoldsAgree) (hr : s.pins.rstAsserted = false) (hp : t.pins = s.pins) (ha : t.ctl.state ≠ .active)
    (hf : t.ctl.foundingDue = false) (hc : ∀ g ∈ t.claims, g.queue = []) (hq : t.pub.queue = [])
    (hi : t.sched.inflight = none) : t.HoldsAgree where
  reset hrst := by rw [hp, hr] at hrst; cases hrst
  number := by rw [State.station, hp]; exact h.number
  founding hd := by rw [hf] at hd; cases hd
  heads hs := absurd hs ha
  outside _ g hg := by simp [hc g hg]
  quiet _ _ _ := hq
  claims _ := by simp [hq]
  windows _ := by simp [hq]
  unsent _ := by simp [hq]
  inflight _ := by simp [hi]

/-- A stopped station agrees, whatever it holds. -/
theorem of_stopped (h : s.HoldsAgree) (hp : t.pins = s.pins) (hsel : t.port.selected = s.port.selected)
    (hs : t.ctl.state = .stopped) (hf : t.ctl.foundingDue = false) : t.HoldsAgree where
  reset hrst := ⟨hs, by rw [hsel]; exact (h.reset (hp ▸ hrst)).2⟩
  number := by rw [State.station, hp]; exact h.number
  founding hd := by rw [hf] at hd; cases hd
  heads ha := by rw [hs] at ha; cases ha
  outside ho := by rw [hs] at ho; rcases ho with ho | ho <;> cases ho
  quiet hn := absurd hs hn
  claims hn := absurd hs hn
  windows hn := absurd hs hn
  unsent hn := absurd hs hn
  inflight hn := absurd hs hn

/-! ### Operations that leave the view alone -/

theorem post (h : s.HoldsAgree) (o : OutcomeRecord) : (s.post o).HoldsAgree := h.of_view (by simp [holdsView])

theorem postAll (h : s.HoldsAgree) (os : List OutcomeRecord) : (s.postAll os).HoldsAgree :=
  h.of_view (by simp [holdsView])

theorem offerDue (h : s.HoldsAgree) : s.offerDue.HoldsAgree := h.of_view (by simp [holdsView])

theorem settleMemory (h : s.HoldsAgree) : s.settleMemory.HoldsAgree := h.of_view (by simp [holdsView])

theorem arbitrate (h : s.HoldsAgree) : s.arbitrate.HoldsAgree := h.of_view (by simp [holdsView])

theorem emptyChunk (h : s.HoldsAgree) : s.emptyChunk.HoldsAgree := h.of_view (by simp [holdsView, State.emptyChunk, State.discardFillRead])

theorem enqueue (h : s.HoldsAgree) (e : Inbound) : (s.enqueue e).HoldsAgree :=
  h.of_view (by unfold State.enqueue; split <;> simp [holdsView, State.spoilChunk])

/-- The memory, the roster, the refresh unit, the reports, the line and the receiver play no part. -/
theorem of_units (h : s.HoldsAgree) (h1 : t.pins = s.pins) (h2 : t.port = s.port) (h3 : t.ctl = s.ctl)
    (h4 : t.claims = s.claims) (h5 : t.pub = s.pub) (h6 : t.sched = s.sched) : t.HoldsAgree :=
  h.of_view (by simp [holdsView, h1, h2, h3, h4, h5, h6])

/-! ### Claim records -/

/-- A change of the claim records that keeps the windows agrees when it keeps R103 in ACTIVE, and adds this station to no
queue but of windows without an unselected CLAIM record, and to none before ACTIVE. -/
theorem mapClaims (h : s.HoldsAgree) (f : Guard → Guard) (hw : ∀ g, (f g).window = g.window)
    (hh : s.ctl.state = .active → ∀ g ∈ s.claims, ((f g).hold = .held ∨ (f g).hold = .expiring
      ↔ (f g).queue.head? = some s.station))
    (hq : ∀ g ∈ s.claims, s.station ∈ (f g).queue → s.station ∈ g.queue
      ∨ (s.ctl.state ≠ .listening ∧ s.ctl.state ≠ .joining
        ∧ (s.ctl.state ≠ .stopped → ∀ r ∈ s.pub.queue, r.kind = .claim → r.selected = false → r.window ≠ g.window))) :
    State.HoldsAgree { s with claims := s.claims.map f } :=
  { h with
    heads := by
      intro ha g hg
      obtain ⟨g', hg', rfl⟩ := List.mem_map.1 hg
      exact hh ha g' hg'
    outside := by
      intro ho g hg
      obtain ⟨g', hg', rfl⟩ := List.mem_map.1 hg
      intro hm
      rcases hq g' hg' hm with hm | hm
      · exact h.outside ho g' hg' hm
      · rcases ho with ho | ho
        · exact hm.1 ho
        · exact hm.2.1 ho
    unsent := by
      intro hs r hr hk hsel g hg hwin hm
      obtain ⟨g', hg', rfl⟩ := List.mem_map.1 hg
      rw [hw] at hwin
      rcases hq g' hg' hm with hm | hm
      · exact h.unsent hs r hr hk hsel g' hg' hwin hm
      · exact hm.2.2 hs r hr hk hsel hwin.symm
    inflight := fun hs g hg => (h.inflight hs g hg).of_eq rfl rfl }

/-- A change of hold, tag and lease that keeps R103 in ACTIVE. -/
theorem mapHolds (h : s.HoldsAgree) (f : Guard → Guard) (hw : ∀ g, (f g).window = g.window)
    (hq : ∀ g, (f g).queue = g.queue)
    (hh : s.ctl.state = .active → ∀ g ∈ s.claims, (g.hold = .held ∨ g.hold = .expiring ↔ g.queue.head? = some s.station) →
      ((f g).hold = .held ∨ (f g).hold = .expiring ↔ g.queue.head? = some s.station)) :
    State.HoldsAgree { s with claims := s.claims.map f } :=
  h.mapClaims f hw (fun ha g hg => by rw [hq]; exact hh ha g hg (h.heads ha g hg))
    fun g _ hm => .inl (by rw [hq] at hm; exact hm)

theorem setHold (h : s.HoldsAgree) (w : Nat) (f : Guard → Guard) (hw : ∀ g, (f g).window = g.window)
    (hq : ∀ g, (f g).queue = g.queue)
    (hh : s.ctl.state = .active → ∀ g ∈ s.claims, g.window = w →
      (g.hold = .held ∨ g.hold = .expiring ↔ g.queue.head? = some s.station) →
      ((f g).hold = .held ∨ (f g).hold = .expiring ↔ g.queue.head? = some s.station)) : (s.setGuard w f).HoldsAgree := by
  refine h.mapHolds _ (fun g => ?_) (fun g => ?_) fun ha g hg hi => ?_
  · split
    · exact hw g
    · rfl
  · split
    · exact hq g
    · rfl
  · split
    · exact hh ha g hg ‹_› hi
    · exact hi

/-- The head of a queue after a removal of another station. -/
theorem head_erase_of_head {l : List Nat} {a b : Nat} (hb : b ≠ a) (h : l.head? = some a) : (l.erase b).head? = some a := by
  cases l with
  | nil => cases h
  | cons x l =>
    obtain rfl : x = a := by simpa using h
    rw [List.erase_cons_tail (by simpa using fun hc => hb hc.symm)]
    rfl

/-- A removal takes the station from the queue and nothing else. -/
theorem removeFromGuard_queue (s : State) (st : Nat) (g : Guard) :
    (s.removeFromGuard st g).window = g.window ∧ (s.removeFromGuard st g).queue = g.queue.erase st := by
  unfold State.removeFromGuard
  split <;> exact ⟨rfl, rfl⟩

/-- The removal of another station keeps R103 in ACTIVE: the hold follows the promotion (R94). -/
theorem removeFromGuard_heads {g : Guard} (ha : s.isActive = true) {st : Nat} (hst : st ≠ s.station)
    (hi : g.hold = .held ∨ g.hold = .expiring ↔ g.queue.head? = some s.station) :
    (s.removeFromGuard st g).hold = .held ∨ (s.removeFromGuard st g).hold = .expiring
      ↔ (s.removeFromGuard st g).queue.head? = some s.station := by
  rw [(removeFromGuard_queue s st g).2]
  unfold State.removeFromGuard
  split
  · rename_i hp
    simp only [Guard.promotes, Guard.without, Bool.and_eq_true, beq_iff_eq] at hp
    simpa [Guard.without] using hp.2.2
  · rename_i hp
    simp only [ha, Bool.true_and, Guard.promotes, Guard.without, Bool.and_eq_true, bne_iff_ne, beq_iff_eq, not_and] at hp
    simp only [Guard.without]
    rw [hi]
    exact ⟨head_erase_of_head hst, fun hh => by_contra fun hc => hp hc hh⟩

/-- A removal followed by a change of holds agrees when it keeps R103 in ACTIVE. -/
theorem removeThen (h : s.HoldsAgree) (st : Nat) (which : Guard → Bool) (before after : Guard → Guard)
    (hb : ∀ g, (before g).window = g.window ∧ (before g).queue = g.queue)
    (hf : ∀ g, (after g).window = g.window ∧ (after g).queue = g.queue)
    (hh : s.ctl.state = .active → ∀ g ∈ s.claims,
      let gone := after (if which (before g) then s.removeFromGuard st (before g) else before g)
      gone.hold = .held ∨ gone.hold = .expiring ↔ gone.queue.head? = some s.station) :
    State.HoldsAgree { s with
      claims := s.claims.map fun g => after (if which (before g) then s.removeFromGuard st (before g) else before g) } := by
  refine h.mapClaims _ (fun g => ?_) hh fun g hg hm => .inl ?_
  · rw [(hf _).1]
    split
    · rw [(removeFromGuard_queue _ _ _).1, (hb g).1]
    · exact (hb g).1
  · rw [(hf _).2] at hm
    split at hm
    · rw [(removeFromGuard_queue _ _ _).2, (hb g).2] at hm
      exact List.mem_of_mem_erase hm
    · rwa [(hb g).2] at hm

/-- The removal of another station, or out of ACTIVE of any. -/
theorem removeClaims (h : s.HoldsAgree) {st : Nat} (hst : s.ctl.state = .active → st ≠ s.station)
    (which : Guard → Bool) : (s.removeClaims st which).HoldsAgree := by
  refine State.HoldsAgree.postAll (h.removeThen st which id id (fun _ => ⟨rfl, rfl⟩) (fun _ => ⟨rfl, rfl⟩)
    fun ha g hg => ?_) _
  dsimp only [id]
  split
  · exact removeFromGuard_heads (by simp [State.isActive, ha]) (hst ha) (h.heads ha g hg)
  · exact h.heads ha g hg

theorem removeAllClaims (h : s.HoldsAgree) {st : Nat} (hst : s.ctl.state = .active → st ≠ s.station) :
    (s.removeAllClaims st).HoldsAgree := h.removeClaims hst _

/-- A record in a claim list whose window is that of its head is the head. -/
theorem not_in_rest (h : s.HoldsAgree) (hs : s.ctl.state ≠ .stopped) {r : PubRecord} {rest : List PubRecord}
    (hq : s.pub.queue = r :: rest) (hk : r.kind = .claim) {x : PubRecord} (hx : x ∈ rest) (hxk : x.kind = .claim) :
    x.window ≠ r.window := by
  have hc := h.claims hs
  rw [hq, List.filter_cons_of_pos (by simp [hk]), List.map_cons, List.nodup_cons] at hc
  intro hw
  exact hc.1 (hw ▸ List.mem_map.2 ⟨x, List.mem_filter.2 ⟨hx, by simp [hxk]⟩, rfl⟩)

/-- This station's own CLAIM is that of the selected head record. -/
def OwnClaim (s : State) (w : Nat) : Prop :=
  ∃ r rest, s.pub.queue = r :: rest ∧ r.kind = .claim ∧ r.window = w ∧ r.selected = true

theorem acceptClaim (h : s.HoldsAgree) (hs : s.Sound) {sender : Nat} {sent : Bool} {w : Nat}
    (ho : sender = s.station ↔ sent = true) (hown : sent = true → OwnClaim s w) :
    (s.acceptClaim sender sent w).HoldsAgree := by
  unfold State.acceptClaim
  split
  · exact h
  rename_i g hg
  dsimp only
  have only : ∀ g' ∈ s.claims, g'.window = w → g' = g := fun g' hm hw => hs.guardOf_unique hg hm hw
  -- what a CLAIM does to the queue that the claim is for
  have joins : ∀ g' : Guard, s.station ∈ (g'.claimed sender (s.claimCase sender g)).queue →
      s.station ∈ g'.queue ∨ sent = true := by
    intro g' hm
    unfold Guard.claimed at hm
    split at hm
    · simp only [List.mem_append, List.mem_singleton] at hm
      exact hm.imp id fun hc => ho.1 hc.symm
    all_goals exact .inl hm
  have own : sent = true → s.ctl.state ≠ .listening ∧ s.ctl.state ≠ .joining
      ∧ (s.ctl.state ≠ .stopped → ∀ r ∈ s.pub.queue, r.kind = .claim → r.selected = false → r.window ≠ w) := by
    intro hsent
    obtain ⟨r, rest, hq, hk, hw, hsel⟩ := hown hsent
    refine ⟨fun hl => ?_, fun hl => ?_, fun hr x hx hxk hxs => ?_⟩
    · have := h.quiet (by simp [hl]) (by simp [hl]) (by simp [hl]); simp [hq] at this
    · have := h.quiet (by simp [hl]) (by simp [hl]) (by simp [hl]); simp [hq] at this
    · rw [hq] at hx
      rcases List.mem_cons.1 hx with rfl | hx
      · rw [hsel] at hxs; cases hxs
      · rw [← hw]; exact h.not_in_rest hr hq hk hx hxk
  have wins : ∀ (c : ClaimCase) (g' : Guard), (g'.claimed sender c).window = g'.window := by
    intro c g'; unfold Guard.claimed; split <;> rfl
  have tail : ∀ (f : Guard → Guard), (∀ g', (f g').queue = g'.queue) → ∀ g' ∈ s.claims,
      s.station ∈ (if g'.window = w then f (g'.claimed sender (s.claimCase sender g)) else g').queue →
      s.station ∈ g'.queue ∨ (s.ctl.state ≠ .listening ∧ s.ctl.state ≠ .joining
        ∧ (s.ctl.state ≠ .stopped → ∀ r ∈ s.pub.queue, r.kind = .claim → r.selected = false → r.window ≠ g'.window)) := by
    intro f hf g' _ hm
    split at hm
    · rename_i hw
      rw [hf] at hm
      rcases joins g' hm with hm | hsent
      · exact .inl hm
      · right; rw [hw]; exact own hsent
    · exact .inl hm
  cases hsent : sent with
  | false =>
    simp only [Bool.false_eq_true, if_false]
    have hne : sender ≠ s.station := fun hc => by rw [ho.1 hc] at hsent; cases hsent
    refine h.mapClaims _ (fun g' => ?_) (fun ha g' hm => ?_) (tail id fun _ => rfl)
    · split
      · exact wins _ _
      · rfl
    · have hi := h.heads ha g' hm
      split
      · unfold Guard.claimed
        split
        · show g'.hold = .held ∨ g'.hold = .expiring ↔ (g'.queue ++ [sender]).head? = some s.station
          rw [hi]
          cases g'.queue with
          | nil => simp [hne]
          | cons a l => simp
        all_goals exact hi
      · exact hi
  | true =>
    simp only [if_true]
    have hme : sender = s.station := ho.2 hsent
    refine State.HoldsAgree.postAll ?_ _
    by_cases ha : s.ctl.state = .active
    · rw [if_pos (by simp [State.isActive, ha])]
      let settled (g' : Guard) : Guard :=
        if g'.window = w then
          s.heldAfterClaim s.inflightTag (s.claimCase sender g) (g'.claimed sender (s.claimCase sender g))
        else g'
      refine State.HoldsAgree.of_view (s := { s with claims := s.claims.map settled }) ?_ ?_
      · refine h.mapClaims settled (fun g' => ?_) (fun _ g' hm => ?_) (tail _ fun g' => ?_)
        · dsimp only [settled]
          split
          · have := wins (s.claimCase sender g) g'
            unfold State.heldAfterClaim; split <;> exact this
          · rfl
        · have hi := h.heads ha g' hm
          dsimp only [settled]
          split
          · rename_i hw
            obtain rfl := only g' hm hw
            have hcase : s.claimCase sender g' = s.claimCase s.station g' := by rw [hme]
            rw [hcase, hme]
            unfold State.claimCase
            split
            · simpa [Guard.claimed, State.heldAfterClaim] using hi
            · split
              · rename_i hin
                cases hq : g'.queue with
                | nil => simp [hq] at hin
                | cons a l =>
                  by_cases hah : a = s.station
                  · subst hah
                    simp only [List.idxOf_cons_self, Guard.claimed, State.heldAfterClaim, hq, List.head?_cons, iff_true]
                    by_cases hx : g'.hold = .expiring <;> simp [hx]
                  · rw [List.idxOf_cons_ne _ (by simpa using hah)]
                    simp [Guard.claimed, State.heldAfterClaim, hq, hah]
              · rename_i hin
                have hin : s.station ∉ g'.queue := by simpa using hin
                have hhead : g'.queue.head? ≠ some s.station := fun hc => hin (List.mem_of_mem_head? hc)
                split
                · simp [Guard.claimed, State.heldAfterClaim, hhead]
                · cases hq : g'.queue with
                  | nil => simp [Guard.claimed, State.heldAfterClaim, hq]
                  | cons a l =>
                    rw [hq] at hhead
                    simpa [Guard.claimed, State.heldAfterClaim, hq] using hhead
          · exact hi
        · unfold State.heldAfterClaim; split <;> rfl
      · simp only [holdsView, State.setGuard, List.map_map, Function.comp_def]
        congr 6
        funext g'
        by_cases hw : g'.window = w <;> simp [settled, hw, wins]
    · rw [if_neg (by simpa [State.isActive] using ha)]
      refine h.mapClaims _ (fun g' => ?_) (fun hc => absurd hc ha) (tail id fun _ => rfl)
      split
      · exact wins _ _
      · rfl

theorem acceptRelease (h : s.HoldsAgree) (hs : s.Sound) {sender : Nat} {sent : Bool} {w : Nat}
    (ho : sender = s.station ↔ sent = true) : (s.acceptRelease sender sent w).HoldsAgree := by
  unfold State.acceptRelease
  dsimp only
  split
  · rename_i hsent
    refine State.HoldsAgree.of_view (h.removeThen sender (·.window == w) id
      (fun g => if g.window = w then g.released else g) (fun _ => ⟨rfl, rfl⟩) (fun g => by split <;> simp)
      fun ha g hg => ?_) (by simp [holdsView, State.removeClaims, State.setGuard, Function.comp_def])
    by_cases hw : g.window = w
    · -- this station has left the queue of the window
      have hout : s.station ∉ g.queue.erase sender := by
        rw [ho.2 hsent]; exact List.Nodup.not_mem_erase (hs.guards g hg).distinct
      have hq := removeFromGuard_queue s sender g
      simp only [id, hw, beq_self_eq_true, if_true, hq.1, Guard.released_frame, hq.2, or_self, false_iff]
      exact fun hc => hout (List.mem_of_mem_head? hc)
    · simpa [hw] using h.heads ha g hg
  · rename_i hsent
    exact h.removeClaims (fun _ hc => hsent (ho.1 hc)) _

theorem expireLease (h : s.HoldsAgree) (hs : s.Sound) (w : Nat) : (s.expireLease w).HoldsAgree := by
  unfold State.expireLease
  split
  · exact h
  · rename_i g hg
    split
    · rename_i hc
      refine State.HoldsAgree.offerDue (State.HoldsAgree.post (h.setHold w
        (fun g => { g with hold := .expiring, lease := .runOut }) (fun _ => rfl) (fun _ => rfl) fun _ g' hm hw hi => ?_) _)
      rw [hs.guardOf_unique hg hm hw] at hi ⊢
      simpa [hc.1] using hi
    · exact h

theorem tickLease (h : s.HoldsAgree) (hs : s.Sound) (w : Nat) : (s.tickLease w).HoldsAgree := by
  unfold State.tickLease
  (repeat' split)
  · exact h
  · exact h.expireLease hs w
  · exact h.setHold w _ (fun _ => rfl) (fun _ => rfl) fun _ _ _ _ hi => hi

/-! ### Publications -/

/-- A part of the publication queue agrees when the in-flight frame's record stays at its head. -/
theorem shrinkQueue (h : s.HoldsAgree) {q : List PubRecord} (hq : q.Sublist s.pub.queue)
    (hh : ∀ g, s.sched.inflight = some g → g.source = .publication → q.head? = s.pub.queue.head?) :
    State.HoldsAgree { s with pub.queue := q } :=
  { h with
    quiet := fun h1 h2 h3 => List.sublist_nil.1 (h.quiet h1 h2 h3 ▸ hq)
    claims := fun hn => (h.claims hn).sublist ((hq.filter _).map _)
    windows := fun hn r hr => h.windows hn r (hq.subset hr)
    unsent := fun hn r hr => h.unsent hn r (hq.subset hr)
    inflight := by
      intro hn g hg
      have hc := h.inflight hn g hg
      refine ⟨hc.sender, fun hp => ?_, hc.others⟩
      obtain ⟨r, rest, hr, hs, hb⟩ := hc.record hp
      have := hh g hg hp
      rw [hr] at this
      obtain ⟨rest', hr'⟩ : ∃ rest', q = r :: rest' := by
        cases q with
        | nil => cases this
        | cons a q => exact ⟨q, by simpa using this⟩
      exact ⟨r, rest', hr', hs, hb⟩ }

/-- With no frame in flight any part of the queue agrees. -/
theorem dropFlight (h : s.HoldsAgree) {q : List PubRecord} (hq : q.Sublist s.pub.queue) :
    State.HoldsAgree { s with pub.queue := q, sched.inflight := none } :=
  State.HoldsAgree.shrinkQueue (s := { s with sched.inflight := none })
    { h with inflight := by intro _ g hg; cases hg } hq (by intro g hg; cases hg)

/-- A queue that grows at its end by a record that is no CLAIM agrees. -/
theorem appendPlain (h : s.HoldsAgree) (ha : s.ctl.state = .active) {q : List PubRecord} {r : PubRecord}
    (hk : r.kind ≠ .claim) (hq : q <+: s.pub.queue)
    (hl : ∀ x ∈ s.pub.queue, x.selected = true → x ∈ q) {t : State}
    (hv : t.holdsView = State.holdsView { s with pub.queue := q ++ [r] }) : t.HoldsAgree := by
  refine State.HoldsAgree.of_view (s := { s with pub.queue := q ++ [r] }) ?_ hv
  have mem : ∀ x ∈ q ++ [r], x.kind = .claim → x ∈ s.pub.queue := by
    intro x hx hxk
    simp only [List.mem_append, List.mem_singleton] at hx
    rcases hx with hx | rfl
    · exact hq.subset hx
    · exact absurd hxk hk
  exact { h with
    quiet := fun _ hn => absurd ha hn
    claims := fun hn => by
      have : (q ++ [r]).filter (·.kind == .claim) = q.filter (·.kind == .claim) := by
        simp [List.filter_append, hk]
      rw [this]
      exact (h.claims hn).sublist ((hq.sublist.filter _).map _)
    windows := fun hn x hx hxk => h.windows hn x (mem x hx hxk) hxk
    unsent := fun hn x hx hxk => h.unsent hn x (mem x hx hxk) hxk
    inflight := by
      intro hn g hg
      have hc := h.inflight hn g hg
      refine ⟨hc.sender, fun hp => ?_, hc.others⟩
      obtain ⟨x, rest, hx, hs, hb⟩ := hc.record hp
      have hm := hl x (by simp [hx]) hs
      obtain ⟨rest', hr'⟩ : ∃ rest', q = x :: rest' := by
        obtain ⟨u, hu⟩ := hq
        rw [hx] at hu
        cases q with
        | nil => cases hm
        | cons a q => simp only [List.cons_append, List.cons.injEq] at hu; exact ⟨q, by rw [hu.1]⟩
      exact ⟨x, rest' ++ [r], by simp [hr'], hs, hb⟩ }

theorem makePlain (h : s.HoldsAgree) (ha : s.ctl.state = .active) {kind : PubKind} (hk : kind ≠ .claim) (w : Nat) :
    (s.makeRecord kind w).HoldsAgree :=
  h.appendPlain ha (r := ⟨kind, s.pub.tagCounter, w, false⟩) hk (List.prefix_refl _) (fun _ hx _ => hx) rfl

theorem placeByte (h : s.HoldsAgree) (ha : s.ctl.state = .active) {w o : Nat} {b : Byte} (ht : s.placeByte w o b = some t) :
    t.HoldsAgree := by
  unfold State.placeByte at ht
  split at ht
  · rename_i r hr
    obtain rfl := Option.some.inj ht
    simp only [State.joinedTail, Option.bind_eq_some_iff] at hr
    obtain ⟨last, hlast, hj⟩ := hr
    have hsel : last.selected = false ∧ r.kind ≠ .claim := by
      unfold PubRecord.join at hj
      split at hj
      · split at hj
        · rename_i hc
          obtain rfl := Option.some.inj hj
          simp only [Bool.and_eq_true, Bool.not_eq_true'] at hc
          exact ⟨hc.1.1.1, by simp⟩
        · cases hj
      · cases hj
      · cases hj
    have hsplit : s.pub.queue = s.pub.queue.dropLast ++ [last] := by
      rw [List.getLast?_eq_some_iff] at hlast
      obtain ⟨l, hl⟩ := hlast
      simp [hl]
    refine h.appendPlain ha hsel.2 (List.dropLast_prefix _) (fun x hx hxs => ?_) rfl
    rw [hsplit] at hx
    simp only [List.mem_append, List.mem_singleton] at hx
    rcases hx with hx | rfl
    · exact hx
    · rw [hsel.1] at hxs; cases hxs
  · split at ht
    · obtain rfl := Option.some.inj ht
      exact h.makePlain ha (by simp) _
    · cases ht

/-- The window a claim command names is one of the sixteen. -/
theorem namesGuarded_lt (hs : s.Sound) {w : Nat} (hg : s.namesGuarded w = true) : w < Config.windows := by
  by_contra hw
  have : s.layout.table.length ≤ w := by rw [hs.table]; omega
  simp [State.namesGuarded, State.entry, Entry.isGuarded, this, Entry.reset] at hg

theorem hostClaim (h : s.HoldsAgree) (hs : s.Sound) (w : Nat) : (s.hostClaim w).1.HoldsAgree := by
  unfold State.hostClaim
  split
  · exact h
  rename_i ha
  have ha : s.ctl.state = .active := by simpa [State.isActive] using ha
  split
  · exact h
  rename_i hg
  split
  · exact h
  rename_i hin
  split
  · exact h
  have hlt := namesGuarded_lt hs (w := w) (by simpa using hg)
  simp only [Bool.or_eq_true, not_or, Bool.not_eq_true] at hin
  have hout : ∀ g ∈ s.claims, g.window = w → s.station ∉ g.queue := by
    intro g hg hw hm
    have hf : s.guardOf w = some g := by
      cases hx : s.guardOf w with
      | none => simpa using List.find?_eq_none.1 hx g hg (by simp [hw])
      | some g' => rw [hs.guardOf_unique hx hg hw]
    simp [State.inQueue, State.claimQueue, hf, hm] at hin
  have hno : ∀ r ∈ s.pub.queue, r.kind = .claim → r.window ≠ w := by
    intro r hr hk hw
    have := hin.2
    simp only [holdsClaim, List.any_eq_false, Bool.and_eq_true, beq_iff_eq, not_and] at this
    exact this r hr hk hw
  have hm : State.HoldsAgree (s.makeRecord .claim w) :=
    { h with
      quiet := fun _ hn => absurd ha hn
      claims := fun hn => by
        have hc := h.claims hn
        simp only [State.makeRecord, List.filter_append, List.map_append]
        refine List.nodup_append.2 ⟨hc, by simp, ?_⟩
        rintro a hma b hb rfl
        obtain ⟨r, hr, rfl⟩ := List.mem_map.1 hma
        obtain ⟨hr, hk⟩ := List.mem_filter.1 hr
        simp only [List.filter_cons, beq_self_eq_true, if_true, List.filter_nil, List.map_cons, List.map_nil,
          List.mem_singleton] at hb
        exact hno r hr (by simpa using hk) hb
      windows := fun hn r hr hk => by
        simp only [State.makeRecord, List.mem_append, List.mem_singleton] at hr
        rcases hr with hr | rfl
        · exact h.windows hn r hr hk
        · exact hlt
      unsent := fun hn r hr hk hsel g hg hw => by
        simp only [State.makeRecord, List.mem_append, List.mem_singleton] at hr
        rcases hr with hr | rfl
        · exact h.unsent hn r hr hk hsel g hg hw
        · exact hout g hg hw
      inflight := by
        intro hn g hg
        have hc := h.inflight hn g hg
        refine ⟨hc.sender, fun hp => ?_, hc.others⟩
        obtain ⟨r, rest, hr, hs, hb⟩ := hc.record hp
        exact ⟨r, rest ++ [_], by simp only [State.makeRecord, hr]; rfl, hs, hb⟩ }
  refine hm.setHold w (fun g => { g with hold := .claiming }) (fun _ => rfl) (fun _ => rfl) fun _ g hg hw _ => ?_
  simp only [reduceCtorEq, or_self, false_iff]
  exact fun hc => hout g hg hw (List.mem_of_mem_head? hc)

theorem cancelClaim (h : s.HoldsAgree) (hr : s.ctl.state ≠ .stopped) {w : Nat} {r : PubRecord}
    (hu : s.unselectedClaim w = some r) : (s.cancelClaim r).HoldsAgree := by
  have hm := List.mem_of_find?_eq_some hu
  have hp := List.find?_some hu
  simp only [Bool.and_eq_true, beq_iff_eq, Bool.not_eq_true'] at hp
  have hq : State.HoldsAgree { s with pub.queue := s.pub.queue.erase r } := by
    refine h.shrinkQueue List.erase_sublist fun g hg hsrc => ?_
    obtain ⟨x, rest, hx, hsel, -⟩ := (h.inflight hr g hg).record hsrc
    have hne : x ≠ r := by rintro rfl; rw [hp.2] at hsel; cases hsel
    rw [hx, List.erase_cons_tail (by simpa using hne)]
    rfl
  refine (hq.post _).setHold r.window (fun g => { g with hold := .unheld }) (fun _ => rfl) (fun _ => rfl)
    fun _ g hg hw _ => ?_
  simp only [reduceCtorEq, or_self, false_iff]
  intro hc
  exact h.unsent hr r hm hp.1.1 hp.2 g (by simpa using hg) hw (by simpa [State.station] using List.mem_of_mem_head? hc)

theorem hostRelease (h : s.HoldsAgree) (w : Nat) : (s.hostRelease w).1.HoldsAgree := by
  unfold State.hostRelease
  split
  · exact h
  rename_i ha
  have ha : s.ctl.state = .active := by simpa [State.isActive] using ha
  split
  · exact h
  split
  · exact h.cancelClaim (by simp [ha]) (by assumption)
  · (repeat' split)
    · exact h
    · exact h
    · exact h.makePlain ha (by simp) _

/-! ### The in-flight frame -/

theorem leaveSource (h : s.HoldsAgree) (f : InFlight) : (s.leaveSource f).HoldsAgree := by
  unfold State.leaveSource
  split
  · exact h.dropFlight (q := s.pub.queue.tail) (List.tail_sublist _)
  · exact (h.dropFlight (q := s.pub.queue) (List.Sublist.refl _)).of_view rfl
  · exact (h.dropFlight (q := s.pub.queue) (List.Sublist.refl _)).of_view rfl

theorem abandonWith (h : s.HoldsAgree) (f : InFlight) (reason : AbandonReason) : (s.abandonWith f reason).HoldsAgree := by
  unfold State.abandonWith
  split
  · exact (h.leaveSource f).postAll _
  · exact h.leaveSource f
  · exact h.leaveSource f

/-- The frame in flight may be another that this station carries. -/
theorem putFlight (h : s.HoldsAgree) {g : InFlight} (hg : s.ctl.state ≠ .stopped → s.Carries g) {t : State}
    (hv : t.holdsView = State.holdsView { s with sched.inflight := some g }) : t.HoldsAgree := by
  refine State.HoldsAgree.of_view (s := { s with sched.inflight := some g }) ?_ hv
  exact { h with
    inflight := by
      intro hn g' hg'
      obtain rfl := Option.some.inj hg'
      exact (hg hn).of_eq rfl rfl }

theorem waitAgain (h : s.HoldsAgree) {f : InFlight} (hf : s.sched.inflight = some f) (attempts : Nat) :
    (s.waitAgain f attempts).HoldsAgree := by
  refine h.putFlight (g := { f with attempts := attempts, onLine := false }) (fun hn => ?_) (by simp [holdsView, State.waitAgain])
  have hc := h.inflight hn f hf
  exact ⟨hc.sender, hc.record, hc.others⟩

/-! ### Transitions -/

theorem joinFailed (h : s.HoldsAgree) (hj : s.ctl.state = .joining) : s.joinFailed.HoldsAgree := by
  refine h.of_blank (h.released (by simp [hj])) (by simp [State.joinFailed]) (by simp [State.joinFailed]) (by simp [State.joinFailed]) ?_ ?_ ?_
  · intro g hg
    simp only [State.joinFailed, State.moveTo_frame, State.emptyChunk_frame, State.clearClaims, State.clearRoster_frame,
      State.clearControl_frame] at hg
    obtain ⟨g', -, rfl⟩ := List.mem_map.1 hg
    rfl
  · simpa [State.joinFailed] using h.quiet (by simp [hj]) (by simp [hj]) (by simp [hj])
  · simp [State.joinFailed, State.emptyChunk, State.discardFillRead, State.clearControl, State.clearRoster,
      State.clearClaims]

theorem of_forsaken (h : s.HoldsAgree) (hr : s.ctl.state ≠ .stopped) (hf : t.Forsaken) (hp : t.pins = s.pins)
    (ha : t.ctl.state ≠ .active) (hd : t.ctl.foundingDue = false) : t.HoldsAgree :=
  h.of_blank (h.released hr) hp ha hd hf.queues hf.pub hf.inflight

theorem rejoin (h : s.HoldsAgree) (hr : s.ctl.state ≠ .stopped) (reason : Reason) : (s.rejoin reason).HoldsAgree :=
  h.of_forsaken hr (s.rejoin_forsaken reason) (by simp) (by simp [State.rejoin, State.enterJoining])
    (by simp [State.rejoin, State.enterJoining])

theorem enterMuted (h : s.HoldsAgree) (hr : s.ctl.state ≠ .stopped) : s.enterMuted.HoldsAgree :=
  have hf := s.forsake_forsaken .muted .muted
  h.of_forsaken hr ⟨by simpa [State.enterMuted] using hf.pub, by simpa [State.enterMuted] using hf.inflight,
    by simpa [State.enterMuted] using hf.queues⟩ (by simp) (by simp [State.enterMuted]) (by simp [State.enterMuted])

theorem enterIncompatible (h : s.HoldsAgree) (hr : s.ctl.state ≠ .stopped) (reason : Reason) :
    (s.enterIncompatible reason).HoldsAgree :=
  have hf := s.forsake_forsaken .departed .departed
  h.of_forsaken hr ⟨by simpa [State.enterIncompatible] using hf.pub, by simpa [State.enterIncompatible] using hf.inflight,
    by simpa [State.enterIncompatible] using hf.queues⟩ (by simp) (by simp [State.enterIncompatible])
    (by simp [State.enterIncompatible])

theorem stop (h : s.HoldsAgree) (reason : Reason) : (s.stop reason).HoldsAgree :=
  h.of_stopped (by simp) (by simp) (by simp [State.stop]) (by simp [State.stop])

theorem dropAbandoned (h : s.HoldsAgree) : s.dropAbandoned.HoldsAgree := by
  unfold State.dropAbandoned
  split
  · cases s.sched.inflight with
    | none => exact h
    | some f => exact h.leaveSource f
  · exact h

/-- A joiner becomes ACTIVE with queues that this station is not in. -/
theorem becomeActive (h : s.HoldsAgree) (hj : s.ctl.state = .joining) {t : State}
    (hp : t.pins = s.pins) (hf : t.ctl.foundingDue = false) (ha : t.ctl.state = .active)
    (hc : ∀ g ∈ t.claims, g.hold = .unheld ∧ s.station ∉ g.queue) (hq : t.pub.queue = [])
    (hi : ∀ g, t.sched.inflight = some g → s.sched.inflight = some g) : t.HoldsAgree where
  reset hr := by have := (h.reset (hp ▸ hr)).1; rw [hj] at this; cases this
  number := by rw [State.station, hp]; exact h.number
  founding hd := by rw [hf] at hd; cases hd
  heads _ g hg := by
    obtain ⟨hu, ho⟩ := hc g hg
    rw [State.station, hp]
    simp only [hu, reduceCtorEq, or_self, false_iff]
    exact fun hh => ho (List.mem_of_mem_head? hh)
  outside ho := by rw [ha] at ho; rcases ho with ho | ho <;> cases ho
  quiet _ hn := absurd ha hn
  claims _ := by simp [hq]
  windows _ := by simp [hq]
  unsent _ := by simp [hq]
  inflight _ g hg := (h.inflight (by simp [hj]) g (hi g hg)).of_eq hp
    (by rw [hq, h.quiet (by simp [hj]) (by simp [hj]) (by simp [hj])])

theorem dropAbandoned_queue (h : s.HoldsAgree) (hj : s.ctl.state = .joining) : s.dropAbandoned.pub.queue = [] := by
  have hq := h.quiet (by simp [hj]) (by simp [hj]) (by simp [hj])
  unfold State.dropAbandoned
  split
  · cases s.sched.inflight with
    | none => exact hq
    | some f =>
      simp only [Option.map_some, Option.getD_some]
      unfold State.leaveSource
      split <;> simp [hq]
  · exact hq

theorem dropAbandoned_inflight (s : State) (g : InFlight) (hg : s.dropAbandoned.sched.inflight = some g) :
    s.sched.inflight = some g := by
  unfold State.dropAbandoned at hg
  split at hg
  · cases hi : s.sched.inflight with
    | none => rw [hi] at hg; simp [hi] at hg
    | some f =>
      rw [hi] at hg
      simp only [Option.map_some, Option.getD_some] at hg
      unfold State.leaveSource at hg
      split at hg <;> cases hg
  · exact hg

theorem found (h : s.HoldsAgree) (hs : s.Sound) (hj : s.ctl.state = .joining) : s.found.HoldsAgree := by
  refine h.becomeActive hj (by simp [State.found]) (by simp [State.found]) (by simp [State.found]) (fun g hg => ?_) ?_
    fun g hg => ?_
  · have hg : g ∈ s.claims := by simpa [State.found] using hg
    exact ⟨hs.holds (by simp [hj]) g hg, h.outside (.inr hj) g hg⟩
  · simpa [State.found] using h.dropAbandoned_queue hj
  · refine dropAbandoned_inflight s g ?_
    simpa [State.found, State.emptyChunk, State.discardFillRead, State.emptyInbound] using hg

theorem foundingTest (h : s.HoldsAgree) (hs : s.Sound) (hj : s.ctl.state = .joining) : s.foundingTest.HoldsAgree := by
  unfold State.foundingTest
  split
  · exact h.found hs hj
  · exact { h with founding := by intro hd; cases hd
                   inflight := fun hn g hg => (h.inflight hn g hg).of_eq rfl rfl }

theorem enterJoining (h : s.HoldsAgree) (hl : s.ctl.state = .listening) (reason : Reason) :
    (s.enterJoining reason).HoldsAgree := by
  have hq := h.quiet (by simp [hl]) (by simp [hl]) (by simp [hl])
  have hc : (s.enterJoining reason).claims = s.claims := by simp [State.enterJoining]
  have hp : (s.enterJoining reason).pins = s.pins := by simp [State.enterJoining]
  have hq' : (s.enterJoining reason).pub.queue = [] := by simp [State.enterJoining, hq]
  have hst : (s.enterJoining reason).ctl.state = .joining := by simp [State.enterJoining]
  have hin : (s.enterJoining reason).sched.inflight = s.sched.inflight := by simp [State.enterJoining]
  exact {
    reset := fun hr => by have := (h.reset (hp ▸ hr)).1; rw [hl] at this; cases this
    number := by rw [State.station, hp]; exact h.number
    founding := fun _ => hst
    heads := fun ha => by rw [hst] at ha; cases ha
    outside := fun _ => by rw [hc, State.station, hp]; exact h.outside (.inl hl)
    quiet := fun _ _ _ => hq'
    claims := fun _ => by rw [hq']; simp
    windows := fun _ => by rw [hq']; simp
    unsent := fun _ => by rw [hq']; simp
    inflight := fun _ g hg => (h.inflight (by simp [hl]) g (hin ▸ hg)).of_eq hp (by rw [hq', hq]) }

/-- What LEAVE lets stand of the publication queue is its head, while its frame is on the line. -/
theorem keptRecords_prefix (s : State) : s.keptRecords <+: s.pub.queue := by
  unfold State.keptRecords
  (repeat' split)
  · exact List.take_prefix _ _
  · exact List.nil_prefix
  · exact List.nil_prefix

theorem leaveGroup (h : s.HoldsAgree) (hm : s.ctl.state = .joining ∨ s.ctl.state = .active) : s.leaveGroup.HoldsAgree := by
  have hr : s.ctl.state ≠ .stopped := by rcases hm with hm | hm <;> simp [hm]
  have hp : s.leaveGroup.pins = s.pins := by simp [State.leaveGroup]
  have hst : s.leaveGroup.ctl.state = .leaving := by simp [State.leaveGroup]
  have hd : s.leaveGroup.ctl.foundingDue = false := by simp [State.leaveGroup]
  have hq : s.leaveGroup.pub.queue = s.keptRecords := by simp [State.leaveGroup]
  have hc : s.leaveGroup.claims = s.claims.map Guard.unhold := by simp [State.leaveGroup, State.dropHolds]
  have hi := s.leaveGroup_inflight
  have hsub := (keptRecords_prefix s).sublist
  exact {
    reset := fun hrst => absurd (h.reset (hp ▸ hrst)).1 hr
    number := by rw [State.station, hp]; exact h.number
    founding := fun hf => by rw [hd] at hf; cases hf
    heads := fun ha => by rw [hst] at ha; cases ha
    outside := fun ho => by rw [hst] at ho; rcases ho with ho | ho <;> cases ho
    quiet := fun _ _ hn => absurd hst hn
    claims := fun _ => by rw [hq]; exact (h.claims hr).sublist ((hsub.filter _).map _)
    windows := fun _ r hm => h.windows hr r (hsub.subset (hq ▸ hm))
    unsent := fun _ r hm hk hsel g hg hw => by
      rw [hc] at hg
      obtain ⟨g', hg', rfl⟩ := List.mem_map.1 hg
      rw [State.station, hp]
      exact h.unsent hr r (hsub.subset (hq ▸ hm)) hk hsel g' hg' hw
    inflight := fun _ g hg => by
      rw [hi] at hg
      obtain ⟨hg', ho⟩ := Option.filter_eq_some_iff.1 hg
      have hcar := h.inflight hr g hg'
      refine ⟨by rw [State.station, hp]; exact hcar.sender, fun hsrc => ?_, hcar.others⟩
      obtain ⟨r, rest, hrec, hsel, hb⟩ := hcar.record hsrc
      refine ⟨r, [], ?_, hsel, hb⟩
      rw [hq]
      simp [State.keptRecords, hg, hsrc, hrec] }

/-! ### Results of a transmission -/

theorem sortRecords_sublist (s : State) (ahead records : List PubRecord) :
    (s.sortRecords ahead records).1.Sublist records := by
  induction records generalizing ahead with
  | nil => simp [State.sortRecords]
  | cons r rest ih =>
    simp only [State.sortRecords]
    split
    · exact (ih _).cons _
    · exact (ih _).cons_cons _

theorem keptRecords_eq (s : State) (hk : s.keptRecords ≠ []) : s.keptRecords = s.pub.queue.take 1 := by
  unfold State.keptRecords at hk ⊢
  (repeat' split) <;> simp_all

theorem sortedQueue_sublist (s : State) : s.sortedQueue.1.Sublist s.pub.queue := by
  unfold State.sortedQueue
  split
  · exact sortRecords_sublist s _ _
  · rename_i hk
    have hk : s.keptRecords ≠ [] := by simpa using hk
    have := (List.Sublist.refl s.keptRecords).append (sortRecords_sublist s s.keptRecords (s.pub.queue.drop 1))
    rw [keptRecords_eq s hk] at this ⊢
    rwa [List.take_append_drop] at this

/-- A publication in flight that is not overtaken keeps its record at the head of the queue (R87). -/
theorem sortedQueue_head {g : InFlight} (hg : s.sched.inflight = some g) (hp : g.source = .publication)
    (ho : s.frameOvertaken g = false) : s.sortedQueue.1.head? = s.pub.queue.head? := by
  cases hq : s.pub.queue with
  | nil =>
    have := sortedQueue_sublist s
    rw [hq] at this
    rw [List.sublist_nil.1 this]
  | cons r rest =>
    cases hl : g.onLine with
    | true =>
      have hk : s.keptRecords = [r] := by simp [State.keptRecords, State.frameOnLine, Option.filter, hg, hl, hp, hq]
      simp [State.sortedQueue, hk]
    | false =>
      have hk : s.keptRecords = [] := by simp [State.keptRecords, State.frameOnLine, Option.filter, hg, hl]
      have hr : s.recordOvertaken [] r = false := by
        simpa [State.frameOvertaken, hl, hp, hq] using ho
      simp [State.sortedQueue, hk, hq, State.sortRecords, hr]

theorem dropOvertaken (h : s.HoldsAgree) : s.dropOvertaken.HoldsAgree := by
  unfold State.dropOvertaken
  refine State.HoldsAgree.postAll ?_ _
  have hsub := sortedQueue_sublist s
  have none_case : State.HoldsAgree { s with pub.queue := s.sortedQueue.1, sched.inflight := none } := h.dropFlight hsub
  unfold State.dropWaiting
  split
  · rename_i hi
    exact none_case.of_view (by simp [holdsView, hi])
  · rename_i f hi
    split
    · split <;> exact none_case.of_view rfl
    · rename_i ho
      refine State.HoldsAgree.of_view (h.shrinkQueue hsub fun g hg hp => ?_) rfl
      rw [hi] at hg
      obtain rfl := Option.some.inj hg
      exact sortedQueue_head hi hp (by simpa using ho)

theorem unclaim (h : s.HoldsAgree) (records : List PubRecord) : (s.unclaim records).HoldsAgree := by
  unfold State.unclaim
  split
  · split
    · refine h.setHold _ (fun g => if g.hold = .claiming then { g with hold := .unheld } else g) (fun g => ?_) (fun g => ?_)
        fun _ g _ _ hi => ?_
      · split <;> rfl
      · split <;> rfl
      · split
        · rename_i hc
          simpa [hc] using hi
        · exact hi
    · exact h
  · exact h

theorem countExpiry (h : s.HoldsAgree) (w : Nat) : (s.countExpiry w).HoldsAgree := h.of_view (by simp [holdsView])

theorem abandonFetch (h : s.HoldsAgree) (w : Nat) : (s.abandonFetch w).HoldsAgree := h.of_view (by simp [holdsView])

theorem dropService (h : s.HoldsAgree) (w r : Nat) : (s.dropService w r).HoldsAgree := h.of_view rfl

theorem abandonAttempts (h : s.HoldsAgree) (f : InFlight) : (s.abandonAttempts f).HoldsAgree := by
  have hg := h.abandonWith f .attempts
  unfold State.abandonAttempts
  dsimp only
  (repeat' split) <;>
    first
    | exact hg
    | exact hg.unclaim _
    | exact hg.joinFailed (by simpa)
    | exact hg.stop _
    | exact hg.abandonFetch _
    | exact hg.dropService _ _

theorem reportLost (h : s.HoldsAgree) : s.reportLost.HoldsAgree := by
  unfold State.reportLost
  split
  · exact h
  · split
    · exact h.abandonWith _ _
    · exact h.waitAgain (by assumption) _

theorem reportFailed (h : s.HoldsAgree) (faulted : Bool) : (s.reportFailed faulted).HoldsAgree := by
  unfold State.reportFailed
  split
  · exact h
  · (repeat' split)
    · exact h.abandonWith _ _
    · exact h.waitAgain (by assumption) _
    · exact (h.waitAgain (by assumption) _).of_view rfl
    · exact h.abandonAttempts _

theorem finishAbandon (h : s.HoldsAgree) : s.finishAbandon.HoldsAgree := by
  have hd : State.HoldsAgree { s with ctl.abandonDue := false } := h.of_view rfl
  unfold State.finishAbandon
  (repeat' split)
  · exact hd.abandonAttempts _
  · exact hd
  · exact h

theorem settle (h : s.HoldsAgree) (rejected : Bool) : (s.settle rejected).HoldsAgree := by
  unfold State.settle
  split
  · exact h
  · rename_i f _
    have hl := h.leaveSource f
    (repeat' split) <;> first | exact hl | exact hl.postAll _ | exact hl.stop _ | exact hl.of_view (by simp [holdsView])

/-! ### The transmit opportunity -/

/-- A frame of this station goes on the line. -/
theorem supply (h : s.HoldsAgree) (source : Source) (frame : Frame) (attempts : Nat)
    (hc : s.ctl.state ≠ .stopped → s.Carries ⟨source, frame, attempts, true⟩) : (s.supply source frame attempts).HoldsAgree :=
  h.putFlight hc rfl

/-- The frame of a control entry is no CLAIM. -/
theorem carries_control (s : State) (e : ControlEntry) (attempts : Nat) (onLine : Bool) :
    s.Carries ⟨.control e, { sender := s.station, body := s.controlBody e }, attempts, onLine⟩ :=
  ⟨rfl, fun hc => (by cases hc), fun _ w => by cases e <;> simp [State.controlBody]⟩

theorem supplyFill (h : s.HoldsAgree) (e : Service) (attempts : Nat) : (s.supplyFill e attempts).HoldsAgree := by
  unfold State.supplyFill
  dsimp only
  split
  · exact h.supply _ _ _ fun _ => ⟨rfl, fun hc => (by cases hc), fun _ w => by simp⟩
  · have hg : (s.grantFillRead ⟨e.window, e.next, false, false⟩).HoldsAgree := h.of_view rfl
    exact hg.supply _ _ _ fun _ => ⟨rfl, fun hc => (by cases hc), fun _ w => by simp⟩

theorem resupply (h : s.HoldsAgree) {f : InFlight} (hf : s.sched.inflight = some f) : (s.resupply f).HoldsAgree := by
  have hc : s.ctl.state ≠ .stopped → s.Carries ⟨f.source, f.frame, f.attempts, true⟩ := fun hn =>
    have := h.inflight hn f hf
    ⟨this.sender, this.record, this.others⟩
  unfold State.resupply
  split
  · exact h.supply _ _ _ hc
  · rename_i hsrc
    rw [hsrc]
    exact h.supply _ _ _ fun _ => carries_control s _ _ _
  · exact h.supply _ _ _ hc
  · (repeat' split)
    · exact h.supplyFill _ _
    · exact h
    · exact h

theorem selectPublication (h : s.HoldsAgree) {r : PubRecord} {rest : List PubRecord} (hq : s.pub.queue = r :: rest) :
    (s.selectPublication r rest).HoldsAgree := by
  have hp : State.HoldsAgree { s with pub.queue := { r with selected := true } :: rest, sched.inflight := none } :=
    { h with
      quiet := fun h1 h2 h3 => by have := h.quiet h1 h2 h3; rw [hq] at this; cases this
      claims := fun hn => by
        have := h.claims hn
        rw [hq] at this
        cases hk : (r.kind == PubKind.claim) <;> simpa [List.filter_cons, hk] using this
      windows := fun hn x hx hk => by
        rcases List.mem_cons.1 hx with rfl | hx
        · exact h.windows hn r (by simp [hq]) hk
        · exact h.windows hn x (by simp [hq, hx]) hk
      unsent := fun hn x hx hk hsel => by
        rcases List.mem_cons.1 hx with rfl | hx
        · cases hsel
        · exact h.unsent hn x (by simp [hq, hx]) hk hsel
      inflight := by intro _ g hg; cases hg }
  refine hp.putFlight (g := ⟨.publication, { sender := s.station, body := r.body }, 0, true⟩) (fun _ => ?_) rfl
  exact ⟨rfl, fun _ => ⟨_, rest, rfl, rfl, rfl⟩, fun hn => absurd rfl hn⟩

theorem selectFill (h : s.HoldsAgree) (e : Service) : (s.selectFill e).HoldsAgree :=
  State.HoldsAgree.supplyFill (s := { s with sched.turn := .publications }) (h.of_view rfl) e 0

theorem select (h : s.HoldsAgree) : s.select.HoldsAgree := by
  have ht : State.HoldsAgree { s with sched.control := s.sched.control.dropWhile s.entryOvertaken } := h.of_view rfl
  unfold State.select
  dsimp only
  split
  · split
    · exact ht
    · exact ht.supply _ _ _ fun _ => (carries_control s _ _ _).of_eq rfl rfl
  · split
    · exact ht
    · unfold State.selectByTurn
      (repeat' split)
      · exact ht.selectPublication (by assumption)
      · exact ht.selectFill _
      · exact ht.selectPublication (by assumption)
      · exact ht.selectFill _
      · exact ht

theorem atOpportunity (h : s.HoldsAgree) : s.atOpportunity.HoldsAgree := by
  unfold State.atOpportunity
  split
  · exact h
  · split
    · split
      · exact h.abandonWith _ _
      · exact h.resupply (by assumption)
    · exact h.select

/-! ### Acceptance -/

theorem acceptTimers (h : s.HoldsAgree) (sender : Nat) (sent : Bool) : (s.acceptTimers sender sent).HoldsAgree := by
  unfold State.acceptTimers
  dsimp only
  (repeat' split) <;> exact h.of_view rfl

theorem acceptWrite (h : s.HoldsAgree) (sender w offset : Nat) (data : List Byte) :
    (s.acceptWrite sender w offset data).HoldsAgree := by
  unfold State.acceptWrite
  split
  · exact h.enqueue _
  · exact h

theorem strip (h : s.HoldsAgree) {n : Nat} (hn : s.ctl.state = .active → n ≠ s.station) : (s.strip n).HoldsAgree :=
  (h.removeAllClaims hn).of_view rfl

/-- This station leaves every queue with the end of its holds (R103; log 38). -/
theorem stripOwn (h : s.HoldsAgree) (hs : s.Sound) : (s.endOwnHolds.strip s.station).HoldsAgree := by
  refine State.HoldsAgree.of_view (h.removeThen s.station (fun _ => true)
    (fun g => if s.station ∈ g.queue then g.unhold else g) id (fun g => by split <;> exact ⟨rfl, rfl⟩)
    (fun _ => ⟨rfl, rfl⟩) fun ha g hg => ?_) ?_
  · have hi := h.heads ha g hg
    have hout := List.Nodup.not_mem_erase (a := s.station) (hs.guards g hg).distinct
    have hnot : (g.queue.erase s.station).head? ≠ some s.station := fun hc => hout (List.mem_of_mem_head? hc)
    dsimp only [id]
    rw [if_pos rfl, (removeFromGuard_queue _ _ _).2]
    by_cases hm : s.station ∈ g.queue
    · simp [hm, State.removeFromGuard, Guard.promotes, Guard.without, Guard.unhold, hnot]
    · have hno : g.queue.head? ≠ some s.station := fun hc => hm (List.mem_of_mem_head? hc)
      simpa [hm, State.removeFromGuard, Guard.promotes, Guard.without, hnot, hno] using hi
  · simp [holdsView, State.strip, State.removeAllClaims, State.removeClaims, State.endOwnHolds, State.dropServiceOf,
      Function.comp_def]
    exact fun _ _ => rfl

theorem stripPresent (h : s.HoldsAgree) (hs : s.Sound) (n : Nat) : (s.stripPresent n).HoldsAgree := by
  unfold State.stripPresent
  (repeat' split)
  · rename_i hn
    rw [hn]
    exact h.stripOwn hs
  · exact h.strip fun _ => by assumption
  · exact h

theorem setPresent (h : s.HoldsAgree) (n : Nat) (st : RosterStatus) : (s.setPresent n st).HoldsAgree := h.of_view rfl

theorem completeJoined (h : s.HoldsAgree) (kept : Nat) : (s.completeJoined kept).HoldsAgree := h.of_view rfl

theorem acceptPresence (h : s.HoldsAgree) (hs : s.Sound) (sender : Nat) (sent : Bool) (mode : PresenceMode) (sig : Word) :
    (s.acceptPresence sender sent mode sig).HoldsAgree := by
  unfold State.acceptPresence
  (repeat' split)
  · exact (h.stripPresent hs sender).setPresent _ _
  · refine State.HoldsAgree.of_view ((h.stripPresent hs sender).setPresent sender .joined) ?_
    unfold State.acceptJoin State.startAnswer
    split <;> rfl
  · exact h.setPresent _ _
  · exact h

/-- A census that lists this station JOINED names it in no claim queue group (R30). -/
theorem not_in_group {map : List RosterStatus} {group : List Nat} {n : Nat} (hg : groupSound map group = true)
    (hn : map.getD n .absent ≠ .active) : n ∉ group := by
  intro hm
  have := (groupSound_iff.1 hg).2.2.2 n hm
  exact hn this

theorem installCensus (h : s.HoldsAgree) (hs : s.Sound) (hj : s.ctl.state = .joining) {map : List RosterStatus}
    {groups : List (List Nat)} (hg : ∀ g ∈ groups, groupSound map g = true)
    (hown : map.getD s.station .absent = .joined) : (s.installCensus map groups).HoldsAgree := by
  have hi : (s.installCensus map groups).claims = s.claims.mapIdx fun i (g : Guard) => { g with queue := groups.getD i [] } := by
    simp [State.installCensus]
  let installed : State := { s with
    roster.entries := (List.range Config.stations).map (s.installedEntry map)
    claims := s.claims.mapIdx fun i (g : Guard) => { g with queue := groups.getD i [] } }
  have hp : (s.installCensus map groups).pub = installed.dropAbandoned.pub := by simp [State.installCensus, installed]
  have hf : (s.installCensus map groups).sched = installed.dropAbandoned.sched := by simp [State.installCensus, installed]
  have hq := h.quiet (by simp [hj]) (by simp [hj]) (by simp [hj])
  refine h.becomeActive hj (by simp) (by simp [State.installCensus]) (by simp [State.installCensus]) (fun g hm => ?_) ?_
    fun g hgf => ?_
  · rw [hi] at hm
    obtain ⟨i, hil, rfl⟩ := List.mem_mapIdx.1 hm
    refine ⟨hs.holds (by simp [hj]) s.claims[i] (List.getElem_mem hil), ?_⟩
    by_cases hl : i < groups.length
    · simpa [hl] using not_in_group (hg groups[i] (List.getElem_mem hl)) (by rw [hown]; simp)
    · simp [hl]
  · rw [hp]
    unfold State.dropAbandoned
    split
    · cases installed.sched.inflight with
      | none => exact hq
      | some f =>
        simp only [Option.map_some, Option.getD_some]
        unfold State.leaveSource
        split <;> simp [installed, hq]
    · exact hq
  · rw [hf] at hgf
    exact dropAbandoned_inflight installed g hgf

theorem acceptCensus (h : s.HoldsAgree) (hs : s.Sound) (hr : s.ctl.state ≠ .stopped) (sender : Nat) (sig : Word)
    {map : List RosterStatus} {groups : List (List Nat)} (hg : ∀ g ∈ groups, groupSound map g = true) :
    (s.acceptCensus sender sig map groups).HoldsAgree := by
  unfold State.acceptCensus
  (repeat' split)
  · exact h.enterIncompatible hr _
  · exact (h.stripPresent hs sender).setPresent _ _
  · rename_i ha hown
    simp only [State.awaitsCensus, Bool.and_eq_true, beq_iff_eq] at ha
    exact h.installCensus hs ha.1 hg hown
  · exact (h.completeJoined _).setPresent _ _
  · exact h.completeJoined _

theorem acceptDepart (h : s.HoldsAgree) (subject : Nat) : (s.acceptDepart subject).HoldsAgree := by
  let gone := (s.strip subject).setAbsent subject
  have hg (hn : s.ctl.state = .active → subject ≠ s.station) : gone.HoldsAgree := (h.strip hn).of_view rfl
  unfold State.acceptDepart State.departSelf
  dsimp only
  (repeat' split)
  · exact (hg fun ha => by simp_all [gone]).stop _
  · exact (hg fun ha => by simp_all [gone]).rejoin (by simp_all [gone]) _
  · -- in ACTIVE the rejoin path ends the holds that the removal leaves (R113)
    exact h.of_forsaken (by simp_all [gone]) (gone.rejoin_forsaken _) (by simp)
      (by simp [State.rejoin, State.enterJoining]) (by simp [State.rejoin, State.enterJoining])
  all_goals exact hg fun ha => by simp_all [gone]

theorem acceptFetch (h : s.HoldsAgree) (sender : Nat) (sent : Bool) (w origin : Nat) :
    (s.acceptFetch sender sent w origin).HoldsAgree := by
  unfold State.acceptFetch State.fetchAccepted State.volunteer
  (repeat' split) <;> exact h.of_view rfl

theorem acceptFill (h : s.HoldsAgree) (sent : Bool) (w offset requester : Nat) (data : List Byte) :
    (s.acceptFill sent w offset requester data).HoldsAgree := by
  have hc : (s.setCopy w fun c => { c with accepted := c.accepted + data.length }).HoldsAgree := h.of_view rfl
  have ht : (s.takeChunk w offset data).HoldsAgree := hc.enqueue _
  unfold State.acceptFill
  dsimp only
  (repeat' split)
  · exact ht
  · exact h
  · exact ht.of_view rfl
  · exact h.of_view rfl

/-- An accepted body agrees: of this station's own frame, a CLAIM is that of the selected head record. -/
theorem acceptBody (h : s.HoldsAgree) (hs : s.Sound) (hr : s.ctl.state ≠ .stopped) {sender : Nat} {sent : Bool} {b : Body}
    (hb : b.fits sender) (ho : sender = s.station ↔ sent = true)
    (hown : ∀ w, b = .claim w → sent = true → OwnClaim s w) : (s.acceptBody sender sent b).HoldsAgree := by
  cases b with
  | write w o data => exact h.acceptWrite _ _ _ _
  | claim w => exact h.acceptClaim hs ho (hown w rfl)
  | release w r => exact h.acceptRelease hs ho
  | presence m sig => exact h.acceptPresence hs _ _ _ _
  | census sig map groups => exact h.acceptCensus hs hr _ _ hb.2.2.2
  | depart p r => exact h.acceptDepart _
  | fetch w o => exact h.acceptFetch _ _ _ _
  | fill w o r data => exact h.acceptFill _ _ _ _ _

theorem acceptEffect (h : s.HoldsAgree) (hs : s.Sound) (hr : s.ctl.state ≠ .stopped) {sender : Nat} {sent : Bool}
    {body : Option Body} (hb : ∀ b, body = some b → b.fits sender) (ho : sender = s.station ↔ sent = true)
    (hown : ∀ w, body = some (.claim w) → sent = true → OwnClaim s w) : (s.acceptEffect sender sent body).HoldsAgree := by
  unfold State.acceptEffect
  (repeat' split)
  · exact (h.acceptBody hs hr (hb _ rfl) ho fun w hw => hown w (by rw [hw])).dropOvertaken
  · exact h
  · exact h

theorem accept (h : s.HoldsAgree) (hs : s.Sound) (hr : s.ctl.state ≠ .stopped) {sender : Nat} {sent : Bool}
    {body : Option Body} (hb : ∀ b, body = some b → b.fits sender) (ho : sent = true → sender = s.station)
    (hown : ∀ w, body = some (.claim w) → sent = true → OwnClaim s w) : (s.accept sender sent body).HoldsAgree := by
  have ht := h.acceptTimers sender sent
  have hts := hs.acceptTimers sender sent
  have hctl : (s.acceptTimers sender sent).ctl = s.ctl := by simp
  have hst : (s.acceptTimers sender sent).station = s.station := by simp [State.station]
  have hpub : (s.acceptTimers sender sent).pub = s.pub := by simp
  unfold State.accept
  dsimp only
  split
  · exact ht.enterIncompatible (by rw [hctl]; exact hr) _
  · rename_i hn
    have he := ht.acceptEffect hts (by rw [hctl]; exact hr) (sent := sent) hb
      (by rw [hst]; exact ⟨fun hc => by simpa [hc] using hn, ho⟩)
      fun w hw hsent => by
        obtain ⟨r, rest, hq, hk, hwin, hsel⟩ := hown w hw hsent
        exact ⟨r, rest, by rw [hpub, hq], hk, hwin, hsel⟩
    split
    · exact he.settle _
    · exact he

/-! ### The window end -/

theorem windowVoided (h : s.HoldsAgree) (hr : s.ctl.state ≠ .stopped)
    (f : RxFrame) (hf : f.objects = true → f.sending = false) : (s.windowVoided f).HoldsAgree := by
  unfold State.windowVoided
  dsimp only
  have h1 : (if f.sending then s.reportFailed false else s).HoldsAgree := by
    split
    · exact h.reportFailed _
    · exact h
  have h2 : (if s.ctl.state = .muted then
      { (if f.sending then s.reportFailed false else s) with rx.cleanRun := 0 }
      else (if f.sending then s.reportFailed false else s)).HoldsAgree := by
    split
    · exact h1.of_view rfl
    · exact h1
  split
  · rename_i ho
    have hs := hf ho.1
    simp only [hs, Bool.false_eq_true, if_false] at h2 ⊢
    refine h2.enterMuted ?_
    split <;> exact hr
  · exact h2

theorem overhear (h : s.HoldsAgree) (f : RxFrame) : (s.overhear f).HoldsAgree := by
  have hh : (s.hearReference f).HoldsAgree := h.of_view rfl
  unfold State.overhear
  dsimp only
  split
  · rename_i hl
    split
    · exact hh.enterJoining hl _
    · exact hh
  · rename_i hm
    (repeat' split)
    · exact h.of_view rfl
    · exact h.of_view rfl
    · refine State.HoldsAgree.rejoin (s := { s.hearReference f with rx.cleanRun := Config.cleanLimit }) (h.of_view rfl) ?_ _
      show s.ctl.state ≠ .stopped
      rw [hm]; simp
  all_goals exact hh

theorem deferredFounding (h : s.HoldsAgree) (hs : s.Sound) : s.deferredFounding.HoldsAgree := by
  unfold State.deferredFounding
  split
  · rename_i hd
    exact h.foundingTest hs (h.founding hd)
  · exact h

theorem afterWindow (h : s.HoldsAgree) (hs : s.Sound) : s.afterWindow.HoldsAgree :=
  (h.deferredFounding hs).finishAbandon.offerDue.settleMemory

/-- This station's own frame in its verdict window: its sender is this station, and a CLAIM is that of the selected head
record (R81). -/
theorem own_frame (h : s.HoldsAgree) (hr : s.ctl.state ≠ .stopped) {g : InFlight} (hg : s.sched.inflight = some g) :
    senderOf g.ownFrame.chars = s.station
      ∧ ∀ w, (parseFrame (g.ownFrame.chars.map RxChar.data)).map (·.body) = some (.claim w) → OwnClaim s w := by
  have hc := h.inflight hr g hg
  have hn := h.number
  have hb : g.ownFrame.chars.map RxChar.data = g.frame.bytes := by simp [InFlight.ownFrame, Function.comp_def]
  refine ⟨?_, fun w hw => ?_⟩
  · rw [senderOf, hb]
    simp only [Frame.bytes, Frame.checked, List.cons_append, List.headD_cons, hc.sender]
    exact toNat_byteOf (by simp only [Config.stations] at hn; omega)
  · rw [hb] at hw
    obtain ⟨p, hp, hpb⟩ := Option.map_eq_some_iff.1 hw
    obtain ⟨v, hv, rfl⟩ := parseFrame_claim hp hpb
    by_cases hsrc : g.source = .publication
    · obtain ⟨r, rest, hq, hsel, hbody⟩ := hc.record hsrc
      have hk : r.kind = .claim ∧ r.window = v := by
        rw [hv] at hbody
        unfold PubRecord.body at hbody
        split at hbody
        · cases hbody
        · rename_i hk
          exact ⟨hk, by injection hbody with hbody; exact hbody.symm⟩
        · cases hbody
      have hlt := h.windows hr r (by simp [hq]) hk.1
      simp only [Config.windows] at hlt
      exact ⟨r, rest, hq, hk.1, by omega, hsel⟩
    · exact absurd hv (hc.others hsrc v)

/-- The verdict itself agrees, before what follows a window. -/
theorem verdict (h : s.HoldsAgree) (hs : s.Sound) (hl : s.LineAgrees) (hv : s.line.state = .verdict) {f : RxFrame}
    (hf : s.rx.frame = some f) (samples : BitVec 20) :
    (if f.voidedBy samples = true then (s.beginGap (f.voidedBy samples)).windowVoided f
      else (s.beginGap (f.voidedBy samples)).windowAccepted f).HoldsAgree := by
  have hr : s.ctl.state ≠ .stopped := fun hc => by rw [hl.halted hc] at hv; cases hv
  have hg : (s.beginGap (f.voidedBy samples)).HoldsAgree := h.of_view rfl
  have hgs := hs.beginGap (f.voidedBy samples)
  split
  · refine hg.windowVoided hr f fun ho => ?_
    cases hsend : f.sending with
    | false => rfl
    | true =>
      obtain ⟨g, -, -, rfl⟩ := hl.sent hv f hf hsend
      simp [InFlight.ownFrame] at ho
  · have hc : State.HoldsAgree { s.beginGap (f.voidedBy samples) with rx.objectionRun := 0 } := hg.of_view rfl
    have hcs : State.Sound { s.beginGap (f.voidedBy samples) with rx.objectionRun := 0 } :=
      { hgs with objections := by simp }
    unfold State.windowAccepted
    dsimp only
    split
    · have own : f.sending = true → senderOf f.chars = s.station
          ∧ ∀ w, (parseFrame (f.chars.map RxChar.data)).map (·.body) = some (.claim w) → OwnClaim s w := by
        intro hsend
        obtain ⟨g, hfl, -, rfl⟩ := hl.sent hv f hf hsend
        exact h.own_frame hr hfl
      refine hc.accept hcs hr (fun b hb => ?_) (fun hsend => (own hsend).1) fun w hw hsend => (own hsend).2 w hw
      obtain ⟨g, hg, rfl⟩ := Option.map_eq_some_iff.1 hb
      rw [senderOf, ← parseFrame_sender hg]
      exact (parseFrame_fits hg).2
    · exact hc.overhear f

theorem endWindow (h : s.HoldsAgree) (hs : s.Sound) (hl : s.LineAgrees) (hv : s.line.state = .verdict) {f : RxFrame}
    (hf : s.rx.frame = some f) (samples : BitVec 20) : (s.endWindow f samples).HoldsAgree := by
  have hw := h.verdict hs hl hv hf samples
  have hgs := hs.beginGap (f.voidedBy samples)
  unfold State.endWindow
  dsimp only
  split
  · rename_i hc
    rw [if_pos hc] at hw
    exact hw.afterWindow (hgs.windowVoided f)
  · rename_i hc
    rw [if_neg hc] at hw
    exact hw.afterWindow (hgs.windowAccepted f)

theorem endVerdict (h : s.HoldsAgree) (hs : s.Sound) (hl : s.LineAgrees) (samples : BitVec 20) :
    (s.endVerdict samples).HoldsAgree := by
  unfold State.endVerdict
  (repeat' split)
  · exact h.endWindow hs hl (by assumption) (by assumption) _
  · exact h
  · exact h

/-! ### The line interface -/

theorem meetSync (h : s.HoldsAgree) : s.meetSync.HoldsAgree := by
  unfold State.meetSync; split; exacts [h.of_view rfl, h]

theorem completeGap (h : s.HoldsAgree) : s.completeGap.HoldsAgree := by
  unfold State.completeGap; split; exacts [h.of_view rfl, h]

theorem restartCycle (h : s.HoldsAgree) : s.restartCycle.HoldsAgree := by
  unfold State.restartCycle; split; exacts [h.of_view rfl, h]

theorem reachSilence (h : s.HoldsAgree) : s.reachSilence.HoldsAgree := by
  unfold State.reachSilence
  dsimp only
  (repeat' split)
  · exact State.HoldsAgree.enterJoining (s := { s with
      line := { s.line.beginSlots with reference := some Config.silentReference, silence := Config.silenceTicks } })
      (h.of_view rfl) (by assumption) _
  · exact h.of_view rfl
  · exact h

theorem strayLevel (h : s.HoldsAgree) : s.strayLevel.HoldsAgree := by
  unfold State.strayLevel; (repeat' split); exacts [h.of_view rfl, h.of_view rfl, h]

theorem becomeStuck (h : s.HoldsAgree) : s.becomeStuck.HoldsAgree := by
  unfold State.becomeStuck; split; exacts [h.of_view rfl, h]

theorem freeLine (h : s.HoldsAgree) : s.freeLine.HoldsAgree := by
  unfold State.freeLine; split; exacts [h.of_view rfl, h]

theorem senseStart (h : s.HoldsAgree) : s.senseStart.HoldsAgree := by
  unfold State.senseStart; split; exacts [h.of_view rfl, h.strayLevel]

theorem endFrame (h : s.HoldsAgree) (samples : List CharSamples) : (s.endFrame samples).HoldsAgree := by
  unfold State.endFrame
  (repeat' split) <;> exact h.of_view rfl

theorem takeOpportunity (h : s.HoldsAgree) : s.takeOpportunity.HoldsAgree := by
  unfold State.takeOpportunity
  split
  · exact (State.HoldsAgree.atOpportunity (s := { s with line.slot := s.ownSlot.getD 0, line.offered := true })
      (h.of_view rfl)).offerDue.settleMemory
  · exact h

theorem loseArbitration (h : s.HoldsAgree) (bit : Nat) : (s.loseArbitration bit).HoldsAgree := by
  have hw : s.withdrawFrame.HoldsAgree := h.of_view rfl
  unfold State.loseArbitration
  split
  · exact hw.reportLost.offerDue.settleMemory
  · exact h

theorem faultLine (h : s.HoldsAgree) (bit : Nat) : (s.faultLine bit).HoldsAgree := by
  have hw : s.withdrawFrame.HoldsAgree := h.of_view rfl
  unfold State.faultLine
  split
  · exact (hw.reportFailed true).offerDue.settleMemory
  · exact h

/-! ### Timers and ticks -/

theorem expireAnnounce (h : s.HoldsAgree) : s.expireAnnounce.HoldsAgree := h.of_view (by simp [holdsView])

theorem expireSilence (h : s.HoldsAgree) (n : Nat) : (s.expireSilence n).HoldsAgree := h.of_view (by simp [holdsView])

theorem expireAnswer (h : s.HoldsAgree) (hs : s.Sound) : s.expireAnswer.HoldsAgree := by
  unfold State.expireAnswer
  split
  · rename_i hc
    simp only [State.awaitsCensus, Bool.and_eq_true, beq_iff_eq] at hc
    split
    · exact { h with founding := fun _ => hc.1.1
                     inflight := fun hn g hg => (h.inflight hn g hg).of_eq rfl rfl }
    · exact (h.foundingTest hs hc.1.1).offerDue.settleMemory
  · exact h

theorem expireFetch (h : s.HoldsAgree) (w : Nat) : (s.expireFetch w).HoldsAgree := h.of_view (by simp [holdsView])

theorem tickAnnounce (h : s.HoldsAgree) : s.tickAnnounce.HoldsAgree := h.of_view (by simp [holdsView])

theorem tickSilence (h : s.HoldsAgree) (n : Nat) : (s.tickSilence n).HoldsAgree := h.of_view (by simp [holdsView])

theorem tickAnswer (h : s.HoldsAgree) (hs : s.Sound) : s.tickAnswer.HoldsAgree := by
  unfold State.tickAnswer
  split
  · exact h.expireAnswer hs
  · exact h.of_view rfl

theorem tickFetch (h : s.HoldsAgree) (w : Nat) : (s.tickFetch w).HoldsAgree := h.of_view (by simp [holdsView])

theorem tickTimers (h : s.HoldsAgree) (hs : s.Sound) : s.tickTimers.HoldsAgree :=
  (State.tickTimers_preserves (fun s => s.HoldsAgree ∧ s.Sound) (fun _ h => ⟨h.1.tickAnnounce, h.2.tickAnnounce⟩)
    (fun _ n h => ⟨h.1.tickSilence n, h.2.tickSilence n⟩) (fun _ h => ⟨h.1.tickAnswer h.2, h.2.tickAnswer⟩)
    (fun _ w h => ⟨h.1.tickLease h.2 w, h.2.tickLease w⟩) (fun _ w h => ⟨h.1.tickFetch w, h.2.tickFetch w⟩) ⟨h, hs⟩).1

theorem tickLine (h : s.HoldsAgree) (hs : s.Sound) (hl : s.LineAgrees) : s.tickLine.HoldsAgree := by
  unfold State.tickLine
  split
  · unfold State.tickIdle
    dsimp only
    have hm := State.HoldsAgree.meetSync
      (s := { s with line.count := s.line.count + 1, line.silence := s.line.silence + 1 }) (h.of_view rfl)
    (repeat' split) <;> first | exact hm | exact hm.completeGap | exact hm.reachSilence | exact hm.completeGap.reachSilence
  · unfold State.tickSlot
    dsimp only
    (repeat' split) <;>
      first | exact h.takeOpportunity.of_view rfl | exact h.of_view rfl | exact h.takeOpportunity.restartCycle
            | exact h.restartCycle
  · exact h
  · unfold State.tickFrame
    dsimp only
    have hc : State.HoldsAgree { s with line.count := s.line.count + 1 } := h.of_view rfl
    (repeat' split) <;> first | exact hc | exact hc.endFrame _
  · unfold State.tickVerdict
    dsimp only
    have hc : State.HoldsAgree { s with line.count := s.line.count + 1, line.silence := s.line.silence + 1 } := h.of_view rfl
    split
    · exact hc.endVerdict (hs.withLine _) ⟨hl.halted, hl.driving, hl.sent⟩ _
    · exact hc
  · unfold State.tickStuck
    dsimp only
    have hc : State.HoldsAgree { s with line.count := s.line.count + 1, line.silence := s.line.silence + 1 } := h.of_view rfl
    split
    · exact hc.freeLine
    · exact hc

/-! ### Memory completions and the local port -/

theorem releaseMemory (h : s.HoldsAgree) : s.releaseMemory.HoldsAgree := h.of_view rfl

theorem applyEntry (h : s.HoldsAgree) (e : Inbound) (rest : List Inbound) : (s.applyEntry e rest).HoldsAgree := h.of_view rfl

theorem zeroRanges (h : s.HoldsAgree) : s.zeroRanges.HoldsAgree := h.of_view rfl

theorem zeroFilled (h : s.HoldsAgree) : s.zeroFilled.HoldsAgree := h.of_view (by simp [holdsView])

theorem reportApplied (h : s.HoldsAgree) (e : Inbound) : (s.reportApplied e).HoldsAgree := h.of_view (by simp [holdsView])

theorem storeChunk (h : s.HoldsAgree) (r : FillRead) : (s.storeChunk r).HoldsAgree := by
  unfold State.storeChunk; split; exacts [h, h.of_view rfl]

theorem handBurst (h : s.HoldsAgree) (data : List Byte) (fresh discard : Bool) :
    (s.handBurst data fresh discard).HoldsAgree := by
  unfold State.handBurst State.deliver
  (repeat' split) <;> exact h.of_view rfl

theorem finishWithdrawn (h : s.HoldsAgree) : s.finishWithdrawn.HoldsAgree := h.of_view (by simp [holdsView])

theorem beginRead (h : s.HoldsAgree) (first : Word) : (s.beginRead first).HoldsAgree := by
  unfold State.beginRead State.requestSnapshot State.deliver
  (repeat' split)
  · exact h.of_view (by simp [holdsView])
  · exact h.of_view rfl
  · exact h.of_view rfl

theorem openSelection (h : s.HoldsAgree) : s.openSelection.HoldsAgree := by
  unfold State.openSelection
  split
  · rename_i hc
    simp only [Bool.and_eq_true, Bool.not_eq_true'] at hc
    exact { h with reset := fun hr => by rw [hc.1] at hr; cases hr
                   inflight := fun hn g hg => (h.inflight hn g hg).of_eq rfl rfl }
  · exact h

theorem closePort (h : s.HoldsAgree) : s.closePort.HoldsAgree :=
  { h with reset := fun hr => ⟨(h.reset hr).1, rfl⟩
           inflight := fun hn g hg => (h.inflight hn g hg).of_eq rfl rfl }

theorem cutCommand (h : s.HoldsAgree) (shifted : Nat) : (s.cutCommand shifted).HoldsAgree := by
  unfold State.cutCommand
  (repeat' split) <;> exact h.of_view rfl

theorem writeByte (h : s.HoldsAgree) (b : Byte) : (s.writeByte b).HoldsAgree := by
  unfold State.writeByte
  (repeat' split)
  · exact h.of_view rfl
  · exact h.of_view rfl
  · exact h.of_view rfl
  · rename_i ha _ _ hp
    exact (h.placeByte (by simpa [State.isActive] using ha) hp).of_view rfl
  · exact h.of_view rfl

/-- A response changes the port's own registers alone. -/
theorem answer (h : s.HoldsAgree) (result : Result) (response : List Byte) : (s.answer result response).HoldsAgree :=
  h.of_view rfl

theorem hostRefetch (h : s.HoldsAgree) (w : Nat) : (s.hostRefetch w).1.HoldsAgree := by
  unfold State.hostRefetch
  (repeat' split) <;> first | exact h | exact h.of_view (by simp [holdsView, State.restartFill, State.setCopy])

theorem hostLoad (h : s.HoldsAgree) (index : Nat) (loaded : Option Entry) : (s.hostLoad index loaded).1.HoldsAgree :=
  h.of_view (by simp [holdsView])

theorem startStation (h : s.HoldsAgree) (hr : s.pins.rstAsserted = false) : s.startStation.HoldsAgree := by
  refine h.of_blank hr (by simp [State.startStation, State.startTable, State.startLine, State.startMemory])
    (by simp [State.startStation]) (by simp [State.startStation]) (fun g hg => ?_) (by simp [State.startStation]) ?_
  · simp only [State.startStation, State.moveTo_frame, State.clearRoster_frame, State.clearCopies_frame,
      State.clearService_frame, State.resetTurn_frame, State.clearControl_frame, State.startTable, freshGuards] at hg
    obtain ⟨w, -, rfl⟩ := List.mem_map.1 hg
    rfl
  · simp [State.startStation, State.clearRoster, State.clearCopies, State.mapCopies, State.clearService, State.emptyChunk,
      State.discardFillRead, State.resetTurn, State.clearControl]

theorem hostStart (h : s.HoldsAgree) (hsel : s.port.selected = true) : s.hostStart.HoldsAgree := by
  have hr : s.pins.rstAsserted = false := by
    cases hrst : s.pins.rstAsserted with
    | false => rfl
    | true => have := (h.reset hrst).2; rw [hsel] at this; cases this
  unfold State.hostStart
  (repeat' split)
  · exact h.of_view rfl
  · exact h.of_view rfl
  · exact (h.startStation hr).of_view rfl

theorem hostLeave (h : s.HoldsAgree) : s.hostLeave.1.HoldsAgree := by
  unfold State.hostLeave
  split
  · exact h
  · exact h.stop _
  · exact h.stop _
  · exact h.stop _
  · exact h.leaveGroup (.inl (by assumption))
  · exact h.leaveGroup (.inr (by assumption))
  · exact h

end State.HoldsAgree

end Sys2Proof.Machine
end

