-- ==== Sys2Proof/Laws/OnLine.lean ====
section
/-! SUPPORT. Every shared operation keeps the line interface, the receiver and the in-flight frame in agreement: one lemma an
operation, named so that they chain as the operations do. -/

namespace Sys2Proof.Machine

variable {s t : State}

/-- Neither a frame of its own nor a verdict window is under way, and in STOPPED the line interface rests. -/
structure State.OffLine (s : State) : Prop where
  frame : s.line.state ≠ .transmitting
  window : s.line.state ≠ .verdict
  halted : s.ctl.state = .stopped → s.line.state = .idleGap

theorem State.OffLine.agrees (h : s.OffLine) : s.LineAgrees :=
  ⟨h.halted, fun hd => absurd hd h.frame, fun hv => absurd hv h.window⟩

namespace State.OffLine

theorem of_eq (h : s.OffLine) (hl : t.line.state = s.line.state) (hc : t.ctl.state = .stopped → s.ctl.state = .stopped) :
    t.OffLine :=
  ⟨by rw [hl]; exact h.frame, by rw [hl]; exact h.window, fun hs => by rw [hl]; exact h.halted (hc hs)⟩

/-- An operation that leaves the line interface and the controller alone. -/
theorem of_units (h : s.OffLine) (hl : t.line = s.line) (hc : t.ctl = s.ctl) : t.OffLine :=
  h.of_eq (by rw [hl]) (by rw [hc]; exact id)

/-- A transition to a state other than STOPPED. -/
theorem of_state (h : s.OffLine) (hl : t.line.state = s.line.state) (hc : t.ctl.state ≠ .stopped) : t.OffLine :=
  h.of_eq hl fun hs => absurd hs hc

theorem stop (s : State) (reason : Reason) : (s.stop reason).OffLine := by
  have hl : (s.stop reason).line.state = .idleGap := by simp [State.stop, State.haltLine, Line.reset]
  exact ⟨by rw [hl]; simp, by rw [hl]; simp, fun _ => hl⟩

theorem joinFailed (h : s.OffLine) : s.joinFailed.OffLine :=
  h.of_state (by simp [State.joinFailed]) (by simp [State.joinFailed])

theorem rejoin (h : s.OffLine) (reason : Reason) : (s.rejoin reason).OffLine :=
  h.of_state (by simp) (by simp [State.rejoin, State.enterJoining])

theorem enterMuted (h : s.OffLine) : s.enterMuted.OffLine := h.of_state (by simp) (by simp [State.enterMuted])

theorem enterIncompatible (h : s.OffLine) (reason : Reason) : (s.enterIncompatible reason).OffLine :=
  h.of_state (by simp) (by simp [State.enterIncompatible])

theorem enterJoining (h : s.OffLine) (reason : Reason) : (s.enterJoining reason).OffLine :=
  h.of_state (by simp [State.enterJoining]) (by simp [State.enterJoining])

theorem offerDue (h : s.OffLine) : s.offerDue.OffLine := h.of_units (by simp) (by simp)

theorem settleMemory (h : s.OffLine) : s.settleMemory.OffLine := h.of_units (by simp) (by simp)

theorem postAll (h : s.OffLine) (os : List OutcomeRecord) : (s.postAll os).OffLine := h.of_units (by simp) (by simp)

theorem foundingTest (h : s.OffLine) : s.foundingTest.OffLine := by
  unfold State.foundingTest
  split
  · exact h.of_state (by simp [State.found]) (by simp [State.found])
  · exact h.of_eq rfl id

theorem leaveSource (h : s.OffLine) (f : InFlight) : (s.leaveSource f).OffLine := h.of_units (by simp) (by simp)

theorem abandonWith (h : s.OffLine) (f : InFlight) (reason : AbandonReason) : (s.abandonWith f reason).OffLine :=
  h.of_units (by simp) (by simp)

theorem abandonAttempts (h : s.OffLine) (f : InFlight) : (s.abandonAttempts f).OffLine := by
  have hg := h.abandonWith f .attempts
  unfold State.abandonAttempts
  dsimp only
  (repeat' split) <;>
    first
    | exact hg
    | exact hg.joinFailed
    | exact State.OffLine.stop _ _
    | exact hg.of_units (by simp) (by simp)

theorem reportLost (h : s.OffLine) : s.reportLost.OffLine := by
  unfold State.reportLost
  (repeat' split)
  · exact h
  · exact h.abandonWith _ _
  · exact h.of_units (by simp) (by simp)

theorem reportFailed (h : s.OffLine) (faulted : Bool) : (s.reportFailed faulted).OffLine := by
  unfold State.reportFailed
  split
  · exact h
  · (repeat' split)
    · exact h.abandonWith _ _
    · exact h.of_units (by simp) (by simp)
    · exact h.of_eq (by simp) (by simp)
    · exact h.abandonAttempts _

theorem finishAbandon (h : s.OffLine) : s.finishAbandon.OffLine := by
  have hd : State.OffLine { s with ctl.abandonDue := false } := h.of_eq rfl id
  unfold State.finishAbandon
  (repeat' split)
  · exact hd.abandonAttempts _
  · exact hd
  · exact h

theorem settle (h : s.OffLine) (rejected : Bool) : (s.settle rejected).OffLine := by
  unfold State.settle
  split
  · exact h
  · rename_i f _
    have hl := h.leaveSource f
    (repeat' split) <;>
      first | exact hl | exact hl.postAll _ | exact State.OffLine.stop _ _ | exact hl.of_units (by simp) (by simp)

theorem acceptTimers (h : s.OffLine) (sender : Nat) (sent : Bool) : (s.acceptTimers sender sent).OffLine := by
  unfold State.acceptTimers
  dsimp only
  (repeat' split) <;> exact h.of_eq rfl id

theorem acceptCensus (h : s.OffLine) (sender : Nat) (sig : Word) (map : List RosterStatus) (groups : List (List Nat)) :
    (s.acceptCensus sender sig map groups).OffLine := by
  unfold State.acceptCensus
  (repeat' split)
  · exact h.enterIncompatible _
  · exact h.of_units (by simp) (by simp)
  · exact h.of_state (by simp) (by simp [State.installCensus])
  · exact h.of_units (by simp) (by simp)
  · exact h.of_units (by simp) (by simp)

theorem acceptDepart (h : s.OffLine) (subject : Nat) : (s.acceptDepart subject).OffLine := by
  have hg : ((s.strip subject).setAbsent subject).OffLine := h.of_units (by simp) (by simp)
  unfold State.acceptDepart
  dsimp only
  split
  · unfold State.departSelf
    split
    · exact State.OffLine.stop _ _
    · exact hg.rejoin _
    · exact hg.rejoin _
    all_goals exact hg
  · exact hg

theorem acceptBody (h : s.OffLine) (sender : Nat) (sent : Bool) (b : Body) : (s.acceptBody sender sent b).OffLine := by
  cases b with
  | census sig map groups => exact h.acceptCensus _ _ _ _
  | depart p r => exact h.acceptDepart _
  | presence m sig =>
    refine h.of_eq (by simp [State.acceptBody]) ?_
    simp only [State.acceptBody]
    unfold State.acceptPresence State.acceptJoin State.startAnswer
    (repeat' split) <;> simp
  | _ => exact h.of_units (by simp [State.acceptBody]) (by simp [State.acceptBody])

theorem acceptEffect (h : s.OffLine) (sender : Nat) (sent : Bool) (body : Option Body) :
    (s.acceptEffect sender sent body).OffLine := by
  unfold State.acceptEffect
  (repeat' split)
  · rename_i b _
    exact State.OffLine.of_units (h.acceptBody sender sent b) (by simp) (by simp)
  · exact h
  · exact h

theorem accept (h : s.OffLine) (sender : Nat) (sent : Bool) (body : Option Body) : (s.accept sender sent body).OffLine := by
  have ht := h.acceptTimers sender sent
  unfold State.accept
  dsimp only
  (repeat' split)
  · exact ht.enterIncompatible _
  · exact (ht.acceptEffect _ _ _).settle _
  · exact ht.acceptEffect _ _ _

theorem windowVoided (h : s.OffLine) (f : RxFrame) : (s.windowVoided f).OffLine := by
  unfold State.windowVoided
  dsimp only
  have h1 : (if f.sending then s.reportFailed false else s).OffLine := by
    split
    · exact h.reportFailed _
    · exact h
  have h2 : (if s.ctl.state = .muted then
      { (if f.sending then s.reportFailed false else s) with rx.cleanRun := 0 }
      else (if f.sending then s.reportFailed false else s)).OffLine := by
    split
    · exact h1.of_eq rfl id
    · exact h1
  split
  · exact h2.enterMuted
  · exact h2

theorem overhear (h : s.OffLine) (f : RxFrame) : (s.overhear f).OffLine := by
  have hh : (s.hearReference f).OffLine := h.of_eq rfl id
  unfold State.overhear
  dsimp only
  split
  · split
    · exact hh.enterJoining _
    · exact hh
  · (repeat' split)
    · exact h.of_eq rfl id
    · exact h.of_eq rfl id
    · exact State.OffLine.rejoin (s := { s.hearReference f with rx.cleanRun := Config.cleanLimit }) (h.of_eq rfl id) _
  all_goals exact hh

theorem windowAccepted (h : s.OffLine) (f : RxFrame) : (s.windowAccepted f).OffLine := by
  have hc : State.OffLine { s with rx.objectionRun := 0 } := h.of_eq rfl id
  unfold State.windowAccepted
  dsimp only
  split
  · exact hc.accept _ _ _
  · exact hc.overhear f

theorem afterWindow (h : s.OffLine) : s.afterWindow.OffLine := by
  have hd : s.deferredFounding.OffLine := by
    unfold State.deferredFounding
    split
    · exact h.foundingTest
    · exact h
  exact hd.finishAbandon.offerDue.settleMemory

/-- After the end of a verdict window nothing is under way on the line. -/
theorem endWindow (s : State) (f : RxFrame) (samples : BitVec 20) : (s.endWindow f samples).OffLine := by
  have hg : (s.beginGap (f.voidedBy samples)).OffLine := ⟨by simp [State.beginGap], by simp [State.beginGap], fun _ => rfl⟩
  unfold State.endWindow
  dsimp only
  split
  · exact (hg.windowVoided f).afterWindow
  · exact (hg.windowAccepted f).afterWindow

end State.OffLine

/-! ### The line interface -/

namespace State.LineAgrees

/-- An operation that leaves the line state, the station state, the held frame and the in-flight frame. -/
theorem of_view (h : s.LineAgrees) (hc : t.ctl.state = s.ctl.state) (hl : t.line.state = s.line.state)
    (hr : t.rx.frame = s.rx.frame) (hi : t.sched.inflight = s.sched.inflight) : t.LineAgrees :=
  ⟨by rw [hc, hl]; exact h.halted, by rw [hl, hi]; exact h.driving, by rw [hl, hr, hi]; exact h.sent⟩

/-- A following station whose line interface is in another state than TRANSMITTING and VERDICT is off the line. -/
theorem offLine (h : s.LineAgrees) (hf : s.line.state ≠ .transmitting) (hv : s.line.state ≠ .verdict) : s.OffLine :=
  ⟨hf, hv, h.halted⟩

theorem endVerdict (h : s.LineAgrees) (samples : BitVec 20) : (s.endVerdict samples).LineAgrees := by
  unfold State.endVerdict
  (repeat' split)
  · exact (State.OffLine.endWindow _ _ _).agrees
  · exact h
  · exact h

theorem endFrame (h : s.LineAgrees) (samples : List CharSamples) : (s.endFrame samples).LineAgrees := by
  have running : ∀ state, state ≠ LineState.idleGap → s.line.state = state → s.ctl.state ≠ .stopped :=
    fun state hn hl hc => hn (hl ▸ h.halted hc)
  unfold State.endFrame
  split
  · rename_i hl
    exact ⟨fun hc => absurd hc (running _ (by simp) hl), fun hd => by simp [State.beginVerdict] at hd, fun _ f hf hsend => by
      simp only [State.beginVerdict, Option.some.injEq] at hf
      subst hf
      simp [State.receiveFrame] at hsend⟩
  · split
    · rename_i hl
      split
      · rename_i g hg
        exact ⟨fun hc => absurd hc (running _ (by simp) hl), fun hd => by simp [State.beginVerdict] at hd,
          fun _ f hf _ => ⟨g, hg, h.driving hl g hg, by simpa [State.beginVerdict] using hf.symm⟩⟩
      · exact h
    · exact h

/-- An event of the line interface after which neither a frame of its own nor a verdict window is under way. -/
theorem of_follows (hs : s.follows = true) (hc : t.ctl.state = s.ctl.state) (hf : t.line.state ≠ .transmitting)
    (hv : t.line.state ≠ .verdict) : t.LineAgrees :=
  State.OffLine.agrees ⟨hf, hv, fun h => by simp [State.follows, ← hc, h] at hs⟩

theorem strayLevel (h : s.LineAgrees) : s.strayLevel.LineAgrees := by
  unfold State.strayLevel
  (repeat' split) <;> exact h.of_view rfl rfl rfl rfl

theorem senseStart (h : s.LineAgrees) : s.senseStart.LineAgrees := by
  unfold State.senseStart
  split
  · rename_i hc
    simp only [Bool.and_eq_true] at hc
    exact of_follows hc.1 rfl (by simp [State.beginReceiving]) (by simp [State.beginReceiving])
  · exact h.strayLevel

theorem meetSync (h : s.LineAgrees) : s.meetSync.LineAgrees := by
  unfold State.meetSync
  split <;> exact h.of_view rfl rfl rfl rfl

theorem completeGap (h : s.LineAgrees) : s.completeGap.LineAgrees := by
  unfold State.completeGap
  split
  · rename_i hc
    simp only [Bool.and_eq_true, beq_iff_eq] at hc
    split
    · exact of_follows hc.1.1 rfl (by simp [Line.beginSlots]) (by simp [Line.beginSlots])
    · exact h.of_view rfl rfl rfl rfl
  · exact h

theorem restartCycle (h : s.LineAgrees) : s.restartCycle.LineAgrees := by
  unfold State.restartCycle
  split <;> exact h.of_view rfl rfl rfl rfl

theorem reachSilence (h : s.LineAgrees) : s.reachSilence.LineAgrees := by
  unfold State.reachSilence
  dsimp only
  split
  · rename_i hc
    simp only [Bool.and_eq_true] at hc
    have ho : State.OffLine { s with line := { s.line.beginSlots with
        reference := some Config.silentReference, silence := Config.silenceTicks } } :=
      ⟨by simp [Line.beginSlots], by simp [Line.beginSlots], fun hs => by
        simp only [State.follows, bne_iff_ne] at hc
        exact absurd hs hc.1.1⟩
    split
    · exact (ho.enterJoining _).agrees
    · exact ho.agrees
  · exact h

theorem becomeStuck (h : s.LineAgrees) : s.becomeStuck.LineAgrees := by
  unfold State.becomeStuck
  split
  · rename_i hc
    simp only [Bool.and_eq_true] at hc
    exact of_follows hc.1 rfl (by simp) (by simp)
  · exact h

theorem freeLine (h : s.LineAgrees) : s.freeLine.LineAgrees := by
  unfold State.freeLine
  split
  · rename_i hc
    simp only [Bool.and_eq_true] at hc
    refine of_follows hc.1 rfl ?_ ?_ <;> dsimp only <;> split <;> simp [Line.beginSlots]
  · exact h

/-! ### The transmit opportunity -/

theorem supply (hs : s.ctl.state ≠ .stopped) (source : Source) (frame : Frame) (attempts : Nat) :
    (s.supply source frame attempts).LineAgrees :=
  ⟨fun h => absurd h hs, fun _ g hg => by simp only [State.supply, Option.some.injEq] at hg; rw [← hg],
    fun hv => by simp [State.supply] at hv⟩

theorem supplyFill (hs : s.ctl.state ≠ .stopped) (e : Service) (attempts : Nat) : (s.supplyFill e attempts).LineAgrees := by
  unfold State.supplyFill
  dsimp only
  split
  · exact supply hs _ _ _
  · exact supply (by simpa [State.grantFillRead] using hs) _ _ _

/-- An opportunity puts a frame on the line as the frame in flight, or leaves the station off the line. -/
theorem atOpportunity (h : s.OffLine) (hs : s.ctl.state ≠ .stopped) : s.atOpportunity.LineAgrees := by
  unfold State.atOpportunity
  split
  · exact h.agrees
  · split
    · split
      · exact (h.abandonWith _ _).agrees
      · unfold State.resupply
        (repeat' split) <;> first | exact supply hs _ _ _ | exact supplyFill hs _ _ | exact h.agrees
    · have ho (c : List ControlEntry) : State.OffLine { s with sched.control := c } := h.of_units rfl rfl
      unfold State.select State.selectByTurn State.selectPublication State.selectFill
      dsimp only
      (repeat' split) <;>
        first | exact (ho _).agrees | exact supply (by exact hs) _ _ _ | exact supplyFill (by exact hs) _ _

theorem takeOpportunity (h : s.LineAgrees) : s.takeOpportunity.LineAgrees := by
  unfold State.takeOpportunity
  split
  · rename_i hm
    simp only [State.mayTransmit, Bool.and_eq_true, beq_iff_eq] at hm
    have hs : s.ctl.state ≠ .stopped := fun hc => by simp [State.isMember, StationState.isMember, hc] at hm
    have ho : State.OffLine { s with line.slot := s.ownSlot.getD 0, line.offered := true } :=
      (h.offLine (by simp [hm]) (by simp [hm])).of_eq rfl id
    exact (atOpportunity ho hs).of_view (by simp) (by simp) (by simp) (by simp)
  · exact h

theorem drives_transmitting {p : Frame → Bool} (h : s.drivenFrame.any p = true) : s.line.state = .transmitting := by
  unfold State.drivenFrame at h
  split at h
  · assumption
  · simp at h

theorem withdrawFrame (h : s.LineAgrees) (hl : s.line.state = .transmitting) : s.withdrawFrame.OffLine :=
  ⟨by simp [State.withdrawFrame], by simp [State.withdrawFrame], fun hs => by
    have := h.halted hs
    simp [hl] at this⟩

theorem loseArbitration (h : s.LineAgrees) (bit : Nat) : (s.loseArbitration bit).LineAgrees := by
  unfold State.loseArbitration
  split
  · exact (h.withdrawFrame (drives_transmitting ‹_›)).reportLost.offerDue.settleMemory.agrees
  · exact h

theorem faultLine (h : s.LineAgrees) (bit : Nat) : (s.faultLine bit).LineAgrees := by
  unfold State.faultLine
  split
  · exact ((h.withdrawFrame (drives_transmitting ‹_›)).reportFailed true).offerDue.settleMemory.agrees
  · exact h

/-! ### Timers and the passing of one ct -/

/-- The units other than the line interface, the receiver, the scheduler and the controller play no part. -/
theorem of_units (h : s.LineAgrees) (hc : t.ctl = s.ctl) (hl : t.line = s.line) (hr : t.rx = s.rx)
    (hi : t.sched.inflight = s.sched.inflight) : t.LineAgrees :=
  h.of_view (by rw [hc]) (by rw [hl]) (by rw [hr]) hi

theorem offerDue (h : s.LineAgrees) : s.offerDue.LineAgrees := h.of_units (by simp) (by simp) (by simp) (by simp)

theorem settleMemory (h : s.LineAgrees) : s.settleMemory.LineAgrees := h.of_units (by simp) (by simp) (by simp) (by simp)

theorem expireAnnounce (h : s.LineAgrees) : s.expireAnnounce.LineAgrees :=
  h.of_units (by simp) (by simp) (by simp) (by simp)

theorem expireSilence (h : s.LineAgrees) (n : Nat) : (s.expireSilence n).LineAgrees :=
  h.of_units (by simp) (by simp) (by simp) (by simp)

theorem expireLease (h : s.LineAgrees) (w : Nat) : (s.expireLease w).LineAgrees :=
  h.of_units (by simp) (by simp) (by simp) (by simp)

theorem expireFetch (h : s.LineAgrees) (w : Nat) : (s.expireFetch w).LineAgrees :=
  h.of_units (by simp) (by simp) (by simp) (by simp)

theorem expireAnswer (h : s.LineAgrees) : s.expireAnswer.LineAgrees := by
  unfold State.expireAnswer
  (repeat' split)
  · exact h.of_view rfl rfl rfl rfl
  · rename_i hb
    simp only [State.lineBusy, Bool.or_eq_true, beq_iff_eq, not_or] at hb
    exact (h.offLine hb.1.2 hb.2).foundingTest.offerDue.settleMemory.agrees
  · exact h

theorem tickAnnounce (h : s.LineAgrees) : s.tickAnnounce.LineAgrees := h.of_units (by simp) (by simp) (by simp) (by simp)

theorem tickSilence (h : s.LineAgrees) (n : Nat) : (s.tickSilence n).LineAgrees :=
  h.of_units (by simp) (by simp) (by simp) (by simp)

theorem tickAnswer (h : s.LineAgrees) : s.tickAnswer.LineAgrees := by
  unfold State.tickAnswer
  split
  · exact h.expireAnswer
  · exact h.of_view rfl rfl rfl rfl

theorem tickLease (h : s.LineAgrees) (w : Nat) : (s.tickLease w).LineAgrees :=
  h.of_units (by simp) (by simp) (by simp) (by simp)

theorem tickFetch (h : s.LineAgrees) (w : Nat) : (s.tickFetch w).LineAgrees :=
  h.of_units (by simp) (by simp) (by simp) (by simp)

theorem tickTimers (h : s.LineAgrees) : s.tickTimers.LineAgrees :=
  State.tickTimers_preserves State.LineAgrees (fun _ h => h.tickAnnounce) (fun _ n h => h.tickSilence n)
    (fun _ h => h.tickAnswer) (fun _ w h => h.tickLease w) (fun _ w h => h.tickFetch w) h

theorem tickLine (h : s.LineAgrees) : s.tickLine.LineAgrees := by
  have hc : State.LineAgrees { s with line.count := s.line.count + 1, line.silence := s.line.silence + 1 } :=
    h.of_view rfl rfl rfl rfl
  unfold State.tickLine
  split
  · unfold State.tickIdle
    dsimp only
    (repeat' split) <;>
      first | exact hc.meetSync | exact hc.meetSync.completeGap | exact hc.meetSync.reachSilence
            | exact hc.meetSync.completeGap.reachSilence
  · unfold State.tickSlot
    dsimp only
    (repeat' split) <;>
      first | exact h.takeOpportunity.of_view rfl rfl rfl rfl | exact h.of_view rfl rfl rfl rfl
            | exact h.takeOpportunity.restartCycle | exact h.restartCycle
  · exact h
  · unfold State.tickFrame
    dsimp only
    have hn : State.LineAgrees { s with line.count := s.line.count + 1 } := h.of_view rfl rfl rfl rfl
    (repeat' split) <;> first | exact hn | exact hn.endFrame _
  · unfold State.tickVerdict
    dsimp only
    split
    · exact hc.endVerdict _
    · exact hc
  · unfold State.tickStuck
    dsimp only
    split
    · exact hc.freeLine
    · exact hc

theorem tick (h : s.LineAgrees) : s.tick.LineAgrees := by
  unfold State.tick
  split
  · exact h.tickTimers.tickLine
  · exact h

/-! ### START and LEAVE -/

theorem hostStart (h : s.LineAgrees) : s.hostStart.LineAgrees := by
  unfold State.hostStart
  (repeat' split)
  · exact h.of_view rfl rfl rfl rfl
  · exact h.of_view rfl rfl rfl rfl
  · have hl : (s.startStation.answerStart .done none).line.state = .idleGap := by
      simp [State.answerStart, State.answer, State.startStation, State.startTable, State.startLine, Line.reset]
    exact State.OffLine.agrees ⟨by rw [hl]; simp, by rw [hl]; simp, fun _ => hl⟩

/-- LEAVE keeps the frame that is on the line in flight (R88, R90). -/
theorem leaveGroup (h : s.LineAgrees) : s.leaveGroup.LineAgrees where
  halted hs := by simp [State.leaveGroup] at hs
  driving hd g hg := by
    rw [State.leaveGroup_inflight] at hg
    exact (Option.filter_eq_some_iff.1 hg).2
  sent hv f hf hsend := by
    obtain ⟨g, hg, hon, hfg⟩ := h.sent (by simpa [State.leaveGroup] using hv) f (by simpa [State.leaveGroup] using hf) hsend
    exact ⟨g, by rw [State.leaveGroup_inflight, State.frameOnLine, hg]; simp [hon], hon, hfg⟩

theorem hostLeave (h : s.LineAgrees) : s.hostLeave.1.LineAgrees := by
  unfold State.hostLeave
  split
  · exact h
  · exact (State.OffLine.stop _ _).agrees
  · exact (State.OffLine.stop _ _).agrees
  · exact (State.OffLine.stop _ _).agrees
  · exact h.leaveGroup
  · exact h.leaveGroup
  · exact h

end State.LineAgrees

/-- One ct keeps the holds in agreement. -/
theorem State.HoldsAgree.tick (h : s.HoldsAgree) (hs : s.Sound) (hl : s.LineAgrees) : s.tick.HoldsAgree := by
  unfold State.tick
  split
  · exact (h.tickTimers hs).tickLine hs.tickTimers hl.tickTimers
  · exact h

end Sys2Proof.Machine
end

