-- ==== Sys2Proof/Laws/Receiver.lean ====
section
/-! SUPPORT. What the frame receiver finds, in the words of R3, R4 and R28 to R32. -/

namespace Sys2Proof.Machine

variable {s : State} {samples : List CharSamples} {chars : List RxChar}

/-! ### The characters of the frame (R3, R4) -/

/-- A received character is the sample group of its position, begun by a start bit. -/
theorem takeStarted_get {i : Nat} {c : RxChar} (h : (takeStarted samples)[i]? = some c) :
    ∃ x : CharSamples, samples[i]? = some x ∧ x.getLsbD 0 = false ∧ c.data = x.extractLsb' 1 8
      ∧ c.framing = !x.getLsbD 9 := by
  unfold takeStarted at h
  rw [List.getElem?_map] at h
  obtain ⟨x, hx, rfl⟩ := Option.map_eq_some_iff.1 h
  obtain ⟨hl, -⟩ := List.getElem?_eq_some_iff.1 hx
  refine ⟨x, ?_, ?_, rfl, rfl⟩
  · obtain ⟨t, ht⟩ := List.takeWhile_prefix (p := startSampled) (l := samples)
    rw [← ht, List.getElem?_append_left hl, hx]
  · simpa [startSampled] using List.mem_takeWhile_imp (List.mem_of_getElem? hx)

/-- After the received characters no start bit appeared. -/
theorem takeStarted_end {x : CharSamples} (h : samples[(takeStarted samples).length]? = some x) :
    x.getLsbD 0 = true := by
  induction samples with
  | nil => simp at h
  | cons y ys ih =>
    unfold takeStarted at h ih
    by_cases hy : startSampled y = true
    · simp [hy] at h
      exact ih (by simpa using h)
    · simp [hy] at h
      subst h
      simpa [startSampled] using hy

theorem expectedLength_iff {n : Nat} :
    expectedLength chars = some n ↔ ∃ c, chars[2]? = some c ∧ n = 5 + min c.data.toNat 132 := by
  match chars with
  | [] => simp [expectedLength]
  | [_] => simp [expectedLength]
  | [_, _] => simp [expectedLength]
  | _ :: _ :: c :: _ => simp [expectedLength, eq_comm]

/-- The frame ends at the length that BODYLEN gives, or short of it. -/
theorem locateEnd_cases (chars : List RxChar) :
    ((locateEnd chars).2 = false ∧ ∃ c, (locateEnd chars).1[2]? = some c
      ∧ (locateEnd chars).1.length = 5 + min c.data.toNat 132 ∧ (locateEnd chars).1 <+: chars)
    ∨ ((locateEnd chars).2 = true ∧ (locateEnd chars).1 = chars
      ∧ ∀ c, chars[2]? = some c → chars.length < 5 + min c.data.toNat 132) := by
  unfold locateEnd
  split
  · rename_i n hn
    obtain ⟨c, hc, rfl⟩ := expectedLength_iff.1 hn
    split
    · rename_i hle
      refine Or.inl ⟨rfl, c, ?_, ?_, List.take_prefix _ _⟩
      · rw [List.getElem?_take, if_pos (by omega), hc]
      · rw [List.length_take]; omega
    · refine Or.inr ⟨rfl, rfl, fun d hd => ?_⟩
      rw [hc] at hd; cases hd; omega
  · rename_i hn
    refine Or.inr ⟨rfl, rfl, fun d hd => ?_⟩
    rw [expectedLength_iff.2 ⟨d, hd, rfl⟩] at hn; cases hn

/-! ### The second tier, the group count, the need of a place (R29 to R32) -/

theorem Entry.chunk_eq (e : Entry) : e.chunk = if e.size = 0 then 64 else 128 := by
  unfold Entry.chunk Entry.bytes
  rcases Nat.eq_zero_or_pos e.size with h | h
  · simp [h]
  · have := Nat.one_lt_two_pow (n := e.size) (by omega)
    rw [if_neg (by omega), if_neg (by omega)]

theorem State.secondTier_iff {b : Body} : s.secondTier b = true ↔ s.InSecondTier b := by
  cases b <;> simp only [State.secondTier, State.InSecondTier, Entry.chunk_eq, Entry.isGuarded,
    Bool.and_eq_true, decide_eq_true_eq, beq_iff_eq] <;> simp only [Entry.bytes]
  tauto

theorem State.groupCountSound_iff {b : Body} : s.groupCountSound b = false ↔
    ∃ map groups, b = .census s.layout.signature map groups ∧ groups.length ≠ ((List.range 16).filter fun w =>
      (s.entry w).enabled && (s.entry w).policy == .guarded).length := by
  have hg : (guardWindows s.layout.table).length = ((List.range 16).filter fun w =>
      (s.entry w).enabled && (s.entry w).policy == .guarded).length := rfl
  rw [← hg]
  unfold State.groupCountSound
  split
  · rename_i sig map groups
    simp only [Bool.or_eq_false_iff, bne_eq_false_iff_eq, beq_eq_false_iff_ne, Body.census.injEq]
    constructor
    · rintro ⟨rfl, h⟩; exact ⟨map, groups, ⟨rfl, rfl, rfl⟩, h⟩
    · rintro ⟨m, g, ⟨rfl, rfl, rfl⟩, h⟩; exact ⟨rfl, h⟩
  · rename_i hne
    constructor
    · intro h; cases h
    · rintro ⟨m, g, h, -⟩; exact absurd h (hne _ _ _)

/-- The form limits that need this station's state (R29, R30). -/
theorem State.formSound_iff {f : Frame} : s.formSound f = false ↔ s.BreaksLayout f := by
  unfold State.formSound State.BreaksLayout
  by_cases hm : s.isMember = true
  · rw [if_pos hm]
    cases hst : s.status f.sender <;> cases ht : s.secondTier f.body <;>
      simp [← State.secondTier_iff, ← State.groupCountSound_iff, hm, ht]
  · rw [if_neg hm]; simp [hm]

/-- The need of a place (R32). -/
theorem State.needsPlace_iff {f : Frame} : s.needsPlace f = true ↔ s.NeedsPlace f := by
  unfold State.needsPlace State.NeedsPlace
  cases hb : f.body <;> cases hs : s.status f.sender <;>
    simp [Body.isPresence, State.passesFilter, hs, State.Queues, State.writeQueues, State.writeValid,
      State.takesChunk, Entry.isMirrored, State.awaitsCensus]
  all_goals first
    | (rename_i w o d; cases hp : (s.entry w).policy <;> simp <;> tauto)
    | tauto

end Sys2Proof.Machine
end

