-- ==== Sys2Proof/Laws/Heard.lean ====
section
/-! SUPPORT. Every shared operation keeps the frame in the verdict window within the second tier for a member that did not
object (R29, R31), and what timers and the transmit opportunity do to the statuses and the line state. -/

namespace Sys2Proof.Machine

variable {s t : State}

/-! ### Statuses -/

/-- A new timer for a station changes no status. -/
theorem State.status_setTimer (s : State) (n v : Nat) (timer : Timer) :
    (s.setEntry n { status := s.status n, timer := timer }).status v = s.status v := by
  simp only [State.status, State.setEntry, List.getD_eq_getElem?_getD]
  by_cases hn : n = v
  · subst hn
    rw [List.getElem?_set_self']
    cases s.roster.entries[n]? <;> rfl
  · rw [List.getElem?_set_ne hn]

@[simp] theorem State.offerDue_status (s : State) (n : Nat) : s.offerDue.status n = s.status n := by simp [State.status]

@[simp] theorem State.settleMemory_status (s : State) (n : Nat) : s.settleMemory.status n = s.status n := by
  simp [State.status]

@[simp] theorem State.expireAnnounce_status (s : State) (n : Nat) : s.expireAnnounce.status n = s.status n := by
  unfold State.expireAnnounce
  split
  · rw [State.offerDue_status]; rfl
  · rfl

@[simp] theorem State.expireSilence_status (s : State) (n v : Nat) : (s.expireSilence n).status v = s.status v := by
  unfold State.expireSilence
  split
  · rw [State.offerDue_status, State.status_setTimer]
  · rfl

@[simp] theorem State.tickAnnounce_status (s : State) (n : Nat) : s.tickAnnounce.status n = s.status n := by
  unfold State.tickAnnounce
  split
  · exact s.expireAnnounce_status n
  · rfl

@[simp] theorem State.tickSilence_status (s : State) (n v : Nat) : (s.tickSilence n).status v = s.status v := by
  unfold State.tickSilence
  (repeat' split)
  · rfl
  · exact s.expireSilence_status n v
  · exact s.status_setTimer n v _

/-- Step 1 of acceptance changes no status (R35). -/
@[simp] theorem State.acceptTimers_status (s : State) (sender : Nat) (sent : Bool) (n : Nat) :
    (s.acceptTimers sender sent).status n = s.status n := by
  unfold State.acceptTimers
  dsimp only
  (repeat' split) <;> first | rfl | exact State.status_setTimer _ _ _ _

/-- An opportunity puts a frame on the line or leaves the line state. -/
theorem State.atOpportunity_line (s : State) :
    s.atOpportunity.line.state = .transmitting ∨ s.atOpportunity.line.state = s.line.state := by
  unfold State.atOpportunity State.resupply State.select State.selectByTurn State.selectPublication State.selectFill
    State.supplyFill
  dsimp only
  (repeat' split) <;> first | exact .inl rfl | exact .inr rfl | exact .inr (by simp)

/-! ### The frame in the verdict window -/

namespace State.HeardAgrees

/-- Off the line no frame is judged. -/
theorem of_offLine (h : t.OffLine) : t.HeardAgrees := fun hv => absurd hv h.window

/-- The line interface is in another state than VERDICT. -/
theorem of_not_verdict (h : t.line.state ≠ .verdict) : t.HeardAgrees := fun hv => absurd hv h

/-- An operation that leaves the line state, the held frame, the table and the statuses, and makes no member. -/
theorem of_view (h : s.HeardAgrees) (hl : t.line.state = s.line.state) (hr : t.rx.frame = s.rx.frame)
    (hm : t.isMember = true → s.isMember = true) (ht : t.layout = s.layout) (hst : ∀ n, t.status n = s.status n) :
    t.HeardAgrees := by
  intro hv f hf hsend hobj hmem p hp hst'
  have := h (hl ▸ hv) f (hr ▸ hf) hsend hobj (hm hmem) p hp (by simpa only [hst] using hst')
  have he : ∀ w, t.entry w = s.entry w := fun w => by simp [State.entry, ht]
  unfold State.InSecondTier at this ⊢
  simpa only [he] using this

/-- The units other than the line interface, the receiver, the layout, the roster and the controller play no part. -/
theorem of_units (h : s.HeardAgrees) (hl : t.line = s.line) (hr : t.rx = s.rx) (hc : t.ctl = s.ctl)
    (ht : t.layout = s.layout) (hst : ∀ n, t.status n = s.status n) : t.HeardAgrees :=
  h.of_view (by rw [hl]) (by rw [hr]) (by simp [State.isMember, hc]) ht hst

/-! ### The line interface -/

theorem strayLevel (h : s.HeardAgrees) : s.strayLevel.HeardAgrees := by
  unfold State.strayLevel
  (repeat' split) <;> exact h.of_view rfl rfl id rfl fun _ => rfl

theorem senseStart (h : s.HeardAgrees) : s.senseStart.HeardAgrees := by
  unfold State.senseStart
  split
  · exact of_not_verdict (by simp [State.beginReceiving])
  · exact h.strayLevel

theorem meetSync (h : s.HeardAgrees) : s.meetSync.HeardAgrees := by
  unfold State.meetSync
  split <;> exact h.of_view rfl rfl id rfl fun _ => rfl

theorem completeGap (h : s.HeardAgrees) : s.completeGap.HeardAgrees := by
  unfold State.completeGap
  split
  · split
    · exact of_not_verdict (by simp [Line.beginSlots])
    · exact h.of_view rfl rfl id rfl fun _ => rfl
  · exact h

theorem restartCycle (h : s.HeardAgrees) : s.restartCycle.HeardAgrees := by
  unfold State.restartCycle
  split <;> exact h.of_view rfl rfl id rfl fun _ => rfl

theorem reachSilence (h : s.HeardAgrees) : s.reachSilence.HeardAgrees := by
  unfold State.reachSilence
  dsimp only
  (repeat' split)
  · exact of_not_verdict (by simp [Line.beginSlots])
  · exact of_not_verdict (by simp [Line.beginSlots])
  · exact h

theorem becomeStuck (h : s.HeardAgrees) : s.becomeStuck.HeardAgrees := by
  unfold State.becomeStuck
  split
  · exact of_not_verdict (by simp)
  · exact h

theorem freeLine (h : s.HeardAgrees) : s.freeLine.HeardAgrees := by
  unfold State.freeLine
  split
  · refine of_not_verdict ?_
    dsimp only
    split <;> simp [Line.beginSlots]
  · exact h

/-- A member that did not object to the frame it received read it within the limits (R29, R31). -/
theorem receiveFrame (s : State) (samples : List CharSamples) :
    (s.receiveFrame samples).objects = false → s.isMember = true →
      ∀ p, parseFrame ((s.receiveFrame samples).chars.map RxChar.data) = some p →
        s.status p.sender = .joined ∨ s.status p.sender = .active → s.InSecondTier p.body := by
  intro hobj hm p hp hst
  unfold State.receiveFrame at hobj hp
  dsimp only at hobj hp
  have hsend : senderOf (locateEnd (takeStarted samples)).1 = p.sender := (parseFrame_sender hp).symm ▸ rfl
  unfold State.objectsTo at hobj
  rw [hm, Bool.true_and, hsend] at hobj
  simp only [Bool.or_eq_false_iff] at hobj
  obtain ⟨⟨⟨hfr, hck⟩, hform⟩, -⟩ := hobj
  simp only [hfr, Bool.not_false, Bool.true_and] at hck
  simp only [hfr, hck, Bool.or_false, Bool.not_false, Bool.true_and, Bool.and_eq_false_iff, bne_eq_false_iff_eq] at hform
  have hform : s.formFault ((locateEnd (takeStarted samples)).1.map RxChar.data) = false := by
    rcases hform with hform | hform
    · exact hform
    · rcases hst with hst | hst <;> simp [hst] at hform
  unfold State.formFault at hform
  rw [hp] at hform
  simp only [Bool.not_eq_false'] at hform
  unfold State.formSound at hform
  rw [if_pos hm] at hform
  rcases hst with hst | hst <;> rw [hst] at hform <;> simp only [Bool.and_eq_true] at hform <;>
    exact State.secondTier_iff.1 hform.1

theorem endFrame (h : s.HeardAgrees) (samples : List CharSamples) : (s.endFrame samples).HeardAgrees := by
  unfold State.endFrame
  split
  · intro _ f hf _ hobj hm p hp hst
    simp only [State.beginVerdict, Option.some.injEq] at hf
    subst hf
    exact receiveFrame s samples hobj hm p hp hst
  · split
    · split
      · intro _ f hf hsend
        simp only [State.beginVerdict, Option.some.injEq] at hf
        subst hf
        cases hsend
      · exact h
    · exact h

theorem endVerdict (h : s.HeardAgrees) (samples : BitVec 20) : (s.endVerdict samples).HeardAgrees := by
  unfold State.endVerdict
  (repeat' split)
  · exact of_offLine (State.OffLine.endWindow _ _ _)
  · exact h
  · exact h

theorem takeOpportunity (h : s.HeardAgrees) : s.takeOpportunity.HeardAgrees := by
  unfold State.takeOpportunity
  split
  · rename_i hm
    simp only [State.mayTransmit, Bool.and_eq_true, beq_iff_eq] at hm
    refine of_not_verdict ?_
    simp only [State.settleMemory_frame, State.offerDue_frame]
    rcases State.atOpportunity_line { s with line.slot := s.ownSlot.getD 0, line.offered := true } with hl | hl
    · rw [hl]; simp
    · rw [hl]; simp [hm]
  · exact h

theorem loseArbitration (h : s.HeardAgrees) (hl : s.LineAgrees) (bit : Nat) : (s.loseArbitration bit).HeardAgrees := by
  unfold State.loseArbitration
  split
  · exact of_offLine (hl.withdrawFrame (State.LineAgrees.drives_transmitting ‹_›)).reportLost.offerDue.settleMemory
  · exact h

theorem faultLine (h : s.HeardAgrees) (hl : s.LineAgrees) (bit : Nat) : (s.faultLine bit).HeardAgrees := by
  unfold State.faultLine
  split
  · exact of_offLine ((hl.withdrawFrame (State.LineAgrees.drives_transmitting ‹_›)).reportFailed true).offerDue.settleMemory
  · exact h

/-! ### Timers and the passing of one ct -/

theorem expireAnnounce (h : s.HeardAgrees) : s.expireAnnounce.HeardAgrees :=
  h.of_units (by simp) (by simp) (by simp) (by simp) (by simp)

theorem expireSilence (h : s.HeardAgrees) (n : Nat) : (s.expireSilence n).HeardAgrees :=
  h.of_units (by simp) (by simp) (by simp) (by simp) (by simp)

theorem expireLease (h : s.HeardAgrees) (w : Nat) : (s.expireLease w).HeardAgrees :=
  h.of_units (by simp) (by simp) (by simp) (by simp) (by simp [State.status])

theorem expireFetch (h : s.HeardAgrees) (w : Nat) : (s.expireFetch w).HeardAgrees :=
  h.of_units (by simp) (by simp) (by simp) (by simp) (by simp [State.status])

theorem expireAnswer (h : s.HeardAgrees) (hl : s.LineAgrees) : s.expireAnswer.HeardAgrees := by
  unfold State.expireAnswer
  (repeat' split)
  · exact h.of_view rfl rfl id rfl fun _ => rfl
  · rename_i hb
    simp only [State.lineBusy, Bool.or_eq_true, beq_iff_eq, not_or] at hb
    exact of_offLine (hl.offLine hb.1.2 hb.2).foundingTest.offerDue.settleMemory
  · exact h

theorem tickAnswer (h : s.HeardAgrees) (hl : s.LineAgrees) : s.tickAnswer.HeardAgrees := by
  unfold State.tickAnswer
  split
  · exact h.expireAnswer hl
  · exact h.of_view rfl rfl id rfl fun _ => rfl

theorem tickTimers (h : s.HeardAgrees) (hl : s.LineAgrees) : s.tickTimers.HeardAgrees :=
  (State.tickTimers_preserves (fun s => s.HeardAgrees ∧ s.LineAgrees)
    (fun _ h => ⟨h.1.of_units (by simp) (by simp) (by simp) (by simp) (by simp), h.2.tickAnnounce⟩)
    (fun _ n h => ⟨h.1.of_units (by simp) (by simp) (by simp) (by simp) (by simp), h.2.tickSilence n⟩)
    (fun _ h => ⟨h.1.tickAnswer h.2, h.2.tickAnswer⟩)
    (fun _ w h => ⟨h.1.of_units (by simp) (by simp) (by simp) (by simp) (by simp [State.status]), h.2.tickLease w⟩)
    (fun _ w h => ⟨h.1.of_units (by simp) (by simp) (by simp) (by simp) (by simp [State.status]), h.2.tickFetch w⟩)
    ⟨h, hl⟩).1

theorem tickLine (h : s.HeardAgrees) : s.tickLine.HeardAgrees := by
  have hc : State.HeardAgrees { s with line.count := s.line.count + 1, line.silence := s.line.silence + 1 } :=
    h.of_view rfl rfl id rfl fun _ => rfl
  unfold State.tickLine
  split
  · unfold State.tickIdle
    dsimp only
    (repeat' split) <;>
      first | exact hc.meetSync | exact hc.meetSync.completeGap | exact hc.meetSync.reachSilence
            | exact hc.meetSync.completeGap.reachSilence
  · unfold State.tickSlot
    dsimp only
    (repeat' split) <;>
      first | exact h.takeOpportunity.of_view rfl rfl id rfl fun _ => rfl | exact h.of_view rfl rfl id rfl fun _ => rfl
            | exact h.takeOpportunity.restartCycle | exact h.restartCycle
  · exact h
  · unfold State.tickFrame
    dsimp only
    have hn : State.HeardAgrees { s with line.count := s.line.count + 1 } := h.of_view rfl rfl id rfl fun _ => rfl
    (repeat' split) <;> first | exact hn | exact hn.endFrame _
  · unfold State.tickVerdict
    dsimp only
    split
    · exact hc.endVerdict _
    · exact hc
  · unfold State.tickStuck
    dsimp only
    split
    · exact hc.freeLine
    · exact hc

theorem tick (h : s.HeardAgrees) (hl : s.LineAgrees) : s.tick.HeardAgrees := by
  unfold State.tick
  split
  · exact (h.tickTimers hl).tickLine
  · exact h

/-! ### The host -/

theorem hostStart (h : s.HeardAgrees) : s.hostStart.HeardAgrees := by
  unfold State.hostStart
  (repeat' split)
  · exact h.of_view rfl rfl id rfl fun _ => rfl
  · exact h.of_view rfl rfl id rfl fun _ => rfl
  · exact of_not_verdict (by
      simp [State.answerStart, State.answer, State.startStation, State.startTable, State.startLine, Line.reset])

theorem leaveGroup (h : s.HeardAgrees) (hm : s.isMember = true) : s.leaveGroup.HeardAgrees :=
  h.of_view (by simp [State.leaveGroup]) (by simp [State.leaveGroup]) (fun _ => hm) (by simp [State.leaveGroup])
    (by simp [State.leaveGroup, State.status])

theorem hostLeave (h : s.HeardAgrees) : s.hostLeave.1.HeardAgrees := by
  unfold State.hostLeave
  split
  · exact h
  · exact of_offLine (State.OffLine.stop _ _)
  · exact of_offLine (State.OffLine.stop _ _)
  · exact of_offLine (State.OffLine.stop _ _)
  · exact h.leaveGroup (by simp [State.isMember, StationState.isMember, *])
  · exact h.leaveGroup (by simp [State.isMember, StationState.isMember, *])
  · exact h

/-- LOAD ENTRY changes the table in STOPPED only, with nothing on the line (R6, R47). -/
theorem hostLoad (h : s.HeardAgrees) (hl : s.LineAgrees) (index : Nat) (loaded : Option Entry) :
    (s.hostLoad index loaded).1.HeardAgrees := by
  unfold State.hostLoad
  (repeat' split)
  · exact h
  · exact h
  · rename_i hs _ _ _
    refine of_not_verdict ?_
    have : s.line.state = .idleGap := hl.halted (by simpa using hs)
    simp [State.setTableEntry, this]
  · exact h

end State.HeardAgrees

end Sys2Proof.Machine
end

