-- ==== Sys2Proof/Laws/WindowEnd.lean ====
section
/-! SUPPORT. The end of a verdict window cut into its cases: a voided frame of another station or of this one, an
accepted frame of another station or of this one, and a frame overheard. Statements about acceptance go through these. Also
a sixteenth failed attempt, the offers due, and what acceptance does to silence timers. -/

namespace Sys2Proof.Machine

variable {s : State} {f : RxFrame} {g : InFlight} {frame : Frame} {samples : BitVec 20}

@[simp] theorem InFlight.ownFrame_marks (g : InFlight) :
    g.ownFrame.sending = true ∧ g.ownFrame.objects = false ∧ g.ownFrame.framing = false ∧ g.ownFrame.check = false
      ∧ g.ownFrame.form = false := ⟨rfl, rfl, rfl, rfl, rfl⟩

@[simp] theorem InFlight.ownFrame_bytes (g : InFlight) : g.ownFrame.chars.map RxChar.data = g.frame.bytes := by
  simp [InFlight.ownFrame, Function.comp_def]

theorem RxFrame.voidedBy_of (h : f.objects = true ∨ samples ≠ allRecessive) :
    f.voidedBy samples = true := by
  have key : samples &&& f.ownLevels = allRecessive → samples = allRecessive ∧ f.ownLevels = allRecessive :=
    BitVec.and_eq_allOnes_iff.1
  simp only [RxFrame.voidedBy, bne_iff_ne]
  intro hv
  rcases h with h | h
  · have hl := (key hv).2
    rw [RxFrame.ownLevels, if_pos h] at hl
    exact absurd hl (by decide)
  · exact h (key hv).1

theorem RxFrame.not_voidedBy (h : f.objects = false) : f.voidedBy allRecessive = false := by
  have hl : f.ownLevels = allRecessive := by simp [RxFrame.ownLevels, h]
  rw [RxFrame.voidedBy, hl]; decide

theorem senderOf_read (h : parseFrame (f.chars.map RxChar.data) = some frame) : senderOf f.chars = frame.sender :=
  (parseFrame_sender h).symm ▸ rfl

theorem senderOf_ownFrame (h : parseFrame g.frame.bytes = some g.frame) : senderOf g.ownFrame.chars = g.frame.sender :=
  senderOf_read (by simpa using h)

/-- The state in which the verdict of an accepted frame takes effect: the gap has begun, the objection run is 0. -/
def State.gapAccepted (s : State) : State := { s.beginGap false with rx.objectionRun := 0 }

@[simp] theorem State.gapAccepted_frame (s : State) :
    s.gapAccepted.pins = s.pins ∧ s.gapAccepted.layout = s.layout ∧ s.gapAccepted.mirror = s.mirror
      ∧ s.gapAccepted.pub = s.pub ∧ s.gapAccepted.sched = s.sched ∧ s.gapAccepted.claims = s.claims
      ∧ s.gapAccepted.roster = s.roster ∧ s.gapAccepted.refresh = s.refresh ∧ s.gapAccepted.ctl = s.ctl
      ∧ s.gapAccepted.port = s.port ∧ s.gapAccepted.report = s.report ∧ s.gapAccepted.pending = s.pending := by
  simp [State.gapAccepted, State.beginGap]

/-- The end of the window of another station's accepted frame, at a member: acceptance, then what follows a window
(R18, R34). -/
theorem State.Hears.window_end (h : s.Hears f frame) :
    exec (.verdictWindowEnd allRecessive) s =
      .next ((s.gapAccepted.acceptTimers frame.sender false).acceptEffect frame.sender false (some frame.body)).afterWindow := by
  have hm := h.member
  have hv := RxFrame.not_voidedBy h.unobjected
  have ho := h.other
  simp only [State.isMember, State.station] at hm ho
  simp [exec, execVerdictWindowEnd, State.endVerdict, h.window, h.held, State.endWindow, hv, State.windowAccepted, State.isMember,
    State.accept, senderOf_read h.read, h.read, h.received, State.gapAccepted, State.beginGap, hm, ho, State.station]

/-- The end of the window of this station's accepted frame: acceptance, settlement, then what follows a window
(R13, R18, R34, R43). -/
theorem State.Sends.window_end (h : s.Sends g) :
    exec (.verdictWindowEnd allRecessive) s =
      .next (((s.gapAccepted.acceptTimers s.station true).acceptEffect s.station true (some g.frame.body)).settle
        ((s.gapAccepted.acceptTimers s.station true).rejects s.station (some g.frame.body))).afterWindow := by
  have hm := h.member
  have hv := RxFrame.not_voidedBy (f := g.ownFrame) rfl
  have hs := senderOf_ownFrame h.read
  rw [h.sender] at hs
  have hp := h.read
  simp only [State.isMember] at hm
  simp [exec, execVerdictWindowEnd, State.endVerdict, h.window, h.held, State.endWindow, hv, State.windowAccepted, State.isMember,
    State.accept, hs, hp, State.gapAccepted, State.beginGap, hm, State.station]

/-- The end of the window of this station's voided frame: a failed attempt, then what follows a window (R13, R85). -/
theorem State.Sends.window_voided (h : s.Sends g) (hv : samples ≠ allRecessive) :
    exec (.verdictWindowEnd samples) s = .next ((s.beginGap true).reportFailed false).afterWindow := by
  have hm : s.ctl.state ≠ .muted := by
    intro hc; have := h.member; simp [State.isMember, StationState.isMember, hc] at this
  have hv' := RxFrame.voidedBy_of (f := g.ownFrame) (.inr hv)
  simp [exec, execVerdictWindowEnd, State.endVerdict, h.window, h.held, State.endWindow, hv', State.windowVoided, hm]

/-- With nothing put off to the window end, only offers and memory requests follow it (R79, R84). -/
theorem State.afterWindow_eq (hf : s.ctl.foundingDue = false) (ha : s.ctl.abandonDue = false) :
    s.afterWindow = s.offerDue.settleMemory := by
  simp [State.afterWindow, State.deferredFounding, State.finishAbandon, hf, ha]

/-- A sixteenth failed attempt, voided or faulted, that is no transition of the station: the frame is abandoned at its
report (R86). -/
theorem State.Fails.sixteenth {i : Instr} (h : s.Fails g i) (attempts : g.attempts = 15)
    (retried : s.abandonsAtReport g = false) (stays : s.endsState g = false)
    (ctl : ∀ u : State, u.ctl = s.ctl → u.pins = s.pins → (u.abandonAttempts g).ctl = s.ctl) :
    ∃ u : State, u = { s with line := u.line, rx := u.rx } ∧ u.line.reference = s.line.reference
      ∧ exec i s = .next (u.abandonAttempts g).offerDue.settleMemory := by
  have report : ∀ (u : State) faulted, u = { s with line := u.line, rx := u.rx } → s.sched.inflight = some g →
      u.reportFailed faulted = u.abandonAttempts g := by
    intro u faulted hu hi
    have flight : u.sched.inflight = some g := by rw [hu]; exact hi
    have kept : u.abandonsAtReport g = false := by rw [hu]; exact retried
    have still : u.endsState g = false := by rw [hu]; exact stays
    simp [State.reportFailed, flight, kept, still, attempts]
  rcases h with ⟨hs, samples, rfl, hv⟩ | ⟨hw, hf, bit, rfl, hb, hx⟩
  · have same := ctl (s.beginGap true) rfl rfl
    refine ⟨s.beginGap true, rfl, rfl, ?_⟩
    rw [hs.window_voided hv, report _ _ rfl hs.flight,
      State.afterWindow_eq (by rw [same]; exact hs.founding) (by rw [same]; exact hs.abandoning)]
  · refine ⟨s.withdrawFrame, rfl, rfl, ?_⟩
    have fault : g.frame.faultsAt bit = true := by simpa [Frame.faultsAt, hb] using hx
    simp [exec, execLineFault, State.faultLine, State.drivenFrame, hw, hf, fault, report s.withdrawFrame true rfl hf]

/-! ### Standing conditions and silence timers -/

theorem State.anyJoined_iff (s : State) : s.anyJoined = true ↔ ∃ n, s.status n = .joined := by
  simp only [State.anyJoined, List.any_eq_true, State.status, List.getD_eq_getElem?_getD, beq_iff_eq]
  constructor
  · rintro ⟨e, he, h⟩
    obtain ⟨n, hn⟩ := List.mem_iff_getElem?.1 he
    exact ⟨n, by simp [hn, h]⟩
  · rintro ⟨n, hn⟩
    cases h : s.roster.entries[n]? with
    | none => simp [h, RosterEntry.reset] at hn
    | some e => exact ⟨e, List.mem_of_getElem? h, by simpa [h] using hn⟩

theorem State.mem_dueReleases (s : State) (x : ControlEntry) :
    x ∈ s.dueReleases ↔ ∃ w, x = .release w ∧ s.Stands (.release w) := by
  simp only [State.dueReleases, List.mem_map, List.mem_filter, beq_iff_eq, State.Stands]
  constructor
  · rintro ⟨g, ⟨hg, hold⟩, rfl⟩; exact ⟨g.window, rfl, g, hg, rfl, hold⟩
  · rintro ⟨w, rfl, g, hg, rfl, hold⟩; exact ⟨g, ⟨hg, hold⟩, rfl⟩

theorem State.mem_dueDeparts (s : State) (x : ControlEntry) :
    x ∈ s.dueDeparts ↔ ∃ p, x = .depart p ∧ s.Stands (.depart p) := by
  simp only [State.dueDeparts, List.mem_map, List.mem_filter, List.mem_range, beq_iff_eq, State.Stands]
  exact ⟨fun ⟨p, h, e⟩ => ⟨p, e.symm, h⟩, fun ⟨p, e, h⟩ => ⟨p, h, e.symm⟩⟩

theorem State.mem_dueFetches (s : State) (x : ControlEntry) :
    x ∈ s.dueFetches ↔ ∃ w, x = .fetch w ∧ s.Stands (.fetch w) := by
  simp only [State.dueFetches, State.isActive, beq_iff_eq, State.Stands]
  split
  · simp only [List.mem_map, List.mem_filter, List.mem_range]
    exact ⟨fun ⟨w, h, e⟩ => ⟨w, e.symm, ‹_›, h⟩, fun ⟨w, e, _, h⟩ => ⟨w, h, e.symm⟩⟩
  · simp_all

theorem State.mem_duePresence (s : State) (x : ControlEntry) :
    x ∈ s.duePresence ↔ (x = .census ∨ ∃ mode, x = .presence mode) ∧ s.Stands x := by
  have answers : (s.isAnswerer && s.anyJoined) = true ↔ s.Stands .census := by
    simp [State.isAnswerer, State.isActive, State.anyJoined_iff, and_assoc, State.Stands]
  have founded : (s.isActive && s.ctl.reason == .founded && s.status s.station == .joined) = true
      ↔ s.Stands (.presence .founded) := by
    simp [State.isActive, and_assoc, State.Stands]
  have announce : (s.roster.announce == .runOut) = true ↔ s.Stands (.presence .announce) := by simp [State.Stands]
  have one : ∀ (c : Prop) [Decidable c] (y : ControlEntry), x ∈ (if c then [y] else []) ↔ x = y ∧ c := by
    intro c _ y; split <;> simp_all
  rw [State.duePresence, List.mem_append, List.mem_append, one, one, one, answers, founded, announce]
  cases x with
  | presence mode => cases mode <;> simp [State.Stands]
  | census => simp
  | depart p => simp
  | fetch w => simp
  | release w => simp

/-- The offers due are the entries whose condition stands (R79). -/
theorem State.mem_dueOffers (h : s.ctl.state = .joining ∨ s.ctl.state = .active) (x : ControlEntry) :
    x ∈ s.dueOffers ↔ s.Stands x := by
  rw [State.dueOffers, if_pos h, List.mem_append, List.mem_append, List.mem_append, State.mem_dueReleases,
    State.mem_duePresence, State.mem_dueDeparts, State.mem_dueFetches]
  cases x <;> simp

/-- A station's silence timer after its roster entry is written. -/
theorem State.silenceTimer_setEntry (s : State) {n : Nat} (e : RosterEntry) (m : Nat)
    (hn : n < s.roster.entries.length) : (s.setEntry n e).silenceTimer m = if m = n then e.timer else s.silenceTimer m := by
  simp only [State.setEntry, State.silenceTimer, List.getD_eq_getElem?_getD, List.getElem?_set]
  by_cases h : n = m
  · subst h; simp [hn]
  · simp [h, Ne.symm h]

/-- Step 1 of acceptance sets the timer of a present sender (R35). -/
theorem State.silenceTimer_acceptTimers {n : Nat} (h : n ≠ s.station) (hn : n < s.roster.entries.length) (m : Nat) :
    (s.acceptTimers n false).silenceTimer m =
      if m = n ∧ s.status n ≠ .absent then .running 8192 else s.silenceTimer m := by
  simp only [State.acceptTimers, if_neg h]
  by_cases ha : s.status n = .absent
  · simp [ha]; rfl
  · rw [if_neg ha, State.silenceTimer_setEntry _ _ _ (by exact hn)]
    simp [ha]; split <;> rfl

/-- An entry made present starts its timer (R115). -/
theorem State.silenceTimer_setPresent (s : State) {n : Nat} (st : RosterStatus) (m : Nat)
    (hn : n < s.roster.entries.length) (h : n ≠ s.station) :
    (s.setPresent n st).silenceTimer m = if m = n ∧ s.status n = .absent then .running 8192 else s.silenceTimer m := by
  rw [State.setPresent, State.silenceTimer_setEntry _ _ _ hn]
  by_cases hm : m = n
  · subst hm; simp [State.silenceStart, h]
  · simp [hm]

/-- The timers run on where JOINED entries become ACTIVE (R120). -/
@[simp] theorem State.silenceTimer_completeJoined (s : State) (kept n : Nat) :
    (s.completeJoined kept).silenceTimer n = s.silenceTimer n := by
  simp only [State.silenceTimer, State.completeJoined, List.getD_eq_getElem?_getD, List.getElem?_mapIdx]
  cases s.roster.entries[n]? with
  | none => rfl
  | some e => simp; split <;> rfl

end Sys2Proof.Machine
end

