-- ==== Sys2Proof/Laws/Points.lean ====
section
/-! SUPPORT. Every shared operation keeps the fill points in agreement with the inbound queue (R131): one lemma an
operation, named so that they chain as the operations do. -/

namespace Sys2Proof.Machine

variable {s t : State}

/-! ### The copy records -/

theorem State.copy_setCopy (hs : s.Sound) (w v : Nat) (f : Copy → Copy) :
    (s.setCopy w f).copy v = if v = w ∧ w < Config.windows then f (s.copy w) else s.copy v := by
  have hl := hs.copies
  unfold State.setCopy State.copy
  simp only [List.getD_eq_getElem?_getD]
  by_cases hv : v = w
  · subst hv
    by_cases hw : v < Config.windows
    · rw [if_pos ⟨rfl, hw⟩, List.getElem?_set_self (by omega)]; rfl
    · rw [if_neg (by tauto), List.set_eq_of_length_le (by omega)]
  · rw [if_neg (by tauto), List.getElem?_set_ne (Ne.symm hv)]

theorem State.copy_mapMirrored (s : State) (w : Nat) (f : Nat → Copy → Copy) :
    (s.mapMirrored f).copy w = if w < s.refresh.copies.length ∧ (s.entry w).isMirrored = true then f w (s.copy w)
      else s.copy w := by
  unfold State.mapMirrored State.copy
  simp only [List.getD_eq_getElem?_getD, List.getElem?_mapIdx]
  by_cases hw : w < s.refresh.copies.length
  · rw [List.getElem?_eq_getElem hw]
    simp only [Option.map_some, Option.getD_some, hw, true_and]
  · rw [List.getElem?_eq_none (by omega)]; simp [hw]

/-- A mirrored window has an entry of the table. -/
theorem State.mirrored_lt (hs : s.Sound) {w : Nat} (h : (s.entry w).isMirrored = true) : w < Config.windows := by
  by_contra hw
  have hl := hs.table
  have he : s.entry w = Entry.reset := by
    simp [State.entry, List.getD_eq_getElem?_getD, List.getElem?_eq_none (show s.layout.table.length ≤ w by omega)]
  rw [he] at h
  cases h

/-! ### What agreement reads -/

/-- The point, the FRESH mark and the applied point of a copy are the same. -/
def Copy.SamePoints (c d : Copy) : Prop := c.fresh = d.fresh ∧ c.accepted = d.accepted ∧ c.applied = d.applied

theorem Copy.SamePoints.refl (c : Copy) : c.SamePoints c := ⟨rfl, rfl, rfl⟩

namespace State.PointsAgree

/-- An operation that leaves the station state, the table, the points and the live FILL entries, and brings no service
entry and no FILL in flight that was not there. -/
theorem of_points (h : s.PointsAgree) (hc : t.ctl.state = s.ctl.state) (ht : t.layout = s.layout)
    (hp : ∀ w, (t.copy w).SamePoints (s.copy w)) (hl : ∀ w, t.liveFill w = s.liveFill w)
    (hv : ∀ e ∈ t.refresh.service, ∃ e' ∈ s.refresh.service, e'.window = e.window)
    (hi : ∀ g, t.sched.inflight = some g → (∀ w o r data, g.frame.body ≠ .fill w o r data)
      ∨ ∃ g', s.sched.inflight = some g' ∧ g'.frame.body = g.frame.body) : t.PointsAgree := by
  have he : ∀ w, t.entry w = s.entry w := fun w => by simp [State.entry, ht]
  have hm : ∀ {w}, (s.entry w).isMirrored = true ∧ (s.copy w).fresh = true →
      (t.entry w).isMirrored = true ∧ (t.copy w).fresh = true := fun {w} h => by rw [he, (hp w).1]; exact h
  constructor
  · rw [hc]; intro hs w hw; rw [he] at hw; rw [(hp w).2.1, (hp w).2.2, hl]; exact h.accepted hs w hw
  · rw [hc]; intro hs w hw; rw [he] at hw ⊢; rw [(hp w).2.1]; exact h.limit hs w hw
  · rw [hc]; intro hs w hw; rw [he] at hw ⊢; rw [(hp w).1, (hp w).2.2]; exact h.fresh hs w hw
  · rw [hc]; intro h1 h2 h3 w; rw [hl]; exact h.idle h1 h2 h3 w
  · rw [hc]; intro hs e hmem
    obtain ⟨e', hmem', hw⟩ := hv e hmem
    exact hm (hw ▸ h.served hs e' hmem')
  · rw [hc]; intro hs g hg w o r data hb
    rcases hi g hg with hn | ⟨g', hg', hb'⟩
    · exact absurd hb (hn w o r data)
    · exact hm (h.flight hs g' hg' w o r data (hb'.trans hb))

/-- An operation that leaves the controller's state, the layout, the refresh unit, the inbound queue and the frame in
flight. -/
theorem of_units (h : s.PointsAgree) (hc : t.ctl.state = s.ctl.state) (ht : t.layout = s.layout)
    (hr : t.refresh = s.refresh) (hm : t.mirror.inbound = s.mirror.inbound)
    (hi : t.sched.inflight = s.sched.inflight) : t.PointsAgree :=
  h.of_points hc ht (fun w => by simp only [State.copy, hr]; exact .refl _) (fun w => by simp only [State.liveFill, hm])
    (fun e he => ⟨e, hr ▸ he, rfl⟩) fun g hg => .inr ⟨g, hi ▸ hg, rfl⟩

/-- The same but for the frame in flight, which leaves. -/
theorem of_dropped (h : s.PointsAgree) (hc : t.ctl.state = s.ctl.state) (ht : t.layout = s.layout)
    (hr : t.refresh = s.refresh) (hm : t.mirror.inbound = s.mirror.inbound) (hi : t.sched.inflight = none) :
    t.PointsAgree :=
  h.of_points hc ht (fun w => by simp only [State.copy, hr]; exact .refl _) (fun w => by simp only [State.liveFill, hm])
    (fun e he => ⟨e, hr ▸ he, rfl⟩) fun g hg => by rw [hi] at hg; cases hg

/-- A stopped station agrees, whatever it holds. -/
theorem of_stopped (hs : t.ctl.state = .stopped) : t.PointsAgree :=
  ⟨fun h => absurd hs h, fun h => absurd hs h, fun h => absurd hs h, fun h => absurd hs h, fun h => absurd hs h,
    fun h => absurd hs h⟩

/-- A station with nothing of the replicated state agrees. -/
theorem of_blank (hc : ∀ w, (t.copy w).SamePoints Copy.reset) (hl : ∀ w, t.liveFill w = 0)
    (hv : t.refresh.service = []) (hi : t.sched.inflight = none) : t.PointsAgree where
  accepted _ w _ := by rw [(hc w).2.1, (hc w).2.2, hl]; rfl
  limit _ w _ := by rw [(hc w).2.1]; exact ⟨Nat.zero_le _, rfl⟩
  fresh _ w _ := by
    rw [(hc w).1, (hc w).2.2]
    refine ⟨fun h => (by cases h), fun h => ?_⟩
    have : 0 < (t.entry w).bytes := Nat.mul_pos (by decide) (Nat.two_pow_pos _)
    exact absurd h (by simp only [Copy.reset]; omega)
  idle _ _ _ := hl
  served _ e he := by rw [hv] at he; cases he
  flight _ g hg := by rw [hi] at hg; cases hg

/-- A change of station state that keeps what the group has here: no live FILL entry when the new state is not ACTIVE or
LEAVING. -/
theorem of_state (h : s.PointsAgree) (hs : s.ctl.state ≠ .stopped) (ht : t.layout = s.layout)
    (hp : ∀ w, (t.copy w).SamePoints (s.copy w)) (hm : ∀ w, t.liveFill w = s.liveFill w)
    (hv : ∀ e ∈ t.refresh.service, ∃ e' ∈ s.refresh.service, e'.window = e.window)
    (hi : ∀ g, t.sched.inflight = some g → (∀ w o r data, g.frame.body ≠ .fill w o r data)
      ∨ ∃ g', s.sched.inflight = some g' ∧ g'.frame.body = g.frame.body)
    (hidle : t.ctl.state = .active ∨ t.ctl.state = .leaving ∨ ∀ w, s.liveFill w = 0) : t.PointsAgree := by
  have he : ∀ w, t.entry w = s.entry w := fun w => by simp [State.entry, ht]
  have hk : ∀ {w}, (s.entry w).isMirrored = true ∧ (s.copy w).fresh = true →
      (t.entry w).isMirrored = true ∧ (t.copy w).fresh = true := fun {w} h => by rw [he, (hp w).1]; exact h
  constructor
  · intro _ w hw; rw [he] at hw; rw [(hp w).2.1, (hp w).2.2, hm]; exact h.accepted hs w hw
  · intro _ w hw; rw [he] at hw ⊢; rw [(hp w).2.1]; exact h.limit hs w hw
  · intro _ w hw; rw [he] at hw ⊢; rw [(hp w).1, (hp w).2.2]; exact h.fresh hs w hw
  · intro _ h2 h3 w
    rw [hm]
    rcases hidle with ha | hl | hz
    · exact absurd ha h2
    · exact absurd hl h3
    · exact hz w
  · intro _ e hmem
    obtain ⟨e', hmem', hw⟩ := hv e hmem
    exact hk (hw ▸ h.served hs e' hmem')
  · intro _ g hg w o r data hb
    rcases hi g hg with hn | ⟨g', hg', hb'⟩
    · exact absurd hb (hn w o r data)
    · exact hk (h.flight hs g' hg' w o r data (hb'.trans hb))

end State.PointsAgree

/-! ### The live FILL entries -/

/-- The entry is a live FILL entry of the window. -/
def Inbound.liveOf (w : Nat) (e : Inbound) : Bool := e.isFill && !e.withdrawn && e.window == w

theorem State.liveFill_of_inbound (h : t.mirror.inbound = s.mirror.inbound) (w : Nat) : t.liveFill w = s.liveFill w := by
  simp only [State.liveFill, h]

/-- What a withdrawal leaves live is what it does not hold of. -/
theorem State.liveFill_withdraw (s : State) (p : Inbound → Bool) (w : Nat) :
    (s.withdraw p).liveFill w = ((s.mirror.inbound.filter fun e => e.liveOf w && !p e).map (·.data.length)).sum := by
  unfold State.withdraw State.liveFill
  dsimp only
  split
  · rename_i e rest _ hq
    rw [hq]
    by_cases hp : p e = true
    · simp [hp, Inbound.liveOf, List.filter_filter]
    · simp only [Bool.not_eq_true] at hp
      simp only [hp, Bool.false_eq_true, if_false, List.filter_cons, Bool.not_false, Bool.and_true, List.filter_filter,
        Inbound.liveOf]
  · rw [List.filter_filter]; rfl

/-- A withdrawal of every FILL entry of the window leaves none live. -/
theorem State.liveFill_withdrawn (s : State) (p : Inbound → Bool) (w : Nat) (hp : ∀ e, e.liveOf w = true → p e = true) :
    (s.withdraw p).liveFill w = 0 := by
  rw [State.liveFill_withdraw, List.filter_eq_nil_iff.2]
  · rfl
  · intro e _
    cases he : e.liveOf w with
    | false => simp
    | true => simp [hp e he]

/-- A withdrawal of no FILL entry of the window leaves them. -/
theorem State.liveFill_kept (s : State) (p : Inbound → Bool) (w : Nat) (hp : ∀ e, e.liveOf w = true → p e = false) :
    (s.withdraw p).liveFill w = s.liveFill w := by
  rw [State.liveFill_withdraw, State.liveFill]
  congr 2
  refine List.filter_congr fun e _ => ?_
  cases he : e.liveOf w with
  | false => simpa [Inbound.liveOf] using he
  | true => simpa [Inbound.liveOf, hp e he] using he

@[simp] theorem State.liveFill_emptyInbound (s : State) (w : Nat) : s.emptyInbound.liveFill w = 0 :=
  s.liveFill_withdrawn _ w fun _ _ => rfl

theorem State.liveFill_noFills (s : State) (w : Nat) : (s.withdraw Inbound.isFill).liveFill w = 0 :=
  s.liveFill_withdrawn _ w fun e he => by simp only [Inbound.liveOf, Bool.and_eq_true] at he; exact he.1.1

/-- An entry put at the tail of a queue with a free place. -/
theorem State.liveFill_enqueue (s : State) (e : Inbound) (w : Nat)
    (hl : s.mirror.inbound.length < Config.inboundLimit) :
    (s.enqueue e).liveFill w = s.liveFill w + if e.liveOf w = true then e.data.length else 0 := by
  unfold State.enqueue State.liveFill
  rw [if_pos hl]
  simp only [State.spoilChunk, List.filter_append, List.map_append, List.sum_append]
  congr 1
  by_cases he : e.liveOf w = true
  · rw [if_pos he]
    unfold Inbound.liveOf at he
    simp [he]
  · rw [if_neg he]
    unfold Inbound.liveOf at he
    simp [he]

@[simp] theorem State.enqueue_inflight (s : State) (e : Inbound) :
    (s.enqueue e).sched.inflight = s.sched.inflight := by
  unfold State.enqueue; split <;> simp [State.spoilChunk]

/-- The head entry leaves at its application. -/
theorem State.liveFill_head {e : Inbound} {rest : List Inbound} (hq : s.mirror.inbound = e :: rest)
    (ht : t.mirror.inbound = rest) (w : Nat) :
    s.liveFill w = (if e.liveOf w = true then e.data.length else 0) + t.liveFill w := by
  unfold State.liveFill
  rw [hq, ht]
  by_cases he : e.liveOf w = true
  · rw [if_pos he]
    unfold Inbound.liveOf at he
    simp [he]
  · rw [if_neg he]
    unfold Inbound.liveOf at he
    simp [he]

/-! ### Live FILL entries and the frame in flight, by operation -/

@[simp] theorem State.discardFillRead_inbound (s : State) : s.discardFillRead.mirror.inbound = s.mirror.inbound := rfl

@[simp] theorem State.emptyChunk_inbound (s : State) : s.emptyChunk.mirror.inbound = s.mirror.inbound := rfl

@[simp] theorem State.clearService_inbound (s : State) : s.clearService.mirror.inbound = s.mirror.inbound := rfl

@[simp] theorem State.leaveSource_inbound (s : State) (f : InFlight) :
    (s.leaveSource f).mirror.inbound = s.mirror.inbound := by
  unfold State.leaveSource; split <;> simp

@[simp] theorem State.leaveSource_inflight (s : State) (f : InFlight) : (s.leaveSource f).sched.inflight = none := by
  unfold State.leaveSource; split <;> rfl

@[simp] theorem State.abandonWith_inbound (s : State) (f : InFlight) (reason : AbandonReason) :
    (s.abandonWith f reason).mirror.inbound = s.mirror.inbound := by
  unfold State.abandonWith; split <;> simp

@[simp] theorem State.abandonWith_inflight (s : State) (f : InFlight) (reason : AbandonReason) :
    (s.abandonWith f reason).sched.inflight = none := by
  unfold State.abandonWith; split <;> simp

@[simp] theorem State.keepChunk_inbound (s : State) (f : InFlight) : (s.keepChunk f).mirror.inbound = s.mirror.inbound := by
  unfold State.keepChunk State.staleChunk; split <;> simp

@[simp] theorem State.dropWaiting_inbound (s : State) : s.dropWaiting.mirror.inbound = s.mirror.inbound := by
  unfold State.dropWaiting; (repeat' split) <;> simp

@[simp] theorem State.dropAbandoned_inbound (s : State) : s.dropAbandoned.mirror.inbound = s.mirror.inbound := by
  unfold State.dropAbandoned
  split
  · cases s.sched.inflight <;> simp
  · rfl

@[simp] theorem State.clearServiceAtLeave_refresh (s : State) :
    s.clearServiceAtLeave.refresh = { s.refresh with service := [] } := by
  unfold State.clearServiceAtLeave
  (repeat' split) <;> rfl

@[simp] theorem State.clearServiceAtLeave_inbound (s : State) :
    s.clearServiceAtLeave.mirror.inbound = s.mirror.inbound := by
  unfold State.clearServiceAtLeave
  (repeat' split) <;> rfl

theorem State.dropWaiting_inflight (s : State) :
    s.dropWaiting.sched.inflight = none ∨ s.dropWaiting.sched.inflight = s.sched.inflight := by
  unfold State.dropWaiting
  (repeat' split) <;> simp_all

theorem State.dropAbandoned_flight (s : State) :
    s.dropAbandoned.sched.inflight = none ∨ s.dropAbandoned.sched.inflight = s.sched.inflight := by
  unfold State.dropAbandoned
  split
  · cases hi : s.sched.inflight <;> simp [hi]
  · exact .inr rfl

@[simp] theorem State.copy_clearCopies (s : State) (w : Nat) : s.clearCopies.copy w = Copy.reset := by
  simp only [State.copy, State.clearCopies, State.mapCopies, List.getD_eq_getElem?_getD, List.getElem?_map]
  cases s.refresh.copies[w]? <;> rfl

/-- A PRESENCE, CENSUS, DEPART, FETCH or RELEASE of the control list is no FILL. -/
theorem State.controlBody_ne_fill (s : State) (e : ControlEntry) (w o r : Nat) (data : List Byte) :
    s.controlBody e ≠ .fill w o r data := by
  cases e <;> simp [State.controlBody]

/-- A publication is no FILL. -/
theorem PubRecord.body_ne_fill (p : PubRecord) (w o r : Nat) (data : List Byte) : p.body ≠ .fill w o r data := by
  unfold PubRecord.body; split <;> simp

namespace State.PointsAgree

theorem post (h : s.PointsAgree) (o : OutcomeRecord) : (s.post o).PointsAgree :=
  h.of_units (by simp) (by simp) (by simp) (by simp) (by simp)

theorem postAll (h : s.PointsAgree) (os : List OutcomeRecord) : (s.postAll os).PointsAgree :=
  h.of_units (by simp) (by simp) (by simp) (by simp) (by simp)

theorem noteChange (h : s.PointsAgree) (w : Nat) : (s.noteChange w).PointsAgree :=
  h.of_units (by simp) (by simp) (by simp) (by simp) (by simp)

theorem offerDue (h : s.PointsAgree) : s.offerDue.PointsAgree :=
  h.of_units (by simp) (by simp) (by simp) (by simp) (by simp)

theorem settleMemory (h : s.PointsAgree) : s.settleMemory.PointsAgree :=
  h.of_units (by simp) (by simp) (by simp) (by simp) (by simp)

theorem arbitrate (h : s.PointsAgree) : s.arbitrate.PointsAgree :=
  h.of_units (by simp) (by simp) (by simp) (by simp) (by simp)

/-! ### Changes of station state -/

theorem leaveSource (h : s.PointsAgree) (f : InFlight) : (s.leaveSource f).PointsAgree :=
  h.of_dropped (by simp) (by simp) (by simp) (by simp) (by simp)

theorem abandonWith (h : s.PointsAgree) (f : InFlight) (reason : AbandonReason) : (s.abandonWith f reason).PointsAgree :=
  h.of_dropped (by simp) (by simp) (by simp) (by simp) (by simp)

theorem stop (s : State) (reason : Reason) : (s.stop reason).PointsAgree := of_stopped (by simp [State.stop])

/-- The in-flight frame stays or leaves, and what is not the frame is left. -/
theorem same_flight {f : Option InFlight} (hf : f = none ∨ f = s.sched.inflight) (g : InFlight) (hg : f = some g) :
    (∀ w o r data, g.frame.body ≠ .fill w o r data)
      ∨ ∃ g', s.sched.inflight = some g' ∧ g'.frame.body = g.frame.body := by
  rcases hf with hf | hf
  · rw [hf] at hg; cases hg
  · exact .inr ⟨g, hf ▸ hg, rfl⟩

theorem joinFailed (h : s.PointsAgree) (hj : s.ctl.state = .joining) : s.joinFailed.PointsAgree := by
  have hr : s.joinFailed.refresh = s.refresh := by simp [State.joinFailed]
  have hm : s.joinFailed.mirror.inbound = s.mirror.inbound := by simp [State.joinFailed]
  refine h.of_state (by simp [hj]) (by simp [State.joinFailed]) (fun w => by simp only [State.copy, hr]; exact .refl _)
    (State.liveFill_of_inbound hm) (fun e he => ⟨e, hr ▸ he, rfl⟩) (same_flight (.inl ?_))
    (.inr (.inr (h.idle (by simp [hj]) (by simp [hj]) (by simp [hj]))))
  simp [State.joinFailed, State.emptyChunk, State.discardFillRead, State.clearControl]

theorem enterJoining (h : s.PointsAgree) (hl : s.ctl.state = .listening) (reason : Reason) :
    (s.enterJoining reason).PointsAgree :=
  h.of_state (by simp [hl]) (by simp) (fun w => by simp only [State.copy, State.enterJoining_frame]; exact .refl _)
    (State.liveFill_of_inbound (by simp)) (fun e he => ⟨e, by simpa using he, rfl⟩)
    (same_flight (.inr (by simp [State.enterJoining])))
    (.inr (.inr (h.idle (by simp [hl]) (by simp [hl]) (by simp [hl]))))

theorem rejoin (s : State) (reason : Reason) : (s.rejoin reason).PointsAgree := by
  refine of_blank (fun w => ?_) (fun w => ?_) ?_ (s.rejoin_forsaken reason).inflight
  · have : (s.rejoin reason).copy w = Copy.reset := by
      simp only [State.rejoin, State.copy, State.enterJoining_frame, State.clearRoster_frame, State.endZeroFill_frame,
        State.withdraw_frame]
      exact State.copy_clearCopies _ w
    rw [this]; exact .refl _
  · have : (s.rejoin reason).mirror.inbound =
        (((((s.abandonQueue .departed).clearControl.resetTurn.clearService).dropHolds .departed).clearClaims).clearCopies.withdraw
          Inbound.isFill).mirror.inbound := by
      simp [State.rejoin, State.endZeroFill, State.clearRoster]
    rw [State.liveFill_of_inbound this]; exact State.liveFill_noFills _ w
  · simp [State.rejoin, State.clearCopies, State.mapCopies, State.clearClaims, State.dropHolds, State.clearService]

theorem forsake_blank (s : State) (abandon : AbandonReason) (loss : LossReason) :
    (∀ w, ((s.forsake abandon loss).copy w).SamePoints Copy.reset) ∧ (∀ w, (s.forsake abandon loss).liveFill w = 0)
      ∧ (s.forsake abandon loss).refresh.service = [] := by
  refine ⟨fun w => ?_, fun w => ?_, ?_⟩
  · have : (s.forsake abandon loss).copy w = Copy.reset := by
      simp only [State.forsake, State.copy, State.clearRoster_frame]
      exact State.copy_clearCopies _ w
    rw [this]; exact .refl _
  · have : (s.forsake abandon loss).mirror.inbound =
        ((((s.abandonQueue abandon).clearControl.resetTurn.clearService).dropHolds loss).clearClaims).emptyInbound.mirror.inbound := by
      simp [State.forsake, State.endZeroFill]
    rw [State.liveFill_of_inbound this]; simp
  · simp [State.forsake, State.clearCopies, State.mapCopies, State.clearService]

theorem enterMuted (s : State) : s.enterMuted.PointsAgree := by
  obtain ⟨hc, hl, hv⟩ := forsake_blank s .muted .muted
  exact of_blank (fun w => by simpa [State.enterMuted, State.copy] using hc w)
    (fun w => by rw [State.liveFill_of_inbound (s := s.forsake .muted .muted) (by simp [State.enterMuted])]; exact hl w)
    (by simpa [State.enterMuted] using hv) (by simpa [State.enterMuted] using (s.forsake_forsaken .muted .muted).inflight)

theorem enterIncompatible (s : State) (reason : Reason) : (s.enterIncompatible reason).PointsAgree := by
  obtain ⟨hc, hl, hv⟩ := forsake_blank s .departed .departed
  exact of_blank (fun w => by simpa [State.enterIncompatible, State.copy] using hc w)
    (fun w => by
      rw [State.liveFill_of_inbound (s := s.forsake .departed .departed) (by simp [State.enterIncompatible])]; exact hl w)
    (by simpa [State.enterIncompatible] using hv)
    (by simpa [State.enterIncompatible] using (s.forsake_forsaken .departed .departed).inflight)

theorem dropAbandoned (h : s.PointsAgree) : s.dropAbandoned.PointsAgree :=
  h.of_points (by simp) (by simp) (fun w => by simp only [State.copy, State.dropAbandoned_frame]; exact .refl _)
    (State.liveFill_of_inbound (by simp)) (fun e he => ⟨e, by simpa using he, rfl⟩) (same_flight s.dropAbandoned_flight)

theorem found (h : s.PointsAgree) (hj : s.ctl.state = .joining) : s.found.PointsAgree := by
  have hz := h.idle (by simp [hj]) (by simp [hj]) (by simp [hj])
  refine h.of_state (by simp [hj]) (by simp) (fun w => by simp only [State.copy, State.found_frame]; exact .refl _)
    (fun w => ?_) (fun e he => ⟨e, by simpa using he, rfl⟩) (same_flight ?_) (.inl (by simp [State.found]))
  · rw [hz, State.liveFill_of_inbound (s := s.dropAbandoned.emptyInbound) (by simp [State.found])]; simp
  · simpa [State.found, State.emptyChunk, State.discardFillRead, State.emptyInbound] using s.dropAbandoned_flight

theorem foundingTest (h : s.PointsAgree) (hj : s.ctl.state = .joining) : s.foundingTest.PointsAgree := by
  unfold State.foundingTest
  split
  · exact h.found hj
  · exact h.of_units rfl rfl rfl rfl rfl

/-- A copy that is fetched for no more keeps its points. -/
theorem copy_unfetched (s : State) (w : Nat) : ((s.mapCopies Copy.unfetched).copy w).SamePoints (s.copy w) := by
  simp only [State.copy, State.mapCopies, List.getD_eq_getElem?_getD, List.getElem?_map]
  cases s.refresh.copies[w]? <;> exact .refl _

theorem leaveGroup (h : s.PointsAgree) (hm : s.ctl.state = .joining ∨ s.ctl.state = .active) : s.leaveGroup.PointsAgree := by
  have hr : s.ctl.state ≠ .stopped := by rcases hm with hm | hm <;> simp [hm]
  refine h.of_state hr (by simp [State.leaveGroup]) (fun w => ?_) (State.liveFill_of_inbound ?_) (fun e he => ?_)
    (fun g hg => .inr ⟨g, ?_, rfl⟩) (.inr (.inl (by simp [State.leaveGroup])))
  · simpa [State.leaveGroup, State.copy, State.mapCopies] using copy_unfetched s w
  · simp [State.leaveGroup]
  · simp [State.leaveGroup, State.mapCopies] at he
  · rw [State.leaveGroup_inflight] at hg
    exact (Option.filter_eq_some_iff.1 hg).1

end State.PointsAgree

/-- The completed application of a chunk moves the applied point, and makes the copy FRESH at the window size (R132,
R141). -/
theorem State.fillApplied_points (hs : s.Sound) (w len v : Nat) :
    ((s.fillApplied w len).copy v).accepted = (s.copy v).accepted
      ∧ ((s.fillApplied w len).copy v).applied
        = (s.copy v).applied + (if v = w ∧ w < Config.windows then len else 0)
      ∧ (((s.fillApplied w len).copy v).fresh = true ↔ (s.copy v).fresh = true
        ∨ (v = w ∧ w < Config.windows ∧ (s.copy w).applied + len = (s.entry w).bytes)) := by
  have hb : ∀ u : State, (u.becomeFresh w).copy v
      = (u.setCopy w fun c => { c.unfetched with fresh := true }).copy v := by
    intro u
    unfold State.becomeFresh State.copy
    dsimp only
    split <;> simp
  unfold State.fillApplied
  dsimp only
  have hset : ∀ f : Copy → Copy, (s.setCopy w f).Sound := fun f => hs.setCopy w f
  split
  · rename_i hf
    rw [hb, State.copy_setCopy (hset _), State.copy_setCopy hs]
    rw [State.copy_setCopy hs] at hf ⊢
    by_cases hv : v = w ∧ w < Config.windows
    · rw [if_pos ⟨rfl, hv.2⟩] at hf
      have hf : (s.copy w).applied + len = (s.entry w).bytes := hf
      rw [if_pos hv, if_pos ⟨rfl, hv.2⟩, if_pos hv, hv.1]
      exact ⟨rfl, rfl, fun _ => .inr ⟨rfl, hv.2, hf⟩, fun _ => rfl⟩
    · rw [if_neg hv, if_neg hv, if_neg hv]
      exact ⟨rfl, rfl, by tauto⟩
  · rename_i hf
    rw [State.copy_setCopy hs] at hf ⊢
    by_cases hv : v = w ∧ w < Config.windows
    · rw [if_pos ⟨rfl, hv.2⟩] at hf
      rw [if_pos hv]
      simp [hv, hf]
    · rw [if_neg hv, if_neg hv]
      exact ⟨rfl, rfl, by tauto⟩

@[simp] theorem State.fillApplied_service (s : State) (w len : Nat) :
    (s.fillApplied w len).refresh.service = s.refresh.service := by
  unfold State.fillApplied State.becomeFresh
  dsimp only
  (repeat' split) <;> simp [State.setCopy]

namespace State.PointsAgree

/-! ### The refresh unit -/

/-- A change of one copy that keeps its points. -/
theorem setSame (h : s.PointsAgree) (hs : s.Sound) (w : Nat) (f : Copy → Copy) (hf : ∀ c, (f c).SamePoints c) :
    (s.setCopy w f).PointsAgree :=
  h.of_points rfl rfl
    (fun v => by
      rw [State.copy_setCopy hs]
      split
      · rename_i hv
        rw [hv.1]; exact hf _
      · exact .refl _)
    (fun _ => rfl) (fun e he => ⟨e, he, rfl⟩) fun g hg => .inr ⟨g, hg, rfl⟩

theorem countExpiry (h : s.PointsAgree) (hs : s.Sound) (w : Nat) : (s.countExpiry w).PointsAgree := by
  unfold State.countExpiry
  split
  · exact h.setSame hs _ _ fun _ => .refl _
  · exact State.PointsAgree.post (h.setSame hs w (fun c =>
      { c with expiries := Config.expiryLimit, timer := .stopped, request := false, failed := true }) fun _ => .refl _) _

theorem expireFetch (h : s.PointsAgree) (hs : s.Sound) (w : Nat) : (s.expireFetch w).PointsAgree := by
  unfold State.expireFetch
  split
  · exact (h.countExpiry hs w).offerDue
  · exact h

theorem abandonFetch (h : s.PointsAgree) (hs : s.Sound) (w : Nat) : (s.abandonFetch w).PointsAgree := by
  unfold State.abandonFetch
  split
  · exact h.countExpiry hs w
  · exact h

theorem requestAll (h : s.PointsAgree) : s.requestAll.PointsAgree :=
  h.of_points rfl rfl
    (fun w => by
      unfold State.requestAll
      rw [State.copy_mapMirrored]
      split <;> exact .refl _)
    (fun _ => rfl) (fun e he => ⟨e, he, rfl⟩) fun g hg => .inr ⟨g, hg, rfl⟩

/-- Entries of the service table leave it. -/
theorem filterService (h : s.PointsAgree) (p : Service → Bool) :
    State.PointsAgree { s with refresh.service := s.refresh.service.filter p } :=
  h.of_points rfl rfl (fun _ => .refl _) (fun _ => rfl) (fun e he => ⟨e, (List.mem_filter.1 he).1, rfl⟩)
    fun g hg => .inr ⟨g, hg, rfl⟩

theorem dropService (h : s.PointsAgree) (w r : Nat) : (s.dropService w r).PointsAgree := h.filterService _

theorem dropServiceOf (h : s.PointsAgree) (r : Nat) : (s.dropServiceOf r).PointsAgree := h.filterService _

/-- A service entry of a mirrored FRESH copy joins the table. -/
theorem appendService (h : s.PointsAgree) (e : Service) (he : (s.entry e.window).isMirrored = true)
    (hf : (s.copy e.window).fresh = true) :
    State.PointsAgree { s with refresh.service := s.refresh.service ++ [e] } :=
  { h with
    accepted := h.accepted
    served := by
      intro hr x hx
      rcases List.mem_append.1 hx with hx | hx
      · exact h.served hr x hx
      · obtain rfl := List.mem_singleton.1 hx
        exact ⟨he, hf⟩
    flight := h.flight }

theorem moveService (h : s.PointsAgree) (w r next : Nat) :
    State.PointsAgree { s with refresh.service := s.refresh.service.map fun e =>
      if e.window == w && e.requester == r then { e with next := next } else e } :=
  h.of_points rfl rfl (fun _ => .refl _) (fun _ => rfl)
    (fun e he => by
      obtain ⟨e', he', rfl⟩ := List.mem_map.1 he
      refine ⟨e', he', ?_⟩
      split <;> rfl)
    fun g hg => .inr ⟨g, hg, rfl⟩

theorem advanceService (h : s.PointsAgree) (w r next : Nat) : (s.advanceService w r next).PointsAgree := by
  unfold State.advanceService
  split
  · exact h.moveService _ _ _
  · exact h.dropService _ _

theorem acceptFetch (h : s.PointsAgree) (hs : s.Sound) (sender : Nat) (sent : Bool) (w origin : Nat) :
    (s.acceptFetch sender sent w origin).PointsAgree := by
  unfold State.acceptFetch State.fetchAccepted State.volunteer
  split
  · split
    · exact h.setSame hs _ _ fun _ => .refl _
    · exact h
  · split
    · rename_i hc
      simp only [Bool.and_eq_true] at hc
      (repeat' split)
      · exact h.moveService _ _ _
      · exact h.appendService _ hc.1.1.2 hc.1.2
      · exact h
    · exact h

/-- A chunk at the accepted point of a STALE copy is taken, within the window (R140). -/
theorem takeChunk (h : s.PointsAgree) (hs : s.Sound) {w : Nat} {data : List Byte}
    (hm : (s.entry w).isMirrored = true) (hst : s.ctl.state = .active ∨ s.ctl.state = .leaving)
    (hf : (s.copy w).fresh = false) (hn : (s.copy w).accepted + data.length ≤ (s.entry w).bytes)
    (hk : data.length % 64 = 0) (hl : s.mirror.inbound.length < Config.inboundLimit) :
    (s.takeChunk w (s.copy w).accepted data).PointsAgree := by
  have hr : s.ctl.state ≠ .stopped := by rcases hst with hst | hst <;> simp [hst]
  have hw := State.mirrored_lt hs hm
  have hcopy : ∀ v, (s.takeChunk w (s.copy w).accepted data).copy v =
      if v = w then { s.copy w with accepted := (s.copy w).accepted + data.length } else s.copy v := by
    intro v
    have : (s.takeChunk w (s.copy w).accepted data).copy v
        = (s.setCopy w fun c => { c with accepted := c.accepted + data.length }).copy v := by
      simp [State.takeChunk, State.copy]
    rw [this, State.copy_setCopy hs]
    by_cases hv : v = w
    · rw [if_pos ⟨hv, hw⟩, if_pos hv]
    · rw [if_neg (by tauto), if_neg hv]
  have hlive : ∀ v, (s.takeChunk w (s.copy w).accepted data).liveFill v =
      s.liveFill v + if v = w then data.length else 0 := by
    intro v
    unfold State.takeChunk
    rw [State.liveFill_enqueue (s.setCopy w fun c => { c with accepted := c.accepted + data.length }) _ _ hl]
    congr 1
    by_cases hv : v = w
    · simp [Inbound.liveOf, Inbound.isFill, hv]
    · rw [if_neg (by simp [Inbound.liveOf, Ne.symm hv]), if_neg hv]
  have hent : ∀ v, (s.takeChunk w (s.copy w).accepted data).entry v = s.entry v := by
    intro v; simp [State.takeChunk, State.entry]
  have hctl : (s.takeChunk w (s.copy w).accepted data).ctl = s.ctl := by simp [State.takeChunk]
  have hserv : (s.takeChunk w (s.copy w).accepted data).refresh.service = s.refresh.service := by
    simp [State.takeChunk, State.setCopy]
  have hinfl : (s.takeChunk w (s.copy w).accepted data).sched.inflight = s.sched.inflight := by simp [State.takeChunk]
  have hkeep : ∀ {v}, (s.entry v).isMirrored = true ∧ (s.copy v).fresh = true →
      (s.entry v).isMirrored = true ∧ ((s.takeChunk w (s.copy w).accepted data).copy v).fresh = true := by
    intro v hv
    refine ⟨hv.1, ?_⟩
    rw [hcopy]
    split
    · rename_i he
      rw [he, hf] at hv
      exact absurd hv.2 (by simp)
    · exact hv.2
  constructor
  · intro _ v hv
    rw [hent] at hv
    have := h.accepted hr v hv
    rw [hcopy, hlive]
    split
    · rename_i he; subst he; simp only; omega
    · omega
  · intro _ v hv
    rw [hent] at hv ⊢
    have := h.limit hr v hv
    rw [hcopy]
    split
    · rename_i he; subst he; simp only; omega
    · exact this
  · intro _ v hv
    rw [hent] at hv ⊢
    have := h.fresh hr v hv
    rw [hcopy]
    split
    · rename_i he; subst he; exact this
    · exact this
  · rw [hctl]
    intro _ ha hb
    rcases hst with hst | hst
    · exact absurd hst ha
    · exact absurd hst hb
  · intro _ e he
    rw [hent]
    exact hkeep (h.served hr e (hserv ▸ he))
  · intro _ g hg v o r d hb
    rw [hent]
    exact hkeep (h.flight hr g (hinfl ▸ hg) v o r d hb)

/-- The limits that let a copy take the chunk: within the second tier from another station, of a FRESH copy from this
one (R29, R138). -/
def Takes (s : State) (sent : Bool) (w offset requester : Nat) (data : List Byte) : Prop :=
  if sent then (s.copy w).fresh = true else s.InSecondTier (.fill w offset requester data)

theorem acceptFill (h : s.PointsAgree) (hs : s.Sound) (hm : s.isMember = true) {sent : Bool} {w offset requester : Nat}
    {data : List Byte} (ht : (s.entry w).isMirrored = true → Takes s sent w offset requester data) :
    (s.acceptFill sent w offset requester data).PointsAgree := by
  have htaken : (if (s.takesChunk w offset && decide (s.mirror.inbound.length < Config.inboundLimit)) = true then
      s.takeChunk w offset data else s).PointsAgree := by
    split
    · rename_i hc
      simp only [State.takesChunk, Bool.and_eq_true, Bool.not_eq_true', beq_iff_eq, decide_eq_true_eq] at hc
      obtain ⟨⟨⟨⟨ha, hmir⟩, hf⟩, rfl⟩, hl⟩ := hc
      have ht := ht hmir
      unfold Takes at ht
      split at ht
      · rw [hf] at ht; cases ht
      · obtain ⟨-, hb, hlen⟩ := ht
        refine h.takeChunk hs hmir ?_ hf (by unfold Entry.bytes; exact hb) (by rw [hlen]; split <;> rfl) hl
        have hcen := hs.census
        unfold State.awaitsCensus at ha
        unfold State.isMember StationState.isMember at hm
        cases hst : s.ctl.state <;> simp_all
    · exact h
  unfold State.acceptFill
  dsimp only
  split
  · exact htaken
  · exact htaken.dropService _ _

/-- The head entry is applied, its completion handed on unless it is withdrawn (R62, R63, R141). -/
theorem applied (h : s.PointsAgree) (hs : s.Sound) {e : Inbound} {rest : List Inbound}
    (hq : s.mirror.inbound = e :: rest) : (((s.applyEntry e rest).releaseMemory).reportApplied e).PointsAgree := by
  let u := (s.applyEntry e rest).releaseMemory
  have hhead : ∀ w, s.liveFill w = (if e.liveOf w = true then e.data.length else 0) + u.liveFill w := fun w =>
    State.liveFill_head hq rfl w
  have plain : (∀ w, e.liveOf w = false) → u.PointsAgree := fun hn =>
    h.of_points rfl rfl (fun _ => .refl _) (fun w => by rw [hhead w, hn w]; simp) (fun x hx => ⟨x, hx, rfl⟩)
      fun g hg => .inr ⟨g, hg, rfl⟩
  unfold State.reportApplied
  split
  · rename_i hw
    exact plain fun w => by simp [Inbound.liveOf, hw]
  · rename_i hw
    split
    · rename_i mark hk
      have hp := plain fun w => by simp [Inbound.liveOf, Inbound.isFill, hk]
      split
      · exact hp.noteChange _
      · exact hp
    · rename_i hk
      have hlive : ∀ w, e.liveOf w = decide (e.window = w) := by
        intro w
        have : e.withdrawn = false := by simpa using hw
        by_cases hc : e.window = w <;> simp [Inbound.liveOf, Inbound.isFill, hk, this, hc]
      have hus : u.Sound := by
        refine (hs.applyEntry e ?_).releaseMemory
        have hi := hs.mirror.inbound
        simp only [hq, List.length_cons] at hi
        omega
      have hcopy := State.fillApplied_points hus e.window e.data.length
      have hent : ∀ v, (u.fillApplied e.window e.data.length).entry v = s.entry v := fun v => by
        simp only [State.entry, State.fillApplied_frame]; rfl
      have hin : (u.fillApplied e.window e.data.length).mirror.inbound = u.mirror.inbound := by simp
      have hkeep : ∀ {v}, (s.entry v).isMirrored = true ∧ (s.copy v).fresh = true →
          ((u.fillApplied e.window e.data.length).entry v).isMirrored = true
            ∧ ((u.fillApplied e.window e.data.length).copy v).fresh = true := by
        intro v hv
        rw [hent]
        exact ⟨hv.1, (hcopy v).2.2.2 (.inl hv.2)⟩
      have hctl : (u.fillApplied e.window e.data.length).ctl = s.ctl := by simp only [State.fillApplied_frame]; rfl
      have hser : (u.fillApplied e.window e.data.length).refresh.service = s.refresh.service := by simp; rfl
      have hfl : (u.fillApplied e.window e.data.length).sched.inflight = s.sched.inflight := by
        simp only [State.fillApplied_frame]; rfl
      have hpart : ∀ v, (s.entry v).isMirrored = true → (s.copy v).applied + (if v = e.window ∧ e.window < Config.windows
          then e.data.length else 0) + u.liveFill v = (s.copy v).applied + s.liveFill v := by
        intro v hv
        have hlt := State.mirrored_lt hs hv
        rw [hhead v, hlive v]
        by_cases hc : v = e.window
        · subst hc; simp [hlt]; omega
        · simp [hc, Ne.symm hc]
      constructor
      · rw [hctl]
        intro hr v hv
        rw [hent] at hv
        have := h.accepted hr v hv
        rw [(hcopy v).1, (hcopy v).2.1, State.liveFill_of_inbound hin]
        have := hpart v hv
        show (s.copy v).accepted = (s.copy v).applied + _ + u.liveFill v
        omega
      · rw [hctl]
        intro hr v hv
        rw [hent] at hv ⊢
        rw [(hcopy v).1]
        exact h.limit hr v hv
      · rw [hctl]
        intro hr v hv
        rw [hent] at hv ⊢
        have hlt := State.mirrored_lt hs hv
        have hfr := h.fresh hr v hv
        have hac := h.accepted hr v hv
        have hli := (h.limit hr v hv).1
        have hpa := hpart v hv
        rw [(hcopy v).2.2, (hcopy v).2.1]
        show (s.copy v).fresh = true ∨ (v = e.window ∧ e.window < Config.windows
          ∧ (s.copy e.window).applied + e.data.length = (s.entry e.window).bytes) ↔ (s.copy v).applied + _ = _
        by_cases hc : v = e.window
        · subst hc
          rw [if_pos ⟨rfl, hlt⟩] at hpa ⊢
          constructor
          · rintro (hf | ⟨-, -, hd⟩)
            · have := hfr.1 hf; omega
            · exact hd
          · exact fun hd => .inr ⟨rfl, hlt, hd⟩
        · rw [if_neg (by tauto)]
          simpa [hc] using hfr
      · rw [hctl]
        intro h1 h2 h3 v
        rw [State.liveFill_of_inbound hin]
        have := hhead v
        have := h.idle h1 h2 h3 v
        omega
      · rw [hctl, hser]
        exact fun hr x hx => hkeep (h.served hr x hx)
      · rw [hctl, hfl]
        exact fun hr g hg v o r d hb => hkeep (h.flight hr g hg v o r d hb)

theorem zeroFilled (h : s.PointsAgree) (hs : s.Sound) (hz : s.ctl.state ≠ .stopped → ∀ w, s.liveFill w = 0) :
    s.zeroFilled.PointsAgree := by
  refine State.PointsAgree.postAll ?_ _
  have hcopy : ∀ w, (s.entry w).isMirrored = true → (s.mapMirrored fun w _ =>
      { Copy.reset with fresh := true, accepted := (s.entry w).bytes, applied := (s.entry w).bytes }).copy w
        = { Copy.reset with fresh := true, accepted := (s.entry w).bytes, applied := (s.entry w).bytes } := by
    intro w hw
    rw [State.copy_mapMirrored, if_pos ⟨by rw [hs.copies]; exact State.mirrored_lt hs hw, hw⟩]
  have hb : ∀ w, (s.entry w).bytes % 64 = 0 := fun w => Nat.mul_mod_right _ _
  constructor
  · intro hr w hw
    rw [hcopy w hw]
    have := hz hr w
    show (s.entry w).bytes = (s.entry w).bytes + s.liveFill w
    omega
  · intro _ w hw
    rw [hcopy w hw]
    exact ⟨Nat.le_refl _, hb w⟩
  · intro _ w hw
    rw [hcopy w hw]
    exact ⟨fun _ => rfl, fun _ => rfl⟩
  · exact fun hr _ _ w => hz hr w
  · intro hr e he
    have hm := (h.served hr e he).1
    exact ⟨hm, by rw [hcopy _ hm]⟩
  · intro hr g hg w o r data hbd
    have hm := (h.flight hr g hg w o r data hbd).1
    exact ⟨hm, by rw [hcopy _ hm]⟩

theorem restartFill (h : s.PointsAgree) (hs : s.Sound) {w : Nat} (hf : (s.copy w).fresh = false) :
    (s.restartFill w).PointsAgree := by
  have hws : (s.withdraw fun e => e.isFill && e.window == w).Sound := hs.withdraw _
  have hcopy : ∀ v, (s.entry v).isMirrored = true →
      ((s.restartFill w).copy v).SamePoints (if v = w then Copy.reset else s.copy v) := by
    intro v hm
    have hlt := State.mirrored_lt hs hm
    unfold State.restartFill
    rw [State.copy_setCopy hws]
    by_cases hv : v = w
    · subst hv; rw [if_pos ⟨rfl, hlt⟩, if_pos rfl]; exact .refl _
    · rw [if_neg (by tauto), if_neg hv]; exact .refl _
  have hlive : ∀ v, (s.restartFill w).liveFill v = if v = w then 0 else s.liveFill v := by
    intro v
    show (s.withdraw fun e => e.isFill && e.window == w).liveFill v = _
    split
    · rename_i hv
      refine State.liveFill_withdrawn _ _ _ fun e he => ?_
      simp only [Inbound.liveOf, Bool.and_eq_true] at he
      simp [he, ← hv]
    · rename_i hv
      refine State.liveFill_kept _ _ _ fun e he => ?_
      simp only [Inbound.liveOf, Bool.and_eq_true, beq_iff_eq] at he
      simp [he, hv]
  have hkeep : ∀ {v}, (s.entry v).isMirrored = true ∧ (s.copy v).fresh = true →
      (s.entry v).isMirrored = true ∧ ((s.restartFill w).copy v).fresh = true := by
    rintro v ⟨hm, hv⟩
    refine ⟨hm, ?_⟩
    rw [(hcopy v hm).1]
    split
    · rename_i hc; rw [hc, hf] at hv; cases hv
    · exact hv
  constructor
  · intro hr v hm
    rw [(hcopy v hm).2.1, (hcopy v hm).2.2, hlive]
    have := h.accepted hr v hm
    split
    · rfl
    · exact this
  · intro hr v hm
    rw [(hcopy v hm).2.1]
    have := h.limit hr v hm
    split
    · exact ⟨Nat.zero_le _, rfl⟩
    · exact this
  · intro hr v hm
    rw [(hcopy v hm).1, (hcopy v hm).2.2]
    have := h.fresh hr v hm
    split
    · have : 0 < (s.entry v).bytes := Nat.mul_pos (by decide) (Nat.two_pow_pos _)
      refine ⟨fun hc => (by cases hc), fun hc => ?_⟩
      have hc : 0 = (s.entry v).bytes := hc
      omega
    · exact this
  · intro h1 h2 h3 v
    rw [hlive]
    split
    · rfl
    · exact h.idle h1 h2 h3 v
  · exact fun hr e he => hkeep (h.served hr e he)
  · exact fun hr g hg v o r data hb => hkeep (h.flight hr g hg v o r data hb)

theorem hostRefetch (h : s.PointsAgree) (hs : s.Sound) (w : Nat) : (s.hostRefetch w).1.PointsAgree := by
  unfold State.hostRefetch
  (repeat' split)
  · exact h
  · exact h
  · exact h
  · exact (h.restartFill hs (by simpa using ‹¬(s.copy w).fresh = true›)).offerDue

/-! ### Results of a transmission -/

theorem dropOvertaken (h : s.PointsAgree) : s.dropOvertaken.PointsAgree :=
  h.of_points (by simp) (by simp) (fun w => by simp only [State.copy, State.dropOvertaken_frame]; exact .refl _)
    (State.liveFill_of_inbound (by simp [State.dropOvertaken])) (fun e he => ⟨e, by simpa using he, rfl⟩)
    (same_flight (by simpa [State.dropOvertaken] using s.dropWaiting_inflight))

theorem unclaim (h : s.PointsAgree) (records : List PubRecord) : (s.unclaim records).PointsAgree := by
  unfold State.unclaim
  (repeat' split)
  · exact h.of_units rfl rfl rfl rfl rfl
  · exact h
  · exact h

theorem abandonAttempts (h : s.PointsAgree) (hs : s.Sound) (f : InFlight) : (s.abandonAttempts f).PointsAgree := by
  have hg := h.abandonWith f .attempts
  have hgs := hs.abandonWith f .attempts
  unfold State.abandonAttempts
  dsimp only
  (repeat' split)
  · exact hg.unclaim _
  · rename_i hj
    exact hg.joinFailed (by simpa using hj)
  · exact hg
  · exact stop _ _
  · exact hg
  · exact hg.abandonFetch hgs _
  · exact hg
  · exact hg
  · exact hg
  · exact hg
  · exact hg.dropService _ _

theorem waitAgain (h : s.PointsAgree) {f : InFlight} (hf : s.sched.inflight = some f) (attempts : Nat) :
    (s.waitAgain f attempts).PointsAgree :=
  h.of_points (by simp) (by simp) (fun w => by simp only [State.copy, State.waitAgain_frame]; exact .refl _)
    (State.liveFill_of_inbound (by simp [State.waitAgain])) (fun e he => ⟨e, by simpa using he, rfl⟩)
    fun g hg => .inr ⟨f, hf, by
      simp only [State.waitAgain, Option.some.injEq] at hg
      rw [← hg]⟩

theorem reportLost (h : s.PointsAgree) : s.reportLost.PointsAgree := by
  unfold State.reportLost
  (repeat' split)
  · exact h
  · exact h.abandonWith _ _
  · exact h.waitAgain (by assumption) _

theorem reportFailed (h : s.PointsAgree) (hs : s.Sound) (faulted : Bool) : (s.reportFailed faulted).PointsAgree := by
  unfold State.reportFailed
  split
  · exact h
  · rename_i f hf
    (repeat' split)
    · exact h.abandonWith _ _
    · exact h.waitAgain hf _
    · exact (h.waitAgain hf Config.attemptLimit).of_units rfl rfl rfl rfl rfl
    · exact h.abandonAttempts hs _

theorem finishAbandon (h : s.PointsAgree) (hs : s.Sound) : s.finishAbandon.PointsAgree := by
  have hd : State.PointsAgree { s with ctl.abandonDue := false } := h.of_units rfl rfl rfl rfl rfl
  have hds : State.Sound { s with ctl.abandonDue := false } := { hs with }
  unfold State.finishAbandon
  (repeat' split)
  · exact hd.abandonAttempts hds _
  · exact hd
  · exact h

theorem settle (h : s.PointsAgree) (rejected : Bool) : (s.settle rejected).PointsAgree := by
  unfold State.settle
  split
  · exact h
  · rename_i f _
    have hl := h.leaveSource f
    (repeat' split) <;> first | exact hl | exact hl.postAll _ | exact stop _ _ | exact hl.advanceService _ _ _

/-! ### The transmit opportunity -/

theorem supply (h : s.PointsAgree) (source : Source) (frame : Frame) (attempts : Nat)
    (hb : ∀ w o r data, frame.body = .fill w o r data → s.ctl.state ≠ .stopped →
      (s.entry w).isMirrored = true ∧ (s.copy w).fresh = true) :
    (s.supply source frame attempts).PointsAgree :=
  { h with
    accepted := h.accepted
    flight := by
      intro hr g hg w o r data hbd
      simp only [State.supply, Option.some.injEq] at hg
      subst hg
      exact hb w o r data hbd hr }

theorem supplyFill (h : s.PointsAgree) {e : Service} (he : e ∈ s.refresh.service) (attempts : Nat) :
    (s.supplyFill e attempts).PointsAgree := by
  unfold State.supplyFill
  dsimp only
  split
  · refine h.supply _ _ _ fun w o r data hb hr => ?_
    injection hb with hb
    exact hb ▸ h.served hr e he
  · refine State.PointsAgree.supply (h.of_units (by simp) (by simp) (by simp) (by simp [State.grantFillRead, State.passSnapshot])
      (by simp)) _ _ _ fun w o r data hb hr => ?_
    injection hb with hb
    exact hb ▸ h.served (by simpa using hr) e he

theorem resupply (h : s.PointsAgree) {f : InFlight} (hf : s.sched.inflight = some f) : (s.resupply f).PointsAgree := by
  unfold State.resupply
  (repeat' split)
  · exact h.supply _ _ _ fun w o r data hb hr => h.flight hr f hf w o r data hb
  · exact h.supply _ _ _ fun w o r data hb => absurd hb (s.controlBody_ne_fill .census w o r data)
  · exact h.supply _ _ _ fun w o r data hb hr => h.flight hr f hf w o r data hb
  · rename_i e he _
    exact h.supplyFill (List.mem_of_find?_eq_some he) _
  · exact h
  · exact h

theorem select (h : s.PointsAgree) : s.select.PointsAgree := by
  have ht : State.PointsAgree { s with sched.control := s.sched.control.dropWhile s.entryOvertaken } :=
    h.of_units rfl rfl rfl rfl rfl
  have record : ∀ (r : PubRecord) (rest : List PubRecord),
      (State.selectPublication { s with sched.control := s.sched.control.dropWhile s.entryOvertaken } r rest).PointsAgree :=
    fun r rest => State.PointsAgree.supply (s := { s with
        sched.control := s.sched.control.dropWhile s.entryOvertaken
        pub.queue := { r with selected := true } :: rest
        sched.turn := .service }) (h.of_units rfl rfl rfl rfl rfl) _ _ _
      fun w o q data hb => absurd hb (r.body_ne_fill w o q data)
  have fill : ∀ e, ∀ p, s.refresh.service.head?.filter p = some e →
      (State.selectFill { s with sched.control := s.sched.control.dropWhile s.entryOvertaken } e).PointsAgree := by
    intro e p he
    refine State.PointsAgree.supplyFill (s := { s with
        sched.control := s.sched.control.dropWhile s.entryOvertaken
        sched.turn := .publications }) (h.of_units rfl rfl rfl rfl rfl) ?_ _
    exact List.mem_of_mem_head? (Option.filter_eq_some_iff.1 he).1
  unfold State.select State.selectByTurn
  dsimp only
  (repeat' split) <;>
    first | exact ht | exact record _ _ | exact fill _ _ (by assumption)
          | exact ht.supply _ _ _ fun w o r data hb => absurd hb (s.controlBody_ne_fill _ w o r data)

theorem atOpportunity (h : s.PointsAgree) : s.atOpportunity.PointsAgree := by
  unfold State.atOpportunity
  split
  · exact h
  · split
    · split
      · exact h.abandonWith _ _
      · exact h.resupply (by assumption)
    · exact h.select

/-! ### Acceptance -/

theorem acceptTimers (h : s.PointsAgree) (sender : Nat) (sent : Bool) : (s.acceptTimers sender sent).PointsAgree := by
  unfold State.acceptTimers
  dsimp only
  (repeat' split) <;> exact h.of_units rfl rfl rfl rfl rfl

theorem acceptWrite (h : s.PointsAgree) (sender w offset : Nat) (data : List Byte) :
    (s.acceptWrite sender w offset data).PointsAgree := by
  unfold State.acceptWrite
  split
  · refine h.of_points (by simp) (by simp) (fun v => by simp only [State.copy, State.enqueue_frame]; exact .refl _)
      (fun v => ?_) (fun e he => ⟨e, by simpa using he, rfl⟩) fun g hg => .inr ⟨g, by simpa using hg, rfl⟩
    by_cases hl : s.mirror.inbound.length < Config.inboundLimit
    · rw [State.liveFill_enqueue _ _ _ hl]; simp [Inbound.liveOf, Inbound.isFill]
    · simp [State.enqueue, hl]
  · exact h

theorem strip (h : s.PointsAgree) (n : Nat) : (s.strip n).PointsAgree :=
  State.PointsAgree.dropServiceOf (h.of_units (by simp) (by simp) (by simp) (by simp) (by simp)) _

theorem stripPresent (h : s.PointsAgree) (n : Nat) : (s.stripPresent n).PointsAgree := by
  unfold State.stripPresent
  (repeat' split)
  · exact State.PointsAgree.strip (h.of_units (by simp) (by simp) (by simp) (by simp) (by simp)) n
  · exact h.strip n
  · exact h

theorem setPresent (h : s.PointsAgree) (n : Nat) (st : RosterStatus) : (s.setPresent n st).PointsAgree :=
  h.of_units rfl rfl rfl rfl rfl

theorem acceptPresence (h : s.PointsAgree) (sender : Nat) (sent : Bool) (mode : PresenceMode) (sig : Word) :
    (s.acceptPresence sender sent mode sig).PointsAgree := by
  unfold State.acceptPresence
  (repeat' split)
  · exact (h.stripPresent sender).setPresent _ _
  · refine State.PointsAgree.of_units ((h.stripPresent sender).setPresent sender .joined) ?_ ?_ ?_ ?_ ?_ <;>
      unfold State.acceptJoin State.startAnswer <;> split <;> rfl
  · exact h.setPresent _ _
  · exact h

theorem completeJoined (h : s.PointsAgree) (kept : Nat) : (s.completeJoined kept).PointsAgree := h.of_units rfl rfl rfl rfl rfl

theorem installCensus (h : s.PointsAgree) (hj : s.ctl.state = .joining) (map : List RosterStatus)
    (groups : List (List Nat)) : (s.installCensus map groups).PointsAgree := by
  unfold State.installCensus
  dsimp only
  refine State.PointsAgree.requestAll ?_
  have hd := (h.of_units (t := { s with
    roster.entries := (List.range Config.stations).map (s.installedEntry map)
    claims := s.claims.mapIdx fun i (g : Guard) => { g with queue := groups.getD i [] } }) rfl rfl rfl rfl rfl).dropAbandoned
  exact hd.of_state (by simp [hj]) (by simp) (fun w => by simp only [State.copy, State.moveTo_frame]; exact .refl _)
    (State.liveFill_of_inbound (by simp)) (fun e he => ⟨e, by simpa using he, rfl⟩) (same_flight (.inr (by simp)))
    (.inl (by simp))

theorem acceptCensus (h : s.PointsAgree) (sender : Nat) (sig : Word) (map : List RosterStatus)
    (groups : List (List Nat)) : (s.acceptCensus sender sig map groups).PointsAgree := by
  unfold State.acceptCensus
  (repeat' split)
  · exact enterIncompatible _ _
  · exact (h.stripPresent sender).setPresent _ _
  · rename_i ha _
    simp only [State.awaitsCensus, Bool.and_eq_true, beq_iff_eq] at ha
    exact h.installCensus ha.1 _ _
  · exact (h.completeJoined _).setPresent _ _
  · exact h.completeJoined _

theorem acceptDepart (h : s.PointsAgree) (subject : Nat) : (s.acceptDepart subject).PointsAgree := by
  have hg : ((s.strip subject).setAbsent subject).PointsAgree := (h.strip subject).of_units rfl rfl rfl rfl rfl
  unfold State.acceptDepart
  dsimp only
  split
  · unfold State.departSelf
    split
    · exact stop _ _
    · exact rejoin _ _
    · exact rejoin _ _
    all_goals exact hg
  · exact hg

/-- The limits that let this station's copies take the chunk of an accepted FILL. -/
def BodyTakes (s : State) (sent : Bool) (b : Body) : Prop :=
  ∀ w o r data, b = .fill w o r data → (s.entry w).isMirrored = true → Takes s sent w o r data

theorem acceptBody (h : s.PointsAgree) (hs : s.Sound) (hm : s.isMember = true) {sender : Nat} {sent : Bool} {b : Body}
    (ht : BodyTakes s sent b) : (s.acceptBody sender sent b).PointsAgree := by
  cases b with
  | write w o data => exact h.acceptWrite _ _ _ _
  | claim w => refine h.of_units ?_ ?_ ?_ ?_ ?_ <;> simp [State.acceptBody]
  | release w r => refine h.of_units ?_ ?_ ?_ ?_ ?_ <;> simp [State.acceptBody]
  | presence m sig => exact h.acceptPresence _ _ _ _
  | census sig map groups => exact h.acceptCensus _ _ _ _
  | depart p r => exact h.acceptDepart _
  | fetch w o => exact h.acceptFetch hs _ _ _ _
  | fill w o r data => exact h.acceptFill hs hm (ht w o r data rfl)

theorem acceptEffect (h : s.PointsAgree) (hs : s.Sound) (hm : s.isMember = true) {sender : Nat} {sent : Bool}
    {body : Option Body} (ht : ∀ b, body = some b → s.passesFilter sender b.isPresence = true → BodyTakes s sent b) :
    (s.acceptEffect sender sent body).PointsAgree := by
  unfold State.acceptEffect
  (repeat' split)
  · exact (h.acceptBody hs hm (ht _ rfl (by assumption))).dropOvertaken
  · exact h
  · exact h

theorem accept (h : s.PointsAgree) (hs : s.Sound) (hm : s.isMember = true) {sender : Nat} {sent : Bool}
    {body : Option Body} (ht : ∀ b, body = some b → (s.acceptTimers sender sent).passesFilter sender b.isPresence = true →
      BodyTakes (s.acceptTimers sender sent) sent b) : (s.accept sender sent body).PointsAgree := by
  have hts := hs.acceptTimers sender sent
  unfold State.accept
  dsimp only
  split
  · exact enterIncompatible _ _
  · have he := (h.acceptTimers sender sent).acceptEffect hts (by simpa [State.isMember] using hm) ht
    split
    · exact he.settle _
    · exact he

/-! ### The window end -/

theorem windowVoided (h : s.PointsAgree) (hs : s.Sound) (f : RxFrame) : (s.windowVoided f).PointsAgree := by
  have h1 : (if f.sending then s.reportFailed false else s).PointsAgree := by
    split
    · exact h.reportFailed hs _
    · exact h
  have h2 : (if s.ctl.state = .muted then
      { (if f.sending then s.reportFailed false else s) with rx.cleanRun := 0 }
      else (if f.sending then s.reportFailed false else s)).PointsAgree := by
    split
    · exact h1.of_units rfl rfl rfl rfl rfl
    · exact h1
  unfold State.windowVoided
  dsimp only
  split
  · exact enterMuted _
  · exact h2

theorem overhear (h : s.PointsAgree) (f : RxFrame) : (s.overhear f).PointsAgree := by
  have hh : (s.hearReference f).PointsAgree := h.of_units rfl rfl rfl rfl rfl
  unfold State.overhear
  dsimp only
  split
  · rename_i hl
    split
    · exact hh.enterJoining hl _
    · exact hh
  · (repeat' split)
    · exact h.of_units rfl rfl rfl rfl rfl
    · exact h.of_units rfl rfl rfl rfl rfl
    · exact rejoin _ _
  all_goals exact hh

theorem afterWindow (h : s.PointsAgree) (hs : s.Sound) (ha : s.HoldsAgree) : s.afterWindow.PointsAgree := by
  have hd : s.deferredFounding.PointsAgree := by
    unfold State.deferredFounding
    split
    · rename_i hd
      exact h.foundingTest (ha.founding hd)
    · exact h
  exact (hd.finishAbandon hs.deferredFounding).offerDue.settleMemory

theorem endWindow (h : s.PointsAgree) (hs : s.Sound) (ha : s.HoldsAgree) (hl : s.LineAgrees) (hh : s.HeardAgrees)
    (hv : s.line.state = .verdict) {f : RxFrame} (hf : s.rx.frame = some f) (samples : BitVec 20) :
    (s.endWindow f samples).PointsAgree := by
  have hr : s.ctl.state ≠ .stopped := fun hc => by rw [hl.halted hc] at hv; cases hv
  have hg : (s.beginGap (f.voidedBy samples)).PointsAgree := h.of_units rfl rfl rfl rfl rfl
  have hgs := hs.beginGap (f.voidedBy samples)
  have hw := ha.verdict hs hl hv hf samples
  unfold State.endWindow
  dsimp only
  split
  · rename_i hc
    rw [if_pos hc] at hw
    exact (hg.windowVoided hgs f).afterWindow (hgs.windowVoided f) hw
  · rename_i hc
    rw [if_neg hc] at hw
    refine State.PointsAgree.afterWindow ?_ (hgs.windowAccepted f) hw
    have hcs : State.Sound { s.beginGap (f.voidedBy samples) with rx.objectionRun := 0 } :=
      { hgs with objections := by simp }
    have hcp : State.PointsAgree { s.beginGap (f.voidedBy samples) with rx.objectionRun := 0 } :=
      hg.of_units rfl rfl rfl rfl rfl
    unfold State.windowAccepted
    dsimp only
    split
    · rename_i hm
      refine hcp.accept hcs hm fun b hb hpass w o r data hfill hmir => ?_
      obtain ⟨p, hp, rfl⟩ := Option.map_eq_some_iff.1 hb
      have hmir : (s.entry w).isMirrored = true := by simpa [State.entry, State.beginGap] using hmir
      unfold Takes
      split
      · rename_i hsend
        obtain ⟨g, hfl, -, rfl⟩ := hl.sent hv f hf hsend
        rw [InFlight.ownFrame_bytes] at hp
        obtain ⟨v, o', r', d', hbody, hwv⟩ := parseFrame_fill hp hfill
        have hgf := h.flight hr g hfl v o' r' d' hbody
        have hlt := State.mirrored_lt hs hgf.1
        simp only [Config.windows] at hlt
        have hvw : w = v := by omega
        rw [hvw]
        simpa [State.copy, State.beginGap] using hgf.2
      · rename_i hsend
        have hobj : f.objects = false := by
          by_contra ho
          exact hc (RxFrame.voidedBy_of (.inl (by simpa using ho)))
        have hst : s.status p.sender = .joined ∨ s.status p.sender = .active := by
          have hsp : senderOf f.chars = p.sender := senderOf_read hp
          rw [hfill] at hpass
          simp only [State.passesFilter, State.acceptTimers_status, hsp, Body.isPresence] at hpass
          change (match s.status p.sender with
            | .foreign => false
            | .absent => false
            | .joined | .active => true) = true at hpass
          cases hs : s.status p.sender <;> simp [hs] at hpass <;> simp
        have := hh hv f hf (by simpa using hsend) hobj hm p hp hst
        rw [hfill] at this
        simpa [State.InSecondTier, State.entry, State.beginGap] using this
    · exact hcp.overhear f

theorem endVerdict (h : s.PointsAgree) (hs : s.Sound) (ha : s.HoldsAgree) (hl : s.LineAgrees) (hh : s.HeardAgrees)
    (samples : BitVec 20) : (s.endVerdict samples).PointsAgree := by
  unfold State.endVerdict
  (repeat' split)
  · exact h.endWindow hs ha hl hh (by assumption) (by assumption) _
  · exact h
  · exact h

/-! ### The line interface -/

/-- An operation of the line interface or the receiver alone. -/
theorem of_line (h : s.PointsAgree) (hc : t.ctl = s.ctl) (ht : t.layout = s.layout) (hr : t.refresh = s.refresh)
    (hm : t.mirror = s.mirror) (hi : t.sched = s.sched) : t.PointsAgree :=
  h.of_units (by rw [hc]) ht hr (by rw [hm]) (by rw [hi])

theorem meetSync (h : s.PointsAgree) : s.meetSync.PointsAgree := h.of_line (by simp) (by simp) (by simp) (by simp) (by simp)

theorem completeGap (h : s.PointsAgree) : s.completeGap.PointsAgree :=
  h.of_line (by simp) (by simp) (by simp) (by simp) (by simp)

theorem restartCycle (h : s.PointsAgree) : s.restartCycle.PointsAgree :=
  h.of_line (by simp) (by simp) (by simp) (by simp) (by simp)

theorem strayLevel (h : s.PointsAgree) : s.strayLevel.PointsAgree :=
  h.of_line (by simp) (by simp) (by simp) (by simp) (by simp)

theorem becomeStuck (h : s.PointsAgree) : s.becomeStuck.PointsAgree :=
  h.of_line (by simp) (by simp) (by simp) (by simp) (by simp)

theorem freeLine (h : s.PointsAgree) : s.freeLine.PointsAgree := h.of_line (by simp) (by simp) (by simp) (by simp) (by simp)

theorem senseStart (h : s.PointsAgree) : s.senseStart.PointsAgree :=
  h.of_line (by simp) (by simp) (by simp) (by simp) (by simp)

theorem endFrame (h : s.PointsAgree) (samples : List CharSamples) : (s.endFrame samples).PointsAgree :=
  h.of_line (by simp) (by simp) (by simp) (by simp) (by simp)

theorem reachSilence (h : s.PointsAgree) : s.reachSilence.PointsAgree := by
  unfold State.reachSilence
  dsimp only
  (repeat' split)
  · exact State.PointsAgree.enterJoining (s := { s with
      line := { s.line.beginSlots with reference := some Config.silentReference, silence := Config.silenceTicks } })
      (h.of_units rfl rfl rfl rfl rfl) (by assumption) _
  · exact h.of_units rfl rfl rfl rfl rfl
  · exact h

theorem takeOpportunity (h : s.PointsAgree) : s.takeOpportunity.PointsAgree := by
  unfold State.takeOpportunity
  split
  · exact (State.PointsAgree.atOpportunity (s := { s with line.slot := s.ownSlot.getD 0, line.offered := true })
      (h.of_units rfl rfl rfl rfl rfl)).offerDue.settleMemory
  · exact h

theorem loseArbitration (h : s.PointsAgree) (bit : Nat) : (s.loseArbitration bit).PointsAgree := by
  have hw : s.withdrawFrame.PointsAgree := h.of_units rfl rfl rfl rfl rfl
  unfold State.loseArbitration
  split
  · exact hw.reportLost.offerDue.settleMemory
  · exact h

theorem faultLine (h : s.PointsAgree) (hs : s.Sound) (bit : Nat) : (s.faultLine bit).PointsAgree := by
  have hw : s.withdrawFrame.PointsAgree := h.of_units rfl rfl rfl rfl rfl
  unfold State.faultLine
  split
  · exact (hw.reportFailed hs.withdrawFrame true).offerDue.settleMemory
  · exact h

/-! ### Timers and the passing of one ct -/

theorem expireAnnounce (h : s.PointsAgree) : s.expireAnnounce.PointsAgree :=
  h.of_units (by simp) (by simp) (by simp) (by simp) (by simp)

theorem expireSilence (h : s.PointsAgree) (n : Nat) : (s.expireSilence n).PointsAgree :=
  h.of_units (by simp) (by simp) (by simp) (by simp) (by simp)

theorem expireLease (h : s.PointsAgree) (w : Nat) : (s.expireLease w).PointsAgree :=
  h.of_units (by simp) (by simp) (by simp) (by simp) (by simp)

theorem expireAnswer (h : s.PointsAgree) : s.expireAnswer.PointsAgree := by
  unfold State.expireAnswer
  split
  · rename_i hc
    simp only [State.awaitsCensus, Bool.and_eq_true, beq_iff_eq] at hc
    split
    · exact h.of_units rfl rfl rfl rfl rfl
    · exact (h.foundingTest hc.1.1).offerDue.settleMemory
  · exact h

theorem tickFetch (h : s.PointsAgree) (hs : s.Sound) (w : Nat) : (s.tickFetch w).PointsAgree := by
  unfold State.tickFetch
  split
  · exact h.expireFetch hs w
  · exact h.setSame hs _ _ fun _ => .refl _

theorem tickAnswer (h : s.PointsAgree) : s.tickAnswer.PointsAgree := by
  unfold State.tickAnswer
  split
  · exact h.expireAnswer
  · exact h.of_units rfl rfl rfl rfl rfl

theorem tickTimers (h : s.PointsAgree) (hs : s.Sound) : s.tickTimers.PointsAgree :=
  (State.tickTimers_preserves (fun s => s.PointsAgree ∧ s.Sound)
    (fun _ h => ⟨h.1.of_units (by simp) (by simp) (by simp) (by simp) (by simp), h.2.tickAnnounce⟩)
    (fun _ n h => ⟨h.1.of_units (by simp) (by simp) (by simp) (by simp) (by simp), h.2.tickSilence n⟩)
    (fun _ h => ⟨h.1.tickAnswer, h.2.tickAnswer⟩)
    (fun _ w h => ⟨h.1.of_units (by simp) (by simp) (by simp) (by simp) (by simp), h.2.tickLease w⟩)
    (fun _ w h => ⟨h.1.tickFetch h.2 w, h.2.tickFetch w⟩) ⟨h, hs⟩).1

theorem tickLine (h : s.PointsAgree) (hs : s.Sound) (ha : s.HoldsAgree) (hl : s.LineAgrees) (hh : s.HeardAgrees) :
    s.tickLine.PointsAgree := by
  have hc : State.PointsAgree { s with line.count := s.line.count + 1, line.silence := s.line.silence + 1 } :=
    h.of_units rfl rfl rfl rfl rfl
  unfold State.tickLine
  split
  · unfold State.tickIdle
    dsimp only
    (repeat' split) <;>
      first | exact hc.meetSync | exact hc.meetSync.completeGap | exact hc.meetSync.reachSilence
            | exact hc.meetSync.completeGap.reachSilence
  · unfold State.tickSlot
    dsimp only
    (repeat' split) <;>
      first | exact h.takeOpportunity.of_units rfl rfl rfl rfl rfl | exact h.of_units rfl rfl rfl rfl rfl
            | exact h.takeOpportunity.restartCycle | exact h.restartCycle
  · exact h
  · unfold State.tickFrame
    dsimp only
    have hn : State.PointsAgree { s with line.count := s.line.count + 1 } := h.of_units rfl rfl rfl rfl rfl
    (repeat' split) <;> first | exact hn | exact hn.endFrame _
  · unfold State.tickVerdict
    dsimp only
    split
    · exact hc.endVerdict (hs.withLine _) (ha.of_view rfl) (hl.of_view rfl rfl rfl rfl) hh _
    · exact hc
  · unfold State.tickStuck
    dsimp only
    split
    · exact hc.freeLine
    · exact hc

theorem tick (h : s.PointsAgree) (hs : s.Sound) (ha : s.HoldsAgree) (hl : s.LineAgrees) (hh : s.HeardAgrees) :
    s.tick.PointsAgree := by
  unfold State.tick
  split
  · exact (h.tickTimers hs).tickLine hs.tickTimers (ha.tickTimers hs) hl.tickTimers (hh.tickTimers hl)
  · exact h

/-! ### The host -/

/-- START leaves nothing of the replicated state. -/
theorem startStation (s : State) : s.startStation.PointsAgree := by
  refine of_blank (fun w => ?_) (fun w => ?_) ?_ ?_
  · have : s.startStation.copy w = Copy.reset := by
      have hc := State.copy_clearCopies (s.startMemory.startLine.startTable.clearControl.resetTurn.clearService) w
      simpa [State.startStation, State.copy] using hc
    rw [this]; exact .refl _
  · have : s.startStation.mirror.inbound = [] := by
      simp [State.startStation, State.startTable, State.startLine, State.startMemory]
    simp [State.liveFill, this]
  · simp [State.startStation, State.clearCopies, State.mapCopies, State.clearService]
  · simp [State.startStation, State.clearRoster, State.clearCopies, State.mapCopies, State.clearService, State.emptyChunk,
      State.discardFillRead, State.resetTurn, State.clearControl]

theorem hostStart (h : s.PointsAgree) : s.hostStart.PointsAgree := by
  unfold State.hostStart
  (repeat' split)
  · exact h.of_units rfl rfl rfl rfl rfl
  · exact h.of_units rfl rfl rfl rfl rfl
  · exact (startStation s).of_units rfl rfl rfl rfl rfl

theorem hostLeave (h : s.PointsAgree) : s.hostLeave.1.PointsAgree := by
  unfold State.hostLeave
  split
  · exact h
  · exact stop _ _
  · exact stop _ _
  · exact stop _ _
  · exact h.leaveGroup (.inl (by assumption))
  · exact h.leaveGroup (.inr (by assumption))
  · exact h

/-- LOAD ENTRY changes the table in STOPPED only (R47). -/
theorem hostLoad (h : s.PointsAgree) (index : Nat) (loaded : Option Entry) : (s.hostLoad index loaded).1.PointsAgree := by
  unfold State.hostLoad
  (repeat' split)
  · exact h
  · exact h
  · rename_i hs _ _ _
    exact of_stopped (by simpa [State.setTableEntry] using hs)
  · exact h

end State.PointsAgree

end Sys2Proof.Machine
end

