-- ==== Sys2Proof/Laws/Table.lean ====
section
/-! SUPPORT. What the decoder, START's validation and the signature sequence of a table come to, in the words of R48 to
R57. -/

namespace Sys2Proof.Machine

/-! ### The decoder (R48, R49, R51) -/

theorem Entry.contains_iff (e : Entry) (a : Nat) :
    e.contains a = true ↔ e.enabled = true ∧ e.base.toNat ≤ a ∧ a < e.base.toNat + 64 * 2 ^ e.size := by
  unfold Entry.contains Entry.bytes
  rw [Bool.and_eq_true, Bool.and_eq_true, decide_eq_true_iff, decide_eq_true_iff, and_assoc]

/-- An address decodes to the lowest-numbered enabled window whose region holds it (R48, R49). -/
theorem State.decode_iff {s : State} (h : s.ctl.state ≠ .stopped) (a w o : Nat) :
    s.decode a = some (w, o) ↔
      ((s.entry w).contains a = true ∧ o = a - (s.entry w).base.toNat)
      ∧ ∀ v, v < w → (s.entry v).contains a = false := by
  have listed : ∀ v, (∃ hv : v < s.layout.table.length, (s.layout.table[v]).contains a = true) ↔
      (s.entry v).contains a = true := by
    intro v
    by_cases hv : v < s.layout.table.length
    · simp [State.entry, hv]
    · simp [State.entry, hv, Entry.reset, Entry.contains]
  rw [State.decode, if_neg h, decodeIn, Option.map_eq_some_iff]
  constructor
  · rintro ⟨x, hx, he⟩
    obtain ⟨rfl, rfl⟩ := Prod.mk.inj he
    obtain ⟨hl, h1, h2⟩ := List.findIdx?_eq_some_iff_getElem.1 hx
    refine ⟨⟨(listed x).1 ⟨hl, h1⟩, rfl⟩, fun v hv => ?_⟩
    by_contra hc
    obtain ⟨h3, h4⟩ := (listed v).2 (by simpa using hc)
    exact h2 v hv h4
  · rintro ⟨⟨h1, rfl⟩, h2⟩
    obtain ⟨hl, h3⟩ := (listed w).2 h1
    refine ⟨w, List.findIdx?_eq_some_iff_getElem.2 ⟨hl, h3, fun j hj hc => ?_⟩, rfl⟩
    have := (listed j).1 ⟨by omega, hc⟩
    rw [h2 j hj] at this; cases this

/-- Two addresses are in one decoded run: one window at following offsets, or both unmapped (R51). -/
theorem State.sameRun_iff (s : State) (a : Nat) :
    s.sameRun a = true ↔ a ≠ 0xFFFF ∧ ((∃ w o, s.decode a = some (w, o) ∧ s.decode (a + 1) = some (w, o + 1))
      ∨ (s.decode a = none ∧ s.decode (a + 1) = none)) := by
  unfold State.sameRun
  by_cases h : a = 0xFFFF
  · simp [h]
  · simp only [h, if_false]
    cases h1 : s.decode a with
    | none =>
      cases s.decode (a + 1) with
      | none => simp [h]
      | some p => obtain ⟨w, o⟩ := p; simp
    | some p =>
      obtain ⟨w, o⟩ := p
      cases s.decode (a + 1) with
      | none => simp
      | some p => obtain ⟨w', o'⟩ := p; simp [h]; intro _; exact eq_comm

/-! ### Validation (R55) -/

theorem Entry.bytes_pos (e : Entry) : 0 < e.bytes := by unfold Entry.bytes; positivity

/-- Local ranges overlap when they share an address (R55). -/
theorem Entry.overlaps_iff (e f : Entry) : e.overlaps f = true ↔ ∃ a,
    (e.localBase ≤ a ∧ a < e.localBase + e.bytes) ∧ (f.localBase ≤ a ∧ a < f.localBase + f.bytes) := by
  have he := e.bytes_pos
  have hf := f.bytes_pos
  simp only [Entry.overlaps, Bool.and_eq_true, decide_eq_true_eq]
  constructor
  · rintro ⟨h1, h2⟩
    exact ⟨max e.localBase f.localBase, by omega, by omega⟩
  · rintro ⟨a, h1, h2⟩; omega

/-- The tests in the form `checkEntry` makes them. -/
def checkFails (table : List Entry) (i : Nat) : TableTest → Prop
  | .noWindow => False
  | .alignment => (table.getD i Entry.reset).base.toNat % (table.getD i Entry.reset).bytes ≠ 0
  | .noOwner => (table.getD i Entry.reset).policy = .owned ∧ (table.getD i Entry.reset).owner = none
  | .leasePolicy => (table.getD i Entry.reset).lease ≠ 0 ∧ (table.getD i Entry.reset).policy ≠ .guarded
  | .watchUnmirrored => (table.getD i Entry.reset).watched ∧ ¬ (table.getD i Entry.reset).mirrored
  | .localRange => (table.getD i Entry.reset).mirrored
      ∧ Config.mirrorBytes < (table.getD i Entry.reset).localBase + (table.getD i Entry.reset).bytes
  | .localOverlap => (table.getD i Entry.reset).mirrored ∧ (List.range i).any fun j =>
      (table.getD j Entry.reset).isMirrored && (table.getD i Entry.reset).overlaps (table.getD j Entry.reset)
  | .tooManyGuarded => (table.getD i Entry.reset).isGuarded
      ∧ ((List.range (i + 1)).filter fun j => (table.getD j Entry.reset).isGuarded).length = 5

theorem checkFails_iff {table : List Entry} {i : Nat} (he : (table.getD i Entry.reset).enabled = true) (t : TableTest) :
    checkFails table i t ↔ FailsTest table i t := by
  cases t
  · rfl
  · simp only [checkFails, FailsTest, Entry.bytes, Nat.dvd_iff_mod_eq_zero, ne_eq]
  · rfl
  · rfl
  · simp [checkFails, FailsTest]
  · rfl
  · simp only [checkFails, FailsTest, List.any_eq_true, List.mem_range, Bool.and_eq_true, Entry.overlaps_iff,
      Entry.isMirrored, Entry.localBase, Entry.bytes]
    constructor
    · rintro ⟨h1, j, h2, h3, a, h4, h5⟩
      exact ⟨h1, j, h2, h3.1, h3.2, a, by rintro k (rfl | rfl) <;> assumption⟩
    · rintro ⟨h1, j, h2, h3, h4, a, h5⟩
      exact ⟨h1, j, h2, ⟨h3, h4⟩, a, h5 i (Or.inl rfl), h5 j (Or.inr rfl)⟩
  · simp only [checkFails, FailsTest, List.range_succ, List.filter_append, List.length_append]
    by_cases hg : (table.getD i Entry.reset).policy = .guarded
    · have hi : (table.getD i Entry.reset).isGuarded = true := by simp only [Entry.isGuarded, he, hg]; rfl
      simp only [List.filter_cons, hi, if_true, hg, List.filter_nil, List.length_singleton, true_and]
      unfold Entry.isGuarded
      omega
    · have hi : (table.getD i Entry.reset).isGuarded = false := by simp only [Entry.isGuarded, he]; simpa using hg
      constructor
      · rintro ⟨h, -⟩; rw [hi] at h; cases h
      · rintro ⟨h, -⟩; exact absurd h hg

/-- The failing test of an enabled entry is the first of R55's order. -/
theorem checkEntry_some {table : List Entry} {i : Nat} {t : TableTest} (he : (table.getD i Entry.reset).enabled = true)
    (h : checkEntry table i = some t) : FailsTest table i t ∧ ∀ u, u.code < t.code → ¬ FailsTest table i u := by
  simp only [← checkFails_iff he]
  unfold checkEntry at h
  dsimp only at h
  rw [if_neg (by rw [he]; decide)] at h
  (repeat' split at h) <;> cases h <;> refine ⟨by simp only [checkFails]; assumption, ?_⟩ <;> intro u hu <;>
    cases u <;> simp only [TableTest.code] at hu <;>
    first | omega | (simp only [checkFails]; first | assumption | exact not_false)

/-- An enabled entry passes exactly when it fails no test (R55). -/
theorem checkEntry_none {table : List Entry} {i : Nat} (he : (table.getD i Entry.reset).enabled = true) :
    checkEntry table i = none ↔ ∀ t, ¬ FailsTest table i t := by
  constructor
  · intro h t
    rw [← checkFails_iff he]
    unfold checkEntry at h
    dsimp only at h
    rw [if_neg (by rw [he]; decide)] at h
    repeat' split at h
    all_goals try cases h
    cases t <;> simp only [checkFails] <;> first | assumption | exact not_false
  · intro h
    cases hc : checkEntry table i with
    | none => rfl
    | some t => exact absurd (checkEntry_some he hc).1 (h t)

theorem checkEntry_disabled {table : List Entry} {i : Nat} (h : (table.getD i Entry.reset).enabled = false) :
    checkEntry table i = none := by unfold checkEntry; simp only [h]; rfl

/-- Validation passes exactly a table that has an enabled entry and of whose enabled entries none fails a test (R55). -/
theorem validate_none_iff (table : List Entry) : validate table = none ↔ PassesValidation table := by
  unfold validate PassesValidation
  by_cases hw : (List.range Config.windows).any fun i => (table.getD i Entry.reset).enabled
  · rw [if_neg (by rw [hw]; decide)]
    simp only [List.findSome?_eq_none_iff, Option.map_eq_none_iff, List.mem_range]
    constructor
    · intro h
      exact ⟨by simpa [List.any_eq_true] using hw, fun i hi he => (checkEntry_none he).1 (h i hi)⟩
    · rintro ⟨-, h⟩ i hi
      cases he : (table.getD i Entry.reset).enabled with
      | false => exact checkEntry_disabled he
      | true => exact (checkEntry_none he).2 (h i hi he)
  · rw [if_pos (by simp only [Bool.not_eq_true] at hw; rw [hw]; rfl)]
    constructor
    · intro h; cases h
    · rintro ⟨⟨i, hi, he⟩, -⟩
      exact absurd (List.any_eq_true.2 ⟨i, List.mem_range.2 hi, he⟩) hw

theorem range_split {n : Nat} {l m : List Nat} {i : Nat} (h : List.range n = l ++ i :: m) : i < n ∧ l = List.range i := by
  have hlen : n = l.length + (m.length + 1) := by simpa using congrArg List.length h
  have hi : (List.range n)[l.length]? = some i := by rw [h]; simp
  rw [List.getElem?_range (by omega)] at hi
  obtain rfl := Option.some.inj hi
  refine ⟨by omega, ?_⟩
  have := congrArg (List.take l.length) h
  rw [List.take_left, List.take_range, Nat.min_eq_left (by omega)] at this
  exact this.symm

/-- Validation ends with the first failing test of the lowest failing entry (R55). -/
theorem validate_some_iff (table : List Entry) (d : TableFault) : validate table = some d ↔ FirstFailure table d := by
  unfold validate FirstFailure
  by_cases hw : (List.range Config.windows).any fun i => (table.getD i Entry.reset).enabled
  · rw [if_neg (by rw [hw]; decide), List.findSome?_eq_some_iff]
    constructor
    · rintro ⟨l, i, m, hl, hs, hn⟩
      obtain ⟨hi, rfl⟩ := range_split hl
      obtain ⟨t, ht, rfl⟩ := Option.map_eq_some_iff.1 hs
      have he : (table.getD i Entry.reset).enabled = true := by
        by_contra h; rw [checkEntry_disabled (by simpa using h)] at ht; cases ht
      have hb := checkEntry_some he ht
      exact Or.inr ⟨i, hi, rfl, he, hb.1, hb.2, fun j hj hej =>
        (checkEntry_none hej).1 (Option.map_eq_none_iff.1 (hn j (List.mem_range.2 hj)))⟩
    · rintro (⟨-, h⟩ | ⟨i, hi, hd, he, hf, hfirst, hlow⟩)
      · obtain ⟨i, hi, he⟩ := List.any_eq_true.1 hw
        rw [h i (List.mem_range.1 hi)] at he; cases he
      · refine ⟨List.range i, i, List.range' (i + 1) (15 - i), ?_, ?_, fun j hj => ?_⟩
        · rw [List.range_eq_range', List.range_eq_range']
          show List.range' 0 16 = _
          conv_lhs => rw [show (16 : Nat) = i + ((15 - i) + 1) by omega]
          rw [← List.range'_append_1, List.range'_succ]; simp
        · cases hc : checkEntry table i with
          | none => exact absurd hf ((checkEntry_none he).1 hc d.test)
          | some t =>
            have hb := checkEntry_some he hc
            have : t = d.test := by
              rcases Nat.lt_trichotomy t.code d.test.code with h | h | h
              · exact absurd hb.1 (hfirst t h)
              · revert h; cases t <;> cases d.test <;> decide
              · exact absurd hf (hb.2 d.test h)
            subst this; cases d; simp_all
        · have hj := List.mem_range.1 hj
          cases hej : (table.getD j Entry.reset).enabled with
          | false => rw [checkEntry_disabled hej]; rfl
          | true => rw [(checkEntry_none hej).2 (hlow j hj hej)]; rfl
  · rw [if_pos (by simp only [Bool.not_eq_true] at hw; rw [hw]; rfl)]
    have hall : ∀ i, i < 16 → (table.getD i Entry.reset).enabled = false := by
      intro i hi; by_contra h
      exact hw (List.any_eq_true.2 ⟨i, List.mem_range.2 hi, by simpa using h⟩)
    constructor
    · intro h; exact Or.inl ⟨(Option.some.inj h).symm, hall⟩
    · rintro (⟨rfl, -⟩ | ⟨i, hi, -, he, -⟩)
      · rfl
      · rw [hall i hi] at he; cases he

/-! ### The signature sequence (R57) -/

theorem signatureBytes112_eq (table : List Entry) : signatureBytes112 table = signatureSequence table := by
  unfold signatureBytes112 signatureSequence
  congr 1
  funext i
  unfold Entry.signatureBytes
  dsimp only
  split
  · cases (table.getD i Entry.reset).policy <;> cases (table.getD i Entry.reset).owner <;>
      simp [byteOf, Policy.code, twoBytes, ownerCode]
  · rfl

theorem Entry.signatureBytes_length (e : Entry) (i : Nat) : (e.signatureBytes i).length = 7 := by
  unfold Entry.signatureBytes
  split <;> rfl

theorem signatureSequence_length (table : List Entry) : (signatureSequence table).length = 112 := by
  have each : ∀ l : List Nat, (l.flatMap fun i => (table.getD i Entry.reset).signatureBytes i).length = 7 * l.length := by
    intro l
    induction l with
    | nil => rfl
    | cons i l ih =>
      rw [List.flatMap_cons, List.length_append, Entry.signatureBytes_length, ih, List.length_cons]; omega
  exact each (List.range Config.windows)

end Sys2Proof.Machine
end

