-- ==== Sys2Proof/Tests/Slice0.lean ====
section
/-! SUPPORT. Tests on fixed values: ill-formed operands refused, numbers that the spec's examples give, and for every
statement with hypotheses a state that meets them, clause by clause, at values where the clauses meet. -/

namespace Sys2Proof.Tests

open Sys2Proof.Machine

set_option Elab.async false

/-! ### Well-formedness -/

theorem test_wellFormed_refuses :
    [Instr.frameEnd (List.replicate 138 0), .lostArbitration 10, .lineFault 1370,
      .silenceTimerExpiry 32, .leaseExpiry 16, .fetchTimerExpiry 16, .selectionEnd 34,
      .illegalCode 0x01].map Instr.wellFormed = List.replicate 8 false := by decide +kernel

theorem test_wellFormed_admits :
    [Instr.frameEnd (List.replicate 137 0), .frameEnd [], .lostArbitration 9, .lineFault 1369, .silenceTimerExpiry 31,
      .leaseExpiry 15, .fetchTimerExpiry 15, .selectionEnd 33,
      .illegalCode 0x0D].map Instr.wellFormed = List.replicate 9 true := by decide +kernel

/-! ### Values the spec's examples give -/

/-- R183: the check code of the nine ASCII bytes of 123456789. -/
theorem test_check_code : crc [0x31, 0x32, 0x33, 0x34, 0x35, 0x36, 0x37, 0x38, 0x39] = 0x29B1 := by decide +kernel

/-- R189: the entry bytes after pin reset. -/
theorem test_reset_entry_bytes :
    Entry.reset.portBytes = [0x00, 0x02, 0x00, 0x00, 0x00, 0xFF, 0x00, 0x00] := by decide +kernel

/-- R166, R189: bytes of the port and the commands they take. -/
theorem test_port_bytes :
    decodePort [0x02, 0x40, 0xF8, 0x00] = some (.read 0x40F8, [0x00]) ∧ decodePort [0x02, 0x40] = none
      ∧ decodePort [0x0D, 0x01] = some (.illegalCode 0x0D, [0x01])
      ∧ decodePort [0x10, 0x02, 0x03, 0x02, 0x40, 0x00, 0x06, 0xFF, 0x00, 0x40]
        = some (.loadEntry 0x02 0x03 0x02 0x4000 0x06 0xFF 0x00 0x40, []) := by decide +kernel

/-- The window table of section 3.7. -/
def table7 : List Entry :=
  [{ Entry.reset with enabled := true, base := 0x4000, size := 2, policy := .guarded, lease := 4, mirrored := true,
                      watched := true },
   { Entry.reset with enabled := true, base := 0x0000, size := 4, policy := .owned, owner := some 3, mirrored := true,
                      loc := 4 },
   { Entry.reset with enabled := true, base := 0x4000, size := 6, mirrored := true, loc := 64 },
   { Entry.reset with enabled := true, base := 0x8000 },
   { Entry.reset with enabled := true, base := 0x0200, size := 3 }] ++ List.replicate 11 Entry.reset

/-- Station 7 with that table, in a station state, other stations 3 ACTIVE, 9 JOINED and 14 FOREIGN. -/
def station7 (state : StationState) : State :=
  { State.reset with
    pins := { rstAsserted := false, station := 7, rate := 1 }
    line := { Line.reset with state := .slotting, reference := some 3 }
    layout := { table := table7, signature := 0x4A60 }
    claims := [{ window := 0, queue := [], hold := .unheld, tag := none, lease := .stopped }]
    roster.entries := (List.replicate 32 RosterEntry.reset).set 3 ⟨.active, .running 8000⟩ |>.set 7 ⟨.active, .stopped⟩
      |>.set 9 ⟨.joined, .running 5⟩ |>.set 14 ⟨.foreign, .running 6⟩
    ctl := { State.reset.ctl with state := state, reason := .census, censusPending := decide (state = StationState.joining) } }

/-- What the receiver holds of a frame it received intact. -/
def intact (frame : Frame) : RxFrame :=
  { chars := frame.bytes.map fun b => ⟨b, false⟩, short := false, sending := false, framing := false, check := false,
    form := false, objects := false }

/-- The station in the verdict window of another station's frame. -/
def hearing (s : State) (frame : Frame) : State :=
  { s with line.state := .verdict, rx.frame := some (intact frame) }

/-- A frame of this station, from `source`, with `attempts` failed attempts. -/
def flight (source : Source) (body : Body) (attempts : Nat) (onLine : Bool) : InFlight :=
  { source := source, frame := { sender := 7, body := body }, attempts := attempts, onLine := onLine }

/-- The station in the verdict window of its own frame. -/
def sent (s : State) (g : InFlight) : State :=
  { s with line.state := .verdict, rx.frame := some g.ownFrame, sched.inflight := some g }

/-- The station with CS# low and no command taken. -/
def chosen (s : State) : State := { s with port := { s.port with selected := true, statusByte := s.statusByteNow } }

/-- The claim unit with one record of W0. -/
def guarded (s : State) (queue : List Nat) (hold : HoldState) (lease : Timer) : State :=
  { s with claims := [{ window := 0, queue := queue, hold := hold, tag := some 9, lease := lease }] }

/-- A publication record. -/
def record (kind : PubKind) (w : Nat) : PubRecord := { kind := kind, tag := 9, window := w, selected := true }

/-- Section 3.7: the table is sound, and loading W2 at LOCAL 16 is refused at entry 2. -/
theorem test_validation :
    validate table7 = none
      ∧ validate (table7.set 2 { table7.getD 2 Entry.reset with loc := 16 }) = some ⟨.localOverlap, some 2⟩
      ∧ validate (List.replicate 16 Entry.reset) = some ⟨.noWindow, none⟩ := by decide +kernel

/-- Section 3.7: the signature sequence. -/
theorem test_signature_sequence :
    signatureSequence table7 =
      [0x00, 0x03, 0x40, 0x00, 0x02, 0xFF, 0x04, 0x01, 0x01, 0x00, 0x00, 0x04, 0x03, 0x00,
       0x02, 0x02, 0x40, 0x00, 0x06, 0xFF, 0x00, 0x03, 0x02, 0x80, 0x00, 0x00, 0xFF, 0x00,
       0x04, 0x02, 0x02, 0x00, 0x03, 0xFF, 0x00]
      ++ (List.range 11).flatMap (fun i => [byteOf (i + 5), 0, 0, 0, 0, 0, 0]) := by decide +kernel

/-- R57: the signature of that sequence. -/
theorem test_signature : signatureOf table7 = 0x4A60 := by
  have first : ((signatureSequence table7).take 35).foldl crcByte 0xFFFF = 0x1568 := by decide +kernel
  have second : (((signatureSequence table7).drop 35).take 42).foldl crcByte 0x1568 = 0xA922 := by decide +kernel
  have third : (((signatureSequence table7).drop 35).drop 42).foldl crcByte 0xA922 = 0x4A60 := by decide +kernel
  rw [signatureOf, crc, ← List.take_append_drop 35 (signatureSequence table7), List.foldl_append, first,
    ← List.take_append_drop 42 ((signatureSequence table7).drop 35), List.foldl_append, second, third]

/-- Section 3.7: what shared addresses decode to, the verdicts on writes, and a read burst of 8 bytes. -/
theorem test_decoding :
    [0x40F8, 0x4100, 0x0250, 0x8020, 0x8040].map (station7 .active).decode
        = [some (0, 0xF8), some (2, 0x100), some (1, 0x250), some (3, 0x20), none]
      ∧ [0x40F8, 0x4100, 0x0250, 0x8020, 0x8040].map (station7 .active).writeVerdict
        = [.denied, .permitted 2 0x100, .denied, .permitted 3 0x20, .unmapped]
      ∧ (station7 .active).burstLength 0x40F8 = 8 ∧ (station7 .active).burstLength 0xFFFF = 1 := by decide +kernel

/-- R9: the slots of stations 13, 14, 31, 0 and 12 after station 12. -/
theorem test_slots :
    [13, 14, 31, 0, 12].map (fun n =>
        { State.reset with pins.station := n, line.reference := some 12 }.ownSlot) = [some 0, some 1, some 18, some 19, some 31] := by
  decide +kernel

/-- Section 7.8: the census body of station 2 has 15 characters, the frame 20, and a group of stations 9 and 2. -/
theorem test_census_bytes :
    let map := (List.replicate 32 RosterStatus.absent).set 2 .active |>.set 9 .active |>.set 14 .foreign |>.set 20 .joined
    (Frame.mk 2 (.census 0x1234 map [[9, 2], []])).bytes.take 18
        = [0x02, 0x04, 0x0F, 0x03, 0x12, 0x34, 0x20, 0x00, 0x08, 0x30, 0x00, 0x01, 0x00, 0x00, 0x02, 0x09, 0x02, 0x00]
      ∧ (Frame.mk 2 (.census 0x1234 map [[9, 2], []])).bytes.length = 20
      ∧ parseFrame (Frame.mk 2 (.census 0x1234 map [[9, 2], []])).bytes = some (Frame.mk 2 (.census 0x1234 map [[9, 2], []])) := by
  decide +kernel

/-- Section 10.12: of 40 bytes from 205C, one record is filled up, one made, and the thirty-seventh refused. -/
theorem test_stopped_write :
    let s := station7 .active
    let w2 : Entry := { Entry.reset with enabled := true, base := 0x2000, size := 2, mirrored := true }
    let tail : PubRecord := { kind := .write 0x40 (List.replicate 28 0xAA), tag := 50, window := 2, selected := false }
    let t := (List.range 40).foldl (fun t i => match execWriteDataByte (byteOf i) t with | .next u => u | _ => t)
      { chosen { s with layout.table := table7.set 2 w2 } with
        pub := { queue := List.replicate 14 (record .claim 0) ++ [tail], tagCounter := 90, lastTag := 50 }
        port.selected := true
        port.cmd := .writing
        port.cont := 0x205C }
    t.port.cont = 0x2080 ∧ t.port.lastResult = .full ∧ t.pub.lastTag = 90 ∧ t.pub.tagCounter = 91
      ∧ t.pub.queue.length = 16 := by decide +kernel

/-- Section 11.4: muting with a queue of thirteen outcomes leaves sixteen and overflow. -/
theorem test_muting_overflow :
    let s := { guarded (station7 .active) [7] .held .stopped with
      pub.queue := [record .claim 1, record .claim 2]
      report := { outcomes := List.replicate 13 (.fresh 1), overflow := false, changes := [2] } }
    s.enterMuted.report.outcomes.length = 16 ∧ s.enterMuted.report.overflow = true
      ∧ s.enterMuted.report.changes = [2] ∧ s.enterMuted.report.outcomes.getLast? = some (.lostHold 0 .muted) := by
  decide +kernel

/-! ### The hypotheses of the statements are met: the machine and reset -/

theorem test_hyp_EmptyQueueLetsOneCharacterTimePass :
    (State.reset.pending = [] ∧ State.reset.ctl.state = .stopped)
    ∧ (let s := { guarded (station7 .active) [7] .held (.running 2) with
         roster.announce := .running 2
         refresh.copies := (List.replicate 16 Copy.reset).set 15 { Copy.reset with timer := .running 2 } }
       s.pending = [] ∧ s.ctl.state ≠ .stopped ∧ s.line.state ≠ .verdict ∧ s.roster.announce = .running (0 + 2)
         ∧ s.isMember = true ∧ s.silenceTimer 9 = .running (3 + 2)
         ∧ s.guardOf 0 = some ⟨0, [7], .held, some 9, .running (0 + 2)⟩ ∧ (s.copy 15).timer = .running (0 + 2)
         ∧ s.line.state = .slotting ∧ s.ownSlot ≠ some s.line.slot)
    ∧ (let s := { station7 .joining with ctl.answer := .running 2 }
       s.awaitsCensus = true ∧ s.ctl.answer = .running (0 + 2)) := by decide +kernel

/-- The line clauses of the same statement, at the counts where they meet. -/
theorem test_hyp_EmptyQueueLetsOneCharacterTimePass_line :
    (∀ count, count = 0 ∨ count = 1 →
      let gap := { station7 .active with line := { Line.reset with gapTiming := true, reference := some 3, count := count } }
      let idle := { station7 .listening with line := { Line.reset with silence := 38 + count } }
      let verdict := { hearing (station7 .active) ⟨3, .claim 0⟩ with line.count := count }
      let stuck := { station7 .active with line.state := .stuck, line.count := count }
      gap.line.state = .idleGap ∧ gap.line.gapTiming = true ∧ gap.line.reference.isSome
        ∧ (gap.line.count + 1 < 2 ↔ count = 0) ∧ idle.line.reference = none
        ∧ (idle.line.silence + 1 < 40 ↔ count = 0) ∧ verdict.line.state = .verdict
        ∧ verdict.rx.frame = some (intact ⟨3, .claim 0⟩) ∧ stuck.line.state = .stuck)
    ∧ (∀ count, count = 4 ∨ count = 5 →
      let g := flight .publication (.claim 0) 0 true
      let s := { sent (station7 .active) g with line.state := .transmitting, line.count := count }
      s.line.state = .transmitting ∧ s.sched.inflight = some g ∧ (s.line.count + 1 < g.frame.bytes.length ↔ count = 4)) := by
  refine ⟨?_, ?_⟩ <;> rintro _ (rfl | rfl) <;> decide +kernel

/-- Station 7 as the head of a claim queue, with 128 bytes of W1 accepted and not yet applied. -/
def agreeing : State :=
  { station7 .active with
    claims := [{ window := 0, queue := [7, 3], hold := .held, tag := none, lease := .stopped }]
    refresh.copies := State.reset.refresh.copies.set 1 { Copy.reset with accepted := 128 }
    mirror.inbound := [⟨.fill, 1, 0, List.replicate 128 1, false⟩] }

theorem test_agreeing_sound : agreeing.Sound := by
  refine ⟨⟨by decide, by decide, ?_⟩, ⟨by decide, by decide, ?_⟩, ⟨by decide, by decide⟩, by decide, ?_, by decide,
    by decide, by decide, by decide +kernel, by decide, by decide, by decide, by decide, by decide +kernel, by decide +kernel,
    by decide +kernel, ?_⟩
  · intro q h; cases h
  · intro q h; cases h
  · intro g h
    cases h with
    | head => exact ⟨by decide, by decide⟩
    | tail _ h => cases h
  · intro w h; cases h

theorem test_agreeing_holds : agreeing.HoldsAgree where
  reset h := by cases h
  number := by decide
  founding h := by cases h
  heads _ := by decide
  outside h := by rcases h with h | h <;> cases h
  quiet _ h := absurd rfl h
  claims _ := by decide
  windows _ r h := by cases h
  unsent _ r h := by cases h
  inflight _ g h := by cases h

theorem test_agreeing_line : agreeing.LineAgrees ∧ agreeing.HeardAgrees :=
  ⟨⟨fun h => (by cases h), fun h => (by cases h), fun h => (by cases h)⟩, fun h => by cases h⟩

theorem test_agreeing_points : agreeing.PointsAgree ∧ agreeing.Spared := by
  have lt : ∀ {w}, (agreeing.entry w).isMirrored = true → w < 16 := State.mirrored_lt test_agreeing_sound
  have key : ∀ w, w < 16 → (agreeing.entry w).isMirrored = true →
      (agreeing.copy w).accepted = (agreeing.copy w).applied + agreeing.liveFill w
        ∧ ((agreeing.copy w).accepted ≤ (agreeing.entry w).bytes ∧ (agreeing.copy w).accepted % 64 = 0)
        ∧ ((agreeing.copy w).fresh = true ↔ (agreeing.copy w).applied = (agreeing.entry w).bytes) := by decide +kernel
  refine ⟨⟨fun _ w hw => ?_, fun _ w hw => ?_, fun _ w hw => ?_, fun _ h => absurd rfl h, fun _ e he => ?_, fun _ g hg => ?_⟩, ?_⟩
  · exact (key w (lt hw) hw).1
  · exact (key w (lt hw) hw).2.1
  · exact (key w (lt hw) hw).2.2
  · cases he
  · cases hg
  · rintro (h | h) <;> cases h

/-- All the premises together, a copy and a hold that are not as after reset, and a premise of R143 that has effect. -/
theorem test_hyp_StepKeepsTheStateSound :
    (∃ s t : State, s.Sound ∧ s.HoldsAgree ∧ s.LineAgrees ∧ s.HeardAgrees ∧ s.PointsAgree ∧ s.Spared ∧ step s = .next t
      ∧ t ≠ s)
    ∧ (let s := { station7 .active with mirror.zeroPending := true }
       s.Spared ∧ s.mirror.zeroPending = true) :=
  ⟨⟨agreeing, agreeing.tick, test_agreeing_sound, test_agreeing_holds, test_agreeing_line.1, test_agreeing_line.2, test_agreeing_points.1,
    test_agreeing_points.2, rfl, by decide +kernel⟩, fun _ _ => rfl, rfl⟩

theorem test_hyp_StepKeepsDrivingToMembers :
    (sent (station7 .joining) (flight .publication (.claim 0) 0 true)).TransmitsAsMember
      ∧ { station7 .joining with line.state := .transmitting }.TransmitsAsMember :=
  ⟨fun _ => by decide, fun _ => by decide⟩

theorem test_hyp_OnlyGrantCompletionsCanStop :
    exec .applicationComplete { State.reset with
      layout.table := [{ Entry.reset with loc := 0xFF }]
      mirror.holder := some .application
      mirror.inbound := [⟨.fill, 0, 64, [1], false⟩] } = .fault .noSuchMirrorAddress := rfl

theorem test_hyp_UnitsChangeOnlyByTheirCommands :
    exec .gapComplete (station7 .active) = .next (station7 .active) ∧ isPortEvent .gapComplete = false
      ∧ Instr.gapComplete ≠ .pinReset ∧ Instr.gapComplete ≠ .start ∧ Instr.gapComplete ≠ .silenceLimit
      ∧ Instr.gapComplete ≠ .snapshotDelivered := ⟨rfl, rfl, by decide, by decide, by decide, by decide⟩

theorem test_hyp_StrapsAreSampledAtReleaseOnly :
    State.reset.pins.rstAsserted = true ∧ (station7 .active).pins.rstAsserted = false
      ∧ exec .leave (station7 .active) = .next (station7 .active) := ⟨rfl, rfl, rfl⟩

/-! ### The common line -/

theorem test_hyp_FramesStartOnlyAfterSynchronisation :
    (let s := { station7 .listening with line := { Line.reset with awaitSync := true } }
     s.ctl.state ≠ .stopped ∧ s.line.state = .idleGap ∧ s.line.awaitSync = true)
    ∧ (station7 .active).line.state = .slotting
    ∧ (let s := { station7 .listening with line := Line.reset }
       s.ctl.state ≠ .stopped ∧ s.line.state = .idleGap ∧ s.line.reference = none ∧ s.line.gapTiming = false
         ∧ s.line.awaitSync = false) := by decide +kernel

theorem test_hyp_SlotsFollowTheGapAndTheReference :
    (let s := { station7 .active with line := { Line.reset with gapTiming := true, reference := some 3 } }
     s.line.state = .idleGap ∧ s.line.gapTiming = true ∧ s.line.reference.isSome)
    ∧ (let s := { station7 .active with line := { Line.reset with gapTiming := true } }
       s.line.state = .idleGap ∧ s.line.gapTiming = true ∧ s.line.reference = none)
    ∧ (station7 .active).line.state = .slotting
    ∧ { station7 .active with line.sensed := true }.line.sensed = true
    ∧ (∀ l, l < 32 → { station7 .active with line.reference := some l }.line.reference = some l)
    ∧ (station7 .active).station < 32 := by decide +kernel

theorem test_hyp_SilenceGivesTheReferenceThirtyOne :
    (∀ state, state = StationState.listening ∨ state = .active →
      let s := { station7 state with line := Line.reset }
      s.ctl.state ≠ .stopped ∧ s.line.state = .idleGap ∧ s.line.reference = none ∧ s.sched.control = []) := by
  rintro _ (rfl | rfl) <;> decide +kernel

theorem test_hyp_StuckLineKeepsEverythingButTheCleanRun :
    (station7 .muted).ctl.state ≠ .stopped ∧ { station7 .muted with line := Line.reset }.line.state = .idleGap
      ∧ (let s := { station7 .muted with line.state := .stuck }
         s.line.state = .stuck ∧ s.line.reference.isSome)
      ∧ (let s := { station7 .muted with line := { Line.reset with state := .stuck } }
         s.line.state = .stuck ∧ s.line.reference = none) := by decide +kernel

theorem test_hyp_ReceiverObjectsOnItsFourGrounds :
    { station7 .active with line.state := .receiving }.line.state = .receiving
      ∧ (let s := { sent (station7 .active) (flight .publication (.claim 0) 0 true) with line.state := .transmitting }
         s.line.state = .transmitting ∧ s.sched.inflight.isSome) := by decide +kernel

/-- Each ground of R31: a missing stop bit, a wrong check code, a form fault, and no inbound place. -/
theorem test_grounds_of_objection :
    let s := station7 .active
    let full := { s with mirror.inbound := List.replicate 4 ⟨.fill, 2, 0, [1], false⟩ }
    let chars (f : Frame) := f.bytes.map charSamples
    let write : Frame := ⟨3, .write 2 0 [0x55]⟩
    (s.receiveFrame (chars write)).objects = false ∧ (full.receiveFrame (chars write)).objects = true
      ∧ (s.receiveFrame ((chars write).dropLast)).framing = true
      ∧ (s.receiveFrame ((chars write).set 3 (charSamples 0x00))).check = true
      ∧ (s.receiveFrame (chars ⟨3, .write 5 0 [0x55]⟩)).form = true
      ∧ (s.receiveFrame (chars ⟨3, .write 5 0 [0x55]⟩)).objects = true
      ∧ (s.receiveFrame (chars ⟨14, .write 5 0 [0x55]⟩)).objects = false := by decide +kernel

/-- R3, R4, R12: this station's start bit is sensed recessive and no other follows: a short frame of no character. -/
theorem test_start_bit_lost :
    let s := { sent (station7 .active) (flight .publication (.claim 0) 0 true) with line.state := .transmitting }
    (match exec (.lineFault 0) s with
      | .next u => match exec (.frameEnd []) u with
        | .next t => some (u.line.state, t.line.state, t.rx.frame)
        | _ => none
      | _ => none) = some (.receiving, .verdict, some
        { chars := [], short := true, sending := false, framing := true, check := false, form := false, objects := true }) := by
  decide +kernel

/-- R2, R17: this station's levels at the first and the last bit time of an objection and of a frame of its own. -/
theorem test_levels_driven :
    let f : RxFrame := { intact ⟨3, .claim 0⟩ with objects := true }
    let s := { station7 .active with line.state := .verdict, rx.frame := some f }
    let own := { sent (station7 .active) (flight .publication (.claim 0) 0 true) with line.state := .transmitting }
    [0, 11, 12, 19].map s.drivesAt = [true, true, false, false]
      ∧ [0, 4, 9, 60].map own.drivesAt = [true, true, false, false] ∧ f.voidedBy allRecessive = true
      ∧ (intact ⟨3, .claim 0⟩).voidedBy allRecessive = false ∧ (intact ⟨3, .claim 0⟩).voidedBy 0xFFFFE = true := by
  decide +kernel

theorem test_hyp_FrameBytesReadBackAsTheFrame :
    (Frame.mk 31 (.fill 15 65472 0 (List.replicate 128 0xA5))).fits ∧ (Frame.mk 0 (.write 15 65535 [1])).fits
      ∧ (Frame.mk 31 (.depart 31 .leaving)).fits ∧ { station7 .active with line.state := .receiving }.line.state = .receiving := by
  refine ⟨⟨by decide, ?_⟩, ⟨by decide, ?_⟩, ⟨by decide, rfl⟩, rfl⟩
  · exact ⟨by decide, by decide, by decide, by decide, by decide, Or.inr rfl⟩
  · exact ⟨by decide, by decide, by decide, by decide⟩

/-! ### Verdicts -/

theorem test_hyp_VoidedFrameHasNoEffect :
    let s := hearing (station7 .muted) ⟨3, .claim 0⟩
    s.line.state = .verdict ∧ s.rx.frame = some (intact ⟨3, .claim 0⟩) ∧ (intact ⟨3, .claim 0⟩).sending = false
      ∧ (0#20) ≠ allRecessive ∧ ¬ ((intact ⟨3, .claim 0⟩).objects = true ∧ 8 ≤ s.rx.objectionRun)
      ∧ s.ctl.foundingDue = false ∧ s.ctl.abandonDue = false := by decide +kernel

/-- A member's own frame meets `Sends`. -/
theorem sends_of (s : State) (g : InFlight) (member : s.isMember = true) (driven : g.onLine = true)
    (sender : g.frame.sender = s.station) (read : parseFrame g.frame.bytes = some g.frame)
    (founding : s.ctl.foundingDue = false) (abandoning : s.ctl.abandonDue = false) : (sent s g).Sends g :=
  ⟨member, rfl, rfl, rfl, driven, sender, read, founding, abandoning⟩

/-- A frame received intact at a member meets `Hears`. -/
theorem hears_of (s : State) (f : Frame) (member : s.isMember = true) (read : parseFrame f.bytes = some f)
    (other : f.sender ≠ s.station) (founding : s.ctl.foundingDue = false) (abandoning : s.ctl.abandonDue = false) :
    (hearing s f).Hears (intact f) f :=
  ⟨member, rfl, rfl, rfl, rfl, by simpa [intact, Function.comp_def] using read, other, founding, abandoning⟩

/-- The station driving its own frame onto the line. -/
def driving (s : State) (g : InFlight) : State := { s with line.state := .transmitting, sched.inflight := some g }

/-- A member's own frame meets `Fails` at a voided window end and, while it is driven, at a fault in its second character. -/
theorem fails_of (s : State) (g : InFlight) (member : s.isMember = true) (driven : g.onLine = true)
    (sender : g.frame.sender = s.station) (read : parseFrame g.frame.bytes = some g.frame)
    (founding : s.ctl.foundingDue = false) (abandoning : s.ctl.abandonDue = false)
    (long : 10 < 10 * g.frame.bytes.length) :
    (sent s g).Fails g (.verdictWindowEnd 0) ∧ (driving s g).Fails g (.lineFault 10) :=
  ⟨.inl ⟨sends_of s g member driven sender read founding abandoning, 0, rfl, by decide⟩,
   .inr ⟨rfl, rfl, 10, rfl, long, .inl (by decide)⟩⟩

theorem test_hyp_VoidedOwnFrameCountsAnAttempt :
    (let g := flight (.control .census) (.depart 7 .leaving) 14 true
     let s := sent (station7 .joining) g
     s.Sends g ∧ (0#20) ≠ allRecessive ∧ s.ctl.state ≠ .leaving ∧ g.attempts + 1 < 16)
    ∧ (let g := flight (.control (.depart 7)) (.depart 7 .leaving) 14 true
       let s := sent (station7 .leaving) g
       s.Sends g ∧ s.ctl.state = .leaving ∧ g.source = .control (.depart s.station) ∧ g.attempts + 1 < 16)
    ∧ (let g := flight .publication (.claim 0) 15 true
       let s := { station7 .active with pub.queue := [record .claim 0] }
       ((sent s g).Fails g (.verdictWindowEnd 0) ∧ (driving s g).Fails g (.lineFault 10)) ∧ s.ctl.state = .active
         ∧ g.attempts = 15 ∧ g.source = .publication ∧ s.pub.queue = [record .claim 0]) :=
  ⟨⟨sends_of _ _ rfl rfl rfl (by decide +kernel) rfl rfl, by decide, by decide, by decide⟩,
   ⟨sends_of _ _ rfl rfl rfl (by decide +kernel) rfl rfl, by decide⟩,
   fails_of _ _ rfl rfl rfl (by decide +kernel) rfl rfl (by decide +kernel), rfl, rfl, rfl, rfl⟩

/-- The clause of the same statement on the other control entries, whose condition stands or does not. -/
theorem test_hyp_VoidedOwnFrameCountsAnAttempt_control :
    let base := { guarded (station7 .active) [7] .expiring .runOut with roster.announce := .runOut }
    (∀ e, e = ControlEntry.presence .announce ∨ e = .release 0 →
      let g := flight (.control e) (base.controlBody e) 15 true
      let s := { base with sched.control := [.presence .announce, .release 0] }
      ((sent s g).Fails g (.verdictWindowEnd 0) ∧ (driving s g).Fails g (.lineFault 10)) ∧ s.ctl.state = .active
        ∧ (∀ x, s.Stands x → x ∈ s.sched.control) ∧ (s.sched.control.Nodup ∧ s.sched.control.length ≤ 8) ∧ s.Stands e)
    ∧ ∀ e, e = ControlEntry.presence .join ∨ e = .depart 9 ∨ e = .census →
      let g := flight (.control e) ((station7 .active).controlBody e) 15 true
      let s := { station7 .active with sched.control := [e] }
      ((sent s g).Fails g (.verdictWindowEnd 0) ∧ (driving s g).Fails g (.lineFault 10)) ∧ s.ctl.state = .active
        ∧ (∀ x, s.Stands x → x ∈ s.sched.control) ∧ (s.sched.control.Nodup ∧ s.sched.control.length ≤ 8)
        ∧ ¬ s.Stands e := by
  have listed : ∀ s : State, s.ctl.state = .active → (∀ x ∈ s.dueOffers, x ∈ s.sched.control) →
      ∀ x, s.Stands x → x ∈ s.sched.control := fun s h hd x hx => hd x ((State.mem_dueOffers (.inr h) x).2 hx)
  refine ⟨?_, ?_⟩
  · rintro _ (rfl | rfl) <;>
      exact ⟨fails_of _ _ rfl rfl rfl (by decide +kernel) rfl rfl (by decide +kernel), rfl,
        listed _ rfl (by decide +kernel), by decide, (State.mem_dueOffers (.inr rfl) _).1 (by decide +kernel)⟩
  · rintro _ (rfl | rfl | rfl) <;>
      exact ⟨fails_of _ _ rfl rfl rfl (by decide +kernel) rfl rfl (by decide +kernel), rfl,
        listed _ rfl (by decide +kernel), by decide,
        fun h => absurd ((State.mem_dueOffers (.inr rfl) _).2 h) (by decide +kernel)⟩

/-- The clauses of the same statement on control frames and FILLs. -/
theorem test_hyp_VoidedOwnFrameCountsAnAttempt_sources :
    (let g := flight (.control (.presence .join)) (.presence .join 0x4A60) 15 true
     let s := sent (station7 .joining) g
     s.Sends g ∧ s.ctl.state = .joining ∧ g.attempts = 15)
    ∧ (let g := flight (.control (.depart 7)) (.depart 7 .leaving) 15 true
       let s := sent (station7 .leaving) g
       s.Sends g ∧ s.ctl.state = .leaving ∧ g.source = .control (.depart s.station))
    ∧ (∀ n, n = 2 ∨ n = 3 →
      let g := flight (.control (.fetch 2)) (.fetch 2 0) 15 true
      let s := { station7 .active with
        refresh.copies := (List.replicate 16 Copy.reset).set 2 { Copy.reset with expiries := n } }
      ((sent s g).Fails g (.verdictWindowEnd 0) ∧ (driving s g).Fails g (.lineFault 10)) ∧ s.ctl.state = .active
        ∧ 2 < s.refresh.copies.length ∧ (s.copy 2).fresh = false
        ∧ (s.copy 2).failed = false ∧ (s.copy 2).expiries = n)
    ∧ (let g := flight (.service 2 9) (.fill 2 0 9 (List.replicate 128 1)) 15 true
       let s := { station7 .active with refresh.service := [⟨2, 9, 0⟩] }
       ((sent s g).Fails g (.verdictWindowEnd 0) ∧ (driving s g).Fails g (.lineFault 10)) ∧ s.ctl.state = .active
         ∧ g.source = .service 2 9)
    ∧ (let g := flight .publication (.claim 0) 0 true
       let s := sent { station7 .leaving with pub.queue := [record .claim 0] } g
       s.Sends g ∧ s.ctl.state = .leaving ∧ g.source ≠ .control (.depart s.station) ∧ s.pub.queue = record .claim 0 :: []) := by
  refine ⟨⟨sends_of _ _ rfl rfl rfl (by decide +kernel) rfl rfl, by decide⟩,
    ⟨sends_of _ _ rfl rfl rfl (by decide +kernel) rfl rfl, by decide⟩, ?_,
    ⟨fails_of _ _ rfl rfl rfl (by decide +kernel) rfl rfl (by decide +kernel), by decide⟩,
    ⟨sends_of _ _ rfl rfl rfl (by decide +kernel) rfl rfl, by decide⟩⟩
  rintro _ (rfl | rfl) <;>
    exact ⟨fails_of _ _ rfl rfl rfl (by decide +kernel) rfl rfl (by decide +kernel), by decide +kernel⟩

/-- The clauses of the same statement on an abandonment put off to the window end. -/
theorem test_hyp_VoidedOwnFrameCountsAnAttempt_deferred :
    let g := flight (.control (.presence .join)) (.presence .join 0x4A60) 15 true
    let late := { station7 .joining with
      ctl.abandonDue := true
      sched.control := [.presence .join]
      sched.inflight := some { g with attempts := 16, onLine := false } }
    let own := flight (.control (.depart 7)) (.depart 7 .leaving) 15 true
    let parting := { station7 .leaving with
      ctl.abandonDue := true
      sched.control := [.depart 7]
      sched.inflight := some { own with attempts := 16, onLine := false } }
    (∀ bit, bit = 0 ∨ bit = 10 ∨ bit = 69 →
      bit < 10 * g.frame.bytes.length ∧ (10 ≤ bit ∨ g.frame.sentRecessive bit = false)
        ∧ bit < 10 * own.frame.bytes.length ∧ (10 ≤ bit ∨ own.frame.sentRecessive bit = false)
        ∧ own.source = .control (.depart (driving (station7 .leaving) own).station))
    ∧ (∀ s, s = hearing late ⟨3, .claim 0⟩ ∨ s = hearing parting ⟨3, .claim 0⟩ →
       s.line.state = .verdict ∧ s.rx.frame = some (intact ⟨3, .claim 0⟩) ∧ (intact ⟨3, .claim 0⟩).sending = false
         ∧ (0#20) ≠ allRecessive ∧ ¬ ((intact ⟨3, .claim 0⟩).objects = true ∧ 8 ≤ s.rx.objectionRun)
         ∧ (intact ⟨3, .claim 0⟩).objects = false ∧ senderOf (intact ⟨3, .claim 0⟩).chars ≠ s.station
         ∧ s.ctl.foundingDue = false ∧ s.ctl.abandonDue = true)
    ∧ (let map := (List.replicate 32 RosterStatus.absent).set 3 .active |>.set 7 .joined
       let frame : Frame := ⟨3, .census 0x4A60 map [[3]]⟩
       let s := hearing late frame
       parseFrame ((intact frame).chars.map RxChar.data) = some frame ∧ s.ctl.state = .joining
         ∧ s.ctl.censusPending = true ∧ s.layout.signature = 0x4A60 ∧ frame.sender ≠ s.station
         ∧ s.status frame.sender ≠ .foreign ∧ map.getD s.station .absent = .joined ∧ s.ctl.abandonDue = true
         ∧ s.sched.control.Nodup) := by
  refine ⟨?_, ?_, by decide +kernel⟩
  · rintro _ (rfl | rfl | rfl) <;> decide +kernel
  · rintro _ (rfl | rfl) <;> decide +kernel

theorem test_hyp_AcceptedFrameSetsTheReference :
    (let s := hearing (station7 .leaving) ⟨3, .claim 0⟩
     s.isMember = true ∧ s.line.state = .verdict ∧ s.rx.frame = some (intact ⟨3, .claim 0⟩)
       ∧ (intact ⟨3, .claim 0⟩).objects = false ∧ s.ctl.abandonDue = false)
    ∧ ∀ body, body = Body.claim 0 ∨ body = .depart 9 .silent ∨ body = .presence .announce 0x4A60 →
      let frame : Frame := ⟨3, body⟩
      let s := hearing (station7 .active) frame
      s.Hears (intact frame) frame ∧ s.status 3 = .active ∧ 3 < s.roster.entries.length
        ∧ body ≠ .depart s.station .silent ∧ body ≠ .depart 3 .leaving ∧ s.awaitsCensus = false := by
  refine ⟨by decide +kernel, ?_⟩
  rintro _ (rfl | rfl | rfl) <;> exact ⟨hears_of _ _ rfl (by decide +kernel) (by decide) rfl rfl, by decide +kernel⟩

theorem test_hyp_EighthObjectionMutes :
    let f : RxFrame := { intact ⟨3, .claim 0⟩ with objects := true }
    let s := { station7 .joining with line.state := .verdict, rx := { frame := some f, objectionRun := 8, cleanRun := 0 } }
    s.isMember = true ∧ s.line.state = .verdict ∧ s.rx.frame = some f ∧ f.sending = false ∧ f.objects = true
      ∧ s.rx.objectionRun = 8 := by decide +kernel

theorem test_hyp_SixteenthCleanFrameRecovers :
    let f := intact ⟨3, .claim 0⟩
    let s := { hearing (station7 .muted) ⟨3, .claim 0⟩ with rx.cleanRun := 15 }
    s.ctl.state = .muted ∧ s.line.state = .verdict ∧ s.rx.frame = some f ∧ f.objects = false ∧ f.framing = false
      ∧ f.check = false ∧ f.form = false ∧ s.rx.cleanRun = 15 := by decide +kernel

theorem test_hyp_DuplicateNumberMakesIncompatible :
    let f := intact ⟨7, .claim 0⟩
    let s := hearing (station7 .leaving) ⟨7, .claim 0⟩
    s.isMember = true ∧ s.line.state = .verdict ∧ s.rx.frame = some f ∧ f.sending = false ∧ f.objects = false
      ∧ senderOf f.chars = s.station := by decide +kernel

theorem test_hyp_ListenerFollowsTheReference :
    ∀ state, state = StationState.listening ∨ state = .incompatible → ∀ bad : Bool,
      let f : RxFrame := { intact ⟨3, .claim 0⟩ with check := bad }
      let s := { station7 state with line.state := .verdict, rx.frame := some f }
      (s.ctl.state = .listening ∨ s.ctl.state = .incompatible) ∧ s.line.state = .verdict ∧ s.rx.frame = some f
        ∧ f.objects = false ∧ s.ctl.foundingDue = false ∧ s.ctl.abandonDue = false ∧ s.sched.control = [] := by
  rintro _ (rfl | rfl) <;> decide +kernel

theorem test_hyp_ListenerFollowsTheReference_muted :
    ∀ bad : Bool, ∀ run, run = 14 ∨ (run = 15 ∧ bad = true) →
      let f : RxFrame := { intact ⟨3, .claim 0⟩ with framing := bad }
      let s := { station7 .muted with line.state := .verdict, rx := { frame := some f, objectionRun := 2, cleanRun := run } }
      s.ctl.state = .muted ∧ s.line.state = .verdict ∧ s.rx.frame = some f ∧ f.objects = false
        ∧ s.ctl.foundingDue = false ∧ s.ctl.abandonDue = false ∧ (f.framing = true ∨ s.rx.cleanRun < 15) := by
  intro bad run h
  rcases h with rfl | ⟨rfl, rfl⟩
  · cases bad <;> decide +kernel
  · decide +kernel

theorem test_hyp_FilteredFrameTakesNoEffect :
    (let s := hearing (station7 .active) ⟨14, .claim 0⟩
     s.Hears (intact ⟨14, .claim 0⟩) ⟨14, .claim 0⟩ ∧ s.status 14 = .foreign ∧ 14 < s.roster.entries.length)
    ∧ (let s := hearing (station7 .active) ⟨31, .claim 0⟩
       s.Hears (intact ⟨31, .claim 0⟩) ⟨31, .claim 0⟩ ∧ s.status 31 = .absent ∧ (Body.claim 0).isPresence = false) :=
  ⟨⟨hears_of _ _ rfl (by decide +kernel) (by decide) rfl rfl, by decide +kernel⟩,
   hears_of _ _ rfl (by decide +kernel) (by decide) rfl rfl, by decide +kernel⟩

/-! ### Transmitting -/

theorem test_hyp_WaitingFrameGoesAgainUnlessBarred :
    (let s := { station7 .active with mirror.inbound := List.replicate 4 ⟨.fill, 2, 0, [1], false⟩ }
     s.mayTransmit = true ∧ 4 ≤ s.mirror.inbound.length)
    ∧ (let g := flight .publication (.write 2 0 [1]) 15 false
       let s := { station7 .active with sched.inflight := some g, pub.queue := [record (.write 0 [1]) 2] }
       s.Offered ∧ s.ctl.state ≠ .leaving ∧ s.sched.inflight = some g ∧ g.source = .publication ∧ g.onLine = false
         ∧ s.frameOvertaken g = false)
    ∧ (∀ e, e = ControlEntry.presence .announce ∨ e = .fetch 2 ∨ e = .census →
       let g := flight (.control e) ((station7 .active).controlBody e) 15 false
       let s := { station7 .active with sched.inflight := some g, sched.control := [e] }
       s.Offered ∧ s.ctl.state ≠ .leaving ∧ s.sched.inflight = some g ∧ g.source = .control e ∧ g.onLine = false
         ∧ s.frameOvertaken g = false)
    ∧ (let g := flight (.control (.depart 7)) (.depart 7 .leaving) 15 false
       let s := { station7 .leaving with sched.inflight := some g, sched.control := [.depart 7] }
       s.Offered ∧ s.sched.inflight = some g ∧ g.source = .control (.depart s.station) ∧ ControlEntry.depart 7 ≠ .census
         ∧ g.onLine = false ∧ s.frameOvertaken g = false) := by
  refine ⟨by decide +kernel, ⟨⟨by decide +kernel, by decide +kernel⟩, by decide +kernel⟩, ?_,
    ⟨by decide +kernel, by decide +kernel⟩, by decide +kernel⟩
  rintro _ (rfl | rfl | rfl) <;> exact ⟨⟨by decide +kernel, by decide +kernel⟩, by decide +kernel⟩

/-- The clauses of the same statement on a FILL: its chunk current, read at once, and not ready for want of the memory or
of an empty inbound queue. -/
theorem test_hyp_WaitingFrameGoesAgainUnlessBarred_fill :
    let g := flight (.service 2 9) (.fill 2 0 9 (List.replicate 128 1)) 15 false
    let e : Service := ⟨2, 9, 4096 - 128⟩
    let c : Chunk := ⟨2, 4096 - 128, List.replicate 128 1, true⟩
    let s := { station7 .active with sched.inflight := some g, refresh.service := [e] }
    let held := { s with sched.chunk := some c }
    let stale := { s with sched.chunk := some { c with current := false } }
    let taken := { stale with mirror.holder := some .application }
    let busy := { s with mirror.inbound := [⟨.fill, 2, 0, [1], false⟩] }
    (s.Offered ∧ held.Offered ∧ stale.Offered ∧ taken.Offered ∧ busy.Offered)
      ∧ s.sched.inflight = some g ∧ s.ctl.state = .active ∧ g.source = .service 2 9 ∧ g.onLine = false
      ∧ s.serviceOf 2 9 = some e
      ∧ (held.mirror.inbound = [] ∧ held.sched.chunk = some c ∧ c.current = true ∧ c.window = 2 ∧ c.offset = e.next)
      ∧ (stale.mirror.inbound = [] ∧ stale.sched.chunk = some { c with current := false } ∧ stale.mirror.holder = none
        ∧ stale.mirror.snapReq = none ∧ (stale.entry 2).localBase + e.next + (stale.entry 2).chunk ≤ 16384)
      ∧ taken.mirror.holder ≠ none ∧ busy.mirror.inbound ≠ [] :=
  ⟨⟨⟨by decide +kernel, by decide +kernel⟩, ⟨by decide +kernel, by decide +kernel⟩, ⟨by decide +kernel, by decide +kernel⟩,
    ⟨by decide +kernel, by decide +kernel⟩, ⟨by decide +kernel, by decide +kernel⟩⟩, by decide +kernel⟩

theorem test_hyp_ControlHeadGoesFirst :
    (let s := { station7 .joining with sched.control := [.presence .join] }
     s.Offered ∧ s.ctl.state ≠ .leaving ∧ s.sched.inflight = none ∧ s.sched.control = [.presence .join]
       ∧ s.entryOvertaken (.presence .join) = false)
    ∧ ∀ e, e = ControlEntry.census ∨ e = .depart 9 ∨ e = .depart 7 ∨ e = .fetch 2 ∨ e = .release 0 →
      let s := { guarded (station7 .active) [7] .expiring .runOut with sched.control := [e] }
      s.Offered ∧ s.ctl.state ≠ .leaving ∧ s.sched.inflight = none ∧ s.sched.control = [e]
        ∧ s.entryOvertaken e = false := by
  refine ⟨⟨⟨by decide +kernel, by decide +kernel⟩, by decide +kernel⟩, ?_⟩
  rintro _ (rfl | rfl | rfl | rfl | rfl) <;> exact ⟨⟨by decide +kernel, by decide +kernel⟩, by decide +kernel⟩

theorem test_hyp_TurnFlagChoosesPublicationOrFill :
    (let s := { station7 .active with pub.queue := [record .claim 0], sched.control := [.depart 31] }
     s.Offered ∧ s.ctl.state ≠ .leaving ∧ s.sched.inflight = none ∧ (∀ e ∈ s.sched.control, s.entryOvertaken e = true)
       ∧ s.pub.queue = [record .claim 0] ∧ s.sched.turn = .publications)
    ∧ (let e : Service := ⟨2, 9, 128⟩
       let c : Chunk := ⟨2, 128, List.replicate 128 1, true⟩
       let s := { station7 .active with refresh.service := [e], sched.turn := .service, sched.chunk := some c }
       s.Offered ∧ s.ctl.state = .active ∧ s.sched.inflight = none ∧ s.sched.control = [] ∧ s.sched.turn = .service
         ∧ s.mirror.inbound = [] ∧ s.refresh.service = [e] ∧ s.sched.chunk = some c ∧ c.current = true
         ∧ c.window = e.window ∧ c.offset = e.next) :=
  ⟨⟨⟨by decide +kernel, by decide +kernel⟩, by decide +kernel⟩, ⟨by decide +kernel, by decide +kernel⟩, by decide +kernel⟩

/-- R84, R87: a FETCH of a FRESH copy that still stands in the control list does not hold back the fill read. -/
theorem test_fill_read_behind_overtaken_entry :
    let s := { station7 .active with
      refresh.copies := (List.replicate 16 Copy.reset).set 2 { Copy.reset with fresh := true }
      refresh.service := [⟨2, 9, 128⟩]
      sched.control := [.fetch 2] }
    s.settleMemory.mirror.holder = some (.fillRead ⟨2, 128, false, false⟩)
      ∧ { s with sched.control := [.fetch 2, .fetch 1] }.settleMemory.mirror.holder = none := by decide +kernel

/-- The clause of the same statement on the fill read behind a publication. -/
theorem test_hyp_TurnFlagChoosesPublicationOrFill_read :
    let s := { station7 .active with
      pub.queue := [record .claim 0]
      refresh.copies := (List.replicate 16 Copy.reset).set 2 { Copy.reset with fresh := true }
      refresh.service := [⟨2, 9, 128⟩]
      roster.entries := (List.replicate 32 RosterEntry.reset).set 7 ⟨.active, .stopped⟩ }
    s.Offered ∧ s.ctl.state = .active ∧ s.refresh.service = ⟨2, 9, 128⟩ :: [] ∧ (s.copy 2).fresh = true
      ∧ s.mirror.inbound = [] ∧ s.mirror.zeroPending = false ∧ s.mirror.holder = none ∧ s.mirror.fillReq = none
      ∧ s.mirror.snapReq = none ∧ s.sched.chunk = none ∧ s.sched.control = [] ∧ s.sched.turn = .publications
      ∧ s.dueOffers = [] :=
  ⟨⟨by decide +kernel, by decide +kernel⟩, by decide +kernel⟩

theorem test_hyp_LostCountsNoAttemptAndFaultedOne :
    (let g := flight .publication (.claim 0) 14 true
     let s := driving (station7 .active) g
     s.ctl.state ≠ .leaving ∧ s.line.state = .transmitting ∧ s.sched.inflight = some g
       ∧ (9 < 10 ∧ g.frame.sentRecessive 9 = true) ∧ (0 < 10 * g.frame.bytes.length ∧ g.frame.sentRecessive 0 = false)
       ∧ (59 < 10 * g.frame.bytes.length ∧ 10 ≤ 59) ∧ g.attempts + 1 < 16)
    ∧ (let g := flight (.control (.depart 7)) (.depart 7 .leaving) 14 true
       let s := driving (station7 .leaving) g
       s.ctl.state = .leaving ∧ g.source = .control (.depart s.station) ∧ s.line.state = .transmitting
         ∧ s.sched.inflight = some g ∧ g.frame.sentRecessive 9 = true ∧ g.frame.sentRecessive 0 = false) := by
  decide +kernel

/-- The clause of the same statement on LEAVING. -/
theorem test_hyp_LostCountsNoAttemptAndFaultedOne_leaving :
    ∀ source, source = Source.publication ∨ source = .control (.fetch 2) ∨ source = .service 2 9 →
      let g := flight source (.claim 0) 3 true
      let s := { sent { station7 .leaving with pub.queue := [record .claim 0] } g with line.state := .transmitting }
      s.ctl.state = .leaving ∧ s.line.state = .transmitting ∧ s.sched.inflight = some g
        ∧ g.source ≠ .control (.depart s.station) ∧ (9 < 10 ∧ g.frame.sentRecessive 9 = true)
        ∧ (0 < 10 * g.frame.bytes.length ∧ g.frame.sentRecessive 0 = false) := by
  rintro _ (rfl | rfl | rfl) <;> decide +kernel

/-! ### Acceptance -/

theorem test_hyp_AcceptedWriteJoinsTheInboundQueue :
    let frame : Frame := ⟨9, .write 2 0xFFF [0x55]⟩
    let s := hearing { station7 .active with mirror.inbound := List.replicate 3 ⟨.fill, 2, 0, [1], false⟩ } frame
    s.Hears (intact frame) frame ∧ s.status 9 = .joined ∧ s.mirror.inbound.length < 4 ∧ (s.entry 2).policy = .shared
      ∧ (s.entry 2).isMirrored = true :=
  ⟨hears_of _ _ rfl (by decide +kernel) (by decide) rfl rfl, by decide +kernel⟩

theorem test_hyp_OwnWriteIsCarriedOrRejected :
    ∀ w, w = 1 ∨ w = 2 →
      let g := flight .publication (.write w 0 [0x55]) 0 true
      let s := sent { station7 .active with pub.queue := [record (.write 0 [0x55]) w] } g
      s.Sends g ∧ g.source = .publication ∧ s.pub.queue = [record (.write 0 [0x55]) w]
        ∧ s.status s.station = .active ∧ s.mirror.inbound.length < 4
        ∧ (s.entry 1).policy = .owned ∧ (s.entry 1).owner = some 3 ∧ (s.entry 2).policy = .shared
        ∧ (s.entry 2).enabled = true ∧ (s.entry 2).mirrored = true := by
  rintro _ (rfl | rfl) <;> exact ⟨sends_of _ _ rfl rfl rfl (by decide +kernel) rfl rfl, by decide +kernel⟩

theorem test_hyp_AcceptedClaimJoinsTheQueue :
    let s := guarded (station7 .active) (List.range 7) .waiting .stopped
    (hearing s ⟨9, .claim 0⟩).Hears (intact ⟨9, .claim 0⟩) ⟨9, .claim 0⟩ ∧ s.status 9 = .joined
      ∧ (hearing s ⟨3, .claim 0⟩).Hears (intact ⟨3, .claim 0⟩) ⟨3, .claim 0⟩ ∧ s.status 3 = .active
      ∧ s.guardOf 0 = some ⟨0, List.range 7, .waiting, some 9, .stopped⟩ :=
  ⟨hears_of _ _ rfl (by decide +kernel) (by decide) rfl rfl, by decide +kernel,
   hears_of _ _ rfl (by decide +kernel) (by decide) rfl rfl, by decide +kernel⟩

theorem test_hyp_OwnClaimIsGrantedQueuedOrRefused :
    ∀ queue, queue = [] ∨ queue = [3] ∨ queue = List.range' 10 7 ∨ queue = List.range' 10 8 →
      let g := flight .publication (.claim 0) 0 true
      let s := sent (guarded { station7 .active with pub.queue := [record .claim 0] } queue .claiming .stopped) g
      s.Sends g ∧ s.ctl.state = .active ∧ s.status s.station = .active ∧ g.source = .publication
        ∧ s.pub.queue = [record .claim 0] ∧ s.guardOf 0 = some ⟨0, queue, .claiming, some 9, .stopped⟩
        ∧ s.station ∉ queue := by
  rintro _ (rfl | rfl | rfl | rfl) <;> exact ⟨sends_of _ _ rfl rfl rfl (by decide +kernel) rfl rfl, by decide +kernel⟩

theorem test_hyp_AcceptedReleasePromotesTheNext :
    ∀ queue, queue = [3, 7] ∨ queue = [7, 3] →
      let frame : Frame := ⟨3, .release 0 .lease⟩
      let s := hearing (guarded (station7 .active) queue .waiting .stopped) frame
      s.Hears (intact frame) frame ∧ s.status 3 = .active ∧ s.guardOf 0 = some ⟨0, queue, .waiting, some 9, .stopped⟩
        ∧ (∀ x ∈ s.pub.queue, x.kind ≠ .release) ∧ (s.claims.map (·.window)).Nodup := by
  rintro _ (rfl | rfl) <;> exact ⟨hears_of _ _ rfl (by decide +kernel) (by decide) rfl rfl, by decide +kernel⟩

/-- The clause of the same statement on its own RELEASE, from the control list and from a publication record. -/
theorem test_hyp_AcceptedReleasePromotesTheNext_own :
    (∀ queue, queue = [7, 3] ∨ queue = [3, 7] ∨ queue = [] →
      let g := flight (.control (.release 0)) (.release 0 .lease) 0 true
      let s := sent (guarded (station7 .active) queue .expiring .runOut) g
      s.Sends g ∧ s.status s.station = .active ∧ s.guardOf 0 = some ⟨0, queue, .expiring, some 9, .runOut⟩
        ∧ queue.Nodup ∧ (s.claims.map (·.window)).Nodup ∧ ∀ x ∈ s.pub.queue, x.kind ≠ .release)
    ∧ (let g := flight .publication (.release 0 .host) 0 true
       let s := sent (guarded { station7 .active with pub.queue := [record .release 0] } [7] .held .stopped) g
       s.Sends g ∧ g.source = .publication ∧ s.pub.queue = record .release 0 :: []
         ∧ s.guardOf 0 = some ⟨0, [7], .held, some 9, .stopped⟩)
    ∧ (let g := flight .publication (.release 0 .host) 0 true
       let s := sent (guarded { station7 .active with pub.queue := [record .release 0, record .claim 0] } [3] .claiming
         .stopped) g
       s.Sends g ∧ g.source = .publication ∧ s.pub.queue = record .release 0 :: [record .claim 0]
         ∧ (∀ x ∈ [record .claim 0], x.kind ≠ .release)
         ∧ s.guardOf 0 = some ⟨0, [3], .claiming, some 9, .stopped⟩) := by
  refine ⟨?_, ⟨sends_of _ _ rfl rfl rfl (by decide +kernel) rfl rfl, by decide +kernel⟩,
    sends_of _ _ rfl rfl rfl (by decide +kernel) rfl rfl, by decide +kernel⟩
  rintro _ (rfl | rfl | rfl) <;> exact ⟨sends_of _ _ rfl rfl rfl (by decide +kernel) rfl rfl, by decide +kernel⟩

theorem test_hyp_PresenceRecordsItsSender :
    (∀ mode, mode = PresenceMode.join ∨ mode = .founded ∨ mode = .announce →
      let frame : Frame := ⟨9, .presence mode (station7 .active).layout.signature⟩
      let s := hearing (station7 .active) frame
      s.Hears (intact frame) frame ∧ 9 < s.roster.entries.length ∧ s.status 9 ≠ .foreign)
    ∧ (let frame : Frame := ⟨31, .presence .join 0x0000⟩
       let s := hearing (station7 .active) frame
       s.Hears (intact frame) frame ∧ 31 < s.roster.entries.length ∧ s.status 31 ≠ .foreign
         ∧ s.layout.signature ≠ 0x0000) := by
  refine ⟨?_, hears_of _ _ rfl (by decide +kernel) (by decide) rfl rfl, by decide +kernel⟩
  rintro _ (rfl | rfl | rfl) <;> exact ⟨hears_of _ _ rfl (by decide +kernel) (by decide) rfl rfl, by decide +kernel⟩

/-- The clauses of the same statement on its own JOIN and its own FOUNDED. -/
theorem test_hyp_PresenceRecordsItsSender_own :
    (let g := flight (.control (.presence .join)) (.presence .join 0x4A60) 0 true
     let s := sent { station7 .joining with roster.entries := List.replicate 32 RosterEntry.reset } g
     s.Sends g ∧ s.ctl.state = .joining ∧ s.ctl.censusPending = true ∧ s.layout.signature = 0x4A60
       ∧ s.status s.station = .absent ∧ s.station < s.roster.entries.length)
    ∧ (let g := flight (.control (.presence .founded)) (.presence .founded 0x4A60) 0 true
       let s := sent { station7 .active with
         sched.control := [.presence .founded]
         roster.entries := (List.replicate 32 RosterEntry.reset).set 7 ⟨.joined, .stopped⟩ } g
       s.Sends g ∧ s.ctl.state = .active ∧ s.layout.signature = 0x4A60 ∧ s.status s.station = .joined
         ∧ s.station < s.roster.entries.length ∧ s.sched.control.Nodup) :=
  ⟨⟨sends_of _ _ rfl rfl rfl (by decide +kernel) rfl rfl, by decide +kernel⟩,
   sends_of _ _ rfl rfl rfl (by decide +kernel) rfl rfl, by decide +kernel⟩

theorem test_hyp_CensusCompletesOrInstalls :
    (∀ state, state = StationState.active ∨ state = .joining → ∀ own, own = RosterStatus.joined ∨ own = .absent →
      let map := (List.replicate 32 RosterStatus.absent).set 3 .active |>.set 7 own
      let frame : Frame := ⟨3, .census (station7 state).layout.signature map [[3]]⟩
      let s := hearing (station7 state) frame
      s.Hears (intact frame) frame ∧ s.status 3 ≠ .foreign ∧ s.roster.entries.length = 32 ∧ s.refresh.copies.length = 16
        ∧ s.awaitsCensus = decide (state = .joining) ∧ map.getD s.station .absent = own) := by
  rintro _ (rfl | rfl) _ (rfl | rfl) <;>
    exact ⟨hears_of _ _ rfl (by decide +kernel) (by decide) rfl rfl, by decide +kernel⟩

/-- The same statement's clauses on a JOINED sender, where no census is awaited, and on a joiner's own JOINED entry. -/
theorem test_hyp_CensusCompletesOrInstalls_joined :
    (let frame : Frame := ⟨9, .census 0x4A60 ((List.replicate 32 RosterStatus.absent).set 9 .active) [[]]⟩
     let s := hearing (station7 .active) frame
     s.Hears (intact frame) frame ∧ s.status 9 = .joined ∧ s.awaitsCensus = false)
    ∧ (let frame : Frame := ⟨3, .census 0x4A60 ((List.replicate 32 RosterStatus.absent).set 3 .active) [[]]⟩
       let s := hearing { station7 .joining with
         roster.entries := (List.replicate 32 RosterEntry.reset).set 7 ⟨.joined, .stopped⟩ } frame
       s.Hears (intact frame) frame ∧ s.status s.station = .joined ∧ s.awaitsCensus = true) :=
  ⟨⟨hears_of _ _ rfl (by decide +kernel) (by decide) rfl rfl, by decide +kernel⟩,
   hears_of _ _ rfl (by decide +kernel) (by decide) rfl rfl, by decide +kernel⟩

/-- R146, R152: a census that does not list this waiting joiner JOINED makes its sender 3 and the JOINED station 9 ACTIVE;
the joiner's own entry 7 stays JOINED while census pending stays set. -/
theorem test_joiner_stays_joined :
    let frame : Frame := ⟨3, .census 0x4A60 ((List.replicate 32 RosterStatus.absent).set 3 .active) [[]]⟩
    let s := hearing { station7 .joining with
      roster.entries := ((List.replicate 32 RosterEntry.reset).set 7 ⟨.joined, .stopped⟩).set 9 ⟨.joined, .running 5⟩ } frame
    (match exec (.verdictWindowEnd allRecessive) s with
      | .next t => ([3, 7, 9].map t.status, t.ctl.censusPending)
      | _ => ([], false)) = ([.active, .joined, .active], true) := by decide +kernel

/-- The clause of the same statement on a census of another layout. -/
theorem test_hyp_CensusCompletesOrInstalls_other :
    ∀ state, state = StationState.active ∨ state = .joining ∨ state = .leaving →
      let map := (List.replicate 32 RosterStatus.absent).set 3 .active
      let frame : Frame := ⟨3, .census 0x0000 map []⟩
      let s := hearing (station7 state) frame
      s.Hears (intact frame) frame ∧ 0x0000 ≠ s.layout.signature ∧ s.status 3 ≠ .foreign
        ∧ s.awaitsCensus = decide (state = .joining) ∧ 3 < s.roster.entries.length := by
  rintro _ (rfl | rfl | rfl) <;> exact ⟨hears_of _ _ rfl (by decide +kernel) (by decide) rfl rfl, by decide +kernel⟩

theorem test_hyp_DepartRemovesItsSubject :
    (let frame : Frame := ⟨3, .depart 9 .silent⟩
     let s := hearing (station7 .active) frame
     s.Hears (intact frame) frame ∧ s.status 3 = .active ∧ 9 ≠ s.station)
    ∧ ∀ state, state = StationState.leaving ∨ state = .joining ∨ state = .active →
      let frame : Frame := ⟨3, .depart 7 .silent⟩
      let s := hearing (station7 state) frame
      s.Hears (intact frame) frame ∧ s.status 3 = .active ∧ s.ctl.state = state := by
  refine ⟨⟨hears_of _ _ rfl (by decide +kernel) (by decide) rfl rfl, by decide +kernel⟩, ?_⟩
  rintro _ (rfl | rfl | rfl) <;> exact ⟨hears_of _ _ rfl (by decide +kernel) (by decide) rfl rfl, by decide +kernel⟩

/-- R113, R127, R156: another station's DEPART of this ACTIVE holder posts ABANDONED, LOST_HOLD and STATE, in that order. -/
theorem test_depart_of_a_holder :
    let frame : Frame := ⟨3, .depart 7 .silent⟩
    let s := hearing { guarded (station7 .active) [7, 9] .held .stopped with pub.queue := [record (.write 0 [1]) 2] } frame
    (match exec (.verdictWindowEnd allRecessive) s with
      | .next t => t.report.outcomes
      | _ => []) = [.abandoned 9 2 .departed, .lostHold 0 .departed, .state .joining .departed] := by decide +kernel

/-- The clause of the same statement on its own DEPART. -/
theorem test_hyp_DepartRemovesItsSubject_own :
    let g := flight (.control (.depart 7)) (.depart 7 .leaving) 0 true
    let s := sent { station7 .leaving with sched.control := [.depart 7] } g
    s.Sends g ∧ s.ctl.state = .leaving ∧ g.source = .control (.depart s.station)
      ∧ g.frame.body = .depart s.station .leaving ∧ s.pub.queue = [] :=
  ⟨sends_of _ _ rfl rfl rfl (by decide +kernel) rfl rfl, by decide +kernel⟩

theorem test_hyp_FetchMakesAServiceEntry :
    let frame : Frame := ⟨9, .fetch 2 128⟩
    let s := hearing { station7 .active with
      refresh.copies := (List.replicate 16 Copy.reset).set 2 { Copy.reset with fresh := true } } frame
    s.Hears (intact frame) frame ∧ s.status 9 = .joined ∧ (s.copy 2).fresh = true ∧ s.refresh.service.length < 4 :=
  ⟨hears_of _ _ rfl (by decide +kernel) (by decide) rfl rfl, by decide +kernel⟩

/-- The clause of the same statement on its own FETCH, at its fill point and past it. -/
theorem test_hyp_FetchMakesAServiceEntry_own :
    ∀ accepted, accepted = 0 ∨ accepted = 128 →
      let g := flight (.control (.fetch 2)) (.fetch 2 0) 0 true
      let s := sent { station7 .active with
        refresh.copies := (List.replicate 16 Copy.reset).set 2 { Copy.reset with accepted := accepted, request := true } } g
      s.Sends g ∧ s.ctl.state = .active ∧ s.status s.station = .active ∧ 2 < s.refresh.copies.length
        ∧ (s.copy 2).fresh = false := by
  rintro _ (rfl | rfl) <;> exact ⟨sends_of _ _ rfl rfl rfl (by decide +kernel) rfl rfl, by decide +kernel⟩

theorem test_hyp_FillIsTakenAtItsFillPoint :
    ∀ offset, offset = 0 ∨ offset = 128 →
      let frame : Frame := ⟨3, .fill 2 offset 9 (List.replicate 128 0x11)⟩
      let s := hearing (station7 .active) frame
      s.Hears (intact frame) frame ∧ s.status 3 = .active ∧ 2 < s.refresh.copies.length ∧ (s.copy 2).accepted = 0 := by
  rintro _ (rfl | rfl) <;> exact ⟨hears_of _ _ rfl (by decide +kernel) (by decide) rfl rfl, by decide +kernel⟩

/-- The clause of the same statement on its own FILL, at the last chunk and before it. -/
theorem test_hyp_FillIsTakenAtItsFillPoint_own :
    ∀ offset, offset = 0 ∨ offset = 3968 →
      let g := flight (.service 2 9) (.fill 2 offset 9 (List.replicate 128 1)) 0 true
      let s := sent { station7 .active with
        refresh.copies := (List.replicate 16 Copy.reset).set 2 { Copy.reset with fresh := true }
        refresh.service := [⟨2, 9, offset⟩] } g
      s.Sends g ∧ s.status s.station = .active ∧ (s.copy 2).fresh = true
        ∧ (offset + 128 < (s.entry 2).bytes ↔ offset = 0) := by
  rintro _ (rfl | rfl) <;> exact ⟨sends_of _ _ rfl rfl rfl (by decide +kernel) rfl rfl, by decide +kernel⟩

/-! ### Timers -/

theorem test_hyp_ExpiredTimersOfferTheirFrames :
    (let s := { station7 .joining with roster.announce := .running 1 }
     s.ctl.state = .joining ∧ s.roster.announce = .running 1 ∧ s.sched.control.length < 8)
    ∧ ((station7 .active).isMember = true ∧ (station7 .active).silenceTimer 9 = .running 5)
    ∧ ((station7 .leaving).isMember = true ∧ (station7 .leaving).silenceTimer 9 = .running 5)
    ∧ (let s := guarded (station7 .active) [7] .held (.running 1)
       s.guardOf 0 = some ⟨0, [7], .held, some 9, .running 1⟩ ∧ s.ctl.state = .active) := by decide +kernel

theorem test_hyp_AnswerTimerMakesTheFoundingTest :
    (∀ line, line = LineState.idleGap ∨ line = .slotting ∨ line = .stuck ∨ line = .receiving ∨ line = .verdict →
      let s := { station7 .joining with ctl.answer := .running 1, line.state := line }
      s.ctl.state = .joining ∧ s.ctl.censusPending = true ∧ s.ctl.answer = .running 1 ∧ s.line.state = line
        ∧ s.mayFound = false)
    ∧ (let s := { station7 .joining with ctl.answer := .running 1,
                                         roster.entries := List.replicate 32 RosterEntry.reset }
       s.ctl.state = .joining ∧ s.ctl.answer = .running 1 ∧ s.mayFound = true) := by
  refine ⟨?_, by decide +kernel⟩
  rintro _ (rfl | rfl | rfl | rfl | rfl) <;> decide +kernel

/-- The clauses of the same statement on a founding test put off to the window end. -/
theorem test_hyp_AnswerTimerMakesTheFoundingTest_deferred :
    (∀ entries, entries = (station7 .joining).roster.entries ∨ entries = List.replicate 32 RosterEntry.reset →
      let s := hearing { station7 .joining with ctl.foundingDue := true, roster.entries := entries } ⟨3, .claim 0⟩
      s.ctl.state = .joining ∧ s.ctl.censusPending = true ∧ s.line.state = .verdict
        ∧ s.rx.frame = some (intact ⟨3, .claim 0⟩) ∧ (0#20) ≠ allRecessive
        ∧ ¬ ((intact ⟨3, .claim 0⟩).objects = true ∧ 8 ≤ s.rx.objectionRun) ∧ s.ctl.foundingDue = true
        ∧ s.ctl.abandonDue = false ∧ s.mayFound = decide (entries = List.replicate 32 RosterEntry.reset))
    ∧ (let frame : Frame := ⟨31, .presence .founded 0x4A60⟩
       let s := hearing { station7 .joining with ctl.foundingDue := true } frame
       s.ctl.censusPending = true ∧ parseFrame ((intact frame).chars.map RxChar.data) = some frame
         ∧ s.layout.signature = 0x4A60 ∧ frame.sender ≠ s.station ∧ frame.sender < s.roster.entries.length
         ∧ s.status frame.sender ≠ .foreign ∧ s.ctl.foundingDue = true ∧ s.ctl.abandonDue = false) := by
  refine ⟨?_, by decide +kernel⟩
  rintro _ (rfl | rfl) <;> decide +kernel

theorem test_hyp_FourthFetchExpiryFailsTheCopy :
    ∀ n, n < 4 →
      let s := { station7 .active with
        refresh.copies := (List.replicate 16 Copy.reset).set 2 { Copy.reset with timer := .running 1, expiries := n } }
      s.ctl.state = .active ∧ 2 < s.refresh.copies.length ∧ (s.copy 2).fresh = false ∧ (s.copy 2).failed = false
        ∧ (s.copy 2).timer = .running 1 ∧ (s.copy 2).expiries = n := by decide +kernel

/-! ### Mirror memory -/

theorem test_hyp_ApplicationWritesItsBytesAndNoOther :
    (let e : Inbound := ⟨.write true, 2, 4095, [0x55], false⟩
     let s := { station7 .active with mirror.holder := some .application, mirror.inbound := [e], mirror.mem := [(5, 1)] }
     Memory.wf s.mirror.mem ∧ s.mirror.holder = some .application ∧ s.mirror.inbound = [e]
       ∧ (s.entry e.window).loc.toNat * 64 + e.offset + e.data.length ≤ 16384)
    ∧ (let e : Inbound := ⟨.fill, 2, 3968, List.replicate 128 0, false⟩
       let s := { station7 .active with
         mirror.holder := some .application
         mirror.inbound := [e]
         refresh.copies := (List.replicate 16 Copy.reset).set 2 { Copy.reset with applied := 3968 } }
       s.mirror.holder = some .application ∧ s.mirror.inbound = [e] ∧ e.kind = .fill ∧ e.withdrawn = false
         ∧ e.window < s.refresh.copies.length ∧ (s.entry e.window).loc.toNat * 64 + e.offset + e.data.length ≤ 16384
         ∧ (s.copy e.window).applied + e.data.length = (s.entry e.window).bytes) := by decide +kernel

theorem test_hyp_ZeroFillMakesEveryCopyFresh :
    let s := { station7 .active with mirror.holder := some (.zeroFill false), mirror.mem := [(0, 1), (16383, 2)] }
    Memory.wf s.mirror.mem ∧ s.mirror.holder = some (.zeroFill false) ∧ s.rangesFit = true
      ∧ s.refresh.copies.length = 16 ∧ ownedLocal s.layout.table 0 = true ∧ ownedLocal s.layout.table 16383 = false := by
  decide +kernel

theorem test_hyp_FillReadAndSnapshotCopyMemory :
    (let r : FillRead := ⟨2, 3968, true, false⟩
     let s := { station7 .active with mirror.holder := some (.fillRead r) }
     s.mirror.holder = some (.fillRead r) ∧ r.discard = false
       ∧ (s.entry r.window).loc.toNat * 64 + r.offset + (s.entry r.window).chunk ≤ 16384)
    ∧ (let q : Snapshot := ⟨2, 16352, 32, 4⟩
       let s := { station7 .active with mirror.holder := some (.snapshot q true false), port.cmd := .reading 0x4FE0 }
       s.mirror.holder = some (.snapshot q true false) ∧ s.port.cmd = .reading 0x4FE0 ∧ q.address + q.length ≤ 16384) := by
  decide +kernel

theorem test_hyp_ArbiterGrantsByPrecedence :
    (∀ passes, passes = 3 ∨ passes = 4 →
      let s := { station7 .active with mirror.snapReq := some ⟨2, 0, 1, passes⟩, mirror.zeroPending := true,
                                       mirror.fillReq := some ⟨2, 0, false, false⟩ }
      s.mirror.holder = none ∧ s.mirror.zeroPending = true ∧ (s.arbitrate.mirror.snapReq = none ↔ passes = 4)
        ∧ (s.arbitrate.mirror.holder = some (.zeroFill false) ↔ passes = 3))
    ∧ (let s := { station7 .active with mirror.inbound := [⟨.fill, 2, 0, [1], false⟩] }
       s.mirror.holder = none ∧ s.mirror.snapReq = none ∧ s.mirror.inbound ≠ [] ∧ s.mirror.zeroPending = false)
    ∧ (let s := { station7 .active with mirror.snapReq := some ⟨2, 0, 1, 0⟩ }
       s.mirror.holder = none ∧ s.mirror.fillReq = none ∧ s.mirror.inbound = []) := by
  refine ⟨?_, by decide +kernel⟩
  rintro _ (rfl | rfl) <;> decide +kernel

/-! ### The local port -/

theorem test_hyp_SelectionLatchesTheStatusByte :
    (station7 .active).pins.rstAsserted = false ∧ (station7 .active).port.selected = false := by decide +kernel

theorem test_hyp_SelectionEndEndsTheCommand :
    (let s := { chosen (station7 .active) with port.cmd := .reading 0x4000, mirror.holder := some (.snapshot ⟨2, 0, 1, 0⟩ true false) }
     s.port.selected = true ∧ s.port.cmd = .reading 0x4000)
    ∧ (let s := { chosen (station7 .active) with port.cmd := .changesLatched [2, 0], report.changes := [0] }
       s.port.selected = true ∧ s.port.cmd = .changesLatched [2, 0])
    ∧ (let s := { chosen (station7 .active) with port.cmd := .burst [1] 0 .full none 0x1234 }
       s.port.selected = true ∧ s.port.cmd = .burst [1] 0 .full none 0x1234)
    ∧ (station7 .active).port.selected = false := by
  decide +kernel

/-- R162, R163, R168: SDO outside a selection, at the code byte, at READ's and at WRITE's address bytes, and while a
read waits for its burst. -/
theorem test_sdo :
    let s := chosen (station7 .active)
    (station7 .active).sdoByte 0x02 0 = .highImpedance ∧ s.sdoByte 0x02 0 = .byte 0x03 ∧ s.sdoByte 0x02 1 = .byte 0x00
      ∧ s.sdoByte 0x02 2 = .byte 0x00 ∧ s.sdoByte 0x04 1 = .unnamed
      ∧ { s with port.cmd := .reading 0x4000 }.sdoByte 0x02 3 = .byte 0x00
      ∧ { s with port.cmd := .complete, port.response := [0x0E] }.sdoByte 0x0E 1 = .byte 0xFF := by decide +kernel

theorem test_hyp_OneCommandInASelection :
    (station7 .active).port.selected = false ∧ { chosen (station7 .active) with port.cmd := .writing }.port.cmd ≠ .awaiting
      ∧ (chosen (station7 .active)).port.selected = true ∧ (chosen (station7 .active)).port.cmd = .awaiting
      ∧ portCodes.contains 0x00 = false ∧ portCodes.contains 0x14 = false := by decide +kernel

/-- The hypotheses of StatusShowsTheStationAndClearsOverflow, ClaimIsAnsweredAndQueued, RefetchIsAnsweredInOrder,
LoadEntryReplacesTheEntryWhole, and of the other port statements before their clauses. -/
theorem test_hyp_port_ready :
    ∀ state, (chosen (station7 state)).port.selected = true ∧ (chosen (station7 state)).port.cmd = .awaiting
      ∧ (chosen (station7 state)).layout.table.length = 16 ∧ (chosen (station7 state)).ctl.state = state := by
  intro state; cases state <;> decide +kernel

theorem test_hyp_ReadAsksForASnapshotOrAnswersUnmapped :
    (let s := chosen (station7 .active)
     s.decode 0x40F8 = some (0, 0xF8) ∧ (s.entry 0).isMirrored = true ∧ s.mirror.holder = none
       ∧ s.decode 0x8020 = some (3, 0x20) ∧ (s.entry 3).isMirrored = false ∧ s.decode 0x8040 = none)
    ∧ { chosen (station7 .active) with port.cmd := .burst [1, 2] 1 .full none 0 }.port.cmd
        = .burst [1, 2] 1 .full none 0 := by decide +kernel

theorem test_hyp_WriteByteIsPlacedOrRefused :
    (∀ address : Word, address = 0x8040 ∨ address = 0x0000 ∨ address = 0x4000 ∨ address = 0x4100 →
      let s := { chosen (station7 .active) with port.cmd := .writing, port.cont := address }
      s.port.selected = true ∧ s.port.cmd = .writing ∧ s.port.cont = address)
    ∧ (let s := chosen (station7 .active)
       s.decode 0x8040 = none
         ∧ (s.decode 0x0000 = some (1, 0) ∧ (s.entry 1).policy = .owned ∧ (s.entry 1).owner ≠ some s.station)
         ∧ (s.decode 0x4000 = some (0, 0) ∧ (s.entry 0).policy = .guarded ∧ s.holdOf 0 = .unheld)
         ∧ (s.decode 0x4100 = some (2, 0x100) ∧ (s.entry 2).policy = .shared)
         ∧ s.pub.queue.getLast? = none ∧ s.pub.queue.length < 16)
    ∧ (let s := { station7 .active with
         pub.queue := List.replicate 15 (record .claim 0) ++ [(⟨.write 0xE0 (List.replicate 32 0), 9, 2, false⟩ : PubRecord)] }
       s.pub.queue.getLast? = some ⟨.write 0xE0 (List.replicate 32 0), 9, 2, false⟩
         ∧ ¬ (List.replicate 32 (0 : Byte)).length < 32 ∧ 16 ≤ s.pub.queue.length)
    ∧ (let s := { station7 .active with
         pub.queue := [record .claim 0] ++ [(⟨.write 0xE1 (List.replicate 31 0), 9, 2, false⟩ : PubRecord)] }
       s.pub.queue = [record .claim 0] ++ [(⟨.write 0xE1 (List.replicate 31 0), 9, 2, false⟩ : PubRecord)]
         ∧ (List.replicate 31 (0 : Byte)).length < 32 ∧ 0x100 = 0xE1 + (List.replicate 31 (0 : Byte)).length) := by
  refine ⟨?_, by decide +kernel⟩
  rintro _ (rfl | rfl | rfl | rfl) <;> decide +kernel

theorem test_hyp_ReleaseCancelsOrQueues :
    let r : PubRecord := ⟨.claim, 9, 0, false⟩
    let s := chosen { guarded (station7 .active) [] .claiming .stopped with pub.queue := [r] }
    s.ctl.state = .active ∧ (s.entry 0).isGuarded = true ∧ s.pub.queue = [] ++ r :: []
      ∧ r.kind = .claim ∧ r.window = (0x00 : Byte).toNat ∧ r.selected = false := by decide +kernel

/-- The clauses of RefetchIsAnsweredInOrder on the inbound queue, its head granted and not. -/
theorem test_hyp_RefetchIsAnsweredInOrder :
    ∀ holder, holder = none ∨ holder = some Grant.application →
      let e : Inbound := ⟨.fill, 2, 0, [1], false⟩
      let s := { chosen (station7 .active) with mirror.holder := holder, mirror.inbound := [e, ⟨.write false, 2, 0, [1], false⟩] }
      s.port.selected = true ∧ s.port.cmd = .awaiting ∧ s.layout.table.length = 16 ∧ s.ctl.state = .active
        ∧ (s.entry 2).isMirrored = true ∧ (s.copy 2).fresh = false ∧ s.mirror.inbound = e :: s.mirror.inbound.tail := by
  rintro _ (rfl | rfl) <;> decide +kernel

theorem test_hyp_OutcomesAndChangesAreTaken :
    (chosen (station7 .active)).report.outcomes = []
      ∧ { chosen (station7 .active) with report.outcomes := [.fresh 2] }.report.outcomes = .fresh 2 :: []
      ∧ { chosen (station7 .active) with port.cmd := .outcomeLatched }.port.cmd = .outcomeLatched
      ∧ (station7 .active).port.cmd ≠ .outcomeLatched := by decide +kernel

theorem test_hyp_OutcomeRecordLayout : 15 < 16 ∧ (1 ≤ 7 ∧ 7 ≤ 7) ∧ 0 ≤ 7 := by decide

theorem test_hyp_ReadsOfRosterQueueAndEntry :
    ((chosen (station7 .active)).entry (0x00 : Byte).toNat).isGuarded = true
      ∧ ((chosen (station7 .active)).entry (0x02 : Byte).toNat).policy ≠ .guarded
      ∧ ((chosen (station7 .active)).entry (0xFF : Byte).toNat).enabled = false
      ∧ (0x0F : Byte).toNat ≤ 15 ∧ 15 < (0x10 : Byte).toNat := by decide +kernel

theorem test_hyp_StartValidatesThenListens :
    (let s := chosen (station7 .stopped)
     s.ctl.state = .stopped ∧ validate s.layout.table = none ∧ Memory.wf s.mirror.mem ∧ s.mirror.holder = none
       ∧ ownedLocal s.layout.table 0xFF = true ∧ ownedLocal s.layout.table 0x500 = false)
    ∧ validate (chosen State.reset).layout.table = some ⟨.noWindow, none⟩ ∧ (chosen State.reset).ctl.state = .stopped := by
  decide +kernel

/-- Tables that pass validation, hold no window, and fail a test at an entry (R55). -/
theorem test_hyp_StartValidatesThenListens_tables :
    PassesValidation table7 ∧ FirstFailure State.reset.layout.table ⟨.noWindow, none⟩
      ∧ FirstFailure (table7.set 2 { table7.getD 2 Entry.reset with loc := 16 }) ⟨.localOverlap, some 2⟩ :=
  ⟨(validate_none_iff _).1 (by decide +kernel), (validate_some_iff _ _).1 (by decide +kernel),
    (validate_some_iff _ _).1 (by decide +kernel)⟩

/-- Loading an entry while a grant of the run that ended still holds the memory (R64; log 18). -/
theorem test_hyp_LoadEntryReplacesTheEntryWhole :
    (let e : Inbound := ⟨.fill, 2, 0, [1], true⟩
     let s := { chosen (station7 .stopped) with mirror.holder := some .application, mirror.inbound := [e] }
     s.port.selected = true ∧ s.port.cmd = .awaiting ∧ s.layout.table.length = 16 ∧ s.ctl.state = .stopped
       ∧ s.mirror.holder = some .application ∧ s.mirror.inbound = e :: [])
    ∧ (let s := { chosen (station7 .stopped) with mirror.holder := some (.zeroFill true) }
       s.ctl.state = .stopped ∧ s.mirror.holder = some (.zeroFill true) ∧ ownedLocal s.layout.table 0x500 = false) := by
  decide +kernel

theorem test_hyp_LeaveActsByTheStationState :
    ∀ source, source = Source.publication ∨ source = .control (.fetch 2) ∨ source = .service 2 9 →
      ∀ onLine : Bool,
        let g := flight source (.claim 0) 0 onLine
        let s := { chosen (station7 .active) with sched.inflight := some g, sched.control := [.fetch 2] }
        s.port.selected = true ∧ s.port.cmd = .awaiting ∧ s.ctl.state = .active ∧ s.sched.inflight = some g
          ∧ g.onLine = onLine ∧ g.source = source ∧ (chosen (station7 .joining)).sched.inflight = none := by
  rintro _ (rfl | rfl | rfl) onLine <;> cases onLine <;> decide +kernel

end Sys2Proof.Tests
end

