-- ==== Sys2Proof/Proofs/PinReset.lean ====
section
/-! The pin reset (R72): the values of the reset state that mirror memory, its users and its copies are read through. -/

namespace Sys2Proof.Machine

/-- A pin reset takes the state to the reset state; the commands that wait stay with their sender (log 1). -/
theorem exec_pinReset (s : State) : exec .pinReset s = .next { State.reset with pending := s.pending } := rfl

/-- R72: the memory of the reset state lists no byte, so every address reads 00. -/
@[simp] theorem State.read_reset (a : Nat) : Memory.read State.reset.mirror.mem a = 0 :=
  Memory.read_below (m := []) (List.forall_mem_nil _)

/-- R144: within the sixteen records and beyond them, a copy of the reset state reads as the reset record. -/
@[simp] theorem State.copy_reset (w : Nat) : State.reset.copy w = Copy.reset := by
  rw [State.copy, List.getD_eq_getElem?_getD]
  exact List.getElem?_getD_replicate_default_eq Copy.reset Config.windows w

/-- The apply engine is idle once no application waits and no zero-fill holds the memory. -/
theorem State.engineApplying_of_idle {s : State} (hz : s.mirror.zeroPending = false) (hq : s.mirror.inbound = [])
    (hh : s.mirror.holder = none) : s.engineApplying = false := by
  simp [State.engineApplying, State.applicationWaits, hz, hq, hh]

/-- Settles O8: the state after a pin reset is the reset state but for the queue, and each row of R72's table is read
off it through the lemmas above. -/
theorem pinResetClearsMirrorMemory : Obligations.PinResetClearsMirrorMemory := by
  intro s
  have copies (w : Nat) : ({ State.reset with pending := s.pending } : State).copy w = Copy.reset := State.copy_reset w
  refine ⟨{ State.reset with pending := s.pending }, exec_pinReset s, State.read_reset, rfl, rfl, rfl,
    State.engineApplying_of_idle rfl rfl rfl, rfl, rfl, rfl, rfl, rfl, rfl, fun w => ?_⟩
  rw [copies w]
  exact ⟨rfl, rfl, rfl⟩

end Sys2Proof.Machine
end

