-- ==== Sys2Proof/Proofs/FetchService.lean ====
section
/-! The acceptance of a FETCH (R133, R137): what it does to the service table of a volunteer and to the copy record of its
requester, and the end of the verdict window around it. -/

namespace Sys2Proof.Machine

variable {s : State} {f : RxFrame} {g : InFlight} {frame : Frame} {w o : Nat}

/-- The statuses are read from the roster alone (R114). -/
theorem State.status_of_roster {t : State} (h : t.roster = s.roster) (n : Nat) : t.status n = s.status n := by
  rw [State.status, h, State.status]

/-- The copy records are read from the refresh unit alone (R131). -/
theorem State.copy_of_refresh {t : State} (h : t.refresh = s.refresh) (v : Nat) : t.copy v = s.copy v := by
  rw [State.copy, h, State.copy]

/-! ### The sender filter and step 5 of acceptance -/

/-- The sender filter passes every frame of a JOINED or ACTIVE station (R37). -/
theorem State.passesFilter_of_present {n : Nat} (h : s.status n = .joined ∨ s.status n = .active) (presence : Bool) :
    s.passesFilter n presence = true := by
  rcases h with h | h <;> simp [State.passesFilter, h]

/-- A frame of a JOINED or ACTIVE station takes effect, then overtaken frames are dropped (R34, R37). -/
theorem State.acceptEffect_of_present {n : Nat} (h : s.status n = .joined ∨ s.status n = .active) (sent : Bool) (b : Body) :
    s.acceptEffect n sent (some b) = (s.acceptBody n sent b).dropOvertaken := by
  rw [State.acceptEffect, if_pos (State.passesFilter_of_present h _)]

@[simp] theorem State.dropOvertaken_inbound (s : State) : s.dropOvertaken.mirror.inbound = s.mirror.inbound := by
  simp [State.dropOvertaken]

/-- A frame on the line is not tested for being overtaken (R87). -/
theorem State.dropOvertaken_inflight (hi : s.sched.inflight = some g) (hl : g.onLine = true) :
    s.dropOvertaken.sched.inflight = some g := by
  have waits : s.frameOvertaken g = false := by simp [State.frameOvertaken, hl]
  have kept : s.dropWaiting = s := by simp [State.dropWaiting, hi, waits]
  simp [State.dropOvertaken, kept, hi]

/-- Settlement of a FETCH only takes it from the control list (R85). -/
theorem State.settle_of_fetch (hi : s.sched.inflight = some g) (hs : g.source = .control (.fetch w)) (rejected : Bool) :
    s.settle rejected = s.leaveSource g := by
  simp [State.settle, hi, hs]

/-! ### The volunteer (R136, R137) -/

/-- The service table after volunteering for a FETCH (R137). -/
theorem State.volunteer_service (s : State) (w r o : Nat) :
    (s.volunteer w r o).refresh.service =
      if s.refresh.service.any (fun e => e.window == w && e.requester == r) then
        s.refresh.service.map (fun e => if e.window == w && e.requester == r then { e with next := o } else e)
      else if s.refresh.service.length < 4 then
        s.refresh.service ++ [{ window := w, requester := r, next := o }]
      else s.refresh.service := by
  have found : (s.serviceOf w r).isSome = s.refresh.service.any fun e => e.window == w && e.requester == r :=
    List.isSome_find?
  rw [State.volunteer, found]
  (repeat' split) <;> simp_all [Config.serviceLimit]

theorem State.volunteer_copies (s : State) (w r o : Nat) : (s.volunteer w r o).refresh.copies = s.refresh.copies := by
  unfold State.volunteer
  (repeat' split) <;> rfl

/-- The conditions under which a station volunteers for another station's FETCH (R137). -/
theorem State.acceptFetch_heard (s : State) (r w o : Nat) :
    s.acceptFetch r false w o =
      if s.ctl.state = .active ∧ (s.entry w).enabled = true ∧ (s.entry w).mirrored = true ∧ (s.copy w).fresh = true
          ∧ o % (if (s.entry w).bytes = 64 then 64 else 128) = 0 then s.volunteer w r o
      else s := by
  simp [State.acceptFetch, State.isActive, Entry.isMirrored, Entry.chunk, and_assoc]

/-- Another station's FETCH changes no copy record. -/
@[simp] theorem State.acceptFetch_heard_copies (s : State) (r w o : Nat) :
    (s.acceptFetch r false w o).refresh.copies = s.refresh.copies := by
  rw [State.acceptFetch, if_neg Bool.false_ne_true]
  split
  · exact s.volunteer_copies w r o
  · rfl

/-! ### The requester (R133) -/

/-- The copy records after one of them is written. -/
theorem State.copy_setCopy_of_lt (hw : w < s.refresh.copies.length) (f : Copy → Copy) (v : Nat) :
    (s.setCopy w f).copy v = if v = w then f (s.copy w) else s.copy v := by
  simp only [State.setCopy, State.copy, List.getD_eq_getElem?_getD, List.getElem?_set]
  by_cases hv : w = v
  · subst hv; simp [hw]
  · simp [hv, Ne.symm hv]

/-- A station's own FETCH leaves its service table. -/
@[simp] theorem State.fetchAccepted_service (s : State) (w o : Nat) :
    (s.fetchAccepted w o).refresh.service = s.refresh.service := by
  unfold State.fetchAccepted
  split <;> rfl

/-- The own FETCH of a STALE copy in ACTIVE writes the timer and the request of that copy, and no other copy (R133). -/
theorem State.copy_fetchAccepted (hw : w < s.refresh.copies.length) (active : s.ctl.state = .active)
    (stale : (s.copy w).fresh = false) (o v : Nat) :
    (s.fetchAccepted w o).copy v =
      if v = w then
        { s.copy w with
          timer := if (s.copy w).failed = true then .stopped else .running 4096
          request := if o = (s.copy w).accepted then false else (s.copy w).request }
      else s.copy v := by
  have fetching : (s.isActive && !(s.copy w).fresh) = true := by simp [State.isActive, active, stale]
  rw [State.fetchAccepted, if_pos fetching, State.copy_setCopy_of_lt hw]

/-! ### The end of the verdict window -/

/-- The state as step 1 of acceptance leaves it at the end of an accepted frame's window (R35). -/
def State.timedAt (s : State) (sender : Nat) (sent : Bool) : State := s.gapAccepted.acceptTimers sender sent

/-- Up to step 1 of acceptance only the line, the receiver and timers of the roster have changed (R35). -/
@[simp] theorem State.timedAt_frame (s : State) (n : Nat) (sent : Bool) :
    (s.timedAt n sent).pins = s.pins ∧ (s.timedAt n sent).layout = s.layout ∧ (s.timedAt n sent).mirror = s.mirror
      ∧ (s.timedAt n sent).pub = s.pub ∧ (s.timedAt n sent).sched = s.sched ∧ (s.timedAt n sent).claims = s.claims
      ∧ (s.timedAt n sent).refresh = s.refresh ∧ (s.timedAt n sent).ctl = s.ctl ∧ (s.timedAt n sent).port = s.port
      ∧ (s.timedAt n sent).report = s.report ∧ (s.timedAt n sent).pending = s.pending := by
  simp [State.timedAt]

@[simp] theorem State.timedAt_status (s : State) (n v : Nat) (sent : Bool) : (s.timedAt n sent).status v = s.status v := by
  rw [State.timedAt, State.acceptTimers_status]
  rfl

@[simp] theorem State.timedAt_copy (s : State) (n v : Nat) (sent : Bool) : (s.timedAt n sent).copy v = s.copy v := by
  simp [State.copy]

@[simp] theorem State.timedAt_entry (s : State) (n v : Nat) (sent : Bool) : (s.timedAt n sent).entry v = s.entry v := by
  simp [State.entry]

/-- The end of the window of another station's FETCH. -/
theorem State.Hears.fetch_end (h : s.Hears f frame) (hb : frame.body = .fetch w o)
    (present : s.status frame.sender = .joined ∨ s.status frame.sender = .active) :
    exec (.verdictWindowEnd allRecessive) s =
      .next ((s.timedAt frame.sender false).acceptFetch frame.sender false w o).dropOvertaken.offerDue.settleMemory := by
  have passes := (s.timedAt_status frame.sender frame.sender false).symm ▸ present
  rw [h.window_end, ← State.timedAt, hb, State.acceptEffect_of_present passes, State.acceptBody,
    State.afterWindow_eq (by simpa using h.founding) (by simpa using h.abandoning)]

/-- The end of the window of this station's own FETCH. -/
theorem State.Sends.fetch_end (h : s.Sends g) (source : g.source = .control (.fetch w)) (hb : g.frame.body = .fetch w o)
    (present : s.status s.station = .joined ∨ s.status s.station = .active) :
    exec (.verdictWindowEnd allRecessive) s =
      .next ((((s.timedAt s.station true).fetchAccepted w o).dropOvertaken).leaveSource g).offerDue.settleMemory := by
  have passes := (s.timedAt_status s.station s.station true).symm ▸ present
  have flight : ((s.timedAt s.station true).fetchAccepted w o).dropOvertaken.sched.inflight = some g :=
    State.dropOvertaken_inflight (by simpa using h.flight) h.driven
  rw [h.window_end, ← State.timedAt, hb, State.acceptEffect_of_present passes, State.acceptBody, State.acceptFetch,
    if_pos rfl, State.settle_of_fetch flight source,
    State.afterWindow_eq (by simpa using h.founding) (by simpa using h.abandoning)]

/-- Settles O37: the window's end is the acceptance of the FETCH between operations that leave the refresh unit, and that
acceptance is `volunteer_service` at a volunteer and `copy_fetchAccepted` at the requester. -/
theorem fetchMakesAServiceEntry : Obligations.FetchMakesAServiceEntry := by
  constructor
  · intro s f frame w o hears body present
    refine ⟨_, hears.fetch_end body present, ?_, by simp, fun n => ?_, by simp, ?_⟩
    · apply State.eq_of_units <;> simp
    · exact (State.status_of_roster (by simp) n).trans (s.timedAt_status frame.sender n false)
    · simp [State.acceptFetch_heard, apply_ite State.refresh, apply_ite Refresh.service, State.volunteer_service]
  · intro s g w o sends active source body present hw stale
    have copies {t : State} (ht : t.refresh = ((s.timedAt s.station true).fetchAccepted w o).refresh) (v : Nat) :=
      (State.copy_of_refresh ht v).trans
        (State.copy_fetchAccepted (by simpa using hw) (by simpa using active) (by simpa using stale) o v)
    refine ⟨_, sends.fetch_end source body present, ?_, fun v hv => ?_, by simp, by simp, by simp, by simp, fun n => ?_,
      by simp⟩
    · exact (copies (by simp) w).trans (by rw [if_pos rfl, s.timedAt_copy])
    · exact (copies (by simp) v).trans (by rw [if_neg hv, s.timedAt_copy])
    · exact (State.status_of_roster (by simp) n).trans (s.timedAt_status s.station n true)

end Sys2Proof.Machine
end

