-- ==== Sys2Proof/Proofs/LocalPort.lean ====
section
/-! The local port: the reads of the roster, the claim queues and the window table (R174), and REFETCH with what it does
to the inbound queue and the copy record (R64, R142, R171). -/

namespace Sys2Proof.Machine

variable {s : State}

/-- A command is taken where CS# is low and none has been taken in this selection (R162). -/
theorem State.portReady_of (selected : s.port.selected = true) (awaiting : s.port.cmd = .awaiting) :
    s.portReady = true := by
  simp [State.portReady, selected, awaiting]

/-! ### Reading the roster, the queues and the table (R174, R189, R190) -/

/-- READ QUEUE answers with the claim queue, head first, of an enabled GUARDED window. -/
theorem State.showQueue_of_guarded {w : Nat} (enabled : (s.entry w).enabled = true)
    (guarded : (s.entry w).policy = .guarded) :
    s.showQueue w = s.answer .done (queueResponse (s.claimQueue w)) :=
  if_pos (by simp [State.namesGuarded, Entry.isGuarded, enabled, guarded])

/-- READ QUEUE names NOT_GUARDED where the window is not enabled or not GUARDED. -/
theorem State.showQueue_of_not_guarded {w : Nat} (h : (s.entry w).enabled = false ∨ (s.entry w).policy ≠ .guarded) :
    s.showQueue w = s.answer .notGuarded [0x00] := by
  refine if_neg fun guarded => ?_
  simp only [State.namesGuarded, Entry.isGuarded, Bool.and_eq_true, beq_iff_eq] at guarded
  rcases h with disabled | other
  · exact Bool.false_ne_true (disabled.symm.trans guarded.1)
  · exact other guarded.2

/-- READ ENTRY answers with the fields of an entry of the table. -/
theorem State.showEntry_of_le {x : Nat} (h : x ≤ 15) : s.showEntry x = s.answer .done (s.entry x).portBytes :=
  if_pos (Nat.lt_succ_of_le h)

/-- READ ENTRY names ILLEGAL for an index past the table. -/
theorem State.showEntry_of_gt {x : Nat} (h : 15 < x) : s.showEntry x = s.answer .illegal (List.replicate 8 0x00) :=
  if_neg (Nat.not_lt_of_le h)

/-- Settles O57: each read is an answer of the port alone, and the bytes of its response are those of R189 and R190,
status by status, and by the policy and the owner of the entry. -/
theorem readsOfRosterQueueAndEntry : Obligations.ReadsOfRosterQueueAndEntry := by
  intro s selected awaiting
  have ready := State.portReady_of selected awaiting
  refine ⟨?_, fun w enabled guarded => ?_, fun w other => ?_, fun x inside => ?_, fun x outside => ?_⟩
  · rw [exec, execReadRoster, if_pos ready]
    refine congrArg (fun bytes => Host.Outcome.next (s.answer .done bytes)) (List.map_congr_left fun n _ => ?_)
    cases s.status n <;> rfl
  · rw [exec, execReadQueue, if_pos ready, State.showQueue_of_guarded enabled guarded]
    rfl
  · rw [exec, execReadQueue, if_pos ready, State.showQueue_of_not_guarded other]
    rfl
  · rw [exec, execReadEntry, if_pos ready, State.showEntry_of_le inside]
    simp only [State.answer, Entry.portBytes, twoBytes, byteOf, bitOf]
    cases (s.entry x.toNat).policy <;> cases (s.entry x.toNat).owner <;> simp [Policy.code, ownerCode]
  · rw [exec, execReadEntry, if_pos ready, State.showEntry_of_gt outside]
    rfl

/-! ### REFETCH (R64, R142, R171) -/

/-- A withdrawal while no application is granted removes every entry it holds of (R64). -/
theorem State.withdraw_inbound_of_not_granted (h : s.mirror.holder ≠ some .application) (p : Inbound → Bool) :
    (s.withdraw p).mirror.inbound = s.mirror.inbound.filter fun e => !p e := by
  unfold State.withdraw
  dsimp only
  split
  · exact absurd ‹_› h
  · rfl

/-- A withdrawal while the head's application is granted marks the head and removes the others (R64). -/
theorem State.withdraw_inbound_of_granted {head : Inbound} {rest : List Inbound}
    (granted : s.mirror.holder = some .application) (queue : s.mirror.inbound = head :: rest) (p : Inbound → Bool) :
    (s.withdraw p).mirror.inbound =
      (if p head then { head with withdrawn := true } else head) :: rest.filter fun e => !p e := by
  simp [State.withdraw, granted, queue]

/-- Of the entries a withdrawal holds of, only a granted head stays, and it is marked (R64). -/
theorem State.withdrawn_of_mem_withdraw {p : Inbound → Bool} {e : Inbound}
    (h : e ∈ (s.withdraw p).mirror.inbound) (hp : p e = true) : e.withdrawn = true := by
  have removed {l : List Inbound} : e ∉ l.filter fun x => !p x := by simp [hp]
  by_cases granted : s.mirror.holder = some .application
  · cases queue : s.mirror.inbound with
    | nil => simp [State.withdraw, queue] at h
    | cons head rest =>
      rw [State.withdraw_inbound_of_granted granted queue, List.mem_cons] at h
      obtain rfl | kept := h
      · by_cases marked : p head = true
        · rw [if_pos marked]
        · rw [if_neg marked] at hp
          exact absurd hp marked
      · exact absurd kept removed
  · rw [State.withdraw_inbound_of_not_granted granted] at h
    exact absurd h removed

/-- Where the refresh begins again, the FILL entries of the window are withdrawn (R142). -/
theorem State.restartFill_inbound (s : State) (w : Nat) :
    (s.restartFill w).mirror.inbound = (s.withdraw fun e => e.isFill && e.window == w).mirror.inbound := rfl

/-- A number past the table names no entry, so no window is mirrored under it (R46, R52). -/
theorem State.not_isMirrored_iff (table : s.layout.table.length = 16) (w : Nat) :
    (s.entry w).isMirrored = false ↔ 15 < w ∨ (s.entry w).enabled = false ∨ (s.entry w).mirrored = false := by
  have past (h : 15 < w) : s.entry w = Entry.reset :=
    List.getD_eq_default _ _ (by omega)
  rw [Entry.isMirrored, Bool.and_eq_false_iff]
  refine ⟨.inr, ?_⟩
  rintro (h | h)
  · exact .inl (by rw [past h]; rfl)
  · exact h

/-- REFETCH gives the first result of R171 that applies. -/
theorem State.hostRefetch_result (table : s.layout.table.length = 16) (w : Nat) :
    (s.hostRefetch w).2 =
      (if s.ctl.state ≠ .active then Result.notActive
        else if 15 < w ∨ (s.entry w).enabled = false ∨ (s.entry w).mirrored = false then .unmapped
        else if (s.copy w).fresh = true then .redundant
        else .done) := by
  simp only [← State.not_isMirrored_iff table, State.hostRefetch, State.isActive, apply_ite Prod.snd,
    Bool.not_eq_true', beq_eq_false_iff_ne]

/-- REFETCH begins the refresh again with DONE, and has no effect with every other result (R142, R171). -/
theorem State.hostRefetch_effect (s : State) (w : Nat) :
    (s.hostRefetch w).1 = if (s.hostRefetch w).2 = .done then (s.restartFill w).offerDue else s := by
  unfold State.hostRefetch
  split
  · rfl
  split
  · rfl
  split <;> rfl

/-- A REFETCH taken: its effect, its result as the answer, then the arbiter (R171). -/
theorem exec_refetch_of_ready (ready : s.portReady = true) (window : Byte) :
    exec (.refetch window) s =
      .next (((s.hostRefetch window.toNat).1.answerResult (s.hostRefetch window.toNat).2).settleMemory) := by
  rw [exec, execRefetch, if_pos ready]

/-- Settles O54: the arbiter leaves what is said of the memory, the result is `hostRefetch_result`, and on DONE the
inbound queue is the one `withdraw` leaves. -/
theorem refetchIsAnsweredInOrder : Obligations.RefetchIsAnsweredInOrder := by
  intro s window selected awaiting table
  have effect := s.hostRefetch_effect window.toNat
  refine ⟨_, _, exec_refetch_of_ready (State.portReady_of selected awaiting) window,
    State.hostRefetch_result table window.toNat, ?_, ?_, by simp, by simp, fun done => ?_, fun other => ?_⟩
  · apply State.eq_of_units <;> simp
  · simp [State.answerResult, State.answer]
  · rw [if_pos done] at effect
    simp only [State.settleMemory_frame, State.settleMemory_inbound, State.answerResult_frame, effect,
      State.offerDue_frame, State.restartFill_inbound]
    refine ⟨rfl, rfl, fun e left fill here => ?_, fun free => State.withdraw_inbound_of_not_granted free _,
      fun head rest granted queue => ?_⟩
    · exact State.withdrawn_of_mem_withdraw left (by simp [Inbound.isFill, fill, here])
    · rw [State.withdraw_inbound_of_granted granted queue]
      simp [Inbound.isFill]
  · rw [if_neg other] at effect
    simp [effect]

end Sys2Proof.Machine
end

