-- ==== Sys2Proof/Proofs/PortFormats.lean ====
section
/-! The bytes of the local port: the status byte that the fall of CS# latches (R163, R186) and the outcome record
(R188). -/

namespace Sys2Proof.Machine

variable {s : State}

/-! ### Packing bits into a byte -/

theorem bitOf_le_one (b : Bool) : bitOf b ≤ 1 := by
  cases b <;> decide

theorem StationState.code_lt_eight (st : StationState) : st.code < 8 := by
  cases st <;> decide

/-- The lowest three bits of a byte are the remainder by 8 of the number it carries. -/
theorem byteOf_and_seven (n : Nat) : (byteOf n &&& 0x07).toNat = n % 8 := by
  have low : (byteOf n &&& 0x07).toNat = (n % 256) % 8 :=
    (BitVec.toNat_and _ _).trans (Nat.and_two_pow_sub_one_eq_mod (n % 256) 3)
  omega

/-- A bit laid at place `i` of a number, above a part less than `2 ^ i`, is bit `i` of its byte. -/
theorem getLsbD_byteOf_packed {n i : Nat} {b : Bool} (low high : Nat) (inside : i < 8) (below : low < 2 ^ i)
    (packed : n = low + 2 ^ i * (bitOf b + 2 * high)) : (byteOf n).getLsbD i = b := by
  have shifted : n / 2 ^ i = bitOf b + 2 * high := by
    rw [packed, Nat.add_mul_div_left _ _ (Nat.two_pow_pos i), Nat.div_eq_of_lt below, Nat.zero_add]
  rw [byteOf, BitVec.getLsbD_ofNat, Nat.testBit_eq_decide_div_mod_eq, shifted, Nat.add_mul_mod_self_left]
  cases b <;> simp [bitOf, inside]

/-- Four flags laid above a three-bit code are bits 3 to 6 of the byte, and bit 7 is 0. -/
theorem getLsbD_byteOf_flags {n code : Nat} {p q r u : Bool} (below : code < 8)
    (packed : n = code + 8 * bitOf p + 16 * bitOf q + 32 * bitOf r + 64 * bitOf u) :
    (byteOf n).getLsbD 3 = p ∧ (byteOf n).getLsbD 4 = q ∧ (byteOf n).getLsbD 5 = r ∧ (byteOf n).getLsbD 6 = u
      ∧ (byteOf n).getLsbD 7 = false := by
  have hp := bitOf_le_one p
  have hq := bitOf_le_one q
  have hr := bitOf_le_one r
  have hu := bitOf_le_one u
  have top : bitOf false = 0 := rfl
  refine ⟨getLsbD_byteOf_packed code (bitOf q + 2 * bitOf r + 4 * bitOf u) ?_ ?_ ?_,
    getLsbD_byteOf_packed (code + 8 * bitOf p) (bitOf r + 2 * bitOf u) ?_ ?_ ?_,
    getLsbD_byteOf_packed (code + 8 * bitOf p + 16 * bitOf q) (bitOf u) ?_ ?_ ?_,
    getLsbD_byteOf_packed (code + 8 * bitOf p + 16 * bitOf q + 32 * bitOf r) 0 ?_ ?_ ?_,
    getLsbD_byteOf_packed n 0 ?_ ?_ ?_⟩ <;> omega

/-! ### The status byte (R186) -/

/-- Bits 2 to 0 of the status byte are the station state code. -/
theorem State.statusByteNow_and_seven (s : State) : (s.statusByteNow &&& 0x07).toNat = s.ctl.state.code := by
  have code := s.ctl.state.code_lt_eight
  rw [State.statusByteNow, byteOf_and_seven]
  omega

/-- Bits 7 to 3 of the status byte: one flag each, and 0 at the top. -/
theorem State.statusByteNow_getLsbD (s : State) :
    s.statusByteNow.getLsbD 3 = s.attention
      ∧ s.statusByteNow.getLsbD 4 = decide (Config.publicationLimit ≤ s.pub.queue.length)
      ∧ s.statusByteNow.getLsbD 5 = !s.report.outcomes.isEmpty
      ∧ s.statusByteNow.getLsbD 6 = !s.report.changes.isEmpty
      ∧ s.statusByteNow.getLsbD 7 = false :=
  getLsbD_byteOf_flags s.ctl.state.code_lt_eight rfl

/-! ### The fall of CS# (R162, R163) -/

/-- With RST# released and CS# high, the fall of CS# begins a selection and latches the status byte. -/
theorem exec_selectionStart (released : s.pins.rstAsserted = false) (high : s.port.selected = false) :
    exec .selectionStart s = .next { s with port :=
      { s.port with selected := true, statusByte := s.statusByteNow, cmd := .awaiting, response := [] } } := by
  rw [exec, execSelectionStart, State.openSelection, if_pos (by simp [released, high])]

/-- While a selection awaits its command, SDO carries what is shifted out before a command is taken. -/
theorem State.sdoByte_awaiting (selected : s.port.selected = true) (awaiting : s.port.cmd = .awaiting)
    (code : Byte) (k : Nat) : s.sdoByte code k = s.sdoBeforeTaken code k := by
  simp [State.sdoByte, selected, awaiting]

/-- The code byte shifts out the latched status byte (R163). -/
theorem State.sdoBeforeTaken_zero (s : State) (code : Byte) : s.sdoBeforeTaken code 0 = .byte s.port.statusByte := rfl

/-- The address bytes of READ shift out HOLD (R168). -/
theorem State.sdoBeforeTaken_read (s : State) {k : Nat} (h : 0 < k) : s.sdoBeforeTaken 0x02 k = .byte 0x00 := by
  rw [State.sdoBeforeTaken, if_neg (Nat.ne_of_gt h), if_pos rfl]

/-- Settles O46: the fall of CS# writes the port alone, the status byte it latches is read bit by bit through the lemmas
above, and the selection it begins awaits its command. -/
theorem selectionLatchesTheStatusByte : Obligations.SelectionLatchesTheStatusByte := by
  intro s released high
  obtain ⟨attn, full, outcome, change, top⟩ := s.statusByteNow_getLsbD
  refine ⟨_, exec_selectionStart released high, rfl, rfl, rfl, ?_, ?_, ?_, ?_, ?_, top, rfl, rfl, rfl,
    fun code => ?_, fun k later => ?_⟩
  · rw [s.statusByteNow_and_seven]
    cases s.ctl.state <;> rfl
  · rw [attn]
    simp [State.attention]
  · rw [full]
    exact decide_eq_true_iff
  · rw [outcome]
    simp
  · rw [change]
    simp
  · rw [State.sdoByte_awaiting rfl rfl, State.sdoBeforeTaken_zero]
  · rw [State.sdoByte_awaiting rfl rfl, State.sdoBeforeTaken_read _ later]

/-! ### The outcome record (R188) -/

/-- Settles O56: the kind code carries the marks of a tag and of a window; where a byte names a reason, the codes agree
reason by reason. -/
theorem outcomeRecordLayout : Obligations.OutcomeRecordLayout := by
  refine ⟨fun t w o _ => rfl, fun t w r _ => ?_, fun t w _ => rfl, fun t w p _ _ _ => rfl, fun t w _ => rfl,
    fun t w p _ _ => ⟨rfl, rfl, rfl⟩, fun w r _ => ?_, fun w _ => ⟨rfl, rfl⟩, fun st r => rfl, rfl⟩
  · cases r <;> rfl
  · cases r <;> rfl

end Sys2Proof.Machine
end

