-- ==== Sys2Proof/Proofs/Invariants.lean ====
section
/-! The invariants of the machine (R1, R103, R131): what holds of every next state, command by command, and the steps
that follow from it. -/

namespace Sys2Proof.Machine

variable {s t : State}

/-- `P` holds of the next state, where there is one. -/
def NextHolds (P : State → Prop) : Answer → Prop
  | .next t => P t
  | .fault _ => True
  | .refused _ => True

theorem NextHolds.of_next {P : State → Prop} {a : Answer} (h : NextHolds P a) (ht : a = .next t) : P t := by
  rwa [ht] at h

theorem NextHolds.imp {P Q : State → Prop} {a : Answer} (h : NextHolds P a) (hpq : ∀ t, P t → Q t) : NextHolds Q a := by
  cases a with
  | next t => exact hpq t h
  | fault _ => trivial
  | refused _ => trivial

theorem NextHolds.and {P Q : State → Prop} {a : Answer} (hp : NextHolds P a) (hq : NextHolds Q a) :
    NextHolds (fun t => P t ∧ Q t) a := by
  cases a with
  | next t => exact ⟨hp, hq⟩
  | fault _ => trivial
  | refused _ => trivial

/-- An operation made where `c` holds keeps what the state and the operation's result both have. -/
theorem holds_ite {P : State → Prop} {c : Prop} [Decidable c] {a b : State} (ha : c → P a) (hb : P b) :
    P (if c then a else b) := by
  split
  · exact ha ‹_›
  · exact hb

/-- What every command keeps, and one ct on an empty queue, is kept by a step. -/
theorem step_keeps {P : State → Prop} (command : ∀ (i : Instr) (u : State), P u → NextHolds P (exec i u))
    (queue : ∀ (u : State) (rest : List Instr), P u → P { u with pending := rest }) (time : ∀ u : State, P u → P u.tick)
    (h : P s) (ht : step s = .next t) : P t := by
  unfold step at ht
  split at ht
  · cases ht
    exact time s h
  · exact (command _ _ (queue s _ h)).of_next ht

/-! ### The limits of the spec -/

theorem State.Sound.withPending (h : s.Sound) (rest : List Instr) : State.Sound { s with pending := rest } := { h with }

theorem State.sound_reset : State.reset.Sound where
  mirror := ⟨Memory.wf_nil, by simp [State.reset], by simp [State.reset]⟩
  sched := ⟨by simp [State.reset], by simp [State.reset], by simp [State.reset]⟩
  report := ⟨by simp [State.reset], by simp [State.reset]⟩
  pubs := by simp [State.reset]
  guards := by simp [State.reset]
  guardCount := by simp [State.reset]
  positions := by simp [State.reset]
  holds := by simp [State.reset]
  census := rfl
  service := by simp [State.reset]
  served := by simp [State.reset]
  objections := Nat.zero_le _
  clean := Nat.zero_le _
  table := List.length_replicate
  roster := List.length_replicate
  copies := List.length_replicate
  latched := by simp [State.reset]

/-- The answer of a port command whose response is complete at once is sound. -/
theorem State.Sound.answer (h : s.Sound) (result : Result) (response : List Byte) : (s.answer result response).Sound :=
  h.withPort _

theorem State.Sound.answerResult (h : s.Sound) (result : Result) : (s.answerResult result).Sound := h.answer _ _

/-- The completion of a grant leaves a sound state. -/
theorem State.Sound.applicationComplete (h : s.Sound) : NextHolds State.Sound (execApplicationComplete s) := by
  unfold execApplicationComplete
  split
  · rename_i e rest _ queue
    split
    · refine ((State.Sound.applyEntry h e ?_).releaseMemory.reportApplied e).settleMemory
      have := h.mirror.inbound
      rw [queue, List.length_cons] at this
      omega
    · trivial
  · exact h

theorem State.Sound.zeroFillComplete (h : s.Sound) : NextHolds State.Sound (execZeroFillComplete s) := by
  unfold execZeroFillComplete
  split
  · split
    · exact (holds_ite (fun _ => h.zeroRanges.releaseMemory) h.zeroRanges.releaseMemory.zeroFilled).settleMemory
    · trivial
  · exact h

theorem State.Sound.fillReadComplete (h : s.Sound) : NextHolds State.Sound (execFillReadComplete s) := by
  unfold execFillReadComplete
  split
  · split
    · exact (h.storeChunk _).releaseMemory.settleMemory
    · trivial
  · exact h

theorem State.Sound.snapshotDelivered (h : s.Sound) : NextHolds State.Sound (execSnapshotDelivered s) := by
  unfold execSnapshotDelivered
  split
  · split
    · exact (h.releaseMemory.handBurst _ _ _).settleMemory
    · trivial
  · exact h

/-- Every command leaves a sound state sound: an operation that has its lemma, made where its guard holds. -/
theorem State.Sound.exec (h : s.Sound) : ∀ i : Instr, NextHolds State.Sound (exec i s)
  | .pinReset => State.sound_reset.withPending s.pending
  | .rstRelease _ _ => holds_ite (fun _ => { h with }) h
  | .synchronisationCondition => h.meetSync
  | .frameStart => h.senseStart
  | .frameEnd samples => h.endFrame samples
  | .verdictWindowEnd samples => h.endVerdict samples
  | .gapComplete => h.completeGap
  | .slotCycleRestart => h.restartCycle
  | .transmitOpportunity => h.takeOpportunity
  | .lostArbitration bit => h.loseArbitration bit
  | .lineFault bit => h.faultLine bit
  | .silenceLimit => h.reachSilence
  | .stuckLine => h.becomeStuck
  | .stuckRelease => h.freeLine
  | .announceTimerExpiry => h.expireAnnounce
  | .silenceTimerExpiry station => h.expireSilence station
  | .answerTimerExpiry => h.expireAnswer
  | .leaseExpiry window => h.expireLease window
  | .fetchTimerExpiry window => h.expireFetch window
  | .applicationComplete => h.applicationComplete
  | .zeroFillComplete => h.zeroFillComplete
  | .fillReadComplete => h.fillReadComplete
  | .snapshotDelivered => h.snapshotDelivered
  | .selectionStart => h.openSelection
  | .selectionEnd shifted => holds_ite (fun _ => (h.cutCommand shifted).closePort.arbitrate) h
  | .illegalCode _ => holds_ite (fun _ => h.answer _ _) h
  | .status => holds_ite (fun _ => { h.withPort { s.port with cmd := .complete, response := s.statusResponse } with
      report := ⟨h.report.outcomes, h.report.changes⟩ }) h
  | .read address => holds_ite (fun _ => h.beginRead address) h
  | .readOn => holds_ite (fun _ => h.beginRead _) h
  | .readDataByteOut => h.byteOut
  | .write _ => holds_ite (fun _ => h.withPort _) h
  | .writeOn => holds_ite (fun _ => h.withPort _) h
  | .writeDataByte data => holds_ite (fun _ => h.writeByte data) h
  | .claim window => holds_ite (fun _ => ((h.hostClaim window.toNat).answerResult _).settleMemory) h
  | .release window => holds_ite (fun _ => ((h.hostRelease window.toNat).answerResult _).settleMemory) h
  | .takeOutcome => holds_ite (fun _ => h.latchOutcome) h
  | .outcomeRemoval => holds_ite (fun _ => h.removeOutcome) h
  | .takeChanges => holds_ite (fun _ => h.latchChanges) h
  | .readRoster => holds_ite (fun _ => h.answer _ _) h
  | .readQueue window => holds_ite (fun _ => h.showQueue window.toNat) h
  | .refetch window => holds_ite (fun _ => ((h.hostRefetch window.toNat).answerResult _).settleMemory) h
  | .loadEntry index _ _ _ _ _ _ _ =>
    holds_ite (fun _ => State.Sound.arbitrate ((h.hostLoad index.toNat _).answerResult _)) h
  | .readEntry index => holds_ite (fun _ => h.showEntry index.toNat) h
  | .start => holds_ite (fun _ => h.hostStart.arbitrate) h
  | .leave => holds_ite (fun _ => (h.hostLeave.answerResult _).settleMemory) h
  | .strayDominantLevel => h.strayLevel

end Sys2Proof.Machine
end

