-- ==== Sys2Proof/Proofs/Agreement.lean ====
section
/-! The agreement of holds, line and fill points with the queues (R45, R81, R103, R131), kept by every step. -/

namespace Sys2Proof.Machine

variable {s t : State}

theorem State.selected_of_portReady (h : s.portReady = true) : s.port.selected = true :=
  (Bool.and_eq_true_iff.1 h).1

@[simp] theorem State.byteOut_selected (s : State) : s.byteOut.port.selected = s.port.selected := by
  unfold State.byteOut
  split
  · split <;> rfl
  · rfl

@[simp] theorem State.latchOutcome_selected (s : State) : s.latchOutcome.port.selected = s.port.selected := by
  unfold State.latchOutcome
  split <;> rfl

/-! ### Holds -/

theorem State.holdsAgree_reset : State.reset.HoldsAgree where
  reset _ := ⟨rfl, rfl⟩
  number := Nat.zero_lt_succ _
  founding := by simp [State.reset]
  heads := by simp [State.reset]
  outside := by simp [State.reset]
  quiet := by simp [State.reset]
  claims := by simp [State.reset]
  windows := by simp [State.reset]
  unsent := by simp [State.reset]
  inflight := by simp [State.reset]

theorem State.HoldsAgree.withPending (h : s.HoldsAgree) (rest : List Instr) :
    State.HoldsAgree { s with pending := rest } := h.of_view rfl

/-- The release of RST# leaves the station STOPPED, where holds agree (R148). -/
theorem State.HoldsAgree.rstRelease (h : s.HoldsAgree) (id : BitVec 5) (rate : BitVec 2) :
    NextHolds State.HoldsAgree (execRstRelease id rate s) := by
  refine holds_ite (P := State.HoldsAgree) (fun asserted => ?_) h
  obtain ⟨stopped, unselected⟩ := h.reset asserted
  exact
    { reset := fun _ => ⟨stopped, unselected⟩
      number := id.isLt
      founding := h.founding
      heads := fun active => absurd (stopped.symm.trans active) (by decide)
      outside := fun early => absurd early (by simp [stopped])
      quiet := fun running => absurd stopped running
      claims := fun running => absurd stopped running
      windows := fun running => absurd stopped running
      unsent := fun running => absurd stopped running
      inflight := fun running => absurd stopped running }

theorem State.HoldsAgree.answerResult (h : s.HoldsAgree) (result : Result) : (s.answerResult result).HoldsAgree :=
  h.answer _ _

theorem State.HoldsAgree.applicationComplete (h : s.HoldsAgree) :
    NextHolds State.HoldsAgree (execApplicationComplete s) := by
  unfold execApplicationComplete
  split
  · split
    · exact ((State.HoldsAgree.applyEntry h _ _).releaseMemory.reportApplied _).settleMemory
    · trivial
  · exact h

theorem State.HoldsAgree.zeroFillComplete (h : s.HoldsAgree) : NextHolds State.HoldsAgree (execZeroFillComplete s) := by
  unfold execZeroFillComplete
  split
  · split
    · exact (holds_ite (fun _ => h.zeroRanges.releaseMemory) h.zeroRanges.releaseMemory.zeroFilled).settleMemory
    · trivial
  · exact h

theorem State.HoldsAgree.fillReadComplete (h : s.HoldsAgree) : NextHolds State.HoldsAgree (execFillReadComplete s) := by
  unfold execFillReadComplete
  split
  · split
    · exact (h.storeChunk _).releaseMemory.settleMemory
    · trivial
  · exact h

theorem State.HoldsAgree.snapshotDelivered (h : s.HoldsAgree) :
    NextHolds State.HoldsAgree (execSnapshotDelivered s) := by
  unfold execSnapshotDelivered
  split
  · split
    · exact (h.releaseMemory.handBurst _ _ _).settleMemory
    · trivial
  · exact h

/-- Every command keeps the holds in agreement with the claim queues. -/
theorem State.HoldsAgree.exec (h : s.HoldsAgree) (hs : s.Sound) (hl : s.LineAgrees) :
    ∀ i : Instr, NextHolds State.HoldsAgree (exec i s)
  | .pinReset => State.holdsAgree_reset.withPending s.pending
  | .rstRelease id rate => h.rstRelease id rate
  | .synchronisationCondition => h.meetSync
  | .frameStart => h.senseStart
  | .frameEnd samples => h.endFrame samples
  | .verdictWindowEnd samples => h.endVerdict hs hl samples
  | .gapComplete => h.completeGap
  | .slotCycleRestart => h.restartCycle
  | .transmitOpportunity => h.takeOpportunity
  | .lostArbitration bit => h.loseArbitration bit
  | .lineFault bit => h.faultLine bit
  | .silenceLimit => h.reachSilence
  | .stuckLine => h.becomeStuck
  | .stuckRelease => h.freeLine
  | .announceTimerExpiry => h.expireAnnounce
  | .silenceTimerExpiry station => h.expireSilence station
  | .answerTimerExpiry => h.expireAnswer hs
  | .leaseExpiry window => h.expireLease hs window
  | .fetchTimerExpiry window => h.expireFetch window
  | .applicationComplete => h.applicationComplete
  | .zeroFillComplete => h.zeroFillComplete
  | .fillReadComplete => h.fillReadComplete
  | .snapshotDelivered => h.snapshotDelivered
  | .selectionStart => h.openSelection
  | .selectionEnd shifted => holds_ite (fun _ => State.HoldsAgree.arbitrate (h.cutCommand shifted).closePort) h
  | .illegalCode _ => holds_ite (fun _ => h.answer _ _) h
  | .status => holds_ite (fun _ => h.of_view rfl) h
  | .read address => holds_ite (fun _ => h.beginRead address) h
  | .readOn => holds_ite (fun _ => h.beginRead _) h
  | .readDataByteOut => h.of_view (by simp [State.holdsView])
  | .write _ => holds_ite (fun _ => h.of_view rfl) h
  | .writeOn => holds_ite (fun _ => h.of_view rfl) h
  | .writeDataByte data => holds_ite (fun _ => h.writeByte data) h
  | .claim window => holds_ite (fun _ => ((h.hostClaim hs window.toNat).answerResult _).settleMemory) h
  | .release window => holds_ite (fun _ => ((h.hostRelease window.toNat).answerResult _).settleMemory) h
  | .takeOutcome => holds_ite (fun _ => h.of_view (by simp [State.holdsView])) h
  | .outcomeRemoval => holds_ite (fun _ => h.of_view rfl) h
  | .takeChanges => holds_ite (fun _ => h.of_view rfl) h
  | .readRoster => holds_ite (fun _ => h.answer _ _) h
  | .readQueue _ => holds_ite (fun _ => holds_ite (fun _ => h.answer _ _) (h.answer _ _)) h
  | .refetch window => holds_ite (fun _ => ((h.hostRefetch window.toNat).answerResult _).settleMemory) h
  | .loadEntry index _ _ _ _ _ _ _ =>
    holds_ite (fun _ => State.HoldsAgree.arbitrate ((h.hostLoad index.toNat _).answerResult _)) h
  | .readEntry _ => holds_ite (fun _ => holds_ite (fun _ => h.answer _ _) (h.answer _ _)) h
  | .start => holds_ite (fun ready => (h.hostStart (State.selected_of_portReady ready)).arbitrate) h
  | .leave => holds_ite (fun _ => (h.hostLeave.answerResult _).settleMemory) h
  | .strayDominantLevel => h.strayLevel

/-! ### The line, the frame heard and the fill points -/

theorem State.lineAgrees_reset : State.reset.LineAgrees where
  halted _ := rfl
  driving := by simp [State.reset, Line.reset]
  sent := by simp [State.reset, Line.reset]

theorem State.heardAgrees_reset : State.reset.HeardAgrees := .of_not_verdict (by simp [State.reset, Line.reset])

theorem State.pointsAgree_reset : State.reset.PointsAgree := .of_stopped rfl

/-- What the agreement of the line, of the frame heard and of the fill points is read from. -/
structure State.SameAgreement (s t : State) : Prop where
  line : t.line = s.line
  rx : t.rx = s.rx
  ctl : t.ctl = s.ctl
  layout : t.layout = s.layout
  roster : t.roster = s.roster
  refresh : t.refresh = s.refresh
  inbound : t.mirror.inbound = s.mirror.inbound
  flight : t.sched.inflight = s.sched.inflight

theorem State.SameAgreement.lineAgrees (e : s.SameAgreement t) (h : s.LineAgrees) : t.LineAgrees :=
  h.of_units e.ctl e.line e.rx e.flight

theorem State.SameAgreement.heardAgrees (e : s.SameAgreement t) (h : s.HeardAgrees) : t.HeardAgrees :=
  h.of_units e.line e.rx e.ctl e.layout (State.status_of_roster e.roster)

theorem State.SameAgreement.pointsAgree (e : s.SameAgreement t) (h : s.PointsAgree) : t.PointsAgree :=
  h.of_units (congrArg _ e.ctl) e.layout e.refresh e.inbound e.flight

theorem State.SameAgreement.refl (s : State) : s.SameAgreement s := ⟨rfl, rfl, rfl, rfl, rfl, rfl, rfl, rfl⟩

/-- The commands that leave what agreement is read from: the completed reads of memory, and the port but for REFETCH,
LOAD ENTRY, START and LEAVE. -/
def keepsAgreement : Instr → Bool
  | .fillReadComplete | .snapshotDelivered | .selectionStart | .selectionEnd _ | .illegalCode _ | .status | .read _
  | .readOn | .readDataByteOut | .write _ | .writeOn | .writeDataByte _ | .claim _ | .release _ | .takeOutcome
  | .outcomeRemoval | .takeChanges | .readRoster | .readQueue _ | .readEntry _ => true
  | _ => false

@[simp] theorem State.cutCommand_inbound (s : State) (shifted : Nat) :
    (s.cutCommand shifted).mirror.inbound = s.mirror.inbound := by
  unfold State.cutCommand
  (repeat' split) <;> rfl

@[simp] theorem State.beginRead_inbound (s : State) (first : Word) :
    (s.beginRead first).mirror.inbound = s.mirror.inbound := by
  unfold State.beginRead
  (repeat' split) <;> simp [State.requestSnapshot]

@[simp] theorem State.releaseMemory_inbound (s : State) : s.releaseMemory.mirror.inbound = s.mirror.inbound := rfl

@[simp] theorem State.storeChunk_inflight (s : State) (r : FillRead) :
    (s.storeChunk r).sched.inflight = s.sched.inflight := by
  unfold State.storeChunk
  split <;> rfl

theorem State.sameAgreement_fillReadComplete (s : State) : NextHolds s.SameAgreement (execFillReadComplete s) := by
  unfold execFillReadComplete
  split
  · split
    · constructor <;> simp
    · trivial
  · exact .refl s

theorem State.sameAgreement_snapshotDelivered (s : State) : NextHolds s.SameAgreement (execSnapshotDelivered s) := by
  unfold execSnapshotDelivered
  split
  · split
    · constructor <;> simp
    · trivial
  · exact .refl s

/-- A command of the port, taken where its guard holds and ended with an answer, leaves what agreement is read from. -/
theorem State.SameAgreement.settled (e : s.SameAgreement t) (result : Result) :
    s.SameAgreement (t.answerResult result).settleMemory := by
  constructor <;> simp [e.line, e.rx, e.ctl, e.layout, e.roster, e.refresh, e.inbound, e.flight]

theorem exec_sameAgreement {i : Instr} (hi : keepsAgreement i = true) : NextHolds s.SameAgreement (exec i s) := by
  cases i with
  | fillReadComplete => exact s.sameAgreement_fillReadComplete
  | snapshotDelivered => exact s.sameAgreement_snapshotDelivered
  | selectionStart => exact (by constructor <;> simp : s.SameAgreement s.openSelection)
  | readDataByteOut => exact (by constructor <;> simp : s.SameAgreement s.byteOut)
  | claim window => exact holds_ite (fun _ => State.SameAgreement.settled (by constructor <;> simp) _) (.refl s)
  | release window => exact holds_ite (fun _ => State.SameAgreement.settled (by constructor <;> simp) _) (.refl s)
  | selectionEnd | illegalCode | status | read | readOn | write | writeOn | writeDataByte | takeOutcome | outcomeRemoval
  | takeChanges | readRoster | readQueue | readEntry =>
    exact holds_ite (fun _ => by constructor <;> simp) (.refl s)
  | _ => cases hi

end Sys2Proof.Machine
end

