-- ==== Sys2Proof/Proofs/EveryStep.lean ====
section
/-! Every step keeps the state sound, its holds, line and fill points in agreement with the queues, and a driven line to
members (R1, R45, R81, R103, R131, R143). -/

namespace Sys2Proof.Machine

variable {s t : State}

/-- The pending commands are no part of what agreement is read from. -/
theorem State.sameAgreement_withPending (s : State) (rest : List Instr) :
    s.SameAgreement { s with pending := rest } := ⟨rfl, rfl, rfl, rfl, rfl, rfl, rfl, rfl⟩

theorem State.sameAgreement_answered (t : State) (result : Result) :
    t.SameAgreement (t.answerResult result).settleMemory := (State.SameAgreement.refl t).settled result

theorem State.sameAgreement_settleMemory (t : State) : t.SameAgreement t.settleMemory := by
  constructor <;> simp

theorem State.sameAgreement_arbitrate (t : State) : t.SameAgreement t.arbitrate := by
  constructor <;> simp

theorem State.sameAgreement_answerArbitrate (t : State) (result : Result) :
    t.SameAgreement (t.answerResult result).arbitrate := by
  constructor <;> simp

/-! ### The line -/

theorem State.LineAgrees.applicationComplete (h : s.LineAgrees) :
    NextHolds State.LineAgrees (execApplicationComplete s) := by
  unfold execApplicationComplete
  split
  · split
    · exact h.of_units (by simp) (by simp) (by simp) (by simp)
    · trivial
  · exact h

theorem State.LineAgrees.zeroFillComplete (h : s.LineAgrees) : NextHolds State.LineAgrees (execZeroFillComplete s) := by
  have zeroed : s.zeroRanges.releaseMemory.LineAgrees := h.of_units rfl rfl rfl rfl
  have filled : s.zeroRanges.releaseMemory.zeroFilled.LineAgrees :=
    zeroed.of_units (by simp) (by simp) (by simp) (by simp)
  unfold execZeroFillComplete
  split
  · split
    · exact (State.sameAgreement_settleMemory _).lineAgrees (holds_ite (fun _ => zeroed) filled)
    · trivial
  · exact h

/-- Every command keeps the frame on the line that in flight. -/
theorem State.LineAgrees.exec (h : s.LineAgrees) (i : Instr) : NextHolds State.LineAgrees (exec i s) := by
  cases i with
  | pinReset => exact (State.reset.sameAgreement_withPending s.pending).lineAgrees State.lineAgrees_reset
  | rstRelease id rate => exact holds_ite (P := State.LineAgrees) (fun _ => h.of_units rfl rfl rfl rfl) h
  | synchronisationCondition => exact h.meetSync
  | frameStart => exact h.senseStart
  | frameEnd samples => exact h.endFrame samples
  | verdictWindowEnd samples => exact h.endVerdict samples
  | gapComplete => exact h.completeGap
  | slotCycleRestart => exact h.restartCycle
  | transmitOpportunity => exact h.takeOpportunity
  | lostArbitration bit => exact h.loseArbitration bit
  | lineFault bit => exact h.faultLine bit
  | silenceLimit => exact h.reachSilence
  | stuckLine => exact h.becomeStuck
  | stuckRelease => exact h.freeLine
  | announceTimerExpiry => exact h.expireAnnounce
  | silenceTimerExpiry station => exact h.expireSilence station
  | answerTimerExpiry => exact h.expireAnswer
  | leaseExpiry window => exact h.expireLease window
  | fetchTimerExpiry window => exact h.expireFetch window
  | applicationComplete => exact h.applicationComplete
  | zeroFillComplete => exact h.zeroFillComplete
  | refetch window =>
    exact holds_ite (fun _ => (State.sameAgreement_answered _ _).lineAgrees
      (h.of_units (by simp) (by simp) (by simp) (by simp))) h
  | loadEntry =>
    exact holds_ite (fun _ => (State.sameAgreement_answerArbitrate _ _).lineAgrees
      (h.of_units (by simp) (by simp) (by simp) (by simp))) h
  | start => exact holds_ite (fun _ => (State.sameAgreement_arbitrate _).lineAgrees h.hostStart) h
  | leave => exact holds_ite (fun _ => (State.sameAgreement_answered _ _).lineAgrees h.hostLeave) h
  | strayDominantLevel => exact h.strayLevel
  | fillReadComplete | snapshotDelivered | selectionStart | selectionEnd | illegalCode | status | read | readOn
  | readDataByteOut | write | writeOn | writeDataByte | claim | release | takeOutcome | outcomeRemoval | takeChanges
  | readRoster | readQueue | readEntry => exact (exec_sameAgreement (s := s) rfl).imp fun _ e => e.lineAgrees h

/-! ### The frame heard -/

theorem State.HeardAgrees.applicationComplete (h : s.HeardAgrees) :
    NextHolds State.HeardAgrees (execApplicationComplete s) := by
  unfold execApplicationComplete
  split
  · split
    · exact h.of_units (by simp) (by simp) (by simp) (by simp) (State.status_of_roster (by simp))
    · trivial
  · exact h

theorem State.HeardAgrees.zeroFillComplete (h : s.HeardAgrees) :
    NextHolds State.HeardAgrees (execZeroFillComplete s) := by
  have zeroed : s.zeroRanges.releaseMemory.HeardAgrees := h.of_units rfl rfl rfl rfl fun _ => rfl
  have filled : s.zeroRanges.releaseMemory.zeroFilled.HeardAgrees :=
    zeroed.of_units (by simp) (by simp) (by simp) (by simp) (State.status_of_roster (by simp))
  unfold execZeroFillComplete
  split
  · split
    · exact (State.sameAgreement_settleMemory _).heardAgrees (holds_ite (fun _ => zeroed) filled)
    · trivial
  · exact h

/-- Every command keeps the frame heard without an objection within the second tier. -/
theorem State.HeardAgrees.exec (h : s.HeardAgrees) (hl : s.LineAgrees) (i : Instr) :
    NextHolds State.HeardAgrees (exec i s) := by
  cases i with
  | pinReset => exact (State.reset.sameAgreement_withPending s.pending).heardAgrees State.heardAgrees_reset
  | rstRelease id rate => exact holds_ite (P := State.HeardAgrees) (fun _ => h.of_units rfl rfl rfl rfl fun _ => rfl) h
  | synchronisationCondition => exact h.meetSync
  | frameStart => exact h.senseStart
  | frameEnd samples => exact h.endFrame samples
  | verdictWindowEnd samples => exact h.endVerdict samples
  | gapComplete => exact h.completeGap
  | slotCycleRestart => exact h.restartCycle
  | transmitOpportunity => exact h.takeOpportunity
  | lostArbitration bit => exact h.loseArbitration hl bit
  | lineFault bit => exact h.faultLine hl bit
  | silenceLimit => exact h.reachSilence
  | stuckLine => exact h.becomeStuck
  | stuckRelease => exact h.freeLine
  | announceTimerExpiry => exact h.expireAnnounce
  | silenceTimerExpiry station => exact h.expireSilence station
  | answerTimerExpiry => exact h.expireAnswer hl
  | leaseExpiry window => exact h.expireLease window
  | fetchTimerExpiry window => exact h.expireFetch window
  | applicationComplete => exact h.applicationComplete
  | zeroFillComplete => exact h.zeroFillComplete
  | refetch window =>
    exact holds_ite (fun _ => (State.sameAgreement_answered _ _).heardAgrees
      (h.of_units (by simp) (by simp) (by simp) (by simp) (State.status_of_roster (by simp)))) h
  | loadEntry index =>
    exact holds_ite (fun _ => (State.sameAgreement_answerArbitrate _ _).heardAgrees (h.hostLoad hl index.toNat _)) h
  | start => exact holds_ite (fun _ => (State.sameAgreement_arbitrate _).heardAgrees h.hostStart) h
  | leave => exact holds_ite (fun _ => (State.sameAgreement_answered _ _).heardAgrees h.hostLeave) h
  | strayDominantLevel => exact h.strayLevel
  | fillReadComplete | snapshotDelivered | selectionStart | selectionEnd | illegalCode | status | read | readOn
  | readDataByteOut | write | writeOn | writeDataByte | claim | release | takeOutcome | outcomeRemoval | takeChanges
  | readRoster | readQueue | readEntry => exact (exec_sameAgreement (s := s) rfl).imp fun _ e => e.heardAgrees h

/-! ### The fill points -/

theorem State.PointsAgree.applicationComplete (h : s.PointsAgree) (hs : s.Sound) :
    NextHolds State.PointsAgree (execApplicationComplete s) := by
  unfold execApplicationComplete
  split
  · rename_i queue
    split
    · exact (h.applied hs queue).settleMemory
    · trivial
  · exact h

/-- The completed zero-fill makes the copies FRESH where no FILL taken stands in the inbound queue (R143). -/
theorem State.PointsAgree.zeroFillComplete (h : s.PointsAgree) (hs : s.Sound) (spared : s.Spared) :
    NextHolds State.PointsAgree (execZeroFillComplete s) := by
  have zeroed : s.zeroRanges.releaseMemory.PointsAgree := h.of_units rfl rfl rfl rfl rfl
  unfold execZeroFillComplete
  split
  · rename_i ended granted
    split
    · refine State.PointsAgree.settleMemory ?_
      split
      · exact zeroed
      · rename_i founding
        rw [Bool.not_eq_true] at founding
        exact zeroed.zeroFilled hs.zeroRanges.releaseMemory fun _ => spared (.inr (founding ▸ granted))
    · trivial
  · exact h

/-- Every command keeps the fill points in agreement with the inbound queue, where R143 spares a founding zero-fill. -/
theorem State.PointsAgree.exec (h : s.PointsAgree) (hs : s.Sound) (ha : s.HoldsAgree) (hl : s.LineAgrees)
    (hh : s.HeardAgrees) (spared : s.Spared) (i : Instr) : NextHolds State.PointsAgree (exec i s) := by
  cases i with
  | pinReset => exact (State.reset.sameAgreement_withPending s.pending).pointsAgree State.pointsAgree_reset
  | rstRelease id rate => exact holds_ite (P := State.PointsAgree) (fun _ => h.of_units rfl rfl rfl rfl rfl) h
  | synchronisationCondition => exact h.meetSync
  | frameStart => exact h.senseStart
  | frameEnd samples => exact h.endFrame samples
  | verdictWindowEnd samples => exact h.endVerdict hs ha hl hh samples
  | gapComplete => exact h.completeGap
  | slotCycleRestart => exact h.restartCycle
  | transmitOpportunity => exact h.takeOpportunity
  | lostArbitration bit => exact h.loseArbitration bit
  | lineFault bit => exact h.faultLine hs bit
  | silenceLimit => exact h.reachSilence
  | stuckLine => exact h.becomeStuck
  | stuckRelease => exact h.freeLine
  | announceTimerExpiry => exact h.expireAnnounce
  | silenceTimerExpiry station => exact h.expireSilence station
  | answerTimerExpiry => exact h.expireAnswer
  | leaseExpiry window => exact h.expireLease window
  | fetchTimerExpiry window => exact h.expireFetch hs window
  | applicationComplete => exact h.applicationComplete hs
  | zeroFillComplete => exact h.zeroFillComplete hs spared
  | refetch window =>
    exact holds_ite (fun _ => (State.sameAgreement_answered _ _).pointsAgree (h.hostRefetch hs window.toNat)) h
  | loadEntry index =>
    exact holds_ite (fun _ => (State.sameAgreement_answerArbitrate _ _).pointsAgree (h.hostLoad index.toNat _)) h
  | start => exact holds_ite (fun _ => (State.sameAgreement_arbitrate _).pointsAgree h.hostStart) h
  | leave => exact holds_ite (fun _ => (State.sameAgreement_answered _ _).pointsAgree h.hostLeave) h
  | strayDominantLevel => exact h.strayLevel
  | fillReadComplete | snapshotDelivered | selectionStart | selectionEnd | illegalCode | status | read | readOn
  | readDataByteOut | write | writeOn | writeDataByte | claim | release | takeOutcome | outcomeRemoval | takeChanges
  | readRoster | readQueue | readEntry => exact (exec_sameAgreement (s := s) rfl).imp fun _ e => e.pointsAgree h

/-! ### The obligations -/

/-- Settles O3, unit by unit at the values of the reset state. -/
theorem resetStateIsSound : Obligations.ResetStateIsSound :=
  ⟨State.sound_reset, State.holdsAgree_reset, State.lineAgrees_reset, State.heardAgrees_reset, State.pointsAgree_reset⟩

/-- Settles O4: every command keeps each invariant, given those before it, and so does one ct on an empty queue. -/
theorem stepKeepsTheStateSound : Obligations.StepKeepsTheStateSound := by
  refine ⟨fun s t sound next => ?_, fun s t sound holds line next => ?_,
    fun s t sound holds line heard points spared next => ?_⟩
  · exact step_keeps (fun i u h => h.exec i) (fun u rest h => h.withPending rest) (fun u h => h.tick) sound next
  · exact (step_keeps (P := fun u => u.Sound ∧ u.HoldsAgree ∧ u.LineAgrees)
      (fun i u ⟨hs, ha, hl⟩ => (hs.exec i).and ((ha.exec hs hl i).and (hl.exec i)))
      (fun u rest ⟨hs, ha, hl⟩ => ⟨hs.withPending rest, ha.withPending rest,
        (u.sameAgreement_withPending rest).lineAgrees hl⟩)
      (fun u ⟨hs, ha, hl⟩ => ⟨hs.tick, ha.tick hs hl, hl.tick⟩) ⟨sound, holds, line⟩ next).2
  · unfold step at next
    split at next
    · cases next
      exact ⟨heard.tick line, points.tick sound holds line heard⟩
    · rename_i c rest _
      have same := s.sameAgreement_withPending rest
      exact (((same.heardAgrees heard).exec (same.lineAgrees line) c).and
        ((same.pointsAgree points).exec (sound.withPending rest) (holds.withPending rest) (same.lineAgrees line)
          (same.heardAgrees heard) spared c)).of_next next

end Sys2Proof.Machine
end

