-- ==== Sys2Proof/Proofs/Driving.lean ====
section
/-! Only a member drives a frame (R1, R10): the operations that put a frame on the line are a member's, and a station that
leaves the members leaves the line. -/

namespace Sys2Proof.Machine

variable {s t : State}

namespace State.TransmitsAsMember

/-- A station that transmits no new frame, and is a member where it was one. -/
theorem of_state (h : s.TransmitsAsMember) (hl : t.line.state = .transmitting → s.line.state = .transmitting)
    (hm : s.isMember = true → t.isMember = true) : t.TransmitsAsMember :=
  fun driving => hm (h (hl driving))

theorem of_units (h : s.TransmitsAsMember) (hl : t.line.state = s.line.state) (hc : t.ctl = s.ctl) :
    t.TransmitsAsMember :=
  h.of_state (fun driving => hl ▸ driving) (fun member => by rwa [State.isMember, hc])

theorem of_not_transmitting (h : t.line.state ≠ .transmitting) : t.TransmitsAsMember := fun driving => absurd driving h

/-- A state change of a station with nothing on the line puts nothing on it. -/
theorem of_offLine (h : t.OffLine) : t.TransmitsAsMember := of_not_transmitting h.frame

theorem of_sameAgreement (h : s.TransmitsAsMember) (e : s.SameAgreement t) : t.TransmitsAsMember :=
  h.of_units (congrArg _ e.line) e.ctl

/-! ### The line -/

theorem meetSync (h : s.TransmitsAsMember) : s.meetSync.TransmitsAsMember := by
  unfold State.meetSync
  exact holds_ite (P := State.TransmitsAsMember) (fun _ => h.of_units rfl rfl) h

theorem completeGap (h : s.TransmitsAsMember) : s.completeGap.TransmitsAsMember := by
  unfold State.completeGap
  split
  · refine of_not_transmitting ?_
    dsimp only
    split
    · simp [Line.beginSlots]
    · simp_all
  · exact h

theorem restartCycle (h : s.TransmitsAsMember) : s.restartCycle.TransmitsAsMember := by
  unfold State.restartCycle
  exact holds_ite (P := State.TransmitsAsMember) (fun _ => h.of_units rfl rfl) h

theorem strayLevel (h : s.TransmitsAsMember) : s.strayLevel.TransmitsAsMember := by
  unfold State.strayLevel
  exact holds_ite (P := State.TransmitsAsMember) (fun _ => h.of_units rfl rfl)
    (holds_ite (P := State.TransmitsAsMember) (fun _ => h.of_units rfl rfl) h)

theorem senseStart (h : s.TransmitsAsMember) : s.senseStart.TransmitsAsMember := by
  unfold State.senseStart
  exact holds_ite (fun _ => of_not_transmitting (by simp [State.beginReceiving])) h.strayLevel

theorem becomeStuck (h : s.TransmitsAsMember) : s.becomeStuck.TransmitsAsMember := by
  unfold State.becomeStuck
  exact holds_ite (fun _ => of_not_transmitting (by simp)) h

theorem freeLine (h : s.TransmitsAsMember) : s.freeLine.TransmitsAsMember := by
  unfold State.freeLine
  split
  · refine of_not_transmitting ?_
    dsimp only
    split <;> simp [Line.beginSlots]
  · exact h

theorem reachSilence (h : s.TransmitsAsMember) : s.reachSilence.TransmitsAsMember := by
  unfold State.reachSilence
  split
  · refine of_not_transmitting ?_
    dsimp only
    split <;> simp [Line.beginSlots]
  · exact h

theorem endFrame (h : s.TransmitsAsMember) (samples : List CharSamples) : (s.endFrame samples).TransmitsAsMember := by
  unfold State.endFrame
  (repeat' split)
  · exact of_not_transmitting (by simp [State.beginVerdict])
  · exact of_not_transmitting (by simp [State.beginVerdict])
  · exact h
  · exact h

theorem endVerdict (h : s.TransmitsAsMember) (samples : BitVec 20) : (s.endVerdict samples).TransmitsAsMember := by
  unfold State.endVerdict
  (repeat' split)
  · exact of_offLine (.endWindow s _ samples)
  · exact h
  · exact h

/-- The opportunity is a member's, and it leaves the station state (R10). -/
theorem takeOpportunity (h : s.TransmitsAsMember) : s.takeOpportunity.TransmitsAsMember := by
  by_cases may : s.mayTransmit = true
  · have member : s.isMember = true := by
      simp only [State.mayTransmit, Bool.and_eq_true] at may
      exact may.1.1.1.1
    exact fun _ => by simpa [State.isMember] using member
  · rwa [State.takeOpportunity, if_neg may]

/-- A station that drives a frame and withdraws it has nothing on the line (R11, R12). -/
theorem withdrawFrame_offLine (h : s.TransmitsAsMember) (driving : s.line.state = .transmitting) :
    s.withdrawFrame.OffLine where
  frame := by simp [State.withdrawFrame]
  window := by simp [State.withdrawFrame]
  halted stopped := by
    have stopped : s.ctl.state = .stopped := stopped
    have member := h driving
    simp [State.isMember, stopped, StationState.isMember] at member

theorem loseArbitration (h : s.TransmitsAsMember) (bit : Nat) : (s.loseArbitration bit).TransmitsAsMember := by
  unfold State.loseArbitration
  split
  · exact of_offLine
      (h.withdrawFrame_offLine (State.LineAgrees.drives_transmitting ‹_›)).reportLost.offerDue.settleMemory
  · exact h

theorem faultLine (h : s.TransmitsAsMember) (bit : Nat) : (s.faultLine bit).TransmitsAsMember := by
  unfold State.faultLine
  split
  · exact of_offLine
      ((h.withdrawFrame_offLine (State.LineAgrees.drives_transmitting ‹_›)).reportFailed true).offerDue.settleMemory
  · exact h

/-! ### Timers -/

/-- The founding test leaves a joiner a member (R153, R154). -/
theorem isMember_foundingTest (h : s.isMember = true) : s.foundingTest.isMember = true := by
  unfold State.foundingTest
  split
  · simp [State.found, State.isMember, StationState.isMember]
  · exact h

theorem expireAnswer (h : s.TransmitsAsMember) : s.expireAnswer.TransmitsAsMember := by
  have tested : s.foundingTest.TransmitsAsMember :=
    h.of_state (fun driving => by simpa using driving) isMember_foundingTest
  unfold State.expireAnswer
  (repeat' split)
  · exact h.of_state id id
  · exact tested.of_units (by simp) (by simp)
  · exact h

theorem tickAnswer (h : s.TransmitsAsMember) : s.tickAnswer.TransmitsAsMember := by
  unfold State.tickAnswer
  exact holds_ite (P := State.TransmitsAsMember) (fun _ => h.expireAnswer) (h.of_state id id)

theorem tickTimers (h : s.TransmitsAsMember) : s.tickTimers.TransmitsAsMember :=
  State.tickTimers_preserves State.TransmitsAsMember (fun _ h => h.of_units (by simp) (by simp))
    (fun _ _ h => h.of_units (by simp) (by simp)) (fun _ h => h.tickAnswer)
    (fun _ _ h => h.of_units (by simp) (by simp)) (fun _ _ h => h.of_units (by simp) (by simp)) h

theorem tickIdle (h : s.TransmitsAsMember) : s.tickIdle.TransmitsAsMember := by
  have counted : State.TransmitsAsMember
      { s with line.count := s.line.count + 1, line.silence := s.line.silence + 1 } := h.of_units rfl rfl
  have gapped (c : Prop) [Decidable c] : State.TransmitsAsMember (if c then State.completeGap _ else _) :=
    holds_ite (fun _ => counted.meetSync.completeGap) counted.meetSync
  exact holds_ite (fun _ => (gapped _).reachSilence) (gapped _)

theorem tickSlot (h : s.TransmitsAsMember) : s.tickSlot.TransmitsAsMember := by
  unfold State.tickSlot
  have offered := holds_ite (P := State.TransmitsAsMember)
    (c := (!s.line.offered && s.ownSlot == some s.line.slot) = true) (fun _ => h.takeOpportunity) h
  exact holds_ite (P := State.TransmitsAsMember) (fun _ => offered.of_units rfl rfl)
    (holds_ite (P := State.TransmitsAsMember) (fun _ => offered.restartCycle) (offered.of_units rfl rfl))

theorem tickFrame (h : s.TransmitsAsMember) : s.tickFrame.TransmitsAsMember := by
  have sent : State.TransmitsAsMember { s with line.count := s.line.count + 1 } := h.of_units rfl rfl
  unfold State.tickFrame
  dsimp only
  split
  · exact holds_ite (fun _ => sent.endFrame []) sent
  · exact sent

theorem tickLine (h : s.TransmitsAsMember) : s.tickLine.TransmitsAsMember := by
  have counted : State.TransmitsAsMember
      { s with line.count := s.line.count + 1, line.silence := s.line.silence + 1 } := h.of_units rfl rfl
  unfold State.tickLine
  split
  · exact h.tickIdle
  · exact h.tickSlot
  · exact h
  · exact h.tickFrame
  · exact holds_ite (fun _ => counted.endVerdict allRecessive) counted
  · exact holds_ite (fun _ => counted.freeLine) counted

theorem tick (h : s.TransmitsAsMember) : s.tick.TransmitsAsMember := by
  unfold State.tick
  exact holds_ite (fun _ => h.tickTimers.tickLine) h

/-! ### START and LEAVE -/

theorem hostStart (h : s.TransmitsAsMember) : s.hostStart.TransmitsAsMember := by
  unfold State.hostStart
  (repeat' split)
  · exact h.of_units rfl rfl
  · exact h.of_units rfl rfl
  · exact of_not_transmitting
      (by simp [State.startStation, State.startTable, State.startLine, Line.reset])

theorem hostLeave (h : s.TransmitsAsMember) : s.hostLeave.1.TransmitsAsMember := by
  unfold State.hostLeave
  split
  · exact h
  · exact of_offLine (.stop s _)
  · exact of_offLine (.stop s _)
  · exact of_offLine (.stop s _)
  · exact fun _ => by simp [State.leaveGroup, State.isMember, StationState.isMember]
  · exact fun _ => by simp [State.leaveGroup, State.isMember, StationState.isMember]
  · exact h

/-! ### Every command -/

theorem applicationComplete (h : s.TransmitsAsMember) :
    NextHolds State.TransmitsAsMember (execApplicationComplete s) := by
  unfold execApplicationComplete
  split
  · split
    · exact h.of_units (by simp) (by simp)
    · trivial
  · exact h

theorem zeroFillComplete (h : s.TransmitsAsMember) : NextHolds State.TransmitsAsMember (execZeroFillComplete s) := by
  have zeroed : s.zeroRanges.releaseMemory.TransmitsAsMember := h.of_units rfl rfl
  have filled : s.zeroRanges.releaseMemory.zeroFilled.TransmitsAsMember := zeroed.of_units (by simp) (by simp)
  unfold execZeroFillComplete
  split
  · split
    · exact (holds_ite (P := State.TransmitsAsMember) (fun _ => zeroed) filled).of_sameAgreement
        (State.sameAgreement_settleMemory _)
    · trivial
  · exact h

/-- Every command leaves a driven line to members. -/
theorem exec (h : s.TransmitsAsMember) (i : Instr) : NextHolds State.TransmitsAsMember (exec i s) := by
  cases i with
  | pinReset => exact of_not_transmitting (by simp [State.reset, Line.reset])
  | rstRelease id rate => exact holds_ite (P := State.TransmitsAsMember) (fun _ => h.of_units rfl rfl) h
  | synchronisationCondition => exact h.meetSync
  | frameStart => exact h.senseStart
  | frameEnd samples => exact h.endFrame samples
  | verdictWindowEnd samples => exact h.endVerdict samples
  | gapComplete => exact h.completeGap
  | slotCycleRestart => exact h.restartCycle
  | transmitOpportunity => exact h.takeOpportunity
  | lostArbitration bit => exact h.loseArbitration bit
  | lineFault bit => exact h.faultLine bit
  | silenceLimit => exact h.reachSilence
  | stuckLine => exact h.becomeStuck
  | stuckRelease => exact h.freeLine
  | announceTimerExpiry => exact h.of_units (t := s.expireAnnounce) (by simp) (by simp)
  | silenceTimerExpiry station => exact h.of_units (t := s.expireSilence station) (by simp) (by simp)
  | answerTimerExpiry => exact h.expireAnswer
  | leaseExpiry window => exact h.of_units (t := s.expireLease window) (by simp) (by simp)
  | fetchTimerExpiry window => exact h.of_units (t := s.expireFetch window) (by simp) (by simp)
  | applicationComplete => exact h.applicationComplete
  | zeroFillComplete => exact h.zeroFillComplete
  | refetch window =>
    exact holds_ite (P := State.TransmitsAsMember) (fun _ => h.of_units (by simp) (by simp)) h
  | loadEntry => exact holds_ite (P := State.TransmitsAsMember) (fun _ => h.of_units (by simp) (by simp)) h
  | start => exact holds_ite (fun _ => h.hostStart.of_sameAgreement (State.sameAgreement_arbitrate _)) h
  | leave => exact holds_ite (fun _ => h.hostLeave.of_sameAgreement (State.sameAgreement_answered _ _)) h
  | strayDominantLevel => exact h.strayLevel
  | fillReadComplete | snapshotDelivered | selectionStart | selectionEnd | illegalCode | status | read | readOn
  | readDataByteOut | write | writeOn | writeDataByte | claim | release | takeOutcome | outcomeRemoval | takeChanges
  | readRoster | readQueue | readEntry => exact (exec_sameAgreement (s := s) rfl).imp fun _ e => h.of_sameAgreement e

end State.TransmitsAsMember

/-- Settles O5: every command keeps it, and so does one ct on an empty queue. -/
theorem stepKeepsDrivingToMembers : Obligations.StepKeepsDrivingToMembers :=
  fun _ _ driving next => step_keeps (fun i _ h => h.exec i) (fun _ _ h => h.of_units rfl rfl) (fun _ h => h.tick)
    driving next

end Sys2Proof.Machine
end

