-- ==== Sys2Proof/Proofs/Commands.lean ====
section
/-! What each command of the machine can stop and can change (R14, R22, R46, R59, R148, R162; log 23). -/

namespace Sys2Proof.Machine

variable {s t : State}

/-- Settles O1: a step on a queue that is not empty is its front command, by definition. -/
theorem stepRunsTheFrontCommand : Obligations.StepRunsTheFrontCommand := fun _ _ _ => rfl

/-! ### Faults and refusals -/

theorem execApplicationComplete_ne_refused (s : State) (r : Refusal) : execApplicationComplete s ≠ .refused r := by
  unfold execApplicationComplete
  (repeat' split) <;> simp

theorem execZeroFillComplete_ne_refused (s : State) (r : Refusal) : execZeroFillComplete s ≠ .refused r := by
  unfold execZeroFillComplete
  (repeat' split) <;> simp

theorem execFillReadComplete_ne_refused (s : State) (r : Refusal) : execFillReadComplete s ≠ .refused r := by
  unfold execFillReadComplete
  (repeat' split) <;> simp

theorem execSnapshotDelivered_ne_refused (s : State) (r : Refusal) : execSnapshotDelivered s ≠ .refused r := by
  unfold execSnapshotDelivered
  (repeat' split) <;> simp

/-- Settles O6: every meaning but those of the four completions is a next state, and those four are not refused. -/
theorem onlyGrantCompletionsCanStop : Obligations.OnlyGrantCompletionsCanStop := by
  intro i s
  cases i with
  | applicationComplete => exact ⟨execApplicationComplete_ne_refused s, fun _ _ => .inl rfl⟩
  | zeroFillComplete => exact ⟨execZeroFillComplete_ne_refused s, fun _ _ => .inr (.inl rfl)⟩
  | fillReadComplete => exact ⟨execFillReadComplete_ne_refused s, fun _ _ => .inr (.inr (.inl rfl))⟩
  | snapshotDelivered => exact ⟨execSnapshotDelivered_ne_refused s, fun _ _ => .inr (.inr (.inr rfl))⟩
  | _ => exact ⟨nofun, nofun⟩

/-! ### The reference L (R14) -/

@[simp] theorem State.supply_reference (s : State) (source : Source) (frame : Frame) (attempts : Nat) :
    (s.supply source frame attempts).line.reference = s.line.reference := rfl

@[simp] theorem State.supplyFill_reference (s : State) (e : Service) (attempts : Nat) :
    (s.supplyFill e attempts).line.reference = s.line.reference := by
  unfold State.supplyFill
  dsimp only
  split <;> simp

@[simp] theorem State.resupply_reference (s : State) (f : InFlight) :
    (s.resupply f).line.reference = s.line.reference := by
  unfold State.resupply
  (repeat' split) <;> simp

@[simp] theorem State.selectByTurn_reference (s : State) : s.selectByTurn.line.reference = s.line.reference := by
  unfold State.selectByTurn
  (repeat' split) <;> simp [State.selectPublication, State.selectFill]

@[simp] theorem State.select_reference (s : State) : s.select.line.reference = s.line.reference := by
  unfold State.select
  dsimp only
  (repeat' split) <;> simp

@[simp] theorem State.atOpportunity_reference (s : State) : s.atOpportunity.line.reference = s.line.reference := by
  unfold State.atOpportunity
  (repeat' split) <;> simp

@[simp] theorem State.takeOpportunity_reference (s : State) : s.takeOpportunity.line.reference = s.line.reference := by
  unfold State.takeOpportunity
  split <;> simp

/-- Abandoning a frame that is no transition of the station leaves the line and the receiver (R86). -/
theorem State.abandonAttempts_line {f : InFlight} (stays : s.endsState f = false) :
    (s.abandonAttempts f).line = s.line ∧ (s.abandonAttempts f).rx = s.rx := by
  unfold State.abandonAttempts
  dsimp only
  (repeat' split) <;> simp_all [State.endsState, State.isOwnDepart]

/-- A faulted frame leaves the line to its receiver: a transition is put off to the window end (R147). -/
theorem State.reportFailed_faulted_line (s : State) :
    (s.reportFailed true).line = s.line ∧ (s.reportFailed true).rx = s.rx := by
  unfold State.reportFailed
  (repeat' split)
  · simp
  · simp
  · simp
  · simp
  · rename_i stays
    exact State.abandonAttempts_line (by simpa using stays)

@[simp] theorem State.faultLine_reference (s : State) (bit : Nat) :
    (s.faultLine bit).line.reference = s.line.reference := by
  unfold State.faultLine
  split
  · simp [State.reportFailed_faulted_line, State.withdrawFrame]
  · rfl

@[simp] theorem State.loseArbitration_reference (s : State) (bit : Nat) :
    (s.loseArbitration bit).line.reference = s.line.reference := by
  unfold State.loseArbitration
  split
  · simp [State.withdrawFrame]
  · rfl

@[simp] theorem State.strayLevel_reference (s : State) : s.strayLevel.line.reference = s.line.reference := by
  unfold State.strayLevel
  (repeat' split) <;> rfl

@[simp] theorem State.senseStart_reference (s : State) : s.senseStart.line.reference = s.line.reference := by
  unfold State.senseStart
  split
  · rfl
  · simp

@[simp] theorem State.meetSync_reference (s : State) : s.meetSync.line.reference = s.line.reference := by
  unfold State.meetSync
  split <;> rfl

@[simp] theorem State.completeGap_reference (s : State) : s.completeGap.line.reference = s.line.reference := by
  unfold State.completeGap
  dsimp only
  (repeat' split) <;> rfl

@[simp] theorem State.restartCycle_reference (s : State) : s.restartCycle.line.reference = s.line.reference := by
  unfold State.restartCycle
  split <;> rfl

@[simp] theorem State.becomeStuck_reference (s : State) : s.becomeStuck.line.reference = s.line.reference := by
  unfold State.becomeStuck
  split <;> rfl

@[simp] theorem State.freeLine_reference (s : State) : s.freeLine.line.reference = s.line.reference := by
  unfold State.freeLine
  dsimp only
  (repeat' split) <;> rfl

@[simp] theorem State.endFrame_reference (s : State) (samples : List CharSamples) :
    (s.endFrame samples).line.reference = s.line.reference := by
  unfold State.endFrame
  (repeat' split) <;> rfl

@[simp] theorem State.stop_reference (s : State) (reason : Reason) :
    (s.stop reason).line.reference = s.line.reference := by
  simp [State.stop, State.haltLine]

@[simp] theorem State.hostLeave_reference (s : State) : s.hostLeave.1.line.reference = s.line.reference := by
  unfold State.hostLeave
  split <;> simp

/-! ### The completions of grants -/

/-- What the completion of a grant leaves, whatever it was for. -/
structure State.SameUnits (s t : State) : Prop where
  pending : t.pending = s.pending
  pins : t.pins = s.pins
  layout : t.layout = s.layout
  line : t.line = s.line

theorem State.applicationComplete_same (s : State) : NextHolds s.SameUnits (execApplicationComplete s) := by
  unfold execApplicationComplete
  split
  · split
    · constructor <;> simp
    · trivial
  · exact ⟨rfl, rfl, rfl, rfl⟩

theorem State.zeroFillComplete_same (s : State) : NextHolds s.SameUnits (execZeroFillComplete s) := by
  unfold execZeroFillComplete
  split
  · split
    · constructor <;> split <;> simp
    · trivial
  · exact ⟨rfl, rfl, rfl, rfl⟩

theorem State.fillReadComplete_same (s : State) : NextHolds s.SameUnits (execFillReadComplete s) := by
  unfold execFillReadComplete
  split
  · split
    · constructor <;> simp
    · trivial
  · exact ⟨rfl, rfl, rfl, rfl⟩

theorem State.snapshotDelivered_same (s : State) : NextHolds s.SameUnits (execSnapshotDelivered s) := by
  unfold execSnapshotDelivered
  split
  · split
    · constructor <;> simp
    · trivial
  · exact ⟨rfl, rfl, rfl, rfl⟩

theorem State.applicationComplete_port (s : State) :
    NextHolds (fun t => t.port = s.port) (execApplicationComplete s) := by
  unfold execApplicationComplete
  (repeat' split) <;> simp [NextHolds]

theorem State.zeroFillComplete_port (s : State) : NextHolds (fun t => t.port = s.port) (execZeroFillComplete s) := by
  unfold execZeroFillComplete
  (repeat' split) <;> simp [NextHolds]

theorem State.fillReadComplete_port (s : State) : NextHolds (fun t => t.port = s.port) (execFillReadComplete s) := by
  unfold execFillReadComplete
  (repeat' split) <;> simp [NextHolds]

theorem State.fillReadComplete_mem (s : State) :
    NextHolds (fun t => t.mirror.mem = s.mirror.mem) (execFillReadComplete s) := by
  unfold execFillReadComplete
  (repeat' split) <;> simp [NextHolds]

theorem State.snapshotDelivered_mem (s : State) :
    NextHolds (fun t => t.mirror.mem = s.mirror.mem) (execSnapshotDelivered s) := by
  unfold execSnapshotDelivered
  (repeat' split) <;> simp [NextHolds]

/-! ### What every command leaves -/

/-- No command takes a waiting command from the queue (log 1). -/
theorem exec_pending (i : Instr) (s : State) : NextHolds (fun t => t.pending = s.pending) (exec i s) := by
  cases i with
  | pinReset => rfl
  | applicationComplete => exact s.applicationComplete_same.imp fun _ e => e.pending
  | zeroFillComplete => exact s.zeroFillComplete_same.imp fun _ e => e.pending
  | fillReadComplete => exact s.fillReadComplete_same.imp fun _ e => e.pending
  | snapshotDelivered => exact s.snapshotDelivered_same.imp fun _ e => e.pending
  | synchronisationCondition | frameStart | frameEnd | verdictWindowEnd | gapComplete | slotCycleRestart
  | transmitOpportunity | lostArbitration | lineFault | silenceLimit | stuckLine | stuckRelease | announceTimerExpiry
  | silenceTimerExpiry | answerTimerExpiry | leaseExpiry | fetchTimerExpiry | strayDominantLevel | selectionStart
  | readDataByteOut =>
    change State.pending _ = s.pending
    simp
  | _ => exact holds_ite (P := fun t : State => t.pending = s.pending) (fun _ => by simp) rfl

/-- The straps change at a pin reset and at the release of RST# only (R22). -/
theorem exec_pins {i : Instr} (reset : i ≠ .pinReset) (release : ∀ id rate, i ≠ .rstRelease id rate) (s : State) :
    NextHolds (fun t => t.pins = s.pins) (exec i s) := by
  cases i with
  | pinReset => exact absurd rfl reset
  | rstRelease id rate => exact absurd rfl (release id rate)
  | applicationComplete => exact s.applicationComplete_same.imp fun _ e => e.pins
  | zeroFillComplete => exact s.zeroFillComplete_same.imp fun _ e => e.pins
  | fillReadComplete => exact s.fillReadComplete_same.imp fun _ e => e.pins
  | snapshotDelivered => exact s.snapshotDelivered_same.imp fun _ e => e.pins
  | synchronisationCondition | frameStart | frameEnd | verdictWindowEnd | gapComplete | slotCycleRestart
  | transmitOpportunity | lostArbitration | lineFault | silenceLimit | stuckLine | stuckRelease | announceTimerExpiry
  | silenceTimerExpiry | answerTimerExpiry | leaseExpiry | fetchTimerExpiry | strayDominantLevel | selectionStart
  | readDataByteOut =>
    change State.pins _ = s.pins
    simp
  | _ => exact holds_ite (P := fun t : State => t.pins = s.pins) (fun _ => by simp) rfl

/-- The table and its signature change at a pin reset, LOAD ENTRY and START only (R46, R57). -/
theorem exec_layout {i : Instr} (reset : i ≠ .pinReset) (start : i ≠ .start)
    (load : ∀ x fl p b z o l c, i ≠ .loadEntry x fl p b z o l c) (s : State) :
    NextHolds (fun t => t.layout = s.layout) (exec i s) := by
  cases i with
  | pinReset => exact absurd rfl reset
  | start => exact absurd rfl start
  | loadEntry => exact absurd rfl (load _ _ _ _ _ _ _ _)
  | applicationComplete => exact s.applicationComplete_same.imp fun _ e => e.layout
  | zeroFillComplete => exact s.zeroFillComplete_same.imp fun _ e => e.layout
  | fillReadComplete => exact s.fillReadComplete_same.imp fun _ e => e.layout
  | snapshotDelivered => exact s.snapshotDelivered_same.imp fun _ e => e.layout
  | synchronisationCondition | frameStart | frameEnd | verdictWindowEnd | gapComplete | slotCycleRestart
  | transmitOpportunity | lostArbitration | lineFault | silenceLimit | stuckLine | stuckRelease | announceTimerExpiry
  | silenceTimerExpiry | answerTimerExpiry | leaseExpiry | fetchTimerExpiry | strayDominantLevel | selectionStart
  | readDataByteOut =>
    change State.layout _ = s.layout
    simp
  | _ => exact holds_ite (P := fun t : State => t.layout = s.layout) (fun _ => by simp) rfl

/-- Memory changes at a pin reset, LOAD ENTRY, START and the completions that write it only (R59). -/
theorem exec_mem {i : Instr} (reset : i ≠ .pinReset) (start : i ≠ .start)
    (load : ∀ x fl p b z o l c, i ≠ .loadEntry x fl p b z o l c) (application : i ≠ .applicationComplete)
    (zeroFill : i ≠ .zeroFillComplete) (s : State) :
    NextHolds (fun t => t.mirror.mem = s.mirror.mem) (exec i s) := by
  cases i with
  | pinReset => exact absurd rfl reset
  | start => exact absurd rfl start
  | loadEntry => exact absurd rfl (load _ _ _ _ _ _ _ _)
  | applicationComplete => exact absurd rfl application
  | zeroFillComplete => exact absurd rfl zeroFill
  | fillReadComplete => exact s.fillReadComplete_mem
  | snapshotDelivered => exact s.snapshotDelivered_mem
  | synchronisationCondition | frameStart | frameEnd | verdictWindowEnd | gapComplete | slotCycleRestart
  | transmitOpportunity | lostArbitration | lineFault | silenceLimit | stuckLine | stuckRelease | announceTimerExpiry
  | silenceTimerExpiry | answerTimerExpiry | leaseExpiry | fetchTimerExpiry | strayDominantLevel | selectionStart
  | readDataByteOut =>
    change (State.mirror _).mem = s.mirror.mem
    simp
  | _ => exact holds_ite (P := fun t : State => t.mirror.mem = s.mirror.mem) (fun _ => by simp) rfl

/-- L changes at a pin reset, START, the end of a verdict window and the silence limit only (R14). -/
theorem exec_reference {i : Instr} (reset : i ≠ .pinReset) (start : i ≠ .start) (silence : i ≠ .silenceLimit)
    (window : ∀ samples, i ≠ .verdictWindowEnd samples) (s : State) :
    NextHolds (fun t => t.line.reference = s.line.reference) (exec i s) := by
  cases i with
  | pinReset => exact absurd rfl reset
  | start => exact absurd rfl start
  | silenceLimit => exact absurd rfl silence
  | verdictWindowEnd samples => exact absurd rfl (window samples)
  | applicationComplete => exact s.applicationComplete_same.imp fun _ e => congrArg _ e.line
  | zeroFillComplete => exact s.zeroFillComplete_same.imp fun _ e => congrArg _ e.line
  | fillReadComplete => exact s.fillReadComplete_same.imp fun _ e => congrArg _ e.line
  | snapshotDelivered => exact s.snapshotDelivered_same.imp fun _ e => congrArg _ e.line
  | synchronisationCondition | frameStart | frameEnd | gapComplete | slotCycleRestart
  | transmitOpportunity | lostArbitration | lineFault | stuckLine | stuckRelease | announceTimerExpiry
  | silenceTimerExpiry | answerTimerExpiry | leaseExpiry | fetchTimerExpiry | strayDominantLevel | selectionStart
  | readDataByteOut =>
    change (State.line _).reference = s.line.reference
    simp
  | _ => exact holds_ite (P := fun t : State => t.line.reference = s.line.reference) (fun _ => by simp) rfl

/-- The port changes at a pin reset, the delivery of a snapshot and its own events only (R162). -/
theorem exec_port {i : Instr} (reset : i ≠ .pinReset) (snapshot : i ≠ .snapshotDelivered) (inner : isPortEvent i = false)
    (s : State) : NextHolds (fun t => t.port = s.port) (exec i s) := by
  cases i with
  | pinReset => exact absurd rfl reset
  | snapshotDelivered => exact absurd rfl snapshot
  | rstRelease id rate => exact holds_ite (P := fun t : State => t.port = s.port) (fun _ => rfl) rfl
  | applicationComplete => exact s.applicationComplete_port
  | zeroFillComplete => exact s.zeroFillComplete_port
  | fillReadComplete => exact s.fillReadComplete_port
  | synchronisationCondition | frameStart | frameEnd | verdictWindowEnd | gapComplete | slotCycleRestart
  | transmitOpportunity | lostArbitration | lineFault | silenceLimit | stuckLine | stuckRelease | announceTimerExpiry
  | silenceTimerExpiry | answerTimerExpiry | leaseExpiry | fetchTimerExpiry | strayDominantLevel =>
    change State.port _ = s.port
    simp
  | _ => cases inner

/-- Settles O7, unit by unit. -/
theorem unitsChangeOnlyByTheirCommands : Obligations.UnitsChangeOnlyByTheirCommands := by
  intro i s t next
  refine ⟨(exec_pending i s).of_next next, fun reset release => (exec_pins reset release s).of_next next,
    fun reset start load => ⟨(exec_layout reset start load s).of_next next, fun application zeroFill a => ?_⟩,
    fun reset start silence window => (exec_reference reset start silence window s).of_next next,
    fun reset snapshot inner => (exec_port reset snapshot inner s).of_next next⟩
  rw [(exec_mem reset start load application zeroFill s).of_next next]

/-- Settles O10: RST_RELEASE samples the straps while RST# is asserted and changes nothing once it is not; every other
command is `exec_pins`. -/
theorem strapsAreSampledAtReleaseOnly : Obligations.StrapsAreSampledAtReleaseOnly := by
  refine ⟨⟨fun id rate s asserted => ?_, rfl, rfl, rfl, rfl⟩, fun i s t released reset next => ?_⟩
  · rw [exec, execRstRelease, if_pos asserted]
  · by_cases release : ∀ id rate, i ≠ .rstRelease id rate
    · exact (exec_pins reset release s).of_next next
    · push Not at release
      obtain ⟨id, rate, rfl⟩ := release
      rw [exec, execRstRelease, if_neg (by simp [released])] at next
      cases next
      rfl

end Sys2Proof.Machine
end

