-- ==== Sys2Proof/Proofs/CommonLine.lean ====
section
/-! The line interface out of STOPPED: synchronisation, slots, the silence limit and STUCK (R6 to R10, R16, R19). -/

namespace Sys2Proof.Machine

variable {s : State}

/-- Out of STOPPED the line interface follows the line (R6). -/
theorem State.follows_of (running : s.ctl.state ≠ .stopped) : s.follows = true := by
  simpa [State.follows] using running

/-- A start bit may begin a frame in SLOTTING and, with L UNKNOWN, in a synchronised IDLE-GAP that times no gap. -/
theorem State.takesStart_iff (s : State) :
    s.takesStart = true ↔ s.line.state = .slotting ∨ (s.line.state = .idleGap ∧ s.line.reference = none
      ∧ s.line.gapTiming = false ∧ s.line.awaitSync = false) := by
  simp [State.takesStart, and_assoc]

theorem State.senseStart_of_takesStart (running : s.ctl.state ≠ .stopped) (takes : s.takesStart = true) :
    s.senseStart = s.beginReceiving := by
  rw [State.senseStart, if_pos (by simp [State.follows_of running, takes])]

theorem State.senseStart_of_not_takesStart (takes : s.takesStart = false) : s.senseStart = s.strayLevel := by
  rw [State.senseStart, if_neg (by simp [takes])]

/-- A dominant level in IDLE-GAP begins the counts again (R7, R8, R16). -/
theorem State.strayLevel_of_idle (running : s.ctl.state ≠ .stopped) (idle : s.line.state = .idleGap) :
    s.strayLevel = { s with line.count := 0, line.silence := 0 } := by
  rw [State.strayLevel, if_pos (by simp [State.follows_of running, idle])]

/-- A dominant level in SLOTTING is a glitch (R3, R10). -/
theorem State.strayLevel_of_slotting (running : s.ctl.state ≠ .stopped) (slotting : s.line.state = .slotting) :
    s.strayLevel = { s with line.sensed := true } := by
  rw [State.strayLevel, if_neg (by simp [slotting]), if_pos (by simp [State.follows_of running, slotting])]

/-- Settles O11: the synchronisation condition keeps `takesStart` false while it is awaited, and a start bit that may begin
a frame begins the receiver's. -/
theorem framesStartOnlyAfterSynchronisation : Obligations.FramesStartOnlyAfterSynchronisation := by
  refine ⟨fun s running idle awaited => ⟨?_, ?_⟩, fun s running starts => ?_⟩
  · rw [exec, execSynchronisationCondition, State.meetSync, if_pos (by simp [State.follows_of running, idle, awaited])]
  · have barred : s.takesStart = false := by simp [State.takesStart, idle, awaited]
    rw [exec, execFrameStart, State.senseStart_of_not_takesStart barred, State.strayLevel_of_idle running idle]
  · rw [exec, execFrameStart, State.senseStart_of_takesStart running (s.takesStart_iff.2 starts)]
    rfl

/-! ### Slots (R8, R9) -/

/-- Where a gap is timed in IDLE-GAP, its end begins slot 0 with L known and ends the timing without (R8). -/
theorem State.completeGap_of_timed (running : s.ctl.state ≠ .stopped) (idle : s.line.state = .idleGap)
    (timed : s.line.gapTiming = true) :
    s.completeGap = { s with line := if s.line.reference.isSome then s.line.beginSlots
                                     else { s.line with gapTiming := false, count := 0 } } := by
  rw [State.completeGap, if_pos (by simp [State.follows_of running, idle, timed])]

theorem State.restartCycle_of_slotting (running : s.ctl.state ≠ .stopped) (slotting : s.line.state = .slotting) :
    s.restartCycle = { s with line.slot := 0, line.offered := false } := by
  rw [State.restartCycle, if_pos (by simp [State.follows_of running, slotting])]

/-- The slot a station owns is its number less L and 1, round the cycle (R9). -/
theorem ownSlot_offset {station l : Nat} (hs : station < 32) (hl : l < 32) :
    (((station + 31 - l) % 32 : Nat) : Int) = ((station : Int) - (l : Int) - 1) % 32 := by
  omega

/-- Settles O12. -/
theorem slotsFollowTheGapAndTheReference : Obligations.SlotsFollowTheGapAndTheReference := by
  refine ⟨fun s running => ⟨fun idle timed known => ?_, fun idle timed unknown => ?_, fun slotting => ?_,
    fun slotting => ?_⟩, fun s glitch => ?_, fun s l hs hl known => ?_⟩
  · rw [exec, execGapComplete, State.completeGap_of_timed running idle timed, if_pos known]
    rfl
  · rw [exec, execGapComplete, State.completeGap_of_timed running idle timed, if_neg (by simp [unknown])]
  · rw [exec, execSlotCycleRestart, State.restartCycle_of_slotting running slotting]
  · rw [exec, execStrayDominantLevel, State.strayLevel_of_slotting running slotting]
  · rw [exec, execTransmitOpportunity, State.takeOpportunity, if_neg (by simp [State.mayTransmit, glitch])]
  · refine ⟨(s.station + 31 - l) % 32, ?_, Nat.mod_lt _ (by decide), ownSlot_offset hs hl⟩
    rw [State.ownSlot, known]
    rfl

/-! ### The silence limit (R16) -/

/-- The silence limit begins slot 0 with L at 31, and in LISTENING acquires the reference (R16, R150). -/
theorem State.reachSilence_of_unknown (running : s.ctl.state ≠ .stopped) (idle : s.line.state = .idleGap)
    (unknown : s.line.reference = none) :
    s.reachSilence =
      let slotted := { s with line := { s.line.beginSlots with reference := some 31, silence := 40 } }
      if s.ctl.state = .listening then slotted.enterJoining .reference else slotted := by
  rw [State.reachSilence, if_pos (by simp [State.follows_of running, idle, unknown])]

/-- A transition posts STATE (R146, R147). -/
theorem State.moveTo_report (s : State) (state : StationState) (reason : Reason) :
    (s.moveTo state reason).report = (s.post (.state state reason)).report := by
  rw [State.moveTo]
  exact State.post_report (by rfl) _

/-- Entry into JOINING is a transition of the controller with the announce timer set and the JOIN offered (R124, R150). -/
theorem State.enterJoining_units (s : State) (reason : Reason) :
    (s.enterJoining reason).ctl = ⟨.joining, reason, true, .stopped, false, false⟩
      ∧ (s.enterJoining reason).roster = { s.roster with announce := .running 2048 }
      ∧ (s.sched.control = [] → (s.enterJoining reason).sched = { s.sched with control := [.presence .join] })
      ∧ (s.enterJoining reason).report = (s.post (.state .joining reason)).report := by
  refine ⟨by simp [State.enterJoining], by simp [State.enterJoining], fun empty => ?_, ?_⟩
  · simp [State.enterJoining, State.offer, empty]
  · simp only [State.enterJoining, State.offer_frame, State.moveTo_report]
    exact State.post_report (by rfl) _

/-- With L at 31 a station owns the slot of its own number (R9). -/
theorem State.ownSlot_of_silence (known : s.line.reference = some 31) (inside : s.station < 32) :
    s.ownSlot = some s.station := by
  simp [State.ownSlot, known, Nat.mod_eq_of_lt inside]

/-- Settles O13. -/
theorem silenceGivesTheReferenceThirtyOne : Obligations.SilenceGivesTheReferenceThirtyOne := by
  intro s running idle unknown
  refine ⟨s.reachSilence, rfl, ?_⟩
  rw [State.reachSilence_of_unknown running idle unknown]
  by_cases listening : s.ctl.state = .listening
  · dsimp only
    rw [if_pos listening]
    obtain ⟨ctl, roster, sched, report⟩ := State.enterJoining_units
      { s with line := { s.line.beginSlots with reference := some 31, silence := 40 } } .reference
    refine ⟨by simp, by simp [Line.beginSlots], by simp [Line.beginSlots], by simp [Line.beginSlots],
      fun inside => ?_, fun other => absurd listening other, fun _ => ?_⟩
    · exact (State.ownSlot_of_silence (by simp) (by simpa [State.station] using inside)).trans (by simp [State.station])
    · refine ⟨by apply State.eq_of_units <;> simp, by rw [ctl], by rw [ctl], by rw [ctl], by rw [ctl], roster, sched, ?_⟩
      rw [report]
      exact State.post_report (by rfl) _
  · dsimp only
    rw [if_neg listening]
    exact ⟨rfl, rfl, rfl, rfl, fun inside => State.ownSlot_of_silence rfl inside, fun _ => rfl,
      fun h => absurd h listening⟩

/-! ### STUCK (R19) -/

/-- The release of STUCK begins slot 0 with L known, and IDLE-GAP without (R19). -/
theorem State.freeLine_of_stuck (running : s.ctl.state ≠ .stopped) (stuck : s.line.state = .stuck) :
    s.freeLine = { s with line := if s.line.reference.isSome then s.line.beginSlots
      else { s.line with state := .idleGap, awaitSync := false, gapTiming := false, count := 0 } } := by
  rw [State.freeLine, if_pos (by simp [State.follows_of running, stuck])]

/-- Settles O14. -/
theorem stuckLineKeepsEverythingButTheCleanRun : Obligations.StuckLineKeepsEverythingButTheCleanRun := by
  refine fun s running => ⟨fun idle => ?_, fun idle => ?_, fun stuck known => ?_, fun stuck unknown => ?_⟩
  · rw [exec, execStrayDominantLevel, State.strayLevel_of_idle running idle]
  · rw [exec, execStuckLine, State.becomeStuck, if_pos (by simp [State.follows_of running, idle])]
  · rw [exec, execStuckRelease, State.freeLine_of_stuck running stuck, if_pos known]
    rfl
  · rw [exec, execStuckRelease, State.freeLine_of_stuck running stuck, if_neg (by simp [unknown])]

end Sys2Proof.Machine
end

