-- ==== Sys2Proof/Proofs/FramesRead.lean ====
section
/-! Frames as characters on the line: what is sent reads back as the frame, and what the receiver finds in the characters it
took (R2 to R4, R17, R23 to R32). -/

namespace Sys2Proof.Machine

variable {s t : State} {bytes : List Byte} {f g : Frame}

/-! ### A frame sent reads back (R23, R24) -/

/-- A frame within its form limits is read from its bytes. -/
theorem parseFrame_bytes (fits : f.fits) : parseFrame f.bytes = some f := by
  obtain ⟨inside, body⟩ := fits
  have short := Body.bytes_length_le body
  have sender : (byteOf f.sender).toNat = f.sender := toNat_byteOf (by have := inside; simp only [Config.stations] at this; omega)
  have len : (byteOf f.body.bytes.length).toNat = f.body.bytes.length :=
    toNat_byteOf (by simp only [Config.bodyLimit] at short; omega)
  have limits : f.sender ≤ 31 ∧ f.body.bytes.length ≤ Config.bodyLimit
      ∧ (f.body.bytes ++ twoBytes (crc f.checked).toNat).length = f.body.bytes.length + 2 :=
    ⟨Nat.le_of_lt_succ inside, short, by simp⟩
  rw [Frame.bytes_eq, parseFrame, sender, len, if_pos limits, List.take_left, parseBody_bytes inside body]
  rfl

theorem Frame.bytes_length_le (fits : f.fits) : f.bytes.length ≤ 137 := by
  have := Body.bytes_length_le fits.2
  simp only [Config.bodyLimit] at this
  rw [Frame.bytes_length]
  omega

/-- The frames that bytes without a check fault carry are those within the form limits that are sent as these bytes. -/
theorem parseFrame_iff (sound : checkFault bytes = false) : parseFrame bytes = some g ↔ g.fits ∧ g.bytes = bytes := by
  refine ⟨fun read => ⟨parseFrame_fits read, bytes_parseFrame read sound⟩, ?_⟩
  rintro ⟨fits, rfl⟩
  exact parseFrame_bytes fits

/-- The characters of a frame sent are taken whole: BODYLEN is their number less 5 (R4). -/
theorem locateEnd_sent (fits : f.fits) :
    locateEnd (f.bytes.map fun b => ⟨b, false⟩) = (f.bytes.map fun b => ⟨b, false⟩, false) := by
  have short := Body.bytes_length_le fits.2
  have len : (byteOf f.body.bytes.length).toNat = f.body.bytes.length :=
    toNat_byteOf (by simp only [Config.bodyLimit] at short; omega)
  have expected : expectedLength (f.bytes.map fun b => ⟨b, false⟩) = some f.bytes.length := by
    rw [Frame.bytes_length, Frame.bytes_eq]
    simp only [List.map_cons, expectedLength, len, Nat.min_eq_left short]
  have whole : (f.bytes.map fun b => (⟨b, false⟩ : RxChar)).length = f.bytes.length := List.length_map _
  rw [locateEnd, expected]
  dsimp only
  rw [if_pos (Nat.le_of_eq whole.symm), ← whole, List.take_length]

/-- The receiver's view of the characters of a frame sent whole (R3, R4, R24). -/
theorem State.receiveFrame_sent (s : State) (fits : f.fits) :
    (s.receiveFrame (f.bytes.map charSamples)).chars = (f.bytes.map fun b => ⟨b, false⟩)
      ∧ (s.receiveFrame (f.bytes.map charSamples)).short = false
      ∧ (s.receiveFrame (f.bytes.map charSamples)).framing = false
      ∧ (s.receiveFrame (f.bytes.map charSamples)).check = false := by
  simp [State.receiveFrame, takeStarted_charSamples, locateEnd_sent fits, checkFault_bytes, Function.comp_def]

/-- The end of another station's frame begins its verdict window with what the receiver holds (R4, R6). -/
theorem exec_frameEnd_receiving (samples : List CharSamples) (receiving : s.line.state = .receiving) :
    exec (.frameEnd samples) s = .next (s.beginVerdict (s.receiveFrame samples)) := by
  rw [exec, execFrameEnd, State.endFrame, if_pos receiving]

/-- Settles O16. -/
theorem frameBytesReadBackAsTheFrame : Obligations.FrameBytesReadBackAsTheFrame := by
  refine ⟨fun f fits => ⟨parseFrame_bytes fits, Frame.bytes_length, Frame.bytes_length_le fits⟩,
    fun f s fits receiving => ?_⟩
  obtain ⟨chars, short, framing, check⟩ := s.receiveFrame_sent fits
  have data : (s.receiveFrame (f.bytes.map charSamples)).chars.map RxChar.data = f.bytes := by
    simp [chars, Function.comp_def]
  have read : parseFrame ((s.receiveFrame (f.bytes.map charSamples)).chars.map RxChar.data) = some f :=
    (congrArg parseFrame data).trans (parseFrame_bytes fits)
  exact ⟨_, _, exec_frameEnd_receiving _ receiving, rfl, data, short, framing, check, senderOf_read read, read⟩

/-! ### What the receiver finds (R3, R4, R24 to R32) -/

variable {samples : List CharSamples}

/-- The characters received are those of the samples, one by one, from the first on (R3). -/
theorem State.receiveFrame_get {i : Nat} {c : RxChar} (taken : (s.receiveFrame samples).chars[i]? = some c) :
    ∃ x : CharSamples, samples[i]? = some x ∧ x.getLsbD 0 = false ∧ c.data = x.extractLsb' 1 8
      ∧ c.framing = !x.getLsbD 9 := by
  refine takeStarted_get ?_
  rcases locateEnd_cases (takeStarted samples) with ⟨-, _, -, -, front⟩ | ⟨-, whole, -⟩
  · obtain ⟨later, whole⟩ := front
    obtain ⟨inside, -⟩ := List.getElem?_eq_some_iff.1 taken
    rw [← whole]
    exact (List.getElem?_append_left inside).trans taken
  · rw [← whole]
    exact taken

/-- A frame that is not short has the length BODYLEN gives (R4). -/
theorem State.receiveFrame_long (long : (s.receiveFrame samples).short = false) :
    ∃ c : RxChar, (s.receiveFrame samples).chars[2]? = some c
      ∧ (s.receiveFrame samples).chars.length = 5 + min c.data.toNat 132 := by
  rcases locateEnd_cases (takeStarted samples) with ⟨-, c, third, length, -⟩ | ⟨short, -, -⟩
  · exact ⟨c, third, length⟩
  · exact absurd (short.symm.trans long) (by decide)

/-- A short frame ends at the first missing start bit, before the length BODYLEN gives (R4). -/
theorem State.receiveFrame_short (short : (s.receiveFrame samples).short = true) :
    (∀ c : RxChar, (s.receiveFrame samples).chars[2]? = some c →
        (s.receiveFrame samples).chars.length < 5 + min c.data.toNat 132)
      ∧ ∀ x : CharSamples, samples[(s.receiveFrame samples).chars.length]? = some x → x.getLsbD 0 = true := by
  rcases locateEnd_cases (takeStarted samples) with ⟨long, -⟩ | ⟨-, whole, before⟩
  · exact absurd (long.symm.trans short) (by decide)
  · have chars : (s.receiveFrame samples).chars = takeStarted samples := whole
    rw [chars]
    exact ⟨before, fun x missing => takeStarted_end missing⟩

theorem State.receiveFrame_framing_iff :
    (s.receiveFrame samples).framing = true ↔ (s.receiveFrame samples).short = true
      ∨ ∃ c ∈ (s.receiveFrame samples).chars, c.framing = true := by
  simp [State.receiveFrame]

theorem State.receiveFrame_check :
    (s.receiveFrame samples).check = (!(s.receiveFrame samples).short
      && checkFault ((s.receiveFrame samples).chars.map RxChar.data)) := rfl

theorem State.receiveFrame_check_iff :
    (s.receiveFrame samples).check = true ↔ (s.receiveFrame samples).short = false
      ∧ ((s.receiveFrame samples).chars.map RxChar.data).drop ((s.receiveFrame samples).chars.length - 2)
        ≠ twoBytes (crc (((s.receiveFrame samples).chars.map RxChar.data).take
            ((s.receiveFrame samples).chars.length - 2))).toNat := by
  rw [State.receiveFrame_check, checkFault, List.length_map]
  simp

/-- Without a framing and a check fault the last two characters are the check code. -/
theorem State.receiveFrame_intact (framing : (s.receiveFrame samples).framing = false)
    (check : (s.receiveFrame samples).check = false) :
    checkFault ((s.receiveFrame samples).chars.map RxChar.data) = false := by
  have long : (s.receiveFrame samples).short = false := by
    rw [Bool.eq_false_iff]
    exact fun short => Bool.eq_false_iff.1 framing (State.receiveFrame_framing_iff.2 (.inl short))
  simpa [State.receiveFrame_check, long] using check

/-- The form test fails where every frame within the form limits that is sent as these bytes breaks the layout (R28 to
R30). -/
theorem State.formFault_iff (sound : checkFault bytes = false) :
    s.formFault bytes = true ↔ ∀ g : Frame, g.fits → g.bytes = bytes → s.BreaksLayout g := by
  unfold State.formFault
  split
  · rename_i none
    exact iff_of_true rfl fun g fits sent =>
      absurd ((parseFrame_iff sound).2 ⟨fits, sent⟩) (by simp [none])
  · rename_i p read
    rw [Bool.not_eq_true', State.formSound_iff]
    refine ⟨fun breaks g fits sent => ?_, fun all => ?_⟩
    · obtain rfl : p = g := Option.some.inj (read.symm.trans ((parseFrame_iff sound).2 ⟨fits, sent⟩))
      exact breaks
    · obtain ⟨fits, sent⟩ := (parseFrame_iff sound).1 read
      exact all p fits sent

theorem State.receiveFrame_form_iff :
    (s.receiveFrame samples).form = true ↔ (s.receiveFrame samples).framing = false
      ∧ (s.receiveFrame samples).check = false
      ∧ ∀ g : Frame, g.fits → g.bytes = (s.receiveFrame samples).chars.map RxChar.data → s.BreaksLayout g := by
  have form : (s.receiveFrame samples).form = (!(s.receiveFrame samples).framing && !(s.receiveFrame samples).check
      && s.formFault ((s.receiveFrame samples).chars.map RxChar.data)) := rfl
  simp only [form, Bool.and_eq_true, Bool.not_eq_true', and_assoc]
  refine and_congr_right fun framing => and_congr_right fun check => ?_
  exact State.formFault_iff (State.receiveFrame_intact framing check)

/-- A frame whose bytes have no check fault needs a place where it is read as one that does (R32). -/
theorem State.any_needsPlace_iff (sound : checkFault bytes = false) :
    (parseFrame bytes).any s.needsPlace = true ↔ ∃ g : Frame, g.fits ∧ g.bytes = bytes ∧ s.NeedsPlace g := by
  simp only [Option.any_eq_true, parseFrame_iff sound, State.needsPlace_iff, and_assoc]

/-- The receiver objects on the four grounds of R31 and R32, and only as a member. -/
theorem State.receiveFrame_objects_iff :
    (s.receiveFrame samples).objects = true ↔ s.isMember = true
      ∧ ((s.receiveFrame samples).framing = true ∨ (s.receiveFrame samples).check = true
        ∨ ((s.receiveFrame samples).form = true ∧ s.status (senderOf (s.receiveFrame samples).chars) ≠ .foreign)
        ∨ ((s.receiveFrame samples).form = false ∧ 4 ≤ s.mirror.inbound.length
          ∧ ∃ g : Frame, g.fits ∧ g.bytes = (s.receiveFrame samples).chars.map RxChar.data ∧ s.NeedsPlace g)) := by
  have objects : (s.receiveFrame samples).objects = s.objectsTo (s.receiveFrame samples).framing
      (s.receiveFrame samples).check (s.receiveFrame samples).form (senderOf (s.receiveFrame samples).chars)
      (parseFrame ((s.receiveFrame samples).chars.map RxChar.data)) := rfl
  rw [objects, State.objectsTo, Bool.and_eq_true]
  refine and_congr_right fun _ => ?_
  cases framing : (s.receiveFrame samples).framing with
  | true => simp
  | false =>
    cases check : (s.receiveFrame samples).check with
    | true => simp
    | false =>
      rw [← State.any_needsPlace_iff (State.receiveFrame_intact framing check)]
      simp [and_comm, and_left_comm]

/-- In a verdict window the station drives the first 12 bit times where it objects as a member (R1, R17). -/
theorem State.drivesAt_beginVerdict_iff {r : RxFrame} (member : r.objects = true → s.isMember = true) (bit : Nat) :
    (s.beginVerdict r).drivesAt bit = true ↔ r.objects = true ∧ bit < 12 := by
  have same : (s.beginVerdict r).isMember = s.isMember := rfl
  have silent : (s.beginVerdict r).drivenFrame = none := rfl
  have verdict : (s.beginVerdict r).line.state = .verdict := rfl
  have held : (s.beginVerdict r).rx.frame = some r := rfl
  simp only [State.drivesAt, same, silent, verdict, held, Option.any_none, Option.any_some, beq_self_eq_true,
    Bool.true_and, Bool.false_or, Bool.and_eq_true, decide_eq_true_eq]
  exact ⟨fun ⟨_, drives⟩ => drives, fun drives => ⟨member drives.1, drives⟩⟩

/-- Settles O15: the receiver's view clause by clause, and the own frame sent to its length end. -/
theorem receiverObjectsOnItsFourGrounds : Obligations.ReceiverObjectsOnItsFourGrounds := by
  refine ⟨fun samples s receiving => ?_, fun samples s g transmitting flight => ?_⟩
  · exact ⟨_, s.receiveFrame samples, exec_frameEnd_receiving samples receiving, rfl, rfl, rfl, rfl, rfl,
      fun _ _ => State.receiveFrame_get, State.receiveFrame_long, State.receiveFrame_short,
      State.receiveFrame_framing_iff, State.receiveFrame_check_iff, State.receiveFrame_form_iff,
      State.receiveFrame_objects_iff,
      State.drivesAt_beginVerdict_iff fun objects => (State.receiveFrame_objects_iff.1 objects).1, rfl⟩
  · have ends : exec (.frameEnd samples) s = .next (s.beginVerdict g.ownFrame) := by
      rw [exec, execFrameEnd, State.endFrame, if_neg (by simp [transmitting]), if_pos transmitting, flight]
    refine ⟨_, g.ownFrame, ends, rfl, rfl, rfl, rfl, rfl, rfl, rfl, g.ownFrame_bytes, fun bit => ?_⟩
    rw [Bool.eq_false_iff]
    exact fun drives => absurd ((State.drivesAt_beginVerdict_iff (by simp) bit).1 drives).1 (by simp)

end Sys2Proof.Machine
end

