-- ==== Sys2Proof/Proofs/Arbiter.lean ====
section
/-! The values of the reset state (R22, R72), and the order of precedence of the memory arbiter (R65, R66, R70). -/

namespace Sys2Proof.Machine

variable {s : State}

/-! ### The reset state -/

@[simp] theorem State.entry_reset (w : Nat) : State.reset.entry w = Entry.reset := by
  rw [State.entry, List.getD_eq_getElem?_getD]
  exact List.getElem?_getD_replicate_default_eq Entry.reset Config.windows w

/-- R114: within the thirty-two entries and beyond them, a station is ABSENT in the reset state, its timer stopped. -/
theorem State.rosterEntry_reset (n : Nat) : State.reset.roster.entries.getD n RosterEntry.reset = RosterEntry.reset := by
  rw [List.getD_eq_getElem?_getD]
  exact List.getElem?_getD_replicate_default_eq RosterEntry.reset Config.stations n

/-- Settles O9: the state after a pin reset is the reset state but for the queue, and its tables are read entry by entry. -/
theorem pinResetPutsEveryUnitInItsResetState : Obligations.PinResetPutsEveryUnitInItsResetState := by
  intro s
  have status (n : Nat) : ({ State.reset with pending := s.pending } : State).status n = .absent :=
    congrArg RosterEntry.status (State.rosterEntry_reset n)
  have timer (n : Nat) : ({ State.reset with pending := s.pending } : State).silenceTimer n = .stopped :=
    congrArg RosterEntry.timer (State.rosterEntry_reset n)
  exact ⟨{ State.reset with pending := s.pending }, exec_pinReset s, rfl, rfl, rfl, rfl, rfl, rfl, fun _ => rfl, rfl, rfl,
    rfl, rfl, rfl, rfl, State.entry_reset, rfl, rfl, rfl, rfl, rfl, rfl, fun _ => ⟨rfl, rfl⟩,
    fun n => ⟨status n, timer n⟩, rfl, State.copy_reset, rfl, rfl, rfl, rfl, rfl, rfl, rfl, rfl, rfl, rfl⟩

/-! ### Precedence -/

/-- A snapshot passed over 4 times is granted first (R66). -/
theorem State.arbitrate_of_overdue {q : Snapshot} (free : s.mirror.holder = none) (waits : s.mirror.snapReq = some q)
    (overdue : 4 ≤ q.passes) : s.arbitrate = s.grantSnapshot q := by
  simp [State.arbitrate, free, waits, overdue, Option.filter]

/-- Where no snapshot is overdue, the application goes first, then the fill read, then the snapshot (R66). -/
theorem State.arbitrate_of_not_overdue (free : s.mirror.holder = none)
    (early : ∀ q, s.mirror.snapReq = some q → q.passes < 4) :
    s.arbitrate = if s.applicationWaits then s.grantApplication
      else match s.mirror.fillReq with
        | some r => s.grantFillRead r
        | none => match s.mirror.snapReq with
          | some q => s.grantSnapshot q
          | none => s := by
  have none_overdue : s.mirror.snapReq.filter (Config.passLimit ≤ ·.passes) = none := by
    rw [Option.filter_eq_none_iff]
    exact fun q waits => by simpa using early q waits
  rw [State.arbitrate, if_neg (by simp [free]), none_overdue] <;> rfl

theorem State.arbitrate_of_application (free : s.mirror.holder = none)
    (early : ∀ q, s.mirror.snapReq = some q → q.passes < 4) (waits : s.applicationWaits = true) :
    s.arbitrate = s.grantApplication := by
  rw [State.arbitrate_of_not_overdue free early, if_pos waits]

theorem State.arbitrate_of_fillRead {r : FillRead} (free : s.mirror.holder = none)
    (early : ∀ q, s.mirror.snapReq = some q → q.passes < 4) (idle : s.applicationWaits = false)
    (waits : s.mirror.fillReq = some r) : s.arbitrate = s.grantFillRead r := by
  rw [State.arbitrate_of_not_overdue free early, if_neg (by simp [idle]), waits]

theorem State.arbitrate_of_snapshot {q : Snapshot} (free : s.mirror.holder = none)
    (early : ∀ q, s.mirror.snapReq = some q → q.passes < 4) (idle : s.applicationWaits = false)
    (noFill : s.mirror.fillReq = none) (waits : s.mirror.snapReq = some q) : s.arbitrate = s.grantSnapshot q := by
  rw [State.arbitrate_of_not_overdue free early, if_neg (by simp [idle]), noFill, waits]

theorem State.grantApplication_holder (s : State) :
    s.grantApplication.mirror.holder = some (if s.mirror.zeroPending then .zeroFill false else .application) := by
  unfold State.grantApplication
  split <;> simp_all

theorem State.grantApplication_snapReq (s : State) :
    s.grantApplication.mirror.snapReq = s.passSnapshot.mirror.snapReq := by
  unfold State.grantApplication
  split <;> rfl

/-- A snapshot that another grant passes over has one pass more (R66). -/
theorem State.passSnapshot_passes {q : Snapshot} (waits : s.passSnapshot.mirror.snapReq = some q) :
    ∃ q', s.mirror.snapReq = some q' ∧ q.passes = q'.passes + 1 := by
  obtain ⟨q', before, rfl⟩ := Option.map_eq_some_iff.1 waits
  exact ⟨q', before, rfl⟩

/-- A snapshot still waiting beside a grant has been passed over once more (R66). -/
theorem State.arbitrate_passes (free : s.mirror.holder = none) (early : ∀ q, s.mirror.snapReq = some q → q.passes < 4)
    (granted : s.arbitrate.mirror.holder.isSome) {q : Snapshot} (waits : s.arbitrate.mirror.snapReq = some q) :
    ∃ q', s.mirror.snapReq = some q' ∧ q.passes = q'.passes + 1 := by
  rw [State.arbitrate_of_not_overdue free early] at granted waits
  split at waits
  · exact State.passSnapshot_passes (s.grantApplication_snapReq ▸ waits)
  · split at waits
    · exact State.passSnapshot_passes waits
    · split at waits
      · cases waits
      · simp_all

/-- Settles O45. -/
theorem arbiterGrantsByPrecedence : Obligations.ArbiterGrantsByPrecedence := by
  intro s free
  refine ⟨fun q waits overdue => ?_, fun early => ⟨fun founding => ?_, fun settled entries => ?_,
    fun settled empty => ⟨fun r waits => ?_, fun noFill q waits => ?_⟩,
    fun granted _ waits => State.arbitrate_passes free early granted waits⟩⟩
  · rw [State.arbitrate_of_overdue free waits overdue]
    exact ⟨rfl, rfl⟩
  · rw [State.arbitrate_of_application free early (by simp [State.applicationWaits, founding]),
      State.grantApplication_holder, founding]
    exact ⟨rfl, by simp [State.grantApplication, founding]⟩
  · rw [State.arbitrate_of_application free early (by simp [State.applicationWaits, entries]),
      State.grantApplication_holder, settled]
    rfl
  · rw [State.arbitrate_of_fillRead free early (by simp [State.applicationWaits, settled, empty]) waits]
    exact ⟨rfl, rfl⟩
  · rw [State.arbitrate_of_snapshot free early (by simp [State.applicationWaits, settled, empty]) noFill waits]
    rfl

end Sys2Proof.Machine
end

