-- ==== Sys2Proof/Proofs/Selections.lean ====
section
/-! The commands of a selection (R162 to R164): the end of a selection, the codes that name no command, STATUS, and the
taking of outcomes and changes (R167, R172, R173). -/

namespace Sys2Proof.Machine

variable {s : State}

/-! ### The rise of CS# (R162, R168, R173) -/

theorem exec_selectionEnd (selected : s.port.selected = true) (shifted : Nat) :
    exec (.selectionEnd shifted) s = .next (s.cutCommand shifted).closePort.arbitrate := by
  rw [exec, execSelectionEnd, if_pos selected]

theorem exec_selectionEnd_of_high (high : s.port.selected = false) (shifted : Nat) :
    exec (.selectionEnd shifted) s = .next s := by
  rw [exec, execSelectionEnd, if_neg (by simp [high])]

/-- With no selection SDO is high impedance (R162). -/
theorem State.sdoByte_of_high (high : s.port.selected = false) (code : Byte) (k : Nat) :
    s.sdoByte code k = .highImpedance := by
  simp [State.sdoByte, high]

/-- The end of a command leaves the outcome queue and the overflow flag (R172). -/
@[simp] theorem State.cutCommand_outcomes (s : State) (shifted : Nat) :
    (s.cutCommand shifted).report.outcomes = s.report.outcomes
      ∧ (s.cutCommand shifted).report.overflow = s.report.overflow := by
  unfold State.cutCommand
  (repeat' split) <;> exact ⟨rfl, rfl⟩

@[simp] theorem State.cutCommand_statusByte (s : State) (shifted : Nat) :
    (s.cutCommand shifted).port.statusByte = s.port.statusByte := by
  unfold State.cutCommand
  (repeat' split) <;> rfl

theorem State.cutCommand_reading {first : Word} (reading : s.port.cmd = .reading first) (shifted : Nat) :
    s.cutCommand shifted = s.dropSnapshot := by
  rw [State.cutCommand, reading]

theorem State.cutCommand_changes {windows : List Nat} (latched : s.port.cmd = .changesLatched windows)
    (shifted : Nat) : s.cutCommand shifted = s.putBackChanges (windows.drop (shifted - 1)) := by
  rw [State.cutCommand, latched]

/-- Only a cut TAKE CHANGES changes the reports (R173). -/
theorem State.cutCommand_report (other : ∀ windows, s.port.cmd ≠ .changesLatched windows) (shifted : Nat) :
    (s.cutCommand shifted).report = s.report := by
  unfold State.cutCommand
  split
  · rfl
  · split <;> rfl
  · exact absurd ‹_› (other _)
  all_goals rfl

/-- A read cut before its MARK byte puts back what its delivery had set (R168; log 17). -/
theorem State.cutCommand_burst {data : List Byte} {result : Result} {detail : Option TableFault} {cont : Word}
    (burst : s.port.cmd = .burst data 0 result detail cont) :
    s.cutCommand 0 = { s with port := { s.port with lastResult := result, lastDetail := detail, cont := cont } } := by
  rw [State.cutCommand, burst]
  rfl

/-- After any other command result, detail and address stand (R168). -/
theorem State.cutCommand_stands {shifted : Nat}
    (other : ∀ data result detail cont, s.port.cmd = .burst data 0 result detail cont → shifted ≠ 0) :
    (s.cutCommand shifted).port = s.port := by
  unfold State.cutCommand
  split
  · rfl
  · split
    · rename_i cut
      obtain ⟨rfl, zero⟩ := cut
      exact absurd zero (other _ _ _ _ ‹_›)
    · rfl
  all_goals rfl

/-- Without a waiting snapshot the arbiter grants none (R66). -/
theorem State.arbitrate_without_snapshot (withdrawn : s.mirror.snapReq = none) :
    s.arbitrate.mirror.snapReq = none ∧ ∀ q fresh discard, s.arbitrate.mirror.holder = some (.snapshot q fresh discard) →
      s.mirror.holder = some (.snapshot q fresh discard) := by
  by_cases held : s.mirror.holder.isSome = true
  · rw [State.arbitrate, if_pos held]
    exact ⟨withdrawn, fun _ _ _ same => same⟩
  · have free : s.mirror.holder = none := by simpa using held
    rw [State.arbitrate_of_not_overdue free (by simp [withdrawn])]
    split
    · refine ⟨by simp [State.grantApplication_snapReq, State.passSnapshot, withdrawn], fun q fresh discard granted => ?_⟩
      rw [State.grantApplication_holder] at granted
      split at granted <;> cases granted
    · split
      · exact ⟨by simp [State.grantFillRead, State.passSnapshot, withdrawn], fun _ _ _ granted => by cases granted⟩
      · rw [withdrawn]
        exact ⟨withdrawn, fun _ _ _ same => same⟩

/-- The end of a read before its delivery leaves no snapshot waiting, and a granted one to be discarded (R67, R168). -/
theorem State.dropSnapshot_dropped (s : State) :
    s.dropSnapshot.mirror.snapReq = none
      ∧ ∀ q fresh discard, s.dropSnapshot.mirror.holder = some (.snapshot q fresh discard) → discard = true := by
  refine ⟨rfl, fun q fresh discard held => ?_⟩
  unfold State.dropSnapshot at held
  dsimp only at held
  split at held
  · cases held
    rfl
  · rename_i other
    exact absurd held (other q fresh discard)

/-- Settles O47. -/
theorem selectionEndEndsTheCommand : Obligations.SelectionEndEndsTheCommand := by
  refine ⟨fun s shifted selected => ?_, fun s shifted high => exec_selectionEnd_of_high high shifted⟩
  refine ⟨_, exec_selectionEnd selected shifted, by apply State.eq_of_units <;> simp, by simp [State.closePort],
    by simp [State.closePort], by simp [State.closePort], by simp [State.closePort],
    State.sdoByte_of_high (by simp [State.closePort]), by simp, by simp, by simp [State.closePort], by simp [State.closePort],
    fun first reading => ?_, fun windows latched => ?_, fun data result detail cont burst zero => ?_,
    fun other => ?_, fun other => by simpa using State.cutCommand_report other shifted⟩
  · obtain ⟨gone, discarded⟩ := s.dropSnapshot_dropped
    rw [State.cutCommand_reading reading]
    obtain ⟨waits, held⟩ := State.arbitrate_without_snapshot (s := s.dropSnapshot.closePort) gone
    exact ⟨waits, fun q fresh discard granted => discarded q fresh discard (held q fresh discard granted)⟩
  · simp [State.cutCommand_changes latched, State.putBackChanges]
  · rw [zero, State.cutCommand_burst burst]
    simp [State.closePort]
  · simp [State.closePort, State.cutCommand_stands other]

/-! ### One command a selection (R162, R164) -/

/-- Outside a selection, and after its one command, no command is taken (R162). -/
theorem State.not_portReady (h : s.port.selected = false ∨ s.port.cmd ≠ .awaiting) : s.portReady = false := by
  rcases h with high | taken
  · simp [State.portReady, high]
  · simp [State.portReady, taken]

/-- After a complete response FF is shifted out (R162). -/
theorem State.sdoByte_of_complete (selected : s.port.selected = true) (complete : s.port.cmd = .complete) (code : Byte)
    (k : Nat) : s.sdoByte code k = .byte (s.port.response.getD k 0xFF) := by
  simp [State.sdoByte, selected, complete]

/-- Settles O48: a command byte is guarded by `portReady`, and ILLEGAL_CODE is an answer without a byte. -/
theorem oneCommandInASelection : Obligations.OneCommandInASelection := by
  refine ⟨fun s i closed command => ?_, fun s code selected awaiting unknown => ?_⟩
  · have barred : ¬ s.portReady = true := Bool.eq_false_iff.1 (State.not_portReady closed)
    rcases command with rfl | ⟨_, rfl⟩ | rfl | ⟨_, rfl⟩ | rfl | ⟨_, rfl⟩ | ⟨_, rfl⟩ | rfl | rfl | rfl | ⟨_, rfl⟩
      | ⟨_, rfl⟩ | ⟨_, _, _, _, _, _, _, _, rfl⟩ | ⟨_, rfl⟩ | rfl | rfl | ⟨_, rfl⟩
    case inr.inr.inr.inr.inr.inr.inr.inr.inr.inr.inr.inr.inr.inr.inr.inr =>
      exact congrArg Host.Outcome.next (if_neg fun taken => barred (Bool.and_eq_true_iff.1 taken).1)
    all_goals exact congrArg Host.Outcome.next (if_neg barred)
  · have taken : (s.portReady && !portCodes.contains code) = true := by
      rw [State.portReady_of selected awaiting, unknown]
      rfl
    refine ⟨_, congrArg Host.Outcome.next (if_pos taken), rfl, rfl, rfl, rfl, rfl, selected, fun code k => ?_⟩
    exact State.sdoByte_of_complete (s := s.answer .illegal []) selected rfl code k

/-! ### STATUS (R167, R187) -/

/-- The flag's byte is 01 or 00. -/
theorem byteOf_bitOf (b : Bool) : byteOf (bitOf b) = if b then 0x01 else 0x00 := by
  cases b <;> rfl

/-- The two detail bytes, spelled out (R187). -/
theorem detailBytes_eq (d : Option TableFault) :
    detailBytes d = match d with
      | none => [0x00, 0xFF]
      | some d => [byteOf d.test.code, byteOf (match d.entry with | some n => n | none => 0xFF)] := by
  rcases d with _ | ⟨test, _ | entry⟩ <;> rfl

/-- Settles O49: the response is `statusResponse`, whose detail bytes and flag byte are spelled out above, and the codes
agree case by case. -/
theorem statusShowsTheStationAndClearsOverflow : Obligations.StatusShowsTheStationAndClearsOverflow := by
  refine ⟨fun s selected awaiting => ?_, fun state => ?_, fun reason => ?_, fun result => ?_, fun test => ?_⟩
  · refine ⟨_, congrArg Host.Outcome.next (if_pos (State.portReady_of selected awaiting)), rfl, ?_⟩
    simp only [State.statusResponse, detailBytes_eq, byteOf_bitOf, twoBytes]
    cases s.port.lastDetail with
    | none => rfl
    | some d => cases d.entry <;> rfl
  · cases state <;> rfl
  · cases reason <;> rfl
  · cases result <;> rfl
  · cases test <;> rfl

/-! ### Taking outcomes and changes (R172, R173) -/

theorem recordBytes_length (kind : Nat) (tag : Option Byte) (window : Option Nat) (detail : List Byte) :
    (recordBytes kind tag window detail).length = 3 + detail.length := by
  simp only [recordBytes, List.length_append, List.length_cons, List.length_nil]

/-- An outcome record has five bytes (R188). -/
theorem OutcomeRecord.bytes_length (o : OutcomeRecord) : o.bytes.length = 5 := by
  cases o <;> exact recordBytes_length _ _ _ _

theorem exec_takeOutcome (selected : s.port.selected = true) (awaiting : s.port.cmd = .awaiting) :
    exec .takeOutcome s = .next s.latchOutcome :=
  congrArg Host.Outcome.next (if_pos (State.portReady_of selected awaiting))

/-- Settles O55. -/
theorem outcomesAndChangesAreTaken : Obligations.OutcomesAndChangesAreTaken := by
  refine ⟨fun s selected awaiting empty => ?_, fun s o rest selected awaiting queue => ⟨o.bytes_length, ?_⟩,
    fun s latched => ?_, fun s other => ?_, fun s shifted => ?_, fun s selected awaiting => ?_⟩
  · rw [exec_takeOutcome selected awaiting, State.latchOutcome, empty]
    rfl
  · rw [exec_takeOutcome selected awaiting, State.latchOutcome, queue]
    rfl
  · exact congrArg Host.Outcome.next (if_pos latched)
  · exact congrArg Host.Outcome.next (if_neg other)
  · cases selected : s.port.selected with
    | false => exact ⟨s, exec_selectionEnd_of_high selected shifted, rfl⟩
    | true => exact ⟨_, exec_selectionEnd selected shifted, by simp⟩
  · exact congrArg Host.Outcome.next (if_pos (State.portReady_of selected awaiting))

end Sys2Proof.Machine
end

