-- ==== Sys2Proof/Proofs/ReadsAndWrites.lean ====
section
/-! READ, READ ON, WRITE and WRITE ON (R49 to R53, R67, R76, R165, R168, R169): the burst, its snapshot, and what becomes
of a data byte offered. -/

namespace Sys2Proof.Machine

variable {s : State}

/-! ### The decoded run (R51, R168) -/

theorem State.runLength_succ (s : State) (a limit : Nat) :
    s.runLength a (limit + 1) = if s.sameRun a then 1 + s.runLength (a + 1) limit else 1 := rfl

theorem State.runLength_le (s : State) (limit : Nat) : ∀ a, s.runLength a limit ≤ limit := by
  induction limit with
  | zero => exact fun _ => Nat.le_refl 0
  | succ limit ih =>
    intro a
    have := ih (a + 1)
    rw [State.runLength_succ]
    split <;> omega

theorem State.runLength_pos (s : State) (a limit : Nat) : 1 ≤ s.runLength a (limit + 1) := by
  rw [State.runLength_succ]
  split <;> omega

/-- Every address of a run but its last lies in one run with its follower (R51). -/
theorem State.sameRun_of_lt_runLength (limit : Nat) :
    ∀ {a j : Nat}, j + 1 < s.runLength a limit → s.sameRun (a + j) = true := by
  induction limit with
  | zero => exact fun h => absurd h (Nat.not_lt_zero _)
  | succ limit ih =>
    intro a j inside
    rw [State.runLength_succ] at inside
    split at inside
    case isFalse => omega
    case isTrue joined =>
      cases j with
      | zero => exact joined
      | succ j =>
        have next := ih (a := a + 1) (j := j) (by omega)
        rwa [Nat.add_right_comm] at next

/-- A run shorter than the limit ends where the decoded run ends (R51). -/
theorem State.sameRun_at_end (limit : Nat) :
    ∀ {a : Nat}, s.runLength a (limit + 1) < limit + 1 → s.sameRun (a + s.runLength a (limit + 1) - 1) = false := by
  induction limit with
  | zero =>
    intro a short
    have := s.runLength_pos a 0
    omega
  | succ limit ih =>
    intro a short
    rw [State.runLength_succ] at short ⊢
    split at short
    case isFalse apart => rw [if_neg apart]; simpa using apart
    case isTrue joined =>
      have next := ih (a := a + 1) (by omega)
      rw [if_pos joined]
      rwa [← Nat.add_assoc]

/-! ### READ and READ ON (R165, R168) -/

theorem exec_read_of_ready {i : Instr} {first : Word} (ready : s.portReady = true)
    (read : i = .read first ∨ (i = .readOn ∧ s.port.cont = first)) : exec i s = .next (s.beginRead first) := by
  rcases read with rfl | ⟨rfl, rfl⟩ <;> exact congrArg Host.Outcome.next (if_pos ready)

/-- A read in a mirrored window asks for a snapshot (R67). -/
theorem State.beginRead_of_mirrored {first : Word} {w o : Nat} (decoded : s.decode first.toNat = some (w, o))
    (mirrored : (s.entry w).isMirrored = true) : s.beginRead first = s.requestSnapshot first w o := by
  rw [State.beginRead, decoded]
  exact if_pos mirrored

/-- A read anywhere else is answered with 00 bytes and UNMAPPED (R168). -/
theorem State.beginRead_of_not_mirrored {first : Word}
    (outside : ∀ w o, s.decode first.toNat = some (w, o) → (s.entry w).isMirrored = false) :
    s.beginRead first = s.deliver first (List.replicate (s.burstLength first.toNat) 0x00) .unmapped := by
  rw [State.beginRead]
  split
  · rename_i w o decoded
    exact if_neg (by simp [outside w o decoded])
  · rfl

/-- With the memory taken the request waits (R66). -/
theorem State.arbitrate_of_held (held : s.mirror.holder.isSome = true) : s.arbitrate = s := if_pos held

/-- Settles O50. -/
theorem readAsksForASnapshotOrAnswersUnmapped : Obligations.ReadAsksForASnapshotOrAnswersUnmapped := by
  refine ⟨fun s i first selected awaiting read => ?_, fun s data out result detail cont burst => ?_, fun s a => ?_⟩
  · have taken := exec_read_of_ready (State.portReady_of selected awaiting) read
    refine ⟨⟨s.runLength_pos _ _, s.runLength_le _ _, fun j => State.sameRun_of_lt_runLength 32,
      State.sameRun_at_end 31⟩, fun w o decoded mirrored => ⟨_, taken, ?_⟩, fun outside => ?_⟩
    · rw [State.beginRead_of_mirrored decoded mirrored, State.requestSnapshot]
      refine ⟨by apply State.eq_of_units <;> simp, fun code k => by simp [State.sdoByte, selected], by simp, by simp,
        fun held => ?_, fun free founded empty noFill => ?_⟩
      · refine congrArg State.mirror (State.arbitrate_of_held ?_)
        exact held
      · refine congrArg State.mirror (State.arbitrate_of_snapshot ?_ (fun q waits => ?_) ?_ ?_ rfl)
        · exact free
        · cases waits
          exact Nat.zero_lt_succ 3
        · simp [State.applicationWaits, founded, empty]
        · exact noFill
    · rw [taken, State.beginRead_of_not_mirrored outside]
      rfl
  · refine congrArg Host.Outcome.next ?_
    rw [State.byteOut, burst]
  · refine ⟨fun stopped => if_pos stopped, fun running w o => ?_, s.sameRun_iff a⟩
    simp only [State.decode_iff running, Entry.contains_iff, Bool.eq_false_iff, ne_eq, not_and, and_assoc]

/-! ### WRITE and WRITE ON (R169) -/

theorem exec_write_of_ready {i : Instr} {first : Word} (ready : s.portReady = true)
    (write : i = .write first ∨ (i = .writeOn ∧ s.port.cont = first)) : exec i s = .next (s.beginWrite first) := by
  rcases write with rfl | ⟨rfl, rfl⟩ <;> exact congrArg Host.Outcome.next (if_pos ready)

theorem exec_writeDataByte_of_writing (selected : s.port.selected = true) (writing : s.port.cmd = .writing) (b : Byte) :
    exec (.writeDataByte b) s = .next (s.writeByte b) :=
  congrArg Host.Outcome.next (if_pos (by simp [selected, writing]))

theorem State.writeVerdict_of_decode {a w o : Nat} (decoded : s.decode a = some (w, o)) :
    s.writeVerdict a = if s.mayWrite w then .permitted w o else .denied := by
  rw [State.writeVerdict, decoded]

/-- The policy permits a write to every station, to the owner, or to a station with a hold that stands (R53). -/
theorem State.mayWrite_iff (s : State) (w : Nat) :
    s.mayWrite w = true ↔ (s.entry w).policy = .shared ∨ ((s.entry w).policy = .owned ∧ (s.entry w).owner = some s.station)
      ∨ ((s.entry w).policy = .guarded ∧ (s.holdOf w = .claiming ∨ s.holdOf w = .waiting ∨ s.holdOf w = .held)) := by
  unfold State.mayWrite
  cases (s.entry w).policy with
  | shared => simp
  | owned => simp
  | guarded => cases s.holdOf w <;> simp

/-- The policy denies a write to a station that is not the owner, or has no hold or an EXPIRING one (R53). -/
theorem State.mayWrite_eq_false_iff (s : State) (w : Nat) :
    s.mayWrite w = false ↔ (s.entry w).policy = .owned ∧ (s.entry w).owner ≠ some s.station
      ∨ (s.entry w).policy = .guarded ∧ (s.holdOf w = .unheld ∨ s.holdOf w = .expiring) := by
  unfold State.mayWrite
  cases (s.entry w).policy with
  | shared => simp
  | owned => simp
  | guarded => cases s.holdOf w <;> simp

theorem State.writeByte_of_unmapped (outside : s.decode s.port.cont.toNat = none) (b : Byte) :
    s.writeByte b = s.refuseByte .unmapped := by
  rw [State.writeByte, State.writeVerdict, outside]

theorem State.writeByte_of_denied {w o : Nat} (decoded : s.decode s.port.cont.toNat = some (w, o))
    (denied : s.mayWrite w = false) (b : Byte) : s.writeByte b = s.refuseByte .denied := by
  rw [State.writeByte, State.writeVerdict_of_decode decoded, if_neg (by simp [denied])]

theorem State.writeByte_of_not_active {w o : Nat} (decoded : s.decode s.port.cont.toNat = some (w, o))
    (permitted : s.mayWrite w = true) (other : s.ctl.state ≠ .active) (b : Byte) :
    s.writeByte b = s.refuseByte .notActive := by
  rw [State.writeByte, State.writeVerdict_of_decode decoded, if_pos permitted]
  exact if_pos (by simp [State.isActive, other])

/-- In ACTIVE a permitted byte is placed, or refused for want of a place (R76, R169). -/
theorem State.writeByte_of_active {w o : Nat} (decoded : s.decode s.port.cont.toNat = some (w, o))
    (permitted : s.mayWrite w = true) (active : s.ctl.state = .active) (b : Byte) :
    s.writeByte b = ((s.placeByte w o b).map State.advanceCont).getD (s.refuseByte .full) := by
  rw [State.writeByte, State.writeVerdict_of_decode decoded, if_pos permitted]
  refine (if_neg (by simp [State.isActive, active])).trans ?_
  cases s.placeByte w o b <;> rfl

/-- A record that a byte does not continue is not joined (R76). -/
theorem PubRecord.join_eq_none {r : PubRecord} {w o : Nat} {b : Byte}
    (apart : ∀ offset data, r.kind = .write offset data →
      ¬ (r.selected = false ∧ r.window = w ∧ data.length < 32 ∧ o = offset + data.length)) : r.join w o b = none := by
  unfold PubRecord.join
  split
  · rename_i offset data write
    refine if_neg fun joins => apart offset data write ?_
    simpa [and_assoc] using joins
  · rfl
  · rfl

/-- The tail is not joined where the byte does not continue it (R76). -/
theorem State.joinedTail_eq_none {w o : Nat} {b : Byte}
    (apart : ∀ tail offset data, s.pub.queue.getLast? = some tail → tail.kind = .write offset data →
      ¬ (tail.selected = false ∧ tail.window = w ∧ data.length < 32 ∧ o = offset + data.length)) :
    s.joinedTail w o b = none :=
  Option.bind_eq_none_iff.2 fun tail last => PubRecord.join_eq_none fun offset data => apart tail offset data last

/-- A byte that continues the tail record joins it (R76). -/
theorem State.placeByte_of_tail {records : List PubRecord} {tag : Byte} {w offset : Nat} {data : List Byte}
    (tail : s.pub.queue = records ++ [{ kind := .write offset data, tag := tag, window := w, selected := false }])
    (room : data.length < 32) (b : Byte) :
    s.placeByte w (offset + data.length) b = some { s with
      pub := { s.pub with
        queue := records ++ [{ kind := .write offset (data ++ [b]), tag := tag, window := w, selected := false }]
        lastTag := tag } } := by
  have joined : s.joinedTail w (offset + data.length) b
      = some { kind := .write offset (data ++ [b]), tag := tag, window := w, selected := false } := by
    rw [State.joinedTail, tail, List.getLast?_append]
    exact if_pos (by simpa using room)
  simp [State.placeByte, joined, tail]

/-- A byte that does not continue the tail makes a record while there is room (R76). -/
theorem State.placeByte_of_apart {w o : Nat} {b : Byte} (apart : s.joinedTail w o b = none) :
    s.placeByte w o b = if s.pub.queue.length < 16 then some (s.makeRecord (.write o [b]) w) else none := by
  rw [State.placeByte, apart]

/-- Settles O51: the tests in their order, each a lemma above. -/
theorem writeByteIsPlacedOrRefused : Obligations.WriteByteIsPlacedOrRefused := by
  refine ⟨fun s i first selected awaiting write => ?_, fun s b selected writing => ?_⟩
  · exact ⟨_, exec_write_of_ready (State.portReady_of selected awaiting) write,
      fun code k => by simp [State.sdoByte, State.beginWrite, selected], rfl⟩
  · rw [exec_writeDataByte_of_writing selected writing]
    refine ⟨fun outside => ?_, fun w o decoded => ⟨fun denied => ?_, fun policy => ⟨fun other => ?_, fun active => ?_⟩⟩⟩
    · rw [State.writeByte_of_unmapped outside]
      rfl
    · rw [State.writeByte_of_denied decoded ((s.mayWrite_eq_false_iff w).2 denied)]
      rfl
    · rw [State.writeByte_of_not_active decoded ((s.mayWrite_iff w).2 policy) other]
      rfl
    · rw [State.writeByte_of_active decoded ((s.mayWrite_iff w).2 policy) active]
      refine ⟨fun records tag offset data tail room continues => ?_, fun apart room => ?_, fun apart full => ?_⟩
      · rw [continues, State.placeByte_of_tail tail room]
        rfl
      · rw [State.placeByte_of_apart (State.joinedTail_eq_none apart), if_pos room]
        rfl
      · rw [State.placeByte_of_apart (State.joinedTail_eq_none apart), if_neg (Nat.not_lt.2 full)]
        rfl

end Sys2Proof.Machine
end

