-- ==== Sys2Proof/Proofs/HostClaims.lean ====
section
/-! CLAIM and RELEASE of the host (R75, R107, R108, R170): the first result that applies, and what each result changes. -/

namespace Sys2Proof.Machine

variable {s : State}

/-! ### CLAIM (R107) -/

theorem holdsClaim_iff (records : List PubRecord) (w : Nat) :
    holdsClaim records w = true ↔ ∃ r ∈ records, r.kind = .claim ∧ r.window = w := by
  simp [holdsClaim]

theorem State.isActive_eq_false_iff (s : State) : s.isActive = false ↔ s.ctl.state ≠ .active := by
  simp [State.isActive]

/-- CLAIM gives the first result of R107 that applies. -/
theorem State.hostClaim_result (s : State) (w : Nat) :
    (s.hostClaim w).2 = (if s.ctl.state ≠ .active then Result.notActive
      else if (s.entry w).isGuarded = false then .notGuarded
      else if s.inQueue w = true ∨ (∃ r ∈ s.pub.queue, r.kind = .claim ∧ r.window = w) then .redundant
      else if 16 ≤ s.pub.queue.length then .full
      else .done) := by
  simp only [← holdsClaim_iff, State.hostClaim, apply_ite Prod.snd, Bool.not_eq_true', State.isActive_eq_false_iff,
    State.namesGuarded, Bool.or_eq_true]

/-- CLAIM has an effect with DONE alone (R107). -/
theorem State.hostClaim_effect (s : State) (w : Nat) :
    (s.hostClaim w).1 = if (s.hostClaim w).2 = .done then
        (s.makeRecord .claim w).setGuard w fun g => { g with hold := .claiming }
      else s := by
  unfold State.hostClaim
  split
  · rfl
  split
  · rfl
  split
  · rfl
  split <;> rfl

theorem exec_claim_of_ready (ready : s.portReady = true) (window : Byte) :
    exec (.claim window) s =
      .next (((s.hostClaim window.toNat).1.answerResult (s.hostClaim window.toNat).2).settleMemory) :=
  congrArg Host.Outcome.next (if_pos ready)

/-- Settles O52. -/
theorem claimIsAnsweredAndQueued : Obligations.ClaimIsAnsweredAndQueued := by
  intro s window selected awaiting
  have effect := s.hostClaim_effect window.toNat
  refine ⟨_, _, exec_claim_of_ready (State.portReady_of selected awaiting) window, s.hostClaim_result window.toNat,
    ?_, by simp, by simp, ?_, fun done => ?_, fun other => ?_⟩
  · apply State.eq_of_units <;> simp
  · simp [State.answerResult, State.answer]
  · rw [if_pos done] at effect
    simp only [State.settleMemory_frame, State.answerResult_frame, effect]
    exact ⟨rfl, rfl, rfl, rfl⟩
  · rw [if_neg other] at effect
    simp [effect]

/-! ### RELEASE (R108) -/

/-- An unselected CLAIM record of the window is found where there is one (R108). -/
theorem State.unselectedClaim_isSome_iff (s : State) (w : Nat) :
    (s.unselectedClaim w).isSome = true ↔ ∃ r ∈ s.pub.queue, r.kind = .claim ∧ r.window = w ∧ r.selected = false := by
  simp [State.unselectedClaim, List.find?_isSome, and_assoc]

/-- RELEASE gives the first case of R108 that applies. -/
theorem State.hostRelease_result (s : State) (w : Nat) :
    (s.hostRelease w).2 = (if s.ctl.state ≠ .active then Result.notActive
      else if (s.entry w).isGuarded = false then .notGuarded
      else if ∃ r ∈ s.pub.queue, r.kind = .claim ∧ r.window = w ∧ r.selected = false then .cancelledLocal
      else if s.inQueue w = false ∧ (∀ r ∈ s.pub.queue, ¬ (r.kind = .claim ∧ r.window = w)) then .redundant
      else if 16 ≤ s.pub.queue.length then .full
      else .done) := by
  have unclaimed : holdsClaim s.pub.queue w = false ↔ ∀ r ∈ s.pub.queue, ¬ (r.kind = .claim ∧ r.window = w) := by
    simp [holdsClaim]
  simp only [← State.unselectedClaim_isSome_iff, ← unclaimed, State.hostRelease, apply_ite Prod.snd, Bool.not_eq_true',
    State.isActive_eq_false_iff, State.namesGuarded]
  cases s.unselectedClaim w with
  | none => simp [apply_ite Prod.snd]
  | some r => simp

/-- RELEASE cancels the unselected CLAIM record, makes a RELEASE record with DONE, and has no other effect (R108). -/
theorem State.hostRelease_effect (s : State) (w : Nat) :
    (s.hostRelease w).1 = if (s.hostRelease w).2 = .done then s.makeRecord .release w
      else if (s.hostRelease w).2 = .cancelledLocal then ((s.unselectedClaim w).map s.cancelClaim).getD s
      else s := by
  unfold State.hostRelease
  split
  · rfl
  split
  · rfl
  split
  · rename_i found
    rw [found]
    rfl
  split
  · rfl
  split <;> rfl

theorem exec_release_of_ready (ready : s.portReady = true) (window : Byte) :
    exec (.release window) s =
      .next (((s.hostRelease window.toNat).1.answerResult (s.hostRelease window.toNat).2).settleMemory) :=
  congrArg Host.Outcome.next (if_pos ready)

/-- The first unselected CLAIM record of the window is the one cancelled (R108). -/
theorem State.unselectedClaim_of_split {w : Nat} {ahead rest : List PubRecord} {r : PubRecord}
    (queue : s.pub.queue = ahead ++ r :: rest) (here : r.kind = .claim ∧ r.window = w ∧ r.selected = false)
    (first : ∀ x ∈ ahead, ¬ (x.kind = .claim ∧ x.window = w ∧ x.selected = false)) :
    s.unselectedClaim w = some r := by
  rw [State.unselectedClaim, List.find?_eq_some_iff_append]
  refine ⟨by simp [here], ahead, rest, queue, fun x earlier => ?_⟩
  rw [Bool.not_eq_true', Bool.eq_false_iff]
  simpa [and_assoc] using first x earlier

/-- The record cancelled leaves the queue, those around it keeping their order (R108). -/
theorem erase_of_split {ahead rest : List PubRecord} {r : PubRecord} (first : r ∉ ahead) :
    (ahead ++ r :: rest).erase r = ahead ++ rest := by
  rw [List.erase_append_right _ first, List.erase_cons_head]

/-- Settles O53. -/
theorem releaseCancelsOrQueues : Obligations.ReleaseCancelsOrQueues := by
  intro s window selected awaiting
  have effect := s.hostRelease_effect window.toNat
  refine ⟨_, _, exec_release_of_ready (State.portReady_of selected awaiting) window, s.hostRelease_result window.toNat,
    ?_, by simp, by simp, ?_, fun ahead r rest cancelled queue here first => ?_, fun done => ?_, fun other kept => ?_⟩
  · apply State.eq_of_units <;> simp
  · simp [State.answerResult, State.answer]
  · rw [cancelled, if_neg (by decide), if_pos rfl, State.unselectedClaim_of_split queue here first] at effect
    have gone : s.pub.queue.erase r = ahead ++ rest := by
      rw [queue]
      exact erase_of_split fun inside => first r inside here
    obtain ⟨-, named, -⟩ := here
    rw [← named] at effect ⊢
    simp only [State.settleMemory_frame, State.answerResult_frame, effect]
    exact ⟨by simp [State.cancelClaim, gone], by simp [State.cancelClaim, State.setGuard],
      State.post_report (by rfl) _⟩
  · rw [if_pos done] at effect
    simp only [State.settleMemory_frame, State.answerResult_frame, effect]
    exact ⟨rfl, rfl, rfl, rfl, rfl⟩
  · rw [if_neg other, if_neg kept] at effect
    simp [effect]

end Sys2Proof.Machine
end

