-- ==== Sys2Proof/Proofs/LoadAndStart.lean ====
section
/-! LOAD ENTRY and START (R47, R55 to R57, R149, R166, R175, R181): the fields a table entry takes, a grant left over from
the run that ended, and the first state of LISTENING. -/

namespace Sys2Proof.Machine

variable {s t : State}

/-! ### The fields of LOAD ENTRY (R184, R189) -/

theorem Policy.ofCode_eq (c : Byte) : Policy.ofCode c =
    if c = 0x01 then some .owned else if c = 0x02 then some .shared else if c = 0x03 then some .guarded else none := by
  unfold Policy.ofCode
  split
  · rfl
  · rfl
  · rfl
  · simp_all

/-- A field that names nothing makes the bytes no entry; else each field is taken (R47, R184, R189). -/
theorem Entry.ofPortBytes_eq (flags policy : Byte) (base : Word) (size owner lease loc : Byte) :
    Entry.ofPortBytes flags policy base size owner lease loc =
      if (policy ≠ 0x01 ∧ policy ≠ 0x02 ∧ policy ≠ 0x03) ∨ 8 < size.toNat ∨ (31 < owner.toNat ∧ owner ≠ 0xFF) then none
      else some
        { enabled := flags.getLsbD 0, base := base, size := size.toNat
          policy := if policy = 0x01 then .owned else if policy = 0x02 then .shared else .guarded
          owner := if owner = 0xFF then none else some owner.toNat
          lease := lease, mirrored := flags.getLsbD 1, loc := loc, watched := flags.getLsbD 2 } := by
  rw [Entry.ofPortBytes, Policy.ofCode_eq]
  by_cases owned : policy = 0x01
  · simp [owned, ite_or]
  by_cases shared : policy = 0x02
  · simp [shared, ite_or]
  by_cases guarded : policy = 0x03
  · simp [guarded, ite_or]
  · rw [if_neg owned, if_neg shared, if_neg guarded]
    exact (if_pos (.inl ⟨owned, shared, guarded⟩)).symm

theorem Entry.ofPortBytes_eq_none_iff (flags policy : Byte) (base : Word) (size owner lease loc : Byte) :
    Entry.ofPortBytes flags policy base size owner lease loc = none ↔
      (policy ≠ 0x01 ∧ policy ≠ 0x02 ∧ policy ≠ 0x03) ∨ 8 < size.toNat ∨ (31 < owner.toNat ∧ owner ≠ 0xFF) := by
  rw [Entry.ofPortBytes_eq]
  split
  · rename_i bad
    exact iff_of_true rfl bad
  · rename_i good
    exact iff_of_false (by simp) good

/-! ### LOAD ENTRY (R47, R166, R175) -/

/-- LOAD ENTRY gives the first result that applies (R166, R175). -/
theorem State.hostLoad_result (s : State) (index : Nat) (loaded : Option Entry) :
    (s.hostLoad index loaded).2 = if s.ctl.state ≠ .stopped then .wrongState
      else if 15 < index ∨ loaded = none then .illegal else .done := by
  unfold State.hostLoad
  split
  · rfl
  · split
    · rename_i past
      rw [if_pos (.inl past)]
    · rename_i inside
      cases loaded with
      | none => rw [if_pos (.inr rfl)]
      | some e => rw [if_neg (by simpa using Nat.le_of_lt_succ (Nat.lt_of_not_le inside))]

theorem State.hostLoad_of_refused {index : Nat} {loaded : Option Entry} (refused : (s.hostLoad index loaded).2 ≠ .done) :
    (s.hostLoad index loaded).1 = s := by
  unfold State.hostLoad at refused ⊢
  split at refused
  · rename_i running
    rw [if_pos running]
  · rename_i stopped
    rw [if_neg stopped]
    split at refused
    · rename_i past
      rw [if_pos past]
    · rename_i inside
      rw [if_neg inside]
      cases loaded with
      | none => rfl
      | some e => exact absurd rfl refused

theorem State.hostLoad_of_done {index : Nat} {loaded : Option Entry} (done : (s.hostLoad index loaded).2 = .done) :
    ∃ e, loaded = some e ∧ index ≤ 15 ∧ (s.hostLoad index loaded).1 = s.setTableEntry index e := by
  unfold State.hostLoad at done ⊢
  split at done
  · cases done
  · rename_i stopped
    rw [if_neg stopped]
    split at done
    · cases done
    · rename_i inside
      rw [if_neg inside]
      cases loaded with
      | none => cases done
      | some e => exact ⟨e, rfl, Nat.le_of_lt_succ (Nat.lt_of_not_le inside), rfl⟩

/-- A loaded window stays in the change set where its new entry is watched (R181). -/
theorem State.setTableEntry_changes {index : Nat} {e : Entry} (inside : index < s.layout.table.length) :
    (s.setTableEntry index e).report.changes =
      if e.isWatched then s.report.changes else s.report.changes.filter (· != index) := by
  have loaded : ({ s.finishWithdrawn with layout.table := s.layout.table.set index e } : State).entry index = e := by
    simp [State.entry, inside]
  exact (congrArg (fun f : Entry => if f.isWatched then s.finishWithdrawn.report.changes
    else s.finishWithdrawn.report.changes.filter (· != index)) loaded).trans (by simp)

@[simp] theorem State.setTableEntry_layout (s : State) (index : Nat) (e : Entry) :
    (s.setTableEntry index e).layout = { s.layout with table := s.layout.table.set index e } := by
  simp [State.setTableEntry]

@[simp] theorem State.setTableEntry_mirror (s : State) (index : Nat) (e : Entry) :
    (s.setTableEntry index e).mirror = s.finishWithdrawn.mirror := by
  simp [State.setTableEntry]

@[simp] theorem State.setTableEntry_outcomes (s : State) (index : Nat) (e : Entry) :
    (s.setTableEntry index e).report.outcomes = s.report.outcomes := by
  simp [State.setTableEntry, State.keepIfWatched]

/-! ### A grant left over (R64, R71) -/

theorem State.finishWithdrawn_of_application {e : Inbound} {rest : List Inbound}
    (held : s.mirror.holder = some .application) (queue : s.mirror.inbound = e :: rest) :
    s.finishWithdrawn = (s.applyEntry e rest).releaseMemory := by
  rw [State.finishWithdrawn, held, queue]

theorem State.finishWithdrawn_of_zeroFill {ended : Bool} (held : s.mirror.holder = some (.zeroFill ended)) :
    s.finishWithdrawn = s.zeroRanges.releaseMemory := by
  rw [State.finishWithdrawn, held]

/-- A zero-fill touches no byte outside the mirrored local ranges (R70). -/
theorem State.read_zeroRanges_of_not_owned (s : State) {a : Nat} (outside : ownedLocal s.layout.table a = false) :
    Memory.read s.zeroRanges.mirror.mem a = Memory.read s.mirror.mem a := by
  refine Memory.read_keep_wanted s.mirror.mem (wanted := fun a => !ownedLocal s.layout.table a) ?_
  rw [outside]
  rfl

theorem State.finishWithdrawn_of_free (free : s.mirror.holder = none) : s.finishWithdrawn = s := by
  rw [State.finishWithdrawn, free]

/-- Any other grant writes nothing (R64, R71). -/
theorem State.finishWithdrawn_of_other (application : s.mirror.holder = some .application → s.mirror.inbound = [])
    (zeroFill : ∀ ended, s.mirror.holder ≠ some (.zeroFill ended)) :
    s.finishWithdrawn.mirror.inbound = s.mirror.inbound ∧ s.finishWithdrawn.mirror.mem = s.mirror.mem := by
  unfold State.finishWithdrawn
  split
  · rename_i held queue
    cases (application held).symm.trans queue
  · exact ⟨rfl, rfl⟩
  · exact absurd ‹_› (zeroFill _)
  all_goals exact ⟨rfl, rfl⟩

theorem State.finishWithdrawn_wf (canonical : Memory.wf s.mirror.mem) : Memory.wf s.finishWithdrawn.mirror.mem := by
  unfold State.finishWithdrawn
  split
  · exact Memory.wf_writeBytes canonical _ _
  · exact canonical
  · rename_i ended _ _
    exact Memory.wf_keep canonical fun a => !ownedLocal s.layout.table a
  all_goals exact canonical

theorem exec_loadEntry_of_ready (ready : s.portReady = true) (index flags policy : Byte) (base : Word)
    (size owner lease loc : Byte) :
    exec (.loadEntry index flags policy base size owner lease loc) s =
      .next (((s.hostLoad index.toNat (Entry.ofPortBytes flags policy base size owner lease loc)).1.answerResult
        (s.hostLoad index.toNat (Entry.ofPortBytes flags policy base size owner lease loc)).2).arbitrate) :=
  congrArg Host.Outcome.next (if_pos ready)

/-- Settles O58. -/
theorem loadEntryReplacesTheEntryWhole : Obligations.LoadEntryReplacesTheEntryWhole := by
  intro s index flags policy base size owner lease loc selected awaiting table
  refine ⟨_, (s.hostLoad index.toNat (Entry.ofPortBytes flags policy base size owner lease loc)).2,
    exec_loadEntry_of_ready (State.portReady_of selected awaiting) index flags policy base size owner lease
    loc, ?_, ?_, ?_, ?_, ?_, fun refused => ?_, fun done => ?_, fun done => ?_⟩
  · simp only [State.hostLoad_result, Entry.ofPortBytes_eq_none_iff]
  · simp [State.answerResult, State.answer]
  · apply State.eq_of_units <;> simp
  · by_cases done : (s.hostLoad index.toNat (Entry.ofPortBytes flags policy base size owner lease loc)).2 = .done
    · obtain ⟨e, -, -, effect⟩ := State.hostLoad_of_done done
      simp [effect]
    · simp [State.hostLoad_of_refused done]
  · by_cases done : (s.hostLoad index.toNat (Entry.ofPortBytes flags policy base size owner lease loc)).2 = .done
    · obtain ⟨e, -, -, effect⟩ := State.hostLoad_of_done done
      simp [effect]
    · simp [State.hostLoad_of_refused done]
  · simp [State.hostLoad_of_refused refused]
  · obtain ⟨e, -, -, effect⟩ := State.hostLoad_of_done done
    simp only [State.arbitrate_inbound, State.arbitrate_mem, State.answerResult_frame, effect, State.setTableEntry_mirror]
    refine ⟨fun head rest held queue => ?_, fun ended held => ?_, State.finishWithdrawn_of_other⟩
    · rw [State.finishWithdrawn_of_application held queue]
      exact ⟨rfl, fun a outside => Memory.read_writeBytes_outside _ _ _ outside⟩
    · rw [State.finishWithdrawn_of_zeroFill held]
      exact ⟨rfl, fun a outside => s.read_zeroRanges_of_not_owned outside⟩
  · obtain ⟨e, named, inside, effect⟩ := State.hostLoad_of_done done
    rw [Entry.ofPortBytes_eq] at named
    split at named
    · cases named
    · cases named
      simp [effect, State.setTableEntry_changes (show index.toNat < s.layout.table.length by omega), Entry.isWatched,
        Entry.isMirrored, and_assoc]

end Sys2Proof.Machine
end

