-- ==== Sys2Proof/Proofs/Start.lean ====
section
/-! START (R55 to R57, R149, R175, R181): the result that applies, and the first state of LISTENING unit by unit. -/

namespace Sys2Proof.Machine

variable {s t : State}

/-! ### Cleared tables -/

/-- A cleared roster holds every station ABSENT, its timer stopped (R114, R129). -/
theorem State.status_of_cleared (cleared : t.roster.entries = List.replicate Config.stations RosterEntry.reset) (n : Nat) :
    t.status n = .absent ∧ t.silenceTimer n = .stopped := by
  have entry : t.roster.entries.getD n RosterEntry.reset = RosterEntry.reset := by
    rw [cleared, List.getD_eq_getElem?_getD]
    exact List.getElem?_getD_replicate_default_eq RosterEntry.reset Config.stations n
  exact ⟨congrArg RosterEntry.status entry, congrArg RosterEntry.timer entry⟩

/-- The outcomes after a post depend on the outcomes before it alone (R177). -/
theorem State.post_outcomes (same : s.report.outcomes = t.report.outcomes) (o : OutcomeRecord) :
    (s.post o).report.outcomes = (t.post o).report.outcomes := by
  unfold State.post
  rw [same]
  split
  · exact rfl
  · exact same

@[simp] theorem State.post_changes (s : State) (o : OutcomeRecord) : (s.post o).report.changes = s.report.changes := by
  unfold State.post
  split <;> rfl

/-! ### The result of START (R149, R166) -/

theorem exec_start_of_ready (ready : s.portReady = true) : exec .start s = .next s.hostStart.arbitrate :=
  congrArg Host.Outcome.next (if_pos ready)

theorem State.hostStart_of_running (running : s.ctl.state ≠ .stopped) : s.hostStart = s.answerStart .wrongState none :=
  if_pos running

theorem State.hostStart_of_fault {d : TableFault} (stopped : s.ctl.state = .stopped)
    (fault : validate s.layout.table = some d) : s.hostStart = s.answerStart .tableError (some d) := by
  rw [State.hostStart, if_neg (by simp [stopped]), fault]

theorem State.hostStart_of_valid (stopped : s.ctl.state = .stopped) (valid : validate s.layout.table = none) :
    s.hostStart = s.startStation.answerStart .done none := by
  rw [State.hostStart, if_neg (by simp [stopped]), valid]

/-! ### The first state of LISTENING (R56, R91, R129, R144, R149) -/

theorem State.startStation_claims (s : State) : s.startStation.claims = freshGuards s.layout.table := by
  simp [State.startStation, State.startTable]

theorem freshGuards_windows (table : List Entry) : (freshGuards table).map (·.window) = guardWindows table := by
  simp [freshGuards, Function.comp_def]

theorem freshGuards_cleared {table : List Entry} {g : Guard} (fresh : g ∈ freshGuards table) :
    g.queue = [] ∧ g.hold = .unheld ∧ g.lease = .stopped ∧ g.tag = none := by
  obtain ⟨w, -, rfl⟩ := List.mem_map.1 fresh
  exact ⟨rfl, rfl, rfl, rfl⟩

@[simp] theorem State.startStation_layout (s : State) :
    s.startStation.layout = { s.layout with signature := signatureOf s.layout.table } := by
  simp [State.startStation, State.startTable]

@[simp] theorem State.startStation_mem (s : State) :
    s.startStation.mirror.mem = Memory.keep s.finishWithdrawn.mirror.mem (ownedLocal s.layout.table) := by
  simp [State.startStation, State.startMemory]

@[simp] theorem State.startStation_inbound (s : State) : s.startStation.mirror.inbound = [] := by
  simp [State.startStation, State.startMemory, State.clearService, State.emptyChunk, State.discardFillRead]

@[simp] theorem State.startStation_refresh (s : State) :
    s.startStation.refresh = { copies := s.refresh.copies.map fun _ => Copy.reset, service := [] } := by
  simp [State.startStation, State.clearCopies, State.mapCopies, State.clearService]

@[simp] theorem State.startStation_roster (s : State) :
    s.startStation.roster = { entries := List.replicate Config.stations RosterEntry.reset, announce := .stopped } := by
  simp [State.startStation, State.clearRoster]

@[simp] theorem State.startStation_sched (s : State) :
    s.startStation.sched = { control := [], inflight := none, turn := .publications, chunk := none } := by
  simp [State.startStation, State.clearService, State.emptyChunk, State.clearControl, State.resetTurn]

@[simp] theorem State.startStation_line (s : State) :
    s.startStation.line = { Line.reset with awaitSync := true } := by
  simp [State.startStation, State.startLine]

@[simp] theorem State.startStation_rx (s : State) :
    s.startStation.rx = { frame := none, objectionRun := 0, cleanRun := 0 } := by
  simp [State.startStation, State.startLine]

@[simp] theorem State.startStation_pub (s : State) : s.startStation.pub = { s.pub with queue := [] } := by
  simp [State.startStation]

@[simp] theorem State.startStation_ctl (s : State) :
    s.startStation.ctl =
      { state := .listening, reason := .start, censusPending := false, answer := .stopped, foundingDue := false
        abandonDue := false } := by
  simp [State.startStation]

theorem State.startStation_outcomes (s : State) :
    s.startStation.report.outcomes = (s.post (.state .listening .start)).report.outcomes :=
  State.post_outcomes (by simp [State.startTable]) _

theorem State.startStation_changes (s : State) :
    s.startStation.report.changes = s.report.changes.filter fun w => (s.entry w).isWatched := by
  simp [State.startStation, State.moveTo, State.startTable, State.entry]

/-- A cleared copy record has both fill points at 0 (R144). -/
theorem State.copy_of_cleared (cleared : t.refresh.copies = s.refresh.copies.map fun _ => Copy.reset) (w : Nat) :
    t.copy w = Copy.reset := by
  rw [← s.copy_clearCopies w, State.copy, cleared]
  rfl

/-- START's answer on the port: the result with its two detail bytes (R164, R175). -/
theorem State.answerStart_port (s : State) (result : Result) (detail : Option TableFault) :
    (s.answerStart result detail).arbitrate.port = { s.port with
      cmd := .complete, response := byteOf result.code :: detailBytes detail, lastResult := result, lastDetail := detail } := by
  simp [State.answerStart, State.answer]

/-- Settles O59: the three results by `hostStart_of_…`, the third unit by unit. -/
theorem startValidatesThenListens : Obligations.StartValidatesThenListens := by
  intro s selected awaiting
  refine ⟨_, exec_start_of_ready (State.portReady_of selected awaiting), fun running => ?_, fun d stopped fails => ?_, ?_,
    fun stopped passes => ?_⟩
  · rw [State.hostStart_of_running running]
    exact ⟨s.answerStart_port _ _, by apply State.eq_of_units <;> simp, by simp, by simp⟩
  · rw [State.hostStart_of_fault stopped ((validate_some_iff _ _).2 fails)]
    exact ⟨s.answerStart_port _ _, by apply State.eq_of_units <;> simp, by simp, by simp⟩
  · cases verdict : validate s.layout.table with
    | none => exact .inl ((validate_none_iff _).1 verdict)
    | some d => exact .inr ⟨d, (validate_some_iff _ _).1 verdict⟩
  · rw [State.hostStart_of_valid stopped ((validate_none_iff _).2 passes)]
    have copies (w : Nat) : (s.startStation.answerStart .done none).arbitrate.copy w = Copy.reset :=
      State.copy_of_cleared (s := s) (by simp) w
    simp only [State.arbitrate_frame, State.arbitrate_mem, State.arbitrate_inbound, State.answerStart_frame, copies,
      State.startStation_claims, freshGuards_windows]
    refine ⟨by simp [State.answerStart, State.answer, Result.code, detailBytes, byteOf], by simp, by simp, by simp, by simp, by simp, ?_, ?_, rfl,
      fun g => freshGuards_cleared, fun a outside canonical => ?_, fun a inside canonical free => ?_,
      fun _ => ⟨rfl, rfl, rfl⟩, fun n => (State.status_of_cleared (by simp) n).1, by simp, by simp, by simp, by simp,
      by simp, by simp, by simp [Line.reset], by simp [Line.reset], by simp, by simp [Line.reset], by simp, by simp,
      by simp, s.startStation_outcomes, s.startStation_changes⟩
    · simp [signatureBytes112_eq, signatureOf]
    · rw [signatureBytes112_eq, signatureSequence_length]
    · rw [State.startStation_mem, Memory.read_keep (State.finishWithdrawn_wf canonical), if_neg (by simp [outside])]
    · rw [State.startStation_mem, Memory.read_keep_wanted _ inside, State.finishWithdrawn_of_free free]

end Sys2Proof.Machine
end

