-- ==== Sys2Proof/Proofs/Transitions.lean ====
section
/-! What the transitions of the station do to each unit (R90, R113, R129, R144, R151, R156 to R161), and LEAVE (R160). -/

namespace Sys2Proof.Machine

variable {s t : State}

/-! ### Reports (R179) -/

/-- Records posted after others are posted behind them (R179). -/
theorem State.postAll_report_append {os : List OutcomeRecord} (posted : t.report = (s.postAll os).report)
    (ps : List OutcomeRecord) : (t.postAll ps).report = (s.postAll (os ++ ps)).report := by
  rw [State.postAll_append]
  exact State.postAll_report posted ps

/-- STATE is posted behind what was posted before (R147, R179). -/
theorem State.moveTo_report_append {os : List OutcomeRecord} (posted : t.report = (s.postAll os).report)
    (state : StationState) (reason : Reason) :
    (t.moveTo state reason).report = (s.postAll (os ++ [.state state reason])).report := by
  rw [State.moveTo_report]
  exact State.postAll_report_append posted [.state state reason]

/-- LOST_HOLDs are posted behind what was posted before (R113, R179). -/
theorem State.dropHolds_report_append {os : List OutcomeRecord} (posted : t.report = (s.postAll os).report)
    (claims : t.claims = s.claims) (reason : LossReason) :
    (t.dropHolds reason).report = (s.postAll (os ++ s.lostHolds reason)).report := by
  have lost : t.lostHolds reason = s.lostHolds reason := by rw [State.lostHolds, claims, State.lostHolds]
  rw [State.dropHolds, lost]
  exact State.postAll_report_append (by exact posted) _

/-! ### Guards -/

@[simp] theorem Guard.cleared_unhold (g : Guard) : g.unhold.cleared = g.cleared := rfl

@[simp] theorem State.dropHolds_claims (s : State) (reason : LossReason) :
    (s.dropHolds reason).claims = s.claims.map Guard.unhold := by
  simp [State.dropHolds]

@[simp] theorem State.clearClaims_claims (s : State) : s.clearClaims.claims = s.claims.map Guard.cleared := rfl

/-- Emptied guard positions hold nothing (R113). -/
theorem cleared_of_mem {claims : List Guard} {g : Guard} (cleared : g ∈ claims.map Guard.cleared) :
    g.queue = [] ∧ g.hold = .unheld ∧ g.lease = .stopped ∧ g.tag = none := by
  obtain ⟨c, -, rfl⟩ := List.mem_map.1 cleared
  exact ⟨rfl, rfl, rfl, rfl⟩

/-! ### Stations that drive nothing (R1) -/

theorem State.drivesAt_of_not_member (other : s.isMember = false) (bit : Nat) : s.drivesAt bit = false := by
  simp [State.drivesAt, other]

/-! ### The inbound queue (R64) -/

/-- An emptied inbound queue holds at most a granted head, marked (R64). -/
theorem State.emptyInbound_withdrawn {e : Inbound} (left : e ∈ s.emptyInbound.mirror.inbound) : e.withdrawn = true :=
  State.withdrawn_of_mem_withdraw left rfl

@[simp] theorem State.clearService_holder_application (s : State) :
    s.clearService.mirror.holder = some .application ↔ s.mirror.holder = some .application := by
  unfold State.clearService State.emptyChunk State.discardFillRead
  dsimp only
  split <;> simp_all

/-- The inbound queue after a withdrawal is a matter of the queue before it and of the grant of its head (R64). -/
theorem State.withdraw_inbound_of_same (queue : t.mirror.inbound = s.mirror.inbound)
    (granted : t.mirror.holder = some .application ↔ s.mirror.holder = some .application) (p : Inbound → Bool) :
    (t.withdraw p).mirror.inbound = (s.withdraw p).mirror.inbound := by
  by_cases held : s.mirror.holder = some .application
  · cases entries : s.mirror.inbound with
    | nil => simp [State.withdraw, queue, entries]
    | cons head rest =>
      rw [State.withdraw_inbound_of_granted held entries,
        State.withdraw_inbound_of_granted (granted.2 held) (queue.trans entries)]
  · rw [State.withdraw_inbound_of_not_granted held, State.withdraw_inbound_of_not_granted (mt granted.1 held), queue]

@[simp] theorem State.endZeroFill_inbound (s : State) : s.endZeroFill.mirror.inbound = s.mirror.inbound := rfl

/-! ### To STOPPED (R22, R71, R90, R113, R129, R144) -/

@[simp] theorem State.stop_ctl (s : State) (reason : Reason) :
    (s.stop reason).ctl = ⟨.stopped, reason, false, .stopped, false, false⟩ := by
  simp [State.stop]

@[simp] theorem State.stop_sched (s : State) (reason : Reason) :
    (s.stop reason).sched = { s.sched with control := [], inflight := none, chunk := none } := by
  simp [State.stop, State.clearService, State.emptyChunk, State.clearControl]

@[simp] theorem State.stop_claims (s : State) (reason : Reason) :
    (s.stop reason).claims = s.claims.map Guard.cleared := by
  simp [State.stop]

@[simp] theorem State.stop_roster (s : State) (reason : Reason) :
    (s.stop reason).roster = { entries := List.replicate Config.stations RosterEntry.reset, announce := .stopped } := by
  simp [State.stop, State.clearRoster]

@[simp] theorem State.stop_refresh (s : State) (reason : Reason) :
    (s.stop reason).refresh = { copies := s.refresh.copies.map Copy.halted, service := [] } := by
  simp [State.stop, State.clearService, State.mapCopies]

@[simp] theorem State.stop_line (s : State) (reason : Reason) :
    (s.stop reason).line = { Line.reset with reference := s.line.reference } := by
  simp [State.stop, State.haltLine]

@[simp] theorem State.stop_rx (s : State) (reason : Reason) : (s.stop reason).rx = { s.rx with frame := none } := by
  simp [State.stop, State.haltLine]

theorem State.stop_report (s : State) (reason : Reason) :
    (s.stop reason).report = (s.post (.state .stopped reason)).report := by
  rw [State.stop, State.moveTo_report]
  exact State.post_report (by simp) _

theorem State.stop_withdrawn {reason : Reason} {e : Inbound} (left : e ∈ (s.stop reason).mirror.inbound) :
    e.withdrawn = true :=
  State.emptyInbound_withdrawn (s := s.clearControl) (by simpa [State.stop] using left)

/-! ### What a forsaken group leaves (R90, R113, R129, R144, R157, R159) -/

@[simp] theorem State.abandonQueue_pub (s : State) (reason : AbandonReason) :
    (s.abandonQueue reason).pub = { s.pub with queue := [] } := by
  simp [State.abandonQueue]

theorem State.abandonQueue_report (s : State) (reason : AbandonReason) :
    (s.abandonQueue reason).report = (s.postAll (abandonedOutcomes s.pub.queue reason)).report :=
  State.postAll_report (by rfl) _

@[simp] theorem State.forsake_pub (s : State) (abandon : AbandonReason) (loss : LossReason) :
    (s.forsake abandon loss).pub = { s.pub with queue := [] } := by
  simp [State.forsake]

@[simp] theorem State.forsake_sched (s : State) (abandon : AbandonReason) (loss : LossReason) :
    (s.forsake abandon loss).sched = { control := [], inflight := none, turn := .publications, chunk := none } := by
  simp [State.forsake, State.clearService, State.emptyChunk, State.resetTurn, State.clearControl]

@[simp] theorem State.forsake_claims (s : State) (abandon : AbandonReason) (loss : LossReason) :
    (s.forsake abandon loss).claims = s.claims.map Guard.cleared := by
  simp [State.forsake, Function.comp_def]

@[simp] theorem State.forsake_roster (s : State) (abandon : AbandonReason) (loss : LossReason) :
    (s.forsake abandon loss).roster =
      { entries := List.replicate Config.stations RosterEntry.reset, announce := .stopped } := by
  simp [State.forsake, State.clearRoster]

@[simp] theorem State.forsake_refresh (s : State) (abandon : AbandonReason) (loss : LossReason) :
    (s.forsake abandon loss).refresh = { copies := s.refresh.copies.map fun _ => Copy.reset, service := [] } := by
  simp [State.forsake, State.clearCopies, State.mapCopies, State.clearService]

/-- The outcomes of a station that forsakes its group: publications, then holds (R90, R113, R179). -/
def State.departing (s : State) (abandon : AbandonReason) (loss : LossReason) : List OutcomeRecord :=
  (s.pub.queue.map fun r => .abandoned r.tag r.window abandon)
    ++ ((s.claims.filter fun g => g.hold == .held).map fun g => .lostHold g.window loss)

theorem State.departing_eq (s : State) (abandon : AbandonReason) (loss : LossReason) :
    s.departing abandon loss = abandonedOutcomes s.pub.queue abandon ++ s.lostHolds loss := rfl

theorem State.forsake_report (s : State) (abandon : AbandonReason) (loss : LossReason) :
    (s.forsake abandon loss).report = (s.postAll (s.departing abandon loss)).report := by
  simp only [State.forsake, State.clearRoster_frame, State.clearCopies_frame, State.endZeroFill_frame,
    State.emptyInbound_frame, State.clearClaims_frame]
  exact State.dropHolds_report_append (os := abandonedOutcomes s.pub.queue abandon)
    (by simpa using s.abandonQueue_report abandon) (by simp) loss

theorem State.forsake_withdrawn {abandon : AbandonReason} {loss : LossReason} {e : Inbound}
    (left : e ∈ (s.forsake abandon loss).mirror.inbound) : e.withdrawn = true :=
  State.emptyInbound_withdrawn (by simpa [State.forsake] using left)

/-! ### The rejoin path (R156) -/

@[simp] theorem State.rejoin_ctl (s : State) (reason : Reason) :
    (s.rejoin reason).ctl = ⟨.joining, reason, true, .stopped, false, false⟩ := by
  simp [State.rejoin, State.enterJoining]

@[simp] theorem State.rejoin_pub (s : State) (reason : Reason) :
    (s.rejoin reason).pub = { s.pub with queue := [] } := by
  simp [State.rejoin]

@[simp] theorem State.rejoin_sched (s : State) (reason : Reason) : (s.rejoin reason).sched =
    { control := [.presence .join], inflight := none, turn := .publications, chunk := none } := by
  simp [State.rejoin, State.enterJoining, State.offer, State.clearService, State.emptyChunk, State.resetTurn,
    State.clearControl]

@[simp] theorem State.rejoin_claims (s : State) (reason : Reason) :
    (s.rejoin reason).claims = s.claims.map Guard.cleared := by
  simp [State.rejoin, Function.comp_def]

@[simp] theorem State.rejoin_roster (s : State) (reason : Reason) : (s.rejoin reason).roster =
    { entries := List.replicate Config.stations RosterEntry.reset, announce := .running 2048 } := by
  simp [State.rejoin, State.enterJoining, State.clearRoster]

@[simp] theorem State.rejoin_refresh (s : State) (reason : Reason) : (s.rejoin reason).refresh =
    { copies := s.refresh.copies.map fun _ => Copy.reset, service := [] } := by
  simp [State.rejoin, State.clearCopies, State.mapCopies, State.clearService]

theorem State.rejoin_report (s : State) (reason : Reason) : (s.rejoin reason).report =
    (s.postAll (s.departing .departed .departed ++ [.state .joining reason])).report := by
  simp only [State.rejoin, State.enterJoining, State.offer_frame]
  refine State.moveTo_report_append ?_ _ _
  simp only [State.clearRoster_frame, State.endZeroFill_frame, State.withdraw_frame, State.clearCopies_frame,
    State.clearClaims_frame]
  exact State.dropHolds_report_append (os := abandonedOutcomes s.pub.queue .departed)
    (by simpa using s.abandonQueue_report .departed) (by simp) .departed

/-! ### MUTED and INCOMPATIBLE (R157, R159) -/

@[simp] theorem State.enterMuted_ctl (s : State) :
    s.enterMuted.ctl = ⟨.muted, .objections, false, .stopped, false, false⟩ := by
  simp [State.enterMuted]

@[simp] theorem State.enterMuted_rx (s : State) :
    s.enterMuted.rx = { s.rx with objectionRun := 0, cleanRun := 0 } := by
  simp [State.enterMuted]

@[simp] theorem State.enterMuted_pub (s : State) : s.enterMuted.pub = { s.pub with queue := [] } := by
  simp [State.enterMuted]

@[simp] theorem State.enterMuted_sched (s : State) :
    s.enterMuted.sched = { control := [], inflight := none, turn := .publications, chunk := none } := by
  simp [State.enterMuted]

@[simp] theorem State.enterMuted_claims (s : State) : s.enterMuted.claims = s.claims.map Guard.cleared := by
  simp [State.enterMuted]

@[simp] theorem State.enterMuted_roster (s : State) : s.enterMuted.roster =
    { entries := List.replicate Config.stations RosterEntry.reset, announce := .stopped } := by
  simp [State.enterMuted]

@[simp] theorem State.enterMuted_refresh (s : State) :
    s.enterMuted.refresh = { copies := s.refresh.copies.map fun _ => Copy.reset, service := [] } := by
  simp [State.enterMuted]

theorem State.enterMuted_report (s : State) : s.enterMuted.report =
    (s.postAll (s.departing .muted .muted ++ [.state .muted .objections])).report := by
  rw [State.enterMuted]
  exact State.moveTo_report_append (by simpa only using s.forsake_report .muted .muted) _ _

theorem State.enterMuted_withdrawn {e : Inbound} (left : e ∈ s.enterMuted.mirror.inbound) : e.withdrawn = true :=
  State.forsake_withdrawn (by simpa [State.enterMuted] using left)

@[simp] theorem State.enterIncompatible_ctl (s : State) (reason : Reason) :
    (s.enterIncompatible reason).ctl = ⟨.incompatible, reason, false, .stopped, false, false⟩ := by
  simp [State.enterIncompatible]

@[simp] theorem State.enterIncompatible_pub (s : State) (reason : Reason) :
    (s.enterIncompatible reason).pub = { s.pub with queue := [] } := by
  simp [State.enterIncompatible]

@[simp] theorem State.enterIncompatible_sched (s : State) (reason : Reason) : (s.enterIncompatible reason).sched =
    { control := [], inflight := none, turn := .publications, chunk := none } := by
  simp [State.enterIncompatible]

@[simp] theorem State.enterIncompatible_claims (s : State) (reason : Reason) :
    (s.enterIncompatible reason).claims = s.claims.map Guard.cleared := by
  simp [State.enterIncompatible]

@[simp] theorem State.enterIncompatible_roster (s : State) (reason : Reason) : (s.enterIncompatible reason).roster =
    { entries := List.replicate Config.stations RosterEntry.reset, announce := .stopped } := by
  simp [State.enterIncompatible]

@[simp] theorem State.enterIncompatible_refresh (s : State) (reason : Reason) : (s.enterIncompatible reason).refresh =
    { copies := s.refresh.copies.map fun _ => Copy.reset, service := [] } := by
  simp [State.enterIncompatible]

theorem State.enterIncompatible_report (s : State) (reason : Reason) : (s.enterIncompatible reason).report =
    (s.postAll (s.departing .departed .departed ++ [.state .incompatible reason])).report :=
  State.moveTo_report_append (s.forsake_report _ _) _ _

theorem State.enterIncompatible_withdrawn {reason : Reason} {e : Inbound}
    (left : e ∈ (s.enterIncompatible reason).mirror.inbound) : e.withdrawn = true :=
  State.forsake_withdrawn (by simpa [State.enterIncompatible] using left)

/-! ### The JOIN fails (R151) -/

@[simp] theorem State.joinFailed_ctl (s : State) :
    s.joinFailed.ctl = ⟨.listening, .joinFailed, false, .stopped, false, false⟩ := by
  simp [State.joinFailed]

@[simp] theorem State.joinFailed_sched (s : State) :
    s.joinFailed.sched = { s.sched with control := [], inflight := none, chunk := none } := by
  simp [State.joinFailed, State.clearControl, State.emptyChunk]

@[simp] theorem State.joinFailed_roster (s : State) : s.joinFailed.roster =
    { entries := List.replicate Config.stations RosterEntry.reset, announce := .stopped } := by
  simp [State.joinFailed, State.clearRoster]

@[simp] theorem State.joinFailed_line (s : State) :
    s.joinFailed.line = { s.line with reference := none, silence := 0 } := by
  simp [State.joinFailed]

@[simp] theorem State.joinFailed_inbound (s : State) : s.joinFailed.mirror.inbound = s.mirror.inbound := by
  simp [State.joinFailed, State.emptyChunk, State.discardFillRead, State.clearControl]

theorem State.joinFailed_report (s : State) :
    s.joinFailed.report = (s.post (.state .listening .joinFailed)).report := by
  rw [State.joinFailed, State.moveTo_report]
  exact State.post_report (by simp) _

end Sys2Proof.Machine
end

