-- ==== Sys2Proof/Proofs/Leave.lean ====
section
/-! LEAVE (R80, R88, R90, R112, R160): by the station state, and by the frame that is on the line. -/

namespace Sys2Proof.Machine

variable {s t : State}

/-! ### The frame on the line (R80, R88) -/

theorem State.frameOnLine_of_waiting (waiting : ∀ g, s.sched.inflight = some g → g.onLine = false) :
    s.frameOnLine = none := by
  rw [State.frameOnLine, Option.filter_eq_none_iff]
  exact fun g flight => by simp [waiting g flight]

theorem State.frameOnLine_of_driven {g : InFlight} (flight : s.sched.inflight = some g) (driven : g.onLine = true) :
    s.frameOnLine = some g := by
  simp [State.frameOnLine, flight, Option.filter, driven]

theorem State.frameOnLine_congr (same : t.sched.inflight = s.sched.inflight) : t.frameOnLine = s.frameOnLine := by
  rw [State.frameOnLine, same, State.frameOnLine]

theorem State.keptControl_congr (same : t.sched.inflight = s.sched.inflight) : t.keptControl = s.keptControl := by
  rw [State.keptControl, State.frameOnLine_congr same, State.keptControl]

/-- LEAVE lets at most the one control entry stand whose frame is on the line (R80). -/
theorem State.mem_keptControl {e : ControlEntry} :
    e ∈ s.keptControl ↔ ∃ g, s.sched.inflight = some g ∧ g.onLine = true ∧ g.source = .control e := by
  unfold State.keptControl State.frameOnLine
  cases s.sched.inflight with
  | none => simp
  | some g =>
    by_cases driven : g.onLine = true
    · cases source : g.source with
      | control c => simp [Option.filter, driven, source, eq_comm (a := e)]
      | publication => simp [Option.filter, driven, source]
      | service w r => simp [Option.filter, driven, source]
    · simp [Option.filter, driven]

/-! ### The control list at LEAVE (R80) -/

/-- An entry offered stays where it stands, is admitted at the tail, or finds the list full (R78). -/
theorem State.offer_control (s : State) (e : ControlEntry) : (s.offer e).sched.control =
    if e ∈ s.sched.control then s.sched.control
    else if s.sched.control.length < 8 then s.sched.control ++ [e] else s.sched.control := by
  simp only [State.offer, List.contains_iff_mem]
  split
  · rfl
  · split <;> rfl

theorem State.leaveControl_control (s : State) : s.leaveControl.sched.control =
    if .depart s.station ∈ s.keptControl then s.keptControl else s.keptControl ++ [.depart s.station] := by
  have room : s.keptControl.length < 8 := by
    rcases State.Sound.keptControl_small s with none | ⟨e, one⟩
    · simp [none]
    · simp [one]
  rw [State.leaveControl, State.offer_control, if_pos room]

/-! ### LEAVING unit by unit (R90, R112, R129, R160) -/

@[simp] theorem State.leaveGroup_ctl (s : State) :
    s.leaveGroup.ctl = ⟨.leaving, .leave, false, .stopped, false, false⟩ := by
  simp [State.leaveGroup]

theorem State.leaveGroup_service (s : State) : s.leaveGroup.refresh.service = [] := by
  simp [State.leaveGroup, State.mapCopies]

theorem State.leaveGroup_claims (s : State) : s.leaveGroup.claims = s.claims.map Guard.unhold := by
  simp [State.leaveGroup]

theorem State.leaveGroup_roster (s : State) : s.leaveGroup.roster = { s.roster with announce := .stopped } := by
  simp [State.leaveGroup]

theorem State.leaveGroup_pub (s : State) : s.leaveGroup.pub = { s.pub with queue := s.keptRecords } := by
  simp [State.leaveGroup]

theorem State.leaveGroup_inbound (s : State) : s.leaveGroup.mirror.inbound = s.mirror.inbound := by
  simp [State.leaveGroup]

theorem State.leaveGroup_control (s : State) : s.leaveGroup.sched.control =
    if .depart s.station ∈ s.keptControl then s.keptControl else s.keptControl ++ [.depart s.station] := by
  have same (t : State) (inflight : t.sched.inflight = s.sched.inflight) (pins : t.pins = s.pins) :
      t.leaveControl.sched.control =
        if .depart s.station ∈ s.keptControl then s.keptControl else s.keptControl ++ [.depart s.station] := by
    rw [State.leaveControl_control, State.keptControl_congr inflight, State.station, pins, State.station]
  simpa [State.leaveGroup] using same _ (by simp) (by simp)

/-- A chunk whose FILL is on the line is kept (R71, R90). -/
theorem State.leaveGroup_chunk {g : InFlight} {w r : Nat} (line : s.frameOnLine = some g)
    (source : g.source = .service w r) : s.leaveGroup.sched.chunk = s.sched.chunk := by
  have kept (t : State) (same : t.sched = s.sched) : t.clearServiceAtLeave.sched.chunk = s.sched.chunk := by
    rw [State.clearServiceAtLeave, State.frameOnLine_congr (s := s) (by rw [same]), line]
    dsimp only
    rw [source]
    exact congrArg _ same
  simpa [State.leaveGroup, State.leaveControl] using kept _ (by simp)

theorem State.leaveGroup_report (s : State) : s.leaveGroup.report =
    (s.postAll (abandonedOutcomes (s.pub.queue.drop s.keptRecords.length) .leaving ++ s.lostHolds .departed
      ++ [.state .leaving .leave])).report := by
  rw [State.leaveGroup]
  refine State.moveTo_report_append ?_ _ _
  simp only [State.mapCopies_frame]
  refine State.dropHolds_report_append ?_ (by simp) _
  simp only [State.leaveControl_frame, State.clearServiceAtLeave_frame]
  exact State.postAll_report (by rfl) _

/-! ### LEAVE by the station state (R160) -/

theorem exec_leave_of_ready (ready : s.portReady = true) :
    exec .leave s = .next ((s.hostLeave.1.answerResult s.hostLeave.2).settleMemory) :=
  congrArg Host.Outcome.next (if_pos ready)

theorem State.hostLeave_of_stopped (h : s.ctl.state = .stopped) : s.hostLeave = (s, .wrongState) := by
  rw [State.hostLeave, h]

theorem State.hostLeave_of_leaving (h : s.ctl.state = .leaving) : s.hostLeave = (s, .redundant) := by
  rw [State.hostLeave, h]

theorem State.hostLeave_of_apart (h : s.ctl.state = .listening ∨ s.ctl.state = .muted ∨ s.ctl.state = .incompatible) :
    s.hostLeave = (s.stop .leave, .done) := by
  rcases h with h | h | h <;> rw [State.hostLeave, h]

theorem State.hostLeave_of_member (h : s.ctl.state = .joining ∨ s.ctl.state = .active) :
    s.hostLeave = (s.leaveGroup, .done) := by
  rcases h with h | h <;> rw [State.hostLeave, h]

/-- The records LEAVE lets stand: the head record, where its frame is on the line (R88, R90). -/
theorem State.keptRecords_of_driven {g : InFlight} (line : s.frameOnLine = some g) :
    s.keptRecords = if g.source = .publication then s.pub.queue.take 1 else [] := by
  rw [State.keptRecords, line]

/-- Settles O60: what is on the line decides the records and the control entry that stand. -/
theorem leaveActsByTheStationState : Obligations.LeaveActsByTheStationState := by
  intro s selected awaiting
  refine ⟨_, s.hostLeave.2, exec_leave_of_ready (State.portReady_of selected awaiting),
    by simp [State.answerResult, State.answer], fun stopped => ?_, fun leaving => ?_, fun apart => ?_, fun member => ?_⟩
  · rw [State.hostLeave_of_stopped stopped]
    exact ⟨rfl, by apply State.eq_of_units <;> simp⟩
  · rw [State.hostLeave_of_leaving leaving]
    exact ⟨rfl, by apply State.eq_of_units <;> simp⟩
  · rw [State.hostLeave_of_apart apart]
    refine ⟨rfl, by simp, by simp, by simp, by simp [Line.reset], by simp, by simp, fun bit => ?_, fun a => by simp, ?_⟩
    · exact State.drivesAt_of_not_member (by simp [State.isMember, StationState.isMember]) bit
    · simpa using s.stop_report .leave
  · rw [State.hostLeave_of_member member]
    simp only [State.settleMemory_frame, State.settleMemory_inbound, State.answerResult_frame, State.leaveGroup_ctl,
      State.leaveGroup_service, State.leaveGroup_claims, State.leaveGroup_roster, State.leaveGroup_inbound,
      State.leaveGroup_frame, State.leaveGroup_pub, State.leaveGroup_report, State.leaveGroup_inflight, true_and]
    refine ⟨by simp [Function.comp_def, Guard.unhold], fun g held => ?_, ?_,
      fun e listed => ?_, fun waiting => ?_, fun g flight driven => ⟨State.frameOnLine_of_driven flight driven,
        fun published => ?_, fun other => ?_, fun e control => ?_, fun w r service => ?_⟩⟩
    · obtain ⟨c, -, rfl⟩ := List.mem_map.1 held
      exact ⟨rfl, rfl⟩
    · rw [State.leaveGroup_control]
      split
      · assumption
      · simp
    · rw [State.leaveGroup_control] at listed
      have kept : e ∈ s.keptControl ∨ e = .depart s.station := by
        split at listed
        · exact .inl listed
        · simpa using listed
      exact kept.symm.imp_right State.mem_keptControl.1
    · have line := State.frameOnLine_of_waiting waiting
      have control : s.keptControl = [] := by rw [State.keptControl, line]
      have records : s.keptRecords = [] := by rw [State.keptRecords, line]
      simp [State.leaveGroup_control, line, control, records, abandonedOutcomes, State.lostHolds]
    · have line := State.frameOnLine_of_driven flight driven
      have control : s.keptControl = [] := by rw [State.keptControl, line]; simp [published]
      have records : s.keptRecords = s.pub.queue.take 1 := by rw [State.keptRecords_of_driven line, if_pos published]
      have gone : s.pub.queue.drop (s.pub.queue.take 1).length = s.pub.queue.drop 1 := by
        cases s.pub.queue <;> rfl
      rw [State.leaveGroup_control, control, records, gone]
      exact ⟨rfl, rfl, rfl⟩
    · have records : s.keptRecords = [] := by
        rw [State.keptRecords_of_driven (State.frameOnLine_of_driven flight driven), if_neg other]
      rw [records]
      exact ⟨rfl, rfl⟩
    · have kept : s.keptControl = [e] := by
        rw [State.keptControl, State.frameOnLine_of_driven flight driven]
        simp [control]
      rw [State.leaveGroup_control, kept]
      simp [eq_comm]
    · have line := State.frameOnLine_of_driven flight driven
      have control : s.keptControl = [] := by rw [State.keptControl, line]; simp [service]
      rw [State.leaveGroup_control, control]
      exact ⟨rfl, State.leaveGroup_chunk line service⟩

end Sys2Proof.Machine
end

