-- ==== Sys2Proof/Proofs/MirrorMemory.lean ====
section
/-! The completions of what the arbiter granted (R59, R62 to R64, R67 to R70, R132, R141, R143, R168): applications, the
founding zero-fill, fill reads and snapshots. -/

namespace Sys2Proof.Machine

variable {s t : State}

/-! ### Applications (R62 to R64) -/

theorem inMirror_of_le {a len : Nat} (inside : a + len ≤ 16384) : inMirror a len = true := by
  simpa [inMirror] using inside

theorem exec_applicationComplete {e : Inbound} {rest : List Inbound} (held : s.mirror.holder = some .application)
    (queue : s.mirror.inbound = e :: rest) (inside : s.entryAddress e + e.data.length ≤ 16384) :
    exec .applicationComplete s = .next ((s.applyEntry e rest).releaseMemory.reportApplied e).settleMemory := by
  rw [exec, execApplicationComplete, held, queue]
  exact if_pos (inMirror_of_le inside)

theorem State.reportApplied_of_withdrawn {e : Inbound} (withdrawn : e.withdrawn = true) : s.reportApplied e = s :=
  if_pos withdrawn

theorem State.reportApplied_of_write {e : Inbound} {mark : Bool} (standing : e.withdrawn = false)
    (kind : e.kind = .write mark) : s.reportApplied e = if mark then s.noteChange e.window else s := by
  rw [State.reportApplied, if_neg (by simp [standing]), kind]

theorem State.reportApplied_of_fill {e : Inbound} (standing : e.withdrawn = false) (kind : e.kind = .fill) :
    s.reportApplied e = s.fillApplied e.window e.data.length := by
  rw [State.reportApplied, if_neg (by simp [standing]), kind]

/-- A window enters the change set once (R181). -/
theorem State.noteChange_report (s : State) (w : Nat) : (s.noteChange w).report =
    { s.report with changes := if w ∉ s.report.changes then s.report.changes ++ [w] else s.report.changes } := by
  simp only [State.noteChange, List.contains_iff_mem, ite_not]
  split <;> rfl

/-! ### The copy record at a FILL's application (R132, R134, R141) -/

/-- The copy record with one FILL more applied; `timed` says that its fetch timer is set again (R134, R141). -/
def Copy.advanced (c : Copy) (len : Nat) (timed : Bool) : Copy :=
  { c with applied := c.applied + len, expiries := 0, timer := if timed then .running 4096 else c.timer }

/-- The copy record of the window before it is tested for its size (R141). -/
def State.advancedCopy (s : State) (w len : Nat) : Copy :=
  (s.copy w).advanced len (!(s.copy w).failed && s.isActive)

theorem State.fillApplied_eq {w : Nat} (inside : w < s.refresh.copies.length) (len : Nat) :
    s.fillApplied w len =
      if (s.copy w).applied + len = (s.entry w).bytes then
        (s.setCopy w fun _ => s.advancedCopy w len).becomeFresh w
      else s.setCopy w fun _ => s.advancedCopy w len := by
  have advanced : (s.setCopy w fun _ => s.advancedCopy w len).copy w = s.advancedCopy w len := by
    rw [State.copy_setCopy_of_lt inside, if_pos rfl]
  exact congrArg (fun c : Copy => if c.applied = (s.entry w).bytes then _ else _) advanced

/-- The refresh unit after a FILL's application: the one record, FRESH where the window is complete (R132, R141). -/
theorem State.fillApplied_copy {w : Nat} (inside : w < s.refresh.copies.length) (len v : Nat) :
    (s.fillApplied w len).copy v =
      if v = w then
        if (s.copy w).applied + len = (s.entry w).bytes then { (s.advancedCopy w len).unfetched with fresh := true }
        else s.advancedCopy w len
      else s.copy v := by
  rw [State.fillApplied_eq inside]
  have first (c : Copy) : (s.setCopy w fun _ => c).copy v = if v = w then c else s.copy v :=
    State.copy_setCopy_of_lt inside _ v
  split
  · have refresh : ((s.setCopy w fun _ => s.advancedCopy w len).becomeFresh w).refresh =
        ((s.setCopy w fun _ => s.advancedCopy w len).setCopy w fun c => { c.unfetched with fresh := true }).refresh := by
      unfold State.becomeFresh
      dsimp only
      split <;> simp
    rw [State.copy_of_refresh refresh, State.copy_setCopy_of_lt (by simpa [State.setCopy] using inside), first,
      State.copy_setCopy_of_lt inside, if_pos rfl]
    split <;> rfl
  · exact first _

/-- FRESH is posted where the window is complete, and a watched one enters the change set (R132, R141, R181). -/
theorem State.fillApplied_report {w : Nat} (inside : w < s.refresh.copies.length) (len : Nat) :
    (s.fillApplied w len).report =
      if (s.copy w).applied + len = (s.entry w).bytes then
        { (s.post (.fresh w)).report with changes :=
          if (s.entry w).isWatched = true ∧ w ∉ s.report.changes then s.report.changes ++ [w] else s.report.changes }
      else s.report := by
  rw [State.fillApplied_eq inside]
  split
  · have posted : (((s.setCopy w fun _ => s.advancedCopy w len).setCopy w fun c =>
        { c.unfetched with fresh := true }).post (.fresh w)).report = (s.post (.fresh w)).report :=
      State.post_report (by simp) _
    have changes := s.post_changes (.fresh w)
    have watched : ((s.setCopy w fun _ => s.advancedCopy w len).entry w).isWatched = (s.entry w).isWatched := rfl
    unfold State.becomeFresh
    rw [watched]
    dsimp only
    by_cases seen : (s.entry w).isWatched = true
    · rw [if_pos seen, State.noteChange_report, posted, changes]
      simp [seen]
    · rw [if_neg seen, posted, if_neg (fun h => seen h.1), ← changes]
  · simp

/-- Settles O42: the bytes by the laws of the memory, the copy record and the reports by `fillApplied_…`. -/
theorem applicationWritesItsBytesAndNoOther : Obligations.ApplicationWritesItsBytesAndNoOther := by
  refine ⟨fun s e rest canonical held queue inside => ?_, fun s e rest held queue fill standing hw inside => ?_⟩
  · refine ⟨_, exec_applicationComplete held queue inside, by apply State.eq_of_units <;> simp, by simp [State.applyEntry],
      fun j within => ?_, fun a outside => ?_, fun withdrawn => ?_, fun mark write standing => ?_⟩
    · simp only [State.settleMemory_mem, State.reportApplied_frame, State.releaseMemory_mem, State.applyEntry]
      rw [List.getD_eq_getElem _ _ within]
      exact Memory.read_writeBytes_inside canonical _ _ within (show _ < 16384 by simp only [State.entryAddress, Entry.localBase]; omega)
    · simp only [State.settleMemory_mem, State.reportApplied_frame, State.releaseMemory_mem, State.applyEntry]
      exact Memory.read_writeBytes_outside _ _ _ outside
    · rw [State.reportApplied_of_withdrawn withdrawn]
      simp
    · rw [State.reportApplied_of_write standing write]
      cases mark with
      | false => simp
      | true => simp [State.noteChange_report]
  · refine ⟨_, exec_applicationComplete held queue inside, ?_⟩
    rw [State.reportApplied_of_fill standing fill]
    have copies (v : Nat) : (((s.applyEntry e rest).releaseMemory.fillApplied e.window e.data.length).settleMemory).copy v =
        if v = e.window then
          if (s.copy e.window).applied + e.data.length = (s.entry e.window).bytes then
            { (s.advancedCopy e.window e.data.length).unfetched with fresh := true }
          else s.advancedCopy e.window e.data.length
        else s.copy v :=
      (State.copy_of_refresh (by simp) v).trans
        (State.fillApplied_copy (s := (s.applyEntry e rest).releaseMemory) (by simpa using hw) e.data.length v)
    have posted : ((s.applyEntry e rest).releaseMemory.post (.fresh e.window)).report = (s.post (.fresh e.window)).report :=
      State.post_report (by simp) _
    have report : ((s.applyEntry e rest).releaseMemory.fillApplied e.window e.data.length).report =
        if (s.copy e.window).applied + e.data.length = (s.entry e.window).bytes then
          { (s.post (.fresh e.window)).report with changes :=
            if (s.entry e.window).isWatched = true ∧ e.window ∉ s.report.changes then s.report.changes ++ [e.window]
            else s.report.changes }
        else s.report :=
      (State.fillApplied_report (s := (s.applyEntry e rest).releaseMemory) (by simpa using hw) e.data.length).trans
        (by rw [posted]; rfl)
    simp only [State.settleMemory_frame, report, copies e.window, if_pos]
    refine ⟨?_, ?_, ?_, fun v other => by rw [copies, if_neg other], by simp, fun complete => ?_, fun short => ?_⟩
    · split <;> rfl
    · split <;> rfl
    · split <;> rfl
    · simp [complete, Copy.unfetched]
    · cases failed : (s.copy e.window).failed <;> simp [short, State.advancedCopy, Copy.advanced, failed, State.isActive]

/-! ### The zero-fill (R70, R143) -/

theorem exec_zeroFillComplete (held : s.mirror.holder = some (.zeroFill false)) (fits : s.rangesFit = true) :
    exec .zeroFillComplete s = .next s.zeroRanges.releaseMemory.zeroFilled.settleMemory := by
  rw [exec, execZeroFillComplete, held]
  exact if_pos fits

/-- Every byte of a mirrored local range is 00 after the zero-fill (R70). -/
theorem State.read_zeroRanges_of_owned (canonical : Memory.wf s.mirror.mem) {a : Nat}
    (inside : ownedLocal s.layout.table a = true) : Memory.read s.zeroRanges.mirror.mem a = 0 := by
  refine (Memory.read_keep canonical (fun a => !ownedLocal s.layout.table a) a).trans (if_neg ?_)
  simp [inside]

/-- Outcomes posted change no copy record. -/
theorem State.postAll_copy (s : State) (os : List OutcomeRecord) (w : Nat) : (s.postAll os).copy w = s.copy w :=
  State.copy_of_refresh (by simp) w

/-- A mirrored window's copy is FRESH at its window size after the founding zero-fill (R143). -/
theorem State.zeroFilled_copy {w : Nat} (inside : w < s.refresh.copies.length) (mirrored : (s.entry w).isMirrored = true) :
    s.zeroFilled.copy w = { Copy.reset with fresh := true, accepted := (s.entry w).bytes, applied := (s.entry w).bytes } := by
  refine (State.postAll_copy _ _ w).trans ((s.copy_mapMirrored w _).trans ?_)
  rw [if_pos ⟨inside, mirrored⟩]

/-- Settles O43. -/
theorem zeroFillMakesEveryCopyFresh : Obligations.ZeroFillMakesEveryCopyFresh := by
  intro s canonical held fits copies
  refine ⟨_, exec_zeroFillComplete held fits, by apply State.eq_of_units <;> simp, fun a inside => ?_, fun a outside => ?_,
    fun w inside enabled mirrored => ?_, ?_, ?_, ?_⟩
  · simpa using State.read_zeroRanges_of_owned canonical inside
  · simpa using s.read_zeroRanges_of_not_owned outside
  · have copy : s.zeroRanges.releaseMemory.zeroFilled.settleMemory.copy w = _ :=
      (State.copy_of_refresh (by simp) w).trans (State.zeroFilled_copy (s := s.zeroRanges.releaseMemory)
        (by simpa [copies] using inside) (by simpa [Entry.isMirrored, State.entry] using ⟨enabled, mirrored⟩))
    rw [copy]
    exact ⟨rfl, rfl, rfl⟩
  · simp [State.zeroFilled, State.mapMirrored]
  · simp [State.zeroRanges]
  · simp only [State.settleMemory_frame]
    exact State.postAll_report (by simp) _

/-! ### Fill reads and snapshots (R67 to R69, R168) -/

theorem exec_fillReadComplete {r : FillRead} (held : s.mirror.holder = some (.fillRead r))
    (inside : (s.entry r.window).localBase + r.offset + (s.entry r.window).chunk ≤ 16384) :
    exec .fillReadComplete s = .next (s.storeChunk r).releaseMemory.settleMemory := by
  rw [exec, execFillReadComplete, held]
  exact if_pos (inMirror_of_le inside)

theorem State.storeChunk_of_kept {r : FillRead} (kept : r.discard = false) : s.storeChunk r = { s with
    sched.chunk := some
      { window := r.window, offset := r.offset, data := s.chunkBytes r.window r.offset, current := !r.spoiled } } :=
  if_neg (by simp [kept])

theorem exec_snapshotDelivered {q : Snapshot} {fresh discard : Bool}
    (held : s.mirror.holder = some (.snapshot q fresh discard)) (inside : q.address + q.length ≤ 16384) :
    exec .snapshotDelivered s =
      .next (s.releaseMemory.handBurst (Memory.readBytes s.mirror.mem q.address q.length) fresh discard).settleMemory := by
  rw [exec, execSnapshotDelivered, held]
  exact if_pos (inMirror_of_le inside)

/-- The burst goes to the read that asked for it (R168). -/
theorem State.handBurst_of_reading {first : Word} (reading : s.port.cmd = .reading first) (data : List Byte) (fresh : Bool) :
    s.handBurst data fresh false = s.deliver first data (if fresh then .done else .stale) := by
  rw [State.handBurst, if_neg (by decide), reading]

/-- Settles O44. -/
theorem fillReadAndSnapshotCopyMemory : Obligations.FillReadAndSnapshotCopyMemory := by
  refine ⟨fun s r held kept inside => ?_, fun s q fresh first held reading inside => ?_⟩
  · refine ⟨_, exec_fillReadComplete held inside, ?_⟩
    rw [State.storeChunk_of_kept kept]
    exact ⟨by apply State.eq_of_units <;> simp, by simp; rfl, by simp, fun a => by simp⟩
  · refine ⟨_, exec_snapshotDelivered held inside, ?_⟩
    rw [State.handBurst_of_reading (s := s.releaseMemory) reading]
    exact ⟨by apply State.eq_of_units <;> simp, by simp [State.deliver]; rfl, by simp [State.deliver],
      by simp [State.deliver], by simp [State.deliver], by simp [State.deliver], by simp [State.deliver], by simp,
      fun a => by simp⟩

end Sys2Proof.Machine
end

