-- ==== Sys2Proof/Proofs/Timers.lean ====
section
/-! The control list under the standing offers (R78, R79), the guard positions under a change of their records (R103), and
the timers that run out (R105, R124, R125, R134). -/

namespace Sys2Proof.Machine

variable {s t : State}

/-! ### The standing offers (R78, R79) -/

/-- An entry on the list, or offered to one that is not full in the end, is on the list (R78). -/
theorem State.mem_foldl_offer (offers : List ControlEntry) : ∀ {s : State} {e : ControlEntry},
    (e ∈ offers ∨ e ∈ s.sched.control) → (offers.foldl State.offer s).sched.control.length < 8 →
      e ∈ (offers.foldl State.offer s).sched.control := by
  induction offers with
  | nil => exact fun listed _ => listed.resolve_left List.not_mem_nil
  | cons x offers ih =>
    intro s e wanted room
    have rising : (s.offer x).sched.control <+: (offers.foldl State.offer (s.offer x)).sched.control := by
      clear ih room wanted
      generalize s.offer x = s
      induction offers generalizing s with
      | nil => exact List.prefix_rfl
      | cons y offers ih => exact (s.offer_prefix y).trans (ih (s.offer y))
    have control := s.offer_control x
    refine ih ?_ room
    rcases wanted with offered | listed
    · rcases List.mem_cons.1 offered with rfl | later
      · refine .inr ?_
        rw [control]
        split
        · assumption
        · split
          · simp
          · rename_i missing full
            have grown := rising.length_le
            rw [control, if_neg missing, if_neg full] at grown
            exact absurd (Nat.lt_of_le_of_lt grown room) full
      · exact .inl later
    · exact .inr ((s.offer_prefix x).subset listed)

/-- What the offers leave on the list was on it or is offered (R78). -/
theorem State.of_mem_foldl_offer (offers : List ControlEntry) : ∀ {s : State} {e : ControlEntry},
    e ∈ (offers.foldl State.offer s).sched.control → e ∈ offers ∨ e ∈ s.sched.control := by
  induction offers with
  | nil => exact fun listed => .inr listed
  | cons x offers ih =>
    intro s e listed
    rcases ih listed with later | before
    · exact .inl (List.mem_cons_of_mem _ later)
    · rw [State.offer_control] at before
      split at before
      · exact .inr before
      · split at before
        · exact (List.mem_append.1 before).symm.imp (fun own => by simp_all) id
        · exact .inr before

/-- In JOINING and ACTIVE an entry whose condition stands is on the list, unless the list is full (R78, R79). -/
theorem State.mem_offerDue (state : s.ctl.state = .joining ∨ s.ctl.state = .active) {e : ControlEntry} (stands : s.Stands e)
    (room : s.offerDue.sched.control.length < 8) : e ∈ s.offerDue.sched.control :=
  State.mem_foldl_offer s.dueOffers (.inl ((State.mem_dueOffers state e).2 stands)) room

/-- In the other states no unit offers (R80). -/
theorem State.offerDue_of_apart (apart : ¬ (s.ctl.state = .joining ∨ s.ctl.state = .active)) : s.offerDue = s := by
  rw [State.offerDue, State.dueOffers, if_neg apart]
  rfl

/-! ### Guard positions (R54, R103) -/

theorem State.guardOf_window {w : Nat} {g : Guard} (found : s.guardOf w = some g) : g.window = w := by
  simpa using List.find?_some found

theorem State.mem_claims_of_guardOf {w : Nat} {g : Guard} (found : s.guardOf w = some g) : g ∈ s.claims :=
  List.mem_of_find?_eq_some found

/-- A change that keeps every window number is read at each window alone. -/
theorem State.guardOf_of_map {f : Guard → Guard} (window : ∀ g, (f g).window = g.window)
    (claims : t.claims = s.claims.map f) (w : Nat) : t.guardOf w = (s.guardOf w).map f := by
  rw [State.guardOf, claims, List.find?_map, State.guardOf]
  simp [window]

theorem State.guardOf_of_claims (claims : t.claims = s.claims) (w : Nat) : t.guardOf w = s.guardOf w := by
  rw [State.guardOf, claims, State.guardOf]

theorem State.claimQueue_of_claims (claims : t.claims = s.claims) (w : Nat) : t.claimQueue w = s.claimQueue w := by
  rw [State.claimQueue, State.guardOf_of_claims claims, State.claimQueue]

theorem State.guardOf_setGuard {w : Nat} {g : Guard} {f : Guard → Guard} (window : ∀ g, (f g).window = g.window)
    (found : s.guardOf w = some g) : (s.setGuard w f).guardOf w = some (f g) := by
  rw [State.guardOf_of_map (s := s) (fun g => by split <;> simp [window]) rfl, found, Option.map_some,
    if_pos (State.guardOf_window found)]

theorem State.guardOf_setGuard_of_ne {w v : Nat} {f : Guard → Guard} (window : ∀ g, (f g).window = g.window)
    (other : v ≠ w) : (s.setGuard w f).guardOf v = s.guardOf v := by
  rw [State.guardOf_of_map (s := s) (fun g => by split <;> simp [window]) rfl]
  cases found : s.guardOf v with
  | none => rfl
  | some g => rw [Option.map_some, if_neg (by rw [State.guardOf_window found]; exact other)]

/-- A change of holds leaves the claim queues. -/
theorem State.claimQueue_setGuard {w : Nat} {f : Guard → Guard} (window : ∀ g, (f g).window = g.window)
    (queue : ∀ g, (f g).queue = g.queue) (v : Nat) : (s.setGuard w f).claimQueue v = s.claimQueue v := by
  rw [State.claimQueue, State.guardOf_of_map (s := s) (fun g => by split <;> simp [window]) rfl, Option.map_map,
    State.claimQueue]
  congr 2
  funext g
  dsimp only [Function.comp_apply]
  split
  · exact queue g
  · rfl

/-! ### The announce timer and the silence timers (R124, R125) -/

theorem State.expireAnnounce_of_running {left : Nat} (state : s.ctl.state = .joining ∨ s.ctl.state = .active)
    (running : s.roster.announce = .running left) :
    s.expireAnnounce = State.offerDue { s with roster.announce := .runOut } :=
  if_pos ⟨state, by simp [running, Timer.isRunning]⟩

theorem State.expireSilence_of_running {n left : Nat} (member : s.isMember = true)
    (running : s.silenceTimer n = .running left) :
    s.expireSilence n = (s.setEntry n { status := s.status n, timer := .runOut }).offerDue :=
  if_pos (by simp [member, running, Timer.isRunning])

/-- A running silence timer is an entry's of the roster (R114). -/
theorem State.lt_of_silenceTimer_running {n left : Nat} (running : s.silenceTimer n = .running left) :
    n < s.roster.entries.length := by
  by_contra past
  rw [State.silenceTimer, List.getD_eq_default _ _ (Nat.le_of_not_lt past)] at running
  cases running

theorem State.isMember_iff (s : State) :
    s.isMember = true ↔ s.ctl.state = .joining ∨ s.ctl.state = .active ∨ s.ctl.state = .leaving := by
  unfold State.isMember
  cases s.ctl.state <;> simp [StationState.isMember]

@[simp] theorem State.offerDue_silenceTimer (s : State) (n : Nat) : s.offerDue.silenceTimer n = s.silenceTimer n := by
  simp [State.silenceTimer]

/-! ### The lease (R105) -/

/-- A lease run out: the hold EXPIRING, the queue as it was (R105). -/
def Guard.expired (g : Guard) : Guard := { g with hold := .expiring, lease := .runOut }

theorem State.expireLease_of_held {w left : Nat} {g : Guard} (found : s.guardOf w = some g) (held : g.hold = .held)
    (running : g.lease = .running left) :
    s.expireLease w = ((s.setGuard w Guard.expired).post (.lostHold w .lease)).offerDue := by
  rw [State.expireLease, found]
  exact if_pos ⟨held, by simp [running, Timer.isRunning]⟩

/-- Settles O39. -/
theorem expiredTimersOfferTheirFrames : Obligations.ExpiredTimersOfferTheirFrames := by
  refine ⟨⟨fun s left state running => ?_, fun s n left member inside running => ?_⟩,
    fun s w left g found held running => ?_⟩
  · refine ⟨_, congrArg Host.Outcome.next (State.expireAnnounce_of_running state running),
      by apply State.eq_of_units <;> simp, by simp, ?_⟩
    exact State.mem_offerDue (s := { s with roster.announce := .runOut }) (e := .presence .announce) state rfl
  · have within := State.lt_of_silenceTimer_running running
    have timer (m : Nat) := s.silenceTimer_setEntry { status := s.status n, timer := .runOut } m within
    refine ⟨_, congrArg Host.Outcome.next (State.expireSilence_of_running member running),
      by apply State.eq_of_units <;> simp, by simp [timer], fun m => ?_, fun m other => by simp [timer, other],
      fun staying room => ?_, fun leaving => ?_⟩
    · rw [State.offerDue_status, State.status_setTimer]
    · have state : s.ctl.state = .joining ∨ s.ctl.state = .active :=
        ((s.isMember_iff.1 member).imp_right fun h => h.resolve_right staying)
      exact State.mem_offerDue (e := .depart n) (by simpa using state) ⟨inside, by simp [timer]⟩ room
    · rw [State.offerDue_of_apart (by simp [leaving])]
      rfl
  · have keeps (g : Guard) : g.expired.window = g.window := rfl
    have claims : (((s.setGuard w Guard.expired).post (.lostHold w .lease)).offerDue).claims =
        (s.setGuard w Guard.expired).claims := by simp
    have guard : (((s.setGuard w Guard.expired).post (.lostHold w .lease)).offerDue).guardOf w = some g.expired :=
      (State.guardOf_of_claims claims w).trans (State.guardOf_setGuard keeps found)
    refine ⟨_, congrArg Host.Outcome.next (State.expireLease_of_held found held running),
      by apply State.eq_of_units <;> simp, guard, fun v => ?_, ?_, ?_, fun active room => ?_⟩
    · exact (State.claimQueue_of_claims claims v).trans (State.claimQueue_setGuard keeps (fun _ => rfl) v)
    · have hold : (((s.setGuard w Guard.expired).post (.lostHold w .lease)).offerDue).holdOf w = .expiring := by
        rw [State.holdOf, guard]
        rfl
      rw [State.mayWrite, hold]
      simp only [State.entry, State.station, State.offerDue_frame, State.post_frame, State.setGuard_frame] <;> rfl
    · simp only [State.offerDue_frame]
      exact State.post_report (by rfl) _
    · refine State.mem_offerDue (e := .release w) (by simp [active]) ?_ room
      exact ⟨g.expired, by simpa using State.mem_claims_of_guardOf (State.guardOf_setGuard keeps found),
        (State.guardOf_window found :), rfl⟩

/-! ### The fetch timer (R134) -/

theorem State.fetches_iff (s : State) (w : Nat) : s.fetches w = true ↔
    s.ctl.state = .active ∧ (s.copy w).fresh = false ∧ (s.copy w).failed = false := by
  simp [State.fetches, State.isActive, and_assoc]

/-- An expiry below the fourth renews the request (R134). -/
theorem State.countExpiry_of_lt {w : Nat} (few : (s.copy w).expiries < 3) : s.countExpiry w =
    s.setCopy w fun c => { c with expiries := c.expiries + 1, timer := .running 4096, request := true } :=
  if_pos (Nat.succ_lt_succ few)

/-- The fourth expiry fails the copy with FETCH_FAILED (R134). -/
theorem State.countExpiry_of_le {w : Nat} (many : 3 ≤ (s.copy w).expiries) : s.countExpiry w =
    (s.setCopy w fun c => { c with expiries := 4, timer := .stopped, request := false, failed := true }).post
      (.fetchFailed w) :=
  if_neg (Nat.not_lt.2 (Nat.succ_le_succ many))

/-- One expiry more: the record of the one copy, and FETCH_FAILED at the fourth (R134). -/
theorem State.countExpiry_effect {w : Nat} (inside : w < s.refresh.copies.length) :
    (s.countExpiry w).refresh.service = s.refresh.service ∧ (∀ v, v ≠ w → (s.countExpiry w).copy v = s.copy v)
      ∧ ((s.copy w).expiries < 3 → (s.countExpiry w).report = s.report ∧ (s.countExpiry w).copy w =
          { s.copy w with expiries := (s.copy w).expiries + 1, timer := .running 4096, request := true })
      ∧ (3 ≤ (s.copy w).expiries → (s.countExpiry w).report = (s.post (.fetchFailed w)).report
          ∧ (s.countExpiry w).copy w =
            { s.copy w with expiries := 4, timer := .stopped, request := false, failed := true }) := by
  have set (f : Copy → Copy) (v : Nat) := State.copy_setCopy_of_lt inside f v
  have posted (u : State) (o : OutcomeRecord) (v : Nat) : (u.post o).copy v = u.copy v := State.copy_of_refresh (by simp) v
  rcases Nat.lt_or_ge (s.copy w).expiries 3 with few | many
  · rw [State.countExpiry_of_lt few]
    exact ⟨rfl, fun v other => by rw [set, if_neg other], fun _ => ⟨rfl, by rw [set, if_pos rfl]⟩,
      fun many => absurd few (Nat.not_lt.2 many)⟩
  · rw [State.countExpiry_of_le many]
    exact ⟨by simp [State.setCopy], fun v other => by rw [posted, set, if_neg other],
      fun few => absurd few (Nat.not_lt.2 many), fun _ => ⟨State.post_report (by rfl) _, by rw [posted, set, if_pos rfl]⟩⟩

/-- Settles O41. -/
theorem fourthFetchExpiryFailsTheCopy : Obligations.FourthFetchExpiryFailsTheCopy := by
  intro s w left active inside stale standing running
  have expire : s.expireFetch w = (s.countExpiry w).offerDue :=
    if_pos (Bool.and_eq_true_iff.2 ⟨(s.fetches_iff w).2 ⟨active, stale, standing⟩, by simp [running, Timer.isRunning]⟩)
  obtain ⟨service, others, below, fourth⟩ := State.countExpiry_effect inside
  have copies (v : Nat) : (s.countExpiry w).offerDue.copy v = (s.countExpiry w).copy v :=
    State.copy_of_refresh (by simp) v
  refine ⟨_, congrArg Host.Outcome.next expire, by apply State.eq_of_units <;> simp, by simpa using service,
    fun v other => (copies v).trans (others v other), fun few => ?_, fun four => ?_⟩
  · rw [copies]
    simpa using below few
  · rw [copies]
    simpa using fourth (Nat.le_of_eq four.symm)

end Sys2Proof.Machine
end

