-- ==== Sys2Proof/Proofs/VerdictWindows.lean ====
section
/-! The end of a verdict window at a station that objected, that only listens, or whose number another station uses (R13,
R14, R16 to R21, R36, R37, R150, R157 to R159). -/

namespace Sys2Proof.Machine

variable {s t : State} {f : RxFrame} {samples : BitVec 20}

/-! ### Voided and accepted (R13, R18) -/

/-- The window of a voided frame ends (R13, R18). -/
theorem exec_window_voided (window : s.line.state = .verdict) (held : s.rx.frame = some f)
    (voided : f.objects = true ∨ samples ≠ allRecessive) :
    exec (.verdictWindowEnd samples) s = .next ((s.beginGap true).windowVoided f).afterWindow := by
  simp [exec, execVerdictWindowEnd, State.endVerdict, window, held, State.endWindow, RxFrame.voidedBy_of voided]

/-- The window of an accepted frame ends (R18). -/
theorem exec_window_accepted (window : s.line.state = .verdict) (held : s.rx.frame = some f)
    (unobjected : f.objects = false) :
    exec (.verdictWindowEnd allRecessive) s = .next ((s.beginGap false).windowAccepted f).afterWindow := by
  simp [exec, execVerdictWindowEnd, State.endVerdict, window, held, State.endWindow, RxFrame.not_voidedBy unobjected]

/-- A member accepts the frame (R34). -/
theorem State.windowAccepted_of_member (member : s.isMember = true) : (s.beginGap false).windowAccepted f =
    s.gapAccepted.accept (senderOf f.chars) f.sending ((parseFrame (f.chars.map RxChar.data)).map (·.body)) :=
  if_pos member

/-- Any other station overhears it (R14, R18). -/
theorem State.windowAccepted_of_other (other : s.isMember = false) :
    (s.beginGap false).windowAccepted f = s.gapAccepted.overhear f :=
  if_neg (fun member => Bool.false_ne_true (other.symm.trans member))

/-- A voided frame of another station ends the clean run in MUTED, and has no other effect below the eighth objection
(R13, R20, R21). -/
theorem State.windowVoided_of_received (received : f.sending = false)
    (below : ¬ (f.objects = true ∧ 8 ≤ s.rx.objectionRun)) :
    s.windowVoided f = if s.ctl.state = .muted then { s with rx.cleanRun := 0 } else s := by
  simp only [State.windowVoided, received, Bool.false_eq_true, if_false]
  exact if_neg below

/-- The eighth objection takes the station to MUTED (R20, R157). -/
theorem State.windowVoided_of_eighth (received : f.sending = false) (objects : f.objects = true)
    (eighth : 8 ≤ s.rx.objectionRun) (unmuted : s.ctl.state ≠ .muted) : s.windowVoided f = s.enterMuted := by
  simp only [State.windowVoided, received, Bool.false_eq_true, if_false, if_neg unmuted]
  exact if_pos ⟨objects, eighth⟩

/-- Settles O17. -/
theorem voidedFrameHasNoEffect : Obligations.VoidedFrameHasNoEffect := by
  intro samples s f window held received voided below founding abandoning
  refine ⟨_, exec_window_voided window held voided, ?_⟩
  rw [State.windowVoided_of_received (s := s.beginGap true) received below]
  have quiet : (if (s.beginGap true).ctl.state = .muted then { s.beginGap true with rx.cleanRun := 0 }
      else s.beginGap true) = { s.beginGap true with
        rx := { s.rx with frame := none, cleanRun := if s.ctl.state = .muted then 0 else s.rx.cleanRun } } := by
    by_cases muted : s.ctl.state = .muted <;> simp [State.beginGap, muted]
  rw [quiet, State.afterWindow_eq (by exact founding) (by exact abandoning)]
  exact ⟨by apply State.eq_of_units <;> simp, by simp [State.beginGap], by simp, by simp, by simp, by simp, by simp,
    fun a => by simp⟩

/-! ### MUTED (R20, R157) -/

theorem State.ne_of_member {state : StationState} (member : s.isMember = true) (other : state.isMember = false) :
    s.ctl.state ≠ state := by
  rintro rfl
  exact Bool.false_ne_true (other.symm.trans member)

/-- The outcomes of a departure are read from the queue and the holds alone. -/
theorem State.departing_congr (pub : t.pub = s.pub) (claims : t.claims = s.claims) (abandon : AbandonReason)
    (loss : LossReason) : t.departing abandon loss = s.departing abandon loss := by
  rw [State.departing, pub, claims, State.departing]

/-- Settles O20. -/
theorem eighthObjectionMutes : Obligations.EighthObjectionMutes := by
  intro samples s f member window held received objects run
  have muted : ((s.beginGap true).windowVoided f).afterWindow = (s.beginGap true).enterMuted.settleMemory := by
    rw [State.windowVoided_of_eighth received objects (by exact Nat.le_of_eq run.symm)
      (State.ne_of_member (s := s.beginGap true) member rfl), State.afterWindow_eq (by simp) (by simp),
      State.offerDue_of_apart (by simp)]
  refine ⟨_, exec_window_voided window held (.inl objects), ?_⟩
  rw [muted]
  have copies (w : Nat) : (s.beginGap true).enterMuted.settleMemory.copy w = Copy.reset :=
    State.copy_of_cleared (s := s) (by simp) w
  simp only [copies]
  refine ⟨by simp, by simp, by simp, by simp, by simp, by simp, fun bit => ?_, by simp [State.beginGap], by simp, by simp,
    by simp, by simp, by simp, fun g cleared => cleared_of_mem (by simpa using cleared),
    fun n => State.status_of_cleared (by simp) n, by simp, fun _ => ⟨rfl, rfl, rfl⟩,
    fun e left => State.enterMuted_withdrawn (by simpa using left), ?_, fun a => by simp⟩
  · exact State.drivesAt_of_not_member (by simp [State.isMember, StationState.isMember]) bit
  · simp only [State.settleMemory_frame, State.enterMuted_report]
    exact State.postAll_report (by simp) _

/-! ### The clean run in MUTED (R21, R156, R158) -/

/-- Where no condition stands no unit offers. -/
theorem State.offerDue_of_none (none : ∀ e, ¬ s.Stands e) : s.offerDue = s := by
  by_cases state : s.ctl.state = .joining ∨ s.ctl.state = .active
  · have empty : s.dueOffers = [] :=
      List.eq_nil_iff_forall_not_mem.2 fun e due => none e ((State.mem_dueOffers state e).1 due)
    rw [State.offerDue, empty]
    rfl
  · exact State.offerDue_of_apart state

/-- A station that has forsaken its group to join anew has nothing to offer but its JOIN (R79). -/
theorem State.not_stands_rejoin (s : State) (reason : Reason) (e : ControlEntry) : ¬ (s.rejoin reason).Stands e := by
  have cleared (n : Nat) := State.status_of_cleared (t := s.rejoin reason) (by simp) n
  have inactive : (s.rejoin reason).ctl.state ≠ .active := by simp
  cases e with
  | presence mode =>
    cases mode with
    | join => exact id
    | founded => exact fun stands => inactive stands.1
    | announce => exact fun out => by simp [State.Stands] at out
  | census => exact fun stands => inactive stands.1
  | depart p => exact fun ⟨_, out⟩ => by simp [(cleared p).2] at out
  | fetch w => exact fun stands => inactive stands.1
  | release w =>
    rintro ⟨g, listed, -, expiring⟩
    obtain ⟨-, unheld, -, -⟩ := cleared_of_mem (claims := s.claims) (by simpa using listed)
    simp [unheld] at expiring

/-- L as a station that does not accept takes it from the frame (R14). -/
theorem State.hearReference_line (s : State) (f : RxFrame) : (s.hearReference f).line.reference =
    if f.framing = false ∧ f.check = false ∧ f.form = false then some (senderOf f.chars) else none := by
  simp [State.hearReference, RxFrame.clean, and_assoc]

theorem RxFrame.clean_iff (f : RxFrame) : f.clean = true ↔ f.framing = false ∧ f.check = false ∧ f.form = false := by
  simp [RxFrame.clean, and_assoc]

theorem State.overhear_of_muted (muted : s.ctl.state = .muted) : s.overhear f =
    if f.clean = false then { s.hearReference f with rx.cleanRun := 0 }
    else if s.rx.cleanRun < 15 then { s.hearReference f with rx.cleanRun := s.rx.cleanRun + 1 }
    else { s.hearReference f with rx.cleanRun := 16 }.rejoin .recovered := by
  have limit : s.rx.cleanRun + 1 < Config.cleanLimit ↔ s.rx.cleanRun < 15 := Nat.succ_lt_succ_iff
  simp only [State.overhear, muted, Bool.not_eq_true', limit]

/-- Settles O21. -/
theorem sixteenthCleanFrameRecovers : Obligations.SixteenthCleanFrameRecovers := by
  intro s f muted window held unobjected framing check form run
  have clean : f.clean = true := f.clean_iff.2 ⟨framing, check, form⟩
  have recovers : ((s.beginGap false).windowAccepted f).afterWindow =
      (State.rejoin { s.gapAccepted.hearReference f with rx.cleanRun := 16 } .recovered).settleMemory := by
    rw [State.windowAccepted_of_other (by simp [State.isMember, muted, StationState.isMember]),
      State.overhear_of_muted (by exact muted), if_neg (by simp [clean]),
      if_neg (by simp [State.gapAccepted, State.beginGap, run]), State.afterWindow_eq (by simp) (by simp),
      State.offerDue_of_none (State.not_stands_rejoin _ _)]
  refine ⟨_, exec_window_accepted window held unobjected, ?_⟩
  rw [recovers]
  refine ⟨by simp, by simp, by simp, by simp, ?_, by simp [State.gapAccepted], by simp, by simp, by simp,
    fun n => (State.status_of_cleared (by simp) n).1⟩
  simp only [State.settleMemory_frame, State.rejoin_frame, State.hearReference_line]
  exact if_pos ⟨framing, check, form⟩

/-! ### A frame of this station's number that it did not send (R36, R159) -/

/-- Settles O22. -/
theorem duplicateNumberMakesIncompatible : Obligations.DuplicateNumberMakesIncompatible := by
  intro s f member window held received unobjected duplicate
  have ends : ((s.beginGap false).windowAccepted f).afterWindow =
      ((s.timedAt s.station false).enterIncompatible .duplicateId).settleMemory := by
    have accepted : s.gapAccepted.accept s.station false ((parseFrame (f.chars.map RxChar.data)).map (·.body)) =
        (s.timedAt s.station false).enterIncompatible .duplicateId :=
      if_pos ⟨by simp [State.station], Bool.false_ne_true⟩
    rw [State.windowAccepted_of_member member, received, duplicate, accepted, State.afterWindow_eq (by simp) (by simp),
      State.offerDue_of_apart (by simp)]
  refine ⟨_, exec_window_accepted window held unobjected, ?_⟩
  rw [ends]
  have copies (w : Nat) : ((s.timedAt s.station false).enterIncompatible .duplicateId).settleMemory.copy w = Copy.reset :=
    State.copy_of_cleared (s := s) (by simp) w
  simp only [copies]
  refine ⟨by simp, by simp, by simp, fun bit => ?_, by simp, by simp, by simp, by simp, fun g cleared => ?_,
    fun n => (State.status_of_cleared (by simp) n).1, fun _ => rfl,
    fun e left => State.enterIncompatible_withdrawn (by simpa using left), ?_⟩
  · exact State.drivesAt_of_not_member (by simp [State.isMember, StationState.isMember]) bit
  · obtain ⟨queue, hold, -, -⟩ := cleared_of_mem (claims := s.claims) (by simpa using cleared)
    exact ⟨queue, hold⟩
  · simp only [State.settleMemory_frame, State.enterIncompatible_report]
    rw [State.departing_congr (s := s) (by simp) (by simp)]
    exact State.postAll_report (by simp) _

end Sys2Proof.Machine
end

