-- ==== Sys2Proof/Proofs/Listening.lean ====
section
/-! Frames that take no effect on the replicated state: those a station that does not accept overhears (R14, R16, R21,
R150), and those the sender filter stops (R35, R37). -/

namespace Sys2Proof.Machine

variable {s t : State} {f : RxFrame} {frame : Frame}

/-! ### A station that does not accept (R14, R16, R21, R150) -/

theorem State.overhear_of_listening (listening : s.ctl.state = .listening) :
    s.overhear f = if f.clean then (s.hearReference f).enterJoining .reference else s.hearReference f := by
  simp only [State.overhear, listening]

theorem State.overhear_of_incompatible (incompatible : s.ctl.state = .incompatible) :
    s.overhear f = s.hearReference f := by
  simp only [State.overhear, incompatible]

/-- The window of a frame overheard in LISTENING that is clean ends in JOINING (R16, R150). -/
theorem exec_window_acquired (listening : s.ctl.state = .listening) (window : s.line.state = .verdict)
    (held : s.rx.frame = some f) (unobjected : f.objects = false) (clean : f.clean = true) :
    exec (.verdictWindowEnd allRecessive) s =
      .next ((s.gapAccepted.hearReference f).enterJoining .reference).offerDue.settleMemory := by
  rw [exec_window_accepted window held unobjected,
    State.windowAccepted_of_other (by simp [State.isMember, listening, StationState.isMember]),
    State.overhear_of_listening (by exact listening), if_pos clean,
    State.afterWindow_eq (by simp [State.enterJoining]) (by simp [State.enterJoining])]

/-- The window of any other frame overheard in LISTENING or INCOMPATIBLE sets L alone (R14). -/
theorem exec_window_overheard (apart : s.ctl.state = .incompatible ∨ (s.ctl.state = .listening ∧ f.clean = false))
    (window : s.line.state = .verdict) (held : s.rx.frame = some f) (unobjected : f.objects = false)
    (founding : s.ctl.foundingDue = false) (abandoning : s.ctl.abandonDue = false) :
    exec (.verdictWindowEnd allRecessive) s = .next (s.gapAccepted.hearReference f).settleMemory := by
  have heard : s.gapAccepted.overhear f = s.gapAccepted.hearReference f := by
    rcases apart with incompatible | ⟨listening, unclean⟩
    · exact State.overhear_of_incompatible (by exact incompatible)
    · rw [State.overhear_of_listening (by exact listening), if_neg (by simp [unclean])]
  have other : s.isMember = false := by
    rcases apart with state | ⟨state, -⟩ <;> simp [State.isMember, state, StationState.isMember]
  have silent : ¬ (s.ctl.state = .joining ∨ s.ctl.state = .active) := by
    rcases apart with state | ⟨state, -⟩ <;> simp [state]
  rw [exec_window_accepted window held unobjected, State.windowAccepted_of_other other, heard,
    State.afterWindow_eq (by exact founding) (by exact abandoning), State.offerDue_of_apart (by exact silent)]

/-- The window of a frame overheard in MUTED below the sixteenth clean one sets L and counts the clean run (R14, R21). -/
theorem exec_window_muted (muted : s.ctl.state = .muted) (window : s.line.state = .verdict) (held : s.rx.frame = some f)
    (unobjected : f.objects = false) (founding : s.ctl.foundingDue = false) (abandoning : s.ctl.abandonDue = false)
    (below : f.clean = false ∨ s.rx.cleanRun < 15) :
    exec (.verdictWindowEnd allRecessive) s = .next (State.settleMemory { s.gapAccepted.hearReference f with
      rx.cleanRun := if f.clean = true then s.rx.cleanRun + 1 else 0 }) := by
  have run : s.gapAccepted.rx.cleanRun = s.rx.cleanRun := rfl
  have heard : s.gapAccepted.overhear f = { s.gapAccepted.hearReference f with
      rx.cleanRun := if f.clean = true then s.rx.cleanRun + 1 else 0 } := by
    rw [State.overhear_of_muted (by exact muted), run]
    by_cases clean : f.clean = true
    · rw [if_neg (by simp [clean]), if_pos (below.resolve_left (by simp [clean])), if_pos clean]
    · rw [if_pos (by simpa using clean), if_neg clean]
  rw [exec_window_accepted window held unobjected,
    State.windowAccepted_of_other (by simp [State.isMember, muted, StationState.isMember]), heard,
    State.afterWindow_eq (by exact founding) (by exact abandoning), State.offerDue_of_apart (by simp [muted])]

/-- Settles O23. -/
theorem listenerFollowsTheReference : Obligations.ListenerFollowsTheReference := by
  refine ⟨fun s f apart window held unobjected founding abandoning => ?_,
    fun s f muted window held unobjected founding abandoning below => ?_⟩
  · have reference := s.gapAccepted.hearReference_line f
    by_cases acquires : s.ctl.state = .listening ∧ f.clean = true
    · obtain ⟨listening, clean⟩ := acquires
      obtain ⟨ctl, roster, sched, -⟩ := State.enterJoining_units (s.gapAccepted.hearReference f) .reference
      refine ⟨_, exec_window_acquired listening window held unobjected clean, by simpa using reference,
        by simp [State.gapAccepted], by simp, by simp, by simp, fun _ => ?_, fun other => ?_⟩
      · simp only [State.settleMemory_frame, State.offerDue_frame, ctl, roster, true_and]
        intro empty
        have offered := ((s.gapAccepted.hearReference f).enterJoining .reference).offerDue_prefix
        rw [sched (by simpa using empty)] at offered
        obtain ⟨rest, offered⟩ := offered
        rw [← offered]
        rfl
      · obtain ⟨framing, check, form⟩ := f.clean_iff.1 clean
        simp [listening, framing, check, form] at other
    · have overheard : s.ctl.state = .incompatible ∨ (s.ctl.state = .listening ∧ f.clean = false) :=
        apart.symm.imp_right fun listening => ⟨listening, by simpa using fun clean => acquires ⟨listening, clean⟩⟩
      refine ⟨_, exec_window_overheard overheard window held unobjected founding abandoning, by simpa using reference,
        by simp [State.gapAccepted], by simp, by simp, by simp, fun ⟨listening, marks⟩ => ?_, fun _ => by simp⟩
      exact absurd ⟨listening, f.clean_iff.2 marks⟩ acquires
  · have reference := s.gapAccepted.hearReference_line f
    have run : f.clean = false ∨ s.rx.cleanRun < 15 := by
      rw [Bool.eq_false_iff, ne_eq, f.clean_iff]
      rcases below with h | h | h | h
      · simp [h]
      · simp [h]
      · simp [h]
      · exact .inr h
    refine ⟨_, exec_window_muted muted window held unobjected founding abandoning run,
      by apply State.eq_of_units <;> simp, by simpa using reference, ?_, by simp, by simp⟩
    simp only [State.settleMemory_frame, State.hearReference_frame, f.clean_iff]
    rfl

/-! ### The sender filter (R35, R37) -/

/-- Step 1 of acceptance: L is the sender (R14, R35). -/
@[simp] theorem State.timedAt_reference (s : State) (n : Nat) (sent : Bool) :
    (s.timedAt n sent).line.reference = some n := by
  unfold State.timedAt State.acceptTimers
  dsimp only
  split
  · split <;> rfl
  · split <;> simp [State.setEntry]

/-- Of another station, only the silence timer of the sender is set, where it is present (R35). -/
theorem State.timedAt_silenceTimer {n : Nat} (other : n ≠ s.station) (within : n < s.roster.entries.length) (m : Nat) :
    (s.timedAt n false).silenceTimer m =
      if m = n ∧ s.status n ≠ .absent then .running 8192 else s.silenceTimer m := by
  exact State.silenceTimer_acceptTimers (s := s.gapAccepted) other within m

/-- An ABSENT sender has no silence timer to set (R35). -/
theorem State.acceptTimers_roster_of_absent {n : Nat} (other : n ≠ s.station) (absent : s.status n = .absent)
    (sent : Bool) : (s.acceptTimers n sent).roster = s.roster := by
  rw [State.acceptTimers, if_neg other, if_pos absent]

theorem State.timedAt_roster_of_absent {n : Nat} (other : n ≠ s.station) (absent : s.status n = .absent) :
    (s.timedAt n false).roster = s.roster :=
  State.acceptTimers_roster_of_absent (s := s.gapAccepted) other absent false

/-- A frame that the filter stops takes no effect past its timers (R37). -/
theorem State.Hears.filtered_end (h : s.Hears f frame)
    (stopped : s.status frame.sender = .foreign ∨ (s.status frame.sender = .absent ∧ frame.body.isPresence = false)) :
    exec (.verdictWindowEnd allRecessive) s = .next (s.timedAt frame.sender false).offerDue.settleMemory := by
  have stops : (s.timedAt frame.sender false).passesFilter frame.sender frame.body.isPresence = false := by
    rcases stopped with foreign | ⟨absent, other⟩
    · simp [State.passesFilter, foreign]
    · simp [State.passesFilter, absent, other]
  rw [h.window_end, ← State.timedAt, State.acceptEffect, if_neg (by simp [stops]),
    State.afterWindow_eq (by simpa using h.founding) (by simpa using h.abandoning)]

/-- Settles O24. -/
theorem filteredFrameTakesNoEffect : Obligations.FilteredFrameTakesNoEffect := by
  intro s f frame hears stopped
  refine ⟨_, hears.filtered_end stopped, by apply State.eq_of_units <;> simp, by simp,
    fun n => (State.status_of_roster (by simp) n).trans (s.timedAt_status frame.sender n false), by simp,
    fun foreign within => ?_, fun absent => ?_, fun a => by simp⟩
  · have timer := State.timedAt_silenceTimer hears.other within frame.sender
    rw [if_pos ⟨rfl, by simp [foreign]⟩] at timer
    simpa [State.silenceTimer] using timer
  · simpa using State.timedAt_roster_of_absent hears.other absent

end Sys2Proof.Machine
end

