-- ==== Sys2Proof/Proofs/Acceptance.lean ====
section
/-! What every acceptance of a frame leaves of the line (R14, R20, R35), and the end of the window of a frame that passes
the sender filter (R34, R37), with the silence timers (R35, R125). -/

namespace Sys2Proof.Machine

variable {s t u : State} {f : RxFrame} {g : InFlight} {frame : Frame}

/-- Step 1 of acceptance sets L and leaves the line else (R14, R35). -/
@[simp] theorem State.acceptTimers_line (s : State) (n : Nat) (sent : Bool) :
    (s.acceptTimers n sent).line = { s.line with reference := some n } := by
  unfold State.acceptTimers
  dsimp only
  split
  · split <;> rfl
  · split <;> simp [State.setEntry]

theorem State.timedAt_line (s : State) (n : Nat) (sent : Bool) : (s.timedAt n sent).line =
    { s.line with state := .idleGap, gapTiming := true, count := 0, reference := some n } := by
  rw [State.timedAt, State.acceptTimers_line]
  rfl

@[simp] theorem State.timedAt_rx (s : State) (n : Nat) (sent : Bool) :
    (s.timedAt n sent).rx = { s.rx with frame := none, objectionRun := 0 } := by
  simp [State.timedAt, State.gapAccepted, State.beginGap]

/-! ### The line after acceptance (R14, R18, R20) -/

/-- Of the line and the receiver, acceptance may only reset what a gap begins with; nor does it put anything off. -/
structure State.GapKept (s t : State) : Prop where
  reference : t.line.reference = s.line.reference
  idle : s.line.state = .idleGap → t.line.state = .idleGap
  frame : s.rx.frame = none → t.rx.frame = none
  run : t.rx.objectionRun = s.rx.objectionRun
  quiet : s.ctl.abandonDue = false → t.ctl.abandonDue = false

namespace State.GapKept

theorem refl (s : State) : s.GapKept s := ⟨rfl, id, id, rfl, id⟩

theorem trans (h : s.GapKept t) (k : t.GapKept u) : s.GapKept u :=
  ⟨k.reference.trans h.reference, k.idle ∘ h.idle, k.frame ∘ h.frame, k.run.trans h.run, k.quiet ∘ h.quiet⟩

/-- An operation that leaves the line and the receiver alone. -/
theorem of_quiet (line : t.line = s.line) (rx : t.rx = s.rx)
    (quiet : s.ctl.abandonDue = false → t.ctl.abandonDue = false) : s.GapKept t :=
  ⟨by rw [line], by rw [line]; exact id, by rw [rx]; exact id, by rw [rx], quiet⟩

theorem of_units (line : t.line = s.line) (rx : t.rx = s.rx) (ctl : t.ctl = s.ctl) : s.GapKept t :=
  of_quiet line rx (by rw [ctl]; exact id)

theorem stop (s : State) (reason : Reason) : s.GapKept (s.stop reason) :=
  ⟨by simp, by simp [Line.reset], by simp, by simp, by simp⟩

theorem rejoin (s : State) (reason : Reason) : s.GapKept (s.rejoin reason) :=
  of_quiet (by simp) (by simp) (by simp)

theorem enterIncompatible (s : State) (reason : Reason) : s.GapKept (s.enterIncompatible reason) :=
  of_quiet (by simp) (by simp) (by simp)

theorem acceptPresence (s : State) (sender : Nat) (sent : Bool) (mode : PresenceMode) (sig : Word) :
    s.GapKept (s.acceptPresence sender sent mode sig) := by
  refine of_quiet (by simp) (by simp) fun quiet => ?_
  unfold State.acceptPresence State.acceptJoin State.startAnswer
  split
  · simpa using quiet
  · split
    · split <;> simpa using quiet
    · simpa using quiet
    · exact quiet

theorem acceptCensus (s : State) (sender : Nat) (sig : Word) (map : List RosterStatus) (groups : List (List Nat)) :
    s.GapKept (s.acceptCensus sender sig map groups) := by
  refine of_quiet (by simp) (by simp) fun quiet => ?_
  unfold State.acceptCensus State.installCensus
  (repeat' split) <;> simp [quiet]

theorem acceptDepart (s : State) (subject : Nat) : s.GapKept (s.acceptDepart subject) := by
  have gone : s.GapKept ((s.strip subject).setAbsent subject) := of_units (by simp) (by simp) (by simp)
  unfold State.acceptDepart State.departSelf
  dsimp only
  split
  · split
    · exact gone.trans (stop _ _)
    · exact gone.trans (rejoin _ _)
    · exact gone.trans (rejoin _ _)
    all_goals exact gone
  · exact gone

theorem acceptBody (s : State) (sender : Nat) (sent : Bool) (b : Body) : s.GapKept (s.acceptBody sender sent b) := by
  cases b with
  | presence mode sig => exact acceptPresence s sender sent mode sig
  | census sig map groups => exact acceptCensus s sender sig map groups
  | depart subject reason => exact acceptDepart s subject
  | write w o data => exact of_units (by simp [State.acceptBody]) (by simp [State.acceptBody]) (by simp [State.acceptBody])
  | claim w => exact of_units (by simp [State.acceptBody]) (by simp [State.acceptBody]) (by simp [State.acceptBody])
  | release w reason => exact of_units (by simp [State.acceptBody]) (by simp [State.acceptBody]) (by simp [State.acceptBody])
  | fetch w o => exact of_units (by simp [State.acceptBody]) (by simp [State.acceptBody]) (by simp [State.acceptBody])
  | fill w o r data => exact of_units (by simp [State.acceptBody]) (by simp [State.acceptBody]) (by simp [State.acceptBody])

theorem acceptEffect (s : State) (sender : Nat) (sent : Bool) (body : Option Body) :
    s.GapKept (s.acceptEffect sender sent body) := by
  unfold State.acceptEffect
  split
  · split
    · rename_i b _
      exact (acceptBody s sender sent b).trans (of_units (by simp) (by simp) (by simp))
    · exact refl s
  · exact refl s

theorem settle (s : State) (rejected : Bool) : s.GapKept (s.settle rejected) := by
  unfold State.settle
  split
  · exact refl s
  · rename_i f _
    have left : s.GapKept (s.leaveSource f) := of_units (by simp) (by simp) (by simp)
    split
    · split
      · exact left.trans (of_units (by simp) (by simp) (by simp))
      · exact left
    · split
      · exact left.trans (stop _ _)
      · exact left
    · exact left.trans (of_units (by simp) (by simp) (by simp))
    · exact left

theorem accept (s : State) (sender : Nat) (sent : Bool) (body : Option Body) :
    (s.acceptTimers sender sent).GapKept (s.accept sender sent body) := by
  unfold State.accept
  dsimp only
  split
  · exact enterIncompatible _ _
  · split
    · exact (acceptEffect _ _ _ _).trans (settle _ _)
    · exact acceptEffect _ _ _ _

theorem deferredFounding (s : State) : s.GapKept s.deferredFounding := by
  refine of_quiet (by simp) (by simp) fun quiet => ?_
  unfold State.deferredFounding State.foundingTest State.found
  (repeat' split) <;> simp [quiet]

/-- With no abandonment put off, what follows the window leaves the line. -/
theorem afterWindow (quiet : s.ctl.abandonDue = false) : s.GapKept s.afterWindow := by
  have founded := deferredFounding s
  have same : s.deferredFounding.finishAbandon = s.deferredFounding := if_neg (by simp [founded.quiet quiet])
  rw [State.afterWindow, same]
  exact founded.trans (of_units (by simp) (by simp) (by simp))

end State.GapKept

/-! ### Rosters (R114, R115) -/

theorem State.silenceTimer_of_roster (roster : t.roster = s.roster) (n : Nat) : t.silenceTimer n = s.silenceTimer n := by
  rw [State.silenceTimer, roster, State.silenceTimer]

theorem State.status_setEntry {n : Nat} (within : n < s.roster.entries.length) (e : RosterEntry) (m : Nat) :
    (s.setEntry n e).status m = if m = n then e.status else s.status m := by
  simp only [State.setEntry, State.status, List.getD_eq_getElem?_getD, List.getElem?_set]
  by_cases same : n = m
  · subst same
    simp [within]
  · simp [same, Ne.symm same]

theorem State.status_setPresent {n : Nat} (within : n < s.roster.entries.length) (st : RosterStatus) (m : Nat) :
    (s.setPresent n st).status m = if m = n then st else s.status m :=
  State.status_setEntry within _ m

/-- A present entry keeps its timer when its status changes (R115). -/
theorem State.silenceTimer_setPresent_of_present {n : Nat} (present : s.status n ≠ .absent) (st : RosterStatus) (m : Nat) :
    (s.setPresent n st).silenceTimer m = s.silenceTimer m := by
  simp only [State.setPresent, State.setEntry, if_neg present, State.silenceTimer, List.getD_eq_getElem?_getD,
    List.getElem?_set]
  by_cases same : n = m
  · subst same
    cases found : s.roster.entries[n]? with
    | none => simp [Nat.not_lt.2 (List.getElem?_eq_none_iff.1 found)]
    | some e => simp [(List.getElem?_eq_some_iff.1 found).1]
  · simp [same]

theorem State.silenceTimer_setApart {n : Nat} (present : s.status n ≠ .absent) (m : Nat) :
    (s.setApart n).silenceTimer m = s.silenceTimer m := by
  have kept (v : Nat) : (s.stripPresent n).status v = s.status v := State.status_of_roster (by simp) v
  exact (State.silenceTimer_setPresent_of_present (by rw [kept]; exact present) _ m).trans
    (State.silenceTimer_of_roster (by simp) m)

/-! ### Each PRESENCE and CENSUS (R116 to R121, R159) -/

theorem State.acceptPresence_of_apart {sig : Word} (apart : sig ≠ s.layout.signature) (n : Nat) (sent : Bool)
    (mode : PresenceMode) : s.acceptPresence n sent mode sig = s.setApart n :=
  if_pos apart

theorem State.acceptPresence_join (s : State) (n : Nat) (sent : Bool) :
    s.acceptPresence n sent .join s.layout.signature = s.acceptJoin n sent :=
  if_neg (fun apart => apart rfl)

theorem State.acceptPresence_founded (s : State) (n : Nat) (sent : Bool) :
    s.acceptPresence n sent .founded s.layout.signature = s.setPresent n .active :=
  if_neg (fun apart => apart rfl)

theorem State.acceptPresence_announce (s : State) (n : Nat) (sent : Bool) :
    s.acceptPresence n sent .announce s.layout.signature = s :=
  if_neg (fun apart => apart rfl)

/-- Another station's JOIN strips it and makes it JOINED (R117). -/
theorem State.acceptJoin_received (s : State) (n : Nat) :
    s.acceptJoin n false = (s.stripPresent n).setPresent n .joined :=
  rfl

theorem State.acceptCensus_of_apart {sig : Word} (apart : sig ≠ s.layout.signature) (settled : s.awaitsCensus = false)
    (n : Nat) (map : List RosterStatus) (groups : List (List Nat)) : s.acceptCensus n sig map groups = s.setApart n := by
  rw [State.acceptCensus, if_pos apart, if_neg (by simp [settled])]

theorem State.acceptCensus_of_settled (settled : s.awaitsCensus = false) (n : Nat) (map : List RosterStatus)
    (groups : List (List Nat)) : s.acceptCensus n s.layout.signature map groups = s.completeJoined n := by
  rw [State.acceptCensus, if_neg (fun apart => apart rfl), if_neg (by simp [settled])]

/-- The body makes no transition of this station: no DEPART of it, and no CENSUS that it awaits. -/
structure State.Stays (s : State) (b : Body) : Prop where
  depart : ∀ reason, b ≠ .depart s.station reason
  census : ∀ sig map groups, b = .census sig map groups → s.awaitsCensus = false

/-- A body of a present station changes no silence timer but that of the subject of a DEPART (R35, R115, R125). -/
theorem State.acceptBody_silenceTimer {n : Nat} {b : Body} (present : s.status n ≠ .absent) (stays : s.Stays b) {m : Nat}
    (kept : ∀ reason, b ≠ .depart m reason) : (s.acceptBody n false b).silenceTimer m = s.silenceTimer m := by
  cases b with
  | presence mode sig =>
    by_cases own : sig = s.layout.signature
    · subst own
      cases mode with
      | join =>
        have stripped (v : Nat) : (s.stripPresent n).status v = s.status v := State.status_of_roster (by simp) v
        rw [State.acceptBody, State.acceptPresence_join, State.acceptJoin_received]
        exact (State.silenceTimer_setPresent_of_present (by rw [stripped]; exact present) _ m).trans
          (State.silenceTimer_of_roster (by simp) m)
      | founded =>
        rw [State.acceptBody, State.acceptPresence_founded]
        exact State.silenceTimer_setPresent_of_present present _ m
      | announce => rw [State.acceptBody, State.acceptPresence_announce]
    · rw [State.acceptBody, State.acceptPresence_of_apart own]
      exact State.silenceTimer_setApart present m
  | census sig map groups =>
    have settled := stays.census sig map groups rfl
    by_cases own : sig = s.layout.signature
    · rw [own, State.acceptBody, State.acceptCensus_of_settled settled, State.silenceTimer_completeJoined]
    · rw [State.acceptBody, State.acceptCensus_of_apart own settled]
      exact State.silenceTimer_setApart present m
  | depart subject reason =>
    rw [State.acceptBody, State.acceptDepart, if_neg (fun own => stays.depart reason (by rw [own]))]
    have other : m ≠ subject := fun own => kept reason (by rw [own])
    have absent : ((s.strip subject).setAbsent subject).silenceTimer m = (s.strip subject).silenceTimer m := by
      simp [State.setAbsent, State.setEntry, State.silenceTimer, Ne.symm other]
    exact absent.trans (State.silenceTimer_of_roster (by simp) m)
  | write w o data => exact State.silenceTimer_of_roster (by simp [State.acceptBody]) m
  | claim w => exact State.silenceTimer_of_roster (by simp [State.acceptBody]) m
  | release w reason => exact State.silenceTimer_of_roster (by simp [State.acceptBody]) m
  | fetch w o => exact State.silenceTimer_of_roster (by simp [State.acceptBody]) m
  | fill w o r data => exact State.silenceTimer_of_roster (by simp [State.acceptBody]) m

/-- A body of another station that makes no transition leaves the controller. -/
theorem State.acceptBody_ctl {n : Nat} {b : Body} (stays : s.Stays b) : (s.acceptBody n false b).ctl = s.ctl := by
  cases b with
  | presence mode sig =>
    by_cases own : sig = s.layout.signature
    · subst own
      cases mode with
      | join => rw [State.acceptBody, State.acceptPresence_join, State.acceptJoin_received]; simp
      | founded => rw [State.acceptBody, State.acceptPresence_founded]; simp
      | announce => rw [State.acceptBody, State.acceptPresence_announce]
    · rw [State.acceptBody, State.acceptPresence_of_apart own]
      simp
  | census sig map groups =>
    have settled := stays.census sig map groups rfl
    by_cases own : sig = s.layout.signature
    · rw [own, State.acceptBody, State.acceptCensus_of_settled settled]
      simp
    · rw [State.acceptBody, State.acceptCensus_of_apart own settled]
      simp
  | depart subject reason =>
    rw [State.acceptBody, State.acceptDepart, if_neg (fun own => stays.depart reason (by rw [own]))]
    simp
  | write w o data => simp [State.acceptBody]
  | claim w => simp [State.acceptBody]
  | release w reason => simp [State.acceptBody]
  | fetch w o => simp [State.acceptBody]
  | fill w o r data => simp [State.acceptBody]

/-! ### The end of the window of a frame that passes the filter (R34, R37) -/

/-- The frame's body takes effect, overtaken frames are dropped, and offers and memory requests follow (R34). -/
theorem State.Hears.passed_end (h : s.Hears f frame)
    (passes : s.passesFilter frame.sender frame.body.isPresence = true)
    (ctl : ((s.timedAt frame.sender false).acceptBody frame.sender false frame.body).ctl = s.ctl) :
    exec (.verdictWindowEnd allRecessive) s =
      .next ((s.timedAt frame.sender false).acceptBody frame.sender false
        frame.body).dropOvertaken.offerDue.settleMemory := by
  have timed : (s.timedAt frame.sender false).passesFilter frame.sender frame.body.isPresence = true := by
    simpa [State.passesFilter] using passes
  rw [h.window_end, ← State.timedAt, State.acceptEffect, if_pos timed,
    State.afterWindow_eq (by simpa [ctl] using h.founding) (by simpa [ctl] using h.abandoning)]

/-- The same for this station's own frame, settled before the offers (R34, R43, R85). -/
theorem State.Sends.passed_end (h : s.Sends g)
    (passes : s.passesFilter s.station g.frame.body.isPresence = true)
    (ctl : (((s.timedAt s.station true).acceptBody s.station true g.frame.body).dropOvertaken.settle
      ((s.timedAt s.station true).rejects s.station (some g.frame.body))).ctl.foundingDue = false
      ∧ (((s.timedAt s.station true).acceptBody s.station true g.frame.body).dropOvertaken.settle
      ((s.timedAt s.station true).rejects s.station (some g.frame.body))).ctl.abandonDue = false) :
    exec (.verdictWindowEnd allRecessive) s =
      .next (((s.timedAt s.station true).acceptBody s.station true g.frame.body).dropOvertaken.settle
        ((s.timedAt s.station true).rejects s.station (some g.frame.body))).offerDue.settleMemory := by
  have timed : (s.timedAt s.station true).passesFilter s.station g.frame.body.isPresence = true := by
    simpa [State.passesFilter] using passes
  rw [h.window_end, ← State.timedAt, State.acceptEffect, if_pos timed, State.afterWindow_eq ctl.1 ctl.2]

theorem State.Stays.timed {n : Nat} {sent : Bool} {b : Body} (h : s.Stays b) : (s.timedAt n sent).Stays b where
  depart := by simpa [State.station] using h.depart
  census sig map groups hb := by simpa [State.awaitsCensus] using h.census sig map groups hb

/-- Settles O19. -/
theorem acceptedFrameSetsTheReference : Obligations.AcceptedFrameSetsTheReference := by
  intro s f member window held unobjected abandoning
  have accepted := State.GapKept.accept s.gapAccepted (senderOf f.chars) f.sending
    ((parseFrame (f.chars.map RxChar.data)).map (·.body))
  have timed : (s.timedAt (senderOf f.chars) f.sending).ctl.abandonDue = false := by simpa using abandoning
  have kept := accepted.trans (State.GapKept.afterWindow (accepted.quiet timed))
  have ends := exec_window_accepted window held unobjected
  rw [State.windowAccepted_of_member member] at ends
  refine ⟨_, ends, kept.reference.trans (s.timedAt_reference _ _), kept.run.trans ?_, kept.frame ?_, kept.idle ?_,
    by simp, by simp, by simp, fun a => by simp, fun frame hears present within notOwn awaited => ?_⟩
  · exact congrArg Receiver.objectionRun (s.timedAt_rx _ _)
  · exact congrArg Receiver.frame (s.timedAt_rx _ _)
  · exact congrArg Line.state (s.timedAt_line _ _)
  · have stays : (s.timedAt frame.sender false).Stays frame.body := State.Stays.timed ⟨notOwn, awaited⟩
    have passed := hears.passed_end (State.passesFilter_of_present present _)
      ((State.acceptBody_ctl stays).trans (by simp))
    have status : (s.timedAt frame.sender false).status frame.sender ≠ .absent := by
      rcases present with joined | active
      · simp [joined]
      · simp [active]
    have standing : s.status frame.sender ≠ .absent := by simpa using status
    rw [Host.Outcome.next.inj (ends.symm.trans passed)]
    have timer (n : Nat) (notNamed : ∀ reason, frame.body ≠ .depart n reason) :
        ((s.timedAt frame.sender false).acceptBody frame.sender false
          frame.body).dropOvertaken.offerDue.settleMemory.silenceTimer n =
        if n = frame.sender then .running 8192 else s.silenceTimer n := by
      rw [State.silenceTimer_of_roster (s := (s.timedAt frame.sender false).acceptBody frame.sender false frame.body)
        (by simp) n, State.acceptBody_silenceTimer status stays notNamed,
        State.timedAt_silenceTimer hears.other within]
      simp [standing]
    exact ⟨fun notNamed => by rw [timer _ notNamed, if_pos rfl], fun n other notNamed => by
      rw [timer _ notNamed, if_neg other]⟩

end Sys2Proof.Machine
end

