-- ==== Sys2Proof/Proofs/AcceptedWrites.lean ====
section
/-! Acceptance of WRITE (R38, R39, R43): the inbound entry, and the settlement of this station's own frames; with the
records and frames that step 5 of acceptance drops (R87). -/

namespace Sys2Proof.Machine

variable {s t : State} {f : RxFrame} {g : InFlight} {frame : Frame}

/-! ### Overtaken records (R87) -/

/-- Only a RELEASE record is overtaken (R87). -/
theorem State.sortRecords_of_no_release (records : List PubRecord) : ∀ ahead : List PubRecord,
    (∀ x ∈ records, x.kind ≠ .release) → s.sortRecords ahead records = (records, []) := by
  induction records with
  | nil => exact fun _ _ => rfl
  | cons r rest ih =>
    intro ahead none
    have stands : s.recordOvertaken ahead r = false := by
      simp [State.recordOvertaken, none r List.mem_cons_self]
    rw [State.sortRecords, ih _ fun x later => none x (List.mem_cons_of_mem _ later)]
    exact if_neg (by simp [stands])

/-- Where no RELEASE record stands behind what is on the line, none is overtaken (R87). -/
theorem State.sortedQueue_of_no_release (none : ∀ x ∈ s.pub.queue.drop s.keptRecords.length, x.kind ≠ .release) :
    s.sortedQueue = (s.pub.queue, []) := by
  unfold State.sortedQueue
  by_cases empty : s.keptRecords = []
  · rw [empty] at none
    rw [if_pos (by simp [empty])]
    exact State.sortRecords_of_no_release _ _ none
  · have taken := State.HoldsAgree.keptRecords_eq s empty
    have standing : s.keptRecords ++ s.pub.queue.drop 1 = s.pub.queue := by rw [taken, List.take_append_drop]
    have one : s.keptRecords.length = 1 := by
      have nonempty := List.length_pos_iff.2 empty
      rw [taken, List.length_take] at nonempty ⊢
      omega
    rw [one] at none
    rw [if_neg (by simpa using empty), State.sortRecords_of_no_release _ _ none]
    exact congrArg (·, _) standing

theorem State.dropOvertaken_pub (none : ∀ x ∈ s.pub.queue.drop s.keptRecords.length, x.kind ≠ .release) :
    s.dropOvertaken.pub = s.pub := by
  simp [State.dropOvertaken, State.sortedQueue_of_no_release none]

theorem State.dropOvertaken_report (none : ∀ x ∈ s.pub.queue.drop s.keptRecords.length, x.kind ≠ .release) :
    s.dropOvertaken.report = s.report := by
  simp [State.dropOvertaken, State.sortedQueue_of_no_release none, abandonedOutcomes, State.postAll]

/-- Behind a publication on the line stand the records of the queue's rest. -/
theorem State.drop_keptRecords_of_driven {r : PubRecord} {rest : List PubRecord} (flight : s.sched.inflight = some g)
    (driven : g.onLine = true) (source : g.source = .publication) (queue : s.pub.queue = r :: rest) :
    s.pub.queue.drop s.keptRecords.length = rest := by
  rw [State.keptRecords_of_driven (State.frameOnLine_of_driven flight driven), if_pos source, queue]
  rfl

theorem mem_of_mem_drop {x : PubRecord} (n : Nat) {records : List PubRecord} (later : x ∈ records.drop n) : x ∈ records :=
  List.mem_of_mem_drop later

/-! ### Settlement (R43, R85, R138) -/

/-- A carried publication leaves the queue; a WRITE found invalid leaves it with REJECTED (R43, R85). -/
theorem State.settle_of_write {w o : Nat} {data : List Byte} (flight : s.sched.inflight = some g)
    (source : g.source = .publication) (body : g.frame.body = .write w o data) (rejected : Bool) : s.settle rejected =
      if rejected then (s.leaveSource g).postAll ((s.pub.queue.take 1).map fun r => .rejected r.tag w o)
      else s.leaveSource g := by
  simp [State.settle, flight, source, body]

theorem State.settle_of_publication (flight : s.sched.inflight = some g) (source : g.source = .publication)
    (other : ∀ w o data, g.frame.body ≠ .write w o data) (rejected : Bool) : s.settle rejected = s.leaveSource g := by
  unfold State.settle
  rw [flight]
  dsimp only
  split
  · exact absurd ‹_› (other _ _ _)
  · simp_all
  · simp_all
  · rfl

theorem State.settle_of_control {e : ControlEntry} (flight : s.sched.inflight = some g) (source : g.source = .control e)
    (other : ∀ p, e ≠ .depart p) (rejected : Bool) : s.settle rejected = s.leaveSource g := by
  unfold State.settle
  rw [flight]
  dsimp only
  split
  · simp_all
  · rename_i p same
    exact absurd (Source.control.inj (source.symm.trans same)) (other p)
  · simp_all
  · rfl

/-- A DEPART of this station accepted in LEAVING takes it to STOPPED (R43, R161). -/
theorem State.settle_of_ownDepart (flight : s.sched.inflight = some g) (source : g.source = .control (.depart s.station))
    (leaving : s.ctl.state = .leaving) (rejected : Bool) : s.settle rejected = (s.leaveSource g).stop .left := by
  simp [State.settle, flight, source, leaving]

theorem State.settle_of_service {w r v o q : Nat} {data : List Byte} (flight : s.sched.inflight = some g)
    (source : g.source = .service w r) (body : g.frame.body = .fill v o q data) (rejected : Bool) :
    s.settle rejected = (s.leaveSource g).advanceService w r (o + data.length) := by
  simp [State.settle, flight, source, body]

theorem State.settle_of_idle (idle : s.sched.inflight = none) (rejected : Bool) : s.settle rejected = s := by
  rw [State.settle, idle]

theorem State.leaveSource_of_publication (source : g.source = .publication) :
    s.leaveSource g = { s with pub.queue := s.pub.queue.tail, sched.inflight := none } := by
  rw [State.leaveSource, source]

theorem State.leaveSource_of_control {e : ControlEntry} (source : g.source = .control e) :
    s.leaveSource g = { s with sched.control := s.sched.control.erase e, sched.inflight := none } := by
  rw [State.leaveSource, source]

theorem State.leaveSource_of_service {w r : Nat} (source : g.source = .service w r) :
    s.leaveSource g = { s.emptyChunk with sched.inflight := none } := by
  rw [State.leaveSource, source]

@[simp] theorem State.leaveSource_no_flight (s : State) (g : InFlight) : (s.leaveSource g).sched.inflight = none := by
  unfold State.leaveSource
  split <;> rfl

/-! ### WRITE (R38, R39, R43) -/

/-- A WRITE is valid by the policy of its window (R38). -/
theorem State.writeValid_iff (s : State) (n w : Nat) : s.writeValid n w = true ↔
    (s.entry w).policy = .shared ∨ ((s.entry w).policy = .owned ∧ (s.entry w).owner = some n)
      ∨ ((s.entry w).policy = .guarded ∧ (s.claimQueue w).head? = some n) := by
  unfold State.writeValid
  cases (s.entry w).policy <;> simp

theorem State.awaitsCensus_iff (s : State) :
    s.awaitsCensus = true ↔ s.ctl.state = .joining ∧ s.ctl.censusPending = true := by
  simp [State.awaitsCensus]

/-- A valid WRITE makes an inbound entry where the window is mirrored and no census is awaited (R39). -/
theorem State.writeQueues_iff (s : State) (n w : Nat) : s.writeQueues n w = true ↔
    ((s.entry w).policy = .shared ∨ ((s.entry w).policy = .owned ∧ (s.entry w).owner = some n)
      ∨ ((s.entry w).policy = .guarded ∧ (s.claimQueue w).head? = some n))
    ∧ (s.entry w).enabled = true ∧ (s.entry w).mirrored = true
    ∧ ¬ (s.ctl.state = .joining ∧ s.ctl.censusPending = true) := by
  rw [← State.writeValid_iff, ← State.awaitsCensus_iff, State.writeQueues, Entry.isMirrored]
  simp [and_assoc]

theorem State.enqueue_inbound (room : s.mirror.inbound.length < 4) (e : Inbound) :
    (s.enqueue e).mirror.inbound = s.mirror.inbound ++ [e] := by
  rw [State.enqueue, if_pos room]
  rfl

@[simp] theorem State.timedAt_writeQueues (s : State) (n m w : Nat) (sent : Bool) :
    (s.timedAt m sent).writeQueues n w = s.writeQueues n w := by
  simp [State.writeQueues, State.writeValid, State.entry, State.claimQueue, State.guardOf, State.awaitsCensus]

@[simp] theorem State.timedAt_writeValid (s : State) (n m w : Nat) (sent : Bool) :
    (s.timedAt m sent).writeValid n w = s.writeValid n w := by
  simp [State.writeValid, State.entry, State.claimQueue, State.guardOf]

/-- The inbound queue after a WRITE is accepted: one entry more where it makes one (R39). -/
theorem State.acceptWrite_inbound (room : s.mirror.inbound.length < 4) (n w o : Nat) (data : List Byte) :
    (s.acceptWrite n w o data).mirror.inbound = s.mirror.inbound ++
      (if s.writeQueues n w = true then
        [{ kind := .write (n != s.station && (s.entry w).isWatched), window := w, offset := o, data := data
           withdrawn := false }]
      else []) := by
  unfold State.acceptWrite
  split
  · exact State.enqueue_inbound room _
  · exact (List.append_nil _).symm

@[simp] theorem State.acceptWrite_inflight (s : State) (n w o : Nat) (data : List Byte) :
    (s.acceptWrite n w o data).sched.inflight = s.sched.inflight := by
  unfold State.acceptWrite
  split <;> simp

/-- Settles O29. -/
theorem acceptedWriteJoinsTheInboundQueue : Obligations.AcceptedWriteJoinsTheInboundQueue := by
  intro s f frame w o data hears body present room
  have ends := hears.passed_end (State.passesFilter_of_present present _) (by simp [body, State.acceptBody])
  refine ⟨_, ends, ?_, fun n => ?_, ?_, fun a => by simp⟩
  · rw [body]
    apply State.eq_of_units <;> simp [State.acceptBody]
  · rw [body]
    exact (State.status_of_roster (by simp [State.acceptBody]) n).trans (s.timedAt_status frame.sender n false)
  · rw [body]
    simp only [State.settleMemory_inbound, State.offerDue_frame, State.dropOvertaken_inbound, State.acceptBody]
    rw [State.acceptWrite_inbound (by simpa using room), State.timedAt_writeQueues]
    simp only [State.timedAt_frame, State.timedAt_entry, ← State.writeQueues_iff]
    split
    · rename_i queues
      obtain ⟨-, enabled, mirrored, -⟩ := (s.writeQueues_iff frame.sender w).1 queues
      have other := hears.other
      simp only [State.station] at other
      simp [State.station, other, Entry.isWatched, Entry.isMirrored, enabled, mirrored]
    · rfl

/-- At the end of the window of an own frame that only leaves its source, its body takes effect and it leaves (R43, R85). -/
theorem State.Sends.carried_end (h : s.Sends g) (passes : s.passesFilter s.station g.frame.body.isPresence = true)
    (ctl : ((s.timedAt s.station true).acceptBody s.station true g.frame.body).ctl.foundingDue = false
      ∧ ((s.timedAt s.station true).acceptBody s.station true g.frame.body).ctl.abandonDue = false)
    (carried : ∀ rejected : Bool,
      ((s.timedAt s.station true).acceptBody s.station true g.frame.body).dropOvertaken.settle rejected =
        (((s.timedAt s.station true).acceptBody s.station true g.frame.body).dropOvertaken).leaveSource g) :
    exec (.verdictWindowEnd allRecessive) s = .next ((((s.timedAt s.station true).acceptBody s.station true
      g.frame.body).dropOvertaken).leaveSource g).offerDue.settleMemory := by
  rw [h.passed_end passes (by rw [carried]; simpa using ctl), carried]

/-- The frame on the line stays in flight while its body takes effect (R81, R87). -/
theorem State.Sends.flight_after_body (h : s.Sends g)
    (flight : ((s.timedAt s.station true).acceptBody s.station true g.frame.body).sched.inflight = s.sched.inflight) :
    ((s.timedAt s.station true).acceptBody s.station true g.frame.body).dropOvertaken.sched.inflight = some g :=
  State.dropOvertaken_inflight (flight.trans h.flight) h.driven

/-- The window's end of an own publication that is no WRITE (R43, R85). -/
theorem State.Sends.publication_end (h : s.Sends g) (source : g.source = .publication)
    (present : s.status s.station = .joined ∨ s.status s.station = .active)
    (other : ∀ w o data, g.frame.body ≠ .write w o data)
    (flight : ((s.timedAt s.station true).acceptBody s.station true g.frame.body).sched = s.sched)
    (ctl : ((s.timedAt s.station true).acceptBody s.station true g.frame.body).ctl = s.ctl) :
    exec (.verdictWindowEnd allRecessive) s = .next ((((s.timedAt s.station true).acceptBody s.station true
      g.frame.body).dropOvertaken).leaveSource g).offerDue.settleMemory :=
  h.carried_end (State.passesFilter_of_present present _) (by rw [ctl]; exact ⟨h.founding, h.abandoning⟩)
    (State.settle_of_publication (h.flight_after_body (by rw [flight])) source other)

/-- The window's end of an own control frame that is no DEPART (R43, R85). -/
theorem State.Sends.control_end (h : s.Sends g) {e : ControlEntry} (source : g.source = .control e)
    (other : ∀ p, e ≠ .depart p) (passes : s.passesFilter s.station g.frame.body.isPresence = true)
    (flight : ((s.timedAt s.station true).acceptBody s.station true g.frame.body).sched = s.sched)
    (ctl : ((s.timedAt s.station true).acceptBody s.station true g.frame.body).ctl.foundingDue = false
      ∧ ((s.timedAt s.station true).acceptBody s.station true g.frame.body).ctl.abandonDue = false) :
    exec (.verdictWindowEnd allRecessive) s = .next ((((s.timedAt s.station true).acceptBody s.station true
      g.frame.body).dropOvertaken).leaveSource g).offerDue.settleMemory :=
  h.carried_end passes ctl (State.settle_of_control (h.flight_after_body (by rw [flight])) source other)

/-- Settles O30. -/
theorem ownWriteIsCarriedOrRejected : Obligations.OwnWriteIsCarriedOrRejected := by
  intro s g r rest w o data sends source body queue noRelease active
  have passes := State.passesFilter_of_present (s := s) (n := s.station) (.inr active)
  have rejects : (s.timedAt s.station true).rejects s.station (some g.frame.body) = !s.writeValid s.station w := by
    have passed : (s.timedAt s.station true).passesFilter s.station false = true := by
      simpa [State.passesFilter] using passes false
    rw [body, State.rejects, passed, State.timedAt_writeValid, Bool.true_and]
  have written : (s.timedAt s.station true).acceptBody s.station true g.frame.body =
      (s.timedAt s.station true).acceptWrite s.station w o data := by rw [body]; rfl
  have flight : ((s.timedAt s.station true).acceptWrite s.station w o data).sched.inflight = some g := by
    simpa using sends.flight
  have rests : ∀ x ∈ ((s.timedAt s.station true).acceptWrite s.station w o data).pub.queue.drop
      ((s.timedAt s.station true).acceptWrite s.station w o data).keptRecords.length, x.kind ≠ .release := by
    rw [State.drop_keptRecords_of_driven flight sends.driven source (by simpa using queue)]
    exact noRelease
  have pub := State.dropOvertaken_pub rests
  have report := State.dropOvertaken_report rests
  simp only [State.acceptWrite_frame, State.timedAt_frame] at pub report
  have settled (rejected : Bool) := State.settle_of_write (State.dropOvertaken_inflight flight sends.driven) source body
    rejected
  have ends := sends.passed_end (passes _) (by
    rw [written, settled]
    constructor
    · split <;> simpa using sends.founding
    · split <;> simpa using sends.abandoning)
  rw [written, rejects, settled] at ends
  refine ⟨_, ends, ?_, ?_, ?_, fun n => ?_, ?_, ?_, fun room => ?_, fun a => ?_⟩
  · split <;> apply State.eq_of_units <;> simp
  · split <;> simp
  · split <;> simp [State.leaveSource_of_publication source, pub, queue]
  · split <;> exact (State.status_of_roster (by simp) n).trans (s.timedAt_status s.station n true)
  · split <;> simp
  · by_cases valid : s.writeValid s.station w = true
    · rw [if_neg (by simp [valid]), if_pos ((s.writeValid_iff _ _).1 valid)]
      simp [report]
    · rw [if_pos (by simpa using valid), if_neg (mt (s.writeValid_iff _ _).2 valid)]
      simp only [State.settleMemory_frame, State.offerDue_frame, pub, queue]
      exact State.postAll_report (s := (State.dropOvertaken _).leaveSource g) (by simp [report]) [.rejected r.tag w o]
  · have inbound := State.acceptWrite_inbound (s := s.timedAt s.station true) (by simpa using room) s.station w o data
    rw [State.timedAt_writeQueues] at inbound
    simp only [State.timedAt_frame, State.writeQueues_iff] at inbound
    split <;> simpa [State.station] using inbound
  · split <;> simp

end Sys2Proof.Machine
end

