-- ==== Sys2Proof/Proofs/AcceptedClaims.lean ====
section
/-! Acceptance of CLAIM and RELEASE (R94 to R98, R103, R104): the claim queue, the promotion of this station, its own hold
and what it posts. -/

namespace Sys2Proof.Machine

variable {s t : State} {f : RxFrame} {g : InFlight} {frame : Frame} {c : Guard}

/-! ### CLAIM (R95, R96) -/

/-- A CLAIM joins the queue where its sender is not JOINED, not in the queue, and the queue holds fewer than 8 (R95). -/
theorem Guard.claimed_eq (d : Guard) (s : State) (n : Nat) (c : Guard) : d.claimed n (s.claimCase n c) =
    if s.status n ≠ .joined ∧ n ∉ c.queue ∧ c.queue.length < 8 then { d with queue := d.queue ++ [n] } else d := by
  unfold State.claimCase
  by_cases joined : s.status n = .joined
  · rw [if_pos joined, if_neg (fun h => h.1 joined)]
    rfl
  by_cases present : n ∈ c.queue
  · rw [if_neg joined, if_pos (by simpa using present), if_neg (fun h => h.2.1 present)]
    rfl
  by_cases full : 8 ≤ c.queue.length
  · rw [if_neg joined, if_neg (by simpa using present), if_pos full, if_neg (fun h => Nat.not_lt.2 full h.2.2)]
    rfl
  · rw [if_neg joined, if_neg (by simpa using present), if_neg full, if_pos ⟨joined, present, Nat.lt_of_not_le full⟩]
    rfl

theorem State.acceptClaim_received {n w : Nat} (found : s.guardOf w = some c) :
    s.acceptClaim n false w = s.setGuard w (·.claimed n (s.claimCase n c)) := by
  rw [State.acceptClaim, found]
  rfl

theorem State.acceptClaim_sent {w : Nat} (found : s.guardOf w = some c) (active : s.ctl.state = .active) (n : Nat) :
    s.acceptClaim n true w = ((s.setGuard w (·.claimed n (s.claimCase n c))).setGuard w
      (s.heldAfterClaim s.inflightTag (s.claimCase n c))).postAll (claimOutcome s.inflightTag w (s.claimCase n c)) := by
  simp [State.acceptClaim, found, State.isActive, active]

@[simp] theorem State.timedAt_guardOf (s : State) (n w : Nat) (sent : Bool) :
    (s.timedAt n sent).guardOf w = s.guardOf w :=
  State.guardOf_of_claims (by simp) w

/-- Settles O31. -/
theorem acceptedClaimJoinsTheQueue : Obligations.AcceptedClaimJoinsTheQueue := by
  intro s f frame w g hears body present found
  have ends := hears.passed_end (State.passesFilter_of_present present _) (by simp [body, State.acceptBody])
  rw [body] at ends
  refine ⟨_, ends, ?_, by apply State.eq_of_units <;> simp [State.acceptBody], fun n => ?_, by simp [State.acceptBody]⟩
  · have joined : s.status frame.sender ≠ .joined ↔ s.status frame.sender = .active := by
      rcases present with h | h <;> simp [h]
    simp only [State.settleMemory_frame, State.offerDue_frame, State.dropOvertaken_frame, State.acceptBody]
    rw [State.acceptClaim_received (by simpa using found)]
    simp only [State.setGuard, State.timedAt_frame, Guard.claimed_eq, State.timedAt_status, joined]
    refine List.map_congr_left fun c _ => ?_
    by_cases here : c.window = w
    · simp only [here, if_true, true_and]
    · rw [if_neg here, if_neg fun h => here h.1]
  · exact (State.status_of_roster (by simp [State.acceptBody]) n).trans (s.timedAt_status frame.sender n false)

/-- The tag of a publication on the line is that of the head record (R81). -/
theorem State.inflightTag_of_publication {r : PubRecord} {rest : List PubRecord} (flight : s.sched.inflight = some g)
    (source : g.source = .publication) (queue : s.pub.queue = r :: rest) : s.inflightTag = some r.tag := by
  simp [State.inflightTag, flight, source, queue]

/-- The records and the reports after step 5 and the settlement of an own publication, where no RELEASE record stands
behind it (R85, R87). -/
theorem State.settled_publication {r : PubRecord} {rest : List PubRecord} (flight : s.sched.inflight = some g)
    (driven : g.onLine = true) (source : g.source = .publication) (queue : s.pub.queue = r :: rest)
    (noRelease : ∀ x ∈ rest, x.kind ≠ .release) :
    (s.dropOvertaken.leaveSource g).pub = { s.pub with queue := rest }
      ∧ (s.dropOvertaken.leaveSource g).report = s.report := by
  have rests : ∀ x ∈ s.pub.queue.drop s.keptRecords.length, x.kind ≠ .release := by
    rw [State.drop_keptRecords_of_driven flight driven source queue]
    exact noRelease
  have pub := State.dropOvertaken_pub rests
  have report := State.dropOvertaken_report rests
  exact ⟨by simp [State.leaveSource_of_publication source, pub, queue], by simp [report]⟩

theorem State.heldAfterClaim_window (s : State) (tag : Option Byte) (case : ClaimCase) (c : Guard) :
    (s.heldAfterClaim tag case c).window = c.window := by
  rcases case with _ | (_ | _) | _ | (_ | _) <;> rfl

theorem Guard.claimed_window (c : Guard) (n : Nat) (case : ClaimCase) : (c.claimed n case).window = c.window := by
  cases case <;> rfl

/-- The case that a CLAIM of an ACTIVE station meets on a queue it is not in (R95). -/
theorem State.claimCase_of_active {n : Nat} (active : s.status n = .active) (outside : n ∉ c.queue) :
    s.claimCase n c = if 8 ≤ c.queue.length then .full else .appended c.queue.length := by
  rw [State.claimCase, if_neg (by simp [active]), if_neg (by simpa using outside)]

/-- The lease a new holder gets (R104). -/
theorem State.leaseStart_eq (s : State) (w : Nat) : s.leaseStart w =
    if (s.entry w).lease = 0 then .stopped else .running ((s.entry w).lease.toNat * 256) := rfl

/-- Settles O32. -/
theorem ownClaimIsGrantedQueuedOrRefused : Obligations.OwnClaimIsGrantedQueuedOrRefused := by
  intro s g r rest w c sends active own source body queue noRelease found outside
  have here : (s.timedAt s.station true).guardOf w = some c := by simpa using found
  have claimed := State.acceptClaim_sent here (by simpa using active) s.station
  rw [State.claimCase_of_active (by simpa using own) outside,
    State.inflightTag_of_publication (by simpa using sends.flight) source (by simpa using queue)] at claimed
  have ends := sends.publication_end source (.inr own) (by simp [body]) (by simp [body, State.acceptBody])
    (by simp [body, State.acceptBody])
  obtain ⟨pub, report⟩ := State.settled_publication (s := (s.timedAt s.station true).acceptClaim s.station true w)
    (by simpa using sends.flight) sends.driven source (by simpa using queue) noRelease
  have held := State.heldAfterClaim_window (s.timedAt s.station true) (some r.tag)
  have windows := fun case (d : Guard) => Guard.claimed_window d s.station case
  have claims := congrArg State.claims claimed
  simp only [State.postAll_frame] at claims
  have guards (v : Nat) : ((((s.timedAt s.station true).acceptClaim s.station true w).dropOvertaken).leaveSource
      g).offerDue.settleMemory.guardOf v = _ := State.guardOf_of_claims (Eq.trans (by simp) claims) v
  have guard := (guards w).trans (State.guardOf_setGuard (held _) (State.guardOf_setGuard (windows _) here))
  have posted : ((((s.timedAt s.station true).acceptClaim s.station true w).dropOvertaken).leaveSource
      g).offerDue.settleMemory.report = (s.postAll (claimOutcome (some r.tag) w
        (if 8 ≤ c.queue.length then .full else .appended c.queue.length))).report := by
    rw [claimed] at report ⊢
    simp only [State.settleMemory_frame, State.offerDue_frame, report]
    exact State.postAll_report (by simp) _
  rw [body] at ends
  refine ⟨_, ends, by apply State.eq_of_units <;> simp [State.acceptBody], by simp, ?_, by simp [State.acceptBody],
    fun v other => ?_, fun empty => ?_, fun behind room => ?_, fun full => ⟨guard.trans ?_, posted.trans ?_⟩⟩
  · simpa [State.acceptBody] using pub
  · refine (guards v).trans ?_
    rw [State.guardOf_setGuard_of_ne (held _) other, State.guardOf_setGuard_of_ne (windows _) other, State.timedAt_guardOf]
  · refine ⟨guard.trans ?_, posted.trans ?_⟩
    · simp [empty, Guard.claimed, State.heldAfterClaim, State.leaseStart_eq]
    · simp [empty, claimOutcome, State.postAll]
  · obtain ⟨p, length⟩ := Nat.exists_eq_succ_of_ne_zero (Nat.pos_iff_ne_zero.1 behind)
    have few : ¬ 8 ≤ c.queue.length := Nat.not_le.2 room
    refine ⟨guard.trans ?_, posted.trans ?_⟩
    · rw [if_neg few, length]
      rfl
    · rw [if_neg few, length]
      rfl
  · rw [if_pos full]
    rfl
  · rw [if_pos full]
    rfl

end Sys2Proof.Machine
end

