-- ==== Sys2Proof/Proofs/AcceptedReleases.lean ====
section
/-! Acceptance of RELEASE (R94, R97, R98, R103, R104): the removal of a station from one queue, the promotion of this
station, and the end of its own hold. -/

namespace Sys2Proof.Machine

variable {s t : State} {f : RxFrame} {g : InFlight} {frame : Frame} {c : Guard}

/-! ### Removal from one queue (R94) -/

/-- The removal of `st` makes this ACTIVE station the head (R94). -/
theorem State.promotes_iff (s : State) (c : Guard) (st : Nat) : (s.isActive && c.promotes st s.station) = true ↔
    s.ctl.state = .active ∧ c.queue.head? ≠ some s.station ∧ (c.queue.erase st).head? = some s.station := by
  simp [State.isActive, Guard.promotes, Guard.without]

/-- The guard position after a removal, with the promotion (R94, R104). -/
theorem State.removeFromGuard_eq (s : State) (st : Nat) (c : Guard) : s.removeFromGuard st c =
    if s.ctl.state = .active ∧ c.queue.head? ≠ some s.station ∧ (c.queue.erase st).head? = some s.station then
      { c with queue := c.queue.erase st, hold := .held, lease := s.leaseStart c.window }
    else { c with queue := c.queue.erase st } := by
  unfold State.removeFromGuard
  simp only [s.promotes_iff]
  rfl

/-- No window has two guard positions (R54). -/
theorem filter_window_of_nodup {w : Nat} : ∀ {claims : List Guard}, (claims.map (·.window)).Nodup →
    claims.find? (·.window == w) = some c → claims.filter (·.window == w) = [c] := by
  intro claims
  induction claims with
  | nil => exact fun _ found => by cases found
  | cons d rest ih =>
    intro nodup found
    obtain ⟨fresh, nodup⟩ := List.nodup_cons.1 nodup
    by_cases here : d.window = w
    · have none : rest.filter (·.window == w) = [] := by
        refine List.filter_eq_nil_iff.2 fun e later same => fresh ?_
        exact List.mem_map.2 ⟨e, later, (beq_iff_eq.1 same).trans here.symm⟩
      rw [List.find?_cons_of_pos (by simpa using here)] at found
      rw [List.filter_cons_of_pos (by simpa using here), none, Option.some.inj found]
    · rw [List.find?_cons_of_neg (by simpa using here)] at found
      rw [List.filter_cons_of_neg (by simpa using here), ih nodup found]

/-- GRANTED is posted where the removal from the one queue promotes this station (R94). -/
theorem State.removeClaims_report {w : Nat} (found : s.guardOf w = some c) (nodup : (s.claims.map (·.window)).Nodup)
    (st : Nat) : (s.removeClaims st (·.window == w)).report =
      if s.ctl.state = .active ∧ c.queue.head? ≠ some s.station ∧ (c.queue.erase st).head? = some s.station then
        (s.post (.granted c.tag c.window)).report
      else s.report := by
  have one : s.claims.filter (fun d => d.window == w && s.isActive && d.promotes st s.station) =
      if s.isActive && c.promotes st s.station then [c] else [] := by
    have split : (fun d : Guard => d.window == w && s.isActive && d.promotes st s.station) =
        fun d => (s.isActive && d.promotes st s.station) && d.window == w := by
      funext d
      rw [Bool.and_assoc, Bool.and_comm]
    rw [split, ← List.filter_filter, filter_window_of_nodup nodup found]
    rw [List.filter_singleton, Bool.cond_eq_ite]
  rw [State.removeClaims, one]
  simp only [s.promotes_iff]
  split
  · exact State.post_report (by rfl) _
  · rfl

theorem State.removeClaims_claims (s : State) (st w : Nat) : (s.removeClaims st (·.window == w)).claims =
    s.claims.map fun d => if d.window = w then s.removeFromGuard st d else d := by
  simp [State.removeClaims]

theorem State.removeFromGuard_window (s : State) (st : Nat) (c : Guard) : (s.removeFromGuard st c).window = c.window :=
  (State.HoldsAgree.removeFromGuard_queue s st c).1

theorem State.guardOf_removeClaims {w : Nat} (found : s.guardOf w = some c) (st : Nat) :
    (s.removeClaims st (·.window == w)).guardOf w = some (s.removeFromGuard st c) := by
  rw [State.guardOf_of_map (s := s) (fun d => by split <;> simp [State.removeFromGuard_window]) (s.removeClaims_claims st w),
    found, Option.map_some, if_pos (State.guardOf_window found)]

theorem State.guardOf_removeClaims_of_ne {w v : Nat} (other : v ≠ w) (st : Nat) :
    (s.removeClaims st (·.window == w)).guardOf v = s.guardOf v := by
  rw [State.guardOf_of_map (s := s) (fun d => by split <;> simp [State.removeFromGuard_window]) (s.removeClaims_claims st w)]
  cases found : s.guardOf v with
  | none => rfl
  | some d => rw [Option.map_some, if_neg (by rw [State.guardOf_window found]; exact other)]

/-- A station that leaves a queue is not promoted in it (R94). -/
theorem State.removeFromGuard_own (nodup : c.queue.Nodup) :
    s.removeFromGuard s.station c = { c with queue := c.queue.erase s.station } := by
  rw [State.removeFromGuard_eq, if_neg]
  rintro ⟨-, -, head⟩
  exact List.Nodup.not_mem_erase nodup (List.mem_of_head? head)

theorem State.removeClaims_report_own {w : Nat} (found : s.guardOf w = some c) (windows : (s.claims.map (·.window)).Nodup)
    (nodup : c.queue.Nodup) : (s.removeClaims s.station (·.window == w)).report = s.report := by
  rw [State.removeClaims_report found windows, if_neg]
  rintro ⟨-, -, head⟩
  exact List.Nodup.not_mem_erase nodup (List.mem_of_head? head)

theorem State.claimQueue_of_guardOf {w : Nat} (found : s.guardOf w = some c) : s.claimQueue w = c.queue := by
  rw [State.claimQueue, found]
  rfl

@[simp] theorem State.timedAt_station (s : State) (n : Nat) (sent : Bool) : (s.timedAt n sent).station = s.station := by
  simp [State.station]

@[simp] theorem State.timedAt_claimQueue (s : State) (n w : Nat) (sent : Bool) :
    (s.timedAt n sent).claimQueue w = s.claimQueue w :=
  State.claimQueue_of_claims (by simp) w

/-! ### RELEASE (R97, R98) -/

theorem State.acceptRelease_received (s : State) (n w : Nat) :
    s.acceptRelease n false w = s.removeClaims n (·.window == w) := rfl

theorem State.acceptRelease_sent (s : State) (n w : Nat) : s.acceptRelease n true w =
    ((s.removeClaims n (·.window == w)).setGuard w Guard.released).post
      (.cancelled s.inflightTag w ((s.claimQueue w).idxOf? n)) := rfl

/-- An own RELEASE ends every hold but CLAIMING (R98, R103). -/
theorem Guard.released_eq (d : Guard) : d.released =
    if d.hold = .claiming then d else { d with hold := .unheld, tag := none, lease := .stopped } := rfl

theorem no_release_behind {records : List PubRecord} (none : ∀ x ∈ records, x.kind ≠ .release) (n : Nat) :
    ∀ x ∈ records.drop n, x.kind ≠ .release :=
  fun x later => none x (List.mem_of_mem_drop later)

/-- A control frame carries no tag (R81). -/
theorem State.inflightTag_of_control {e : ControlEntry} (flight : s.sched.inflight = some g)
    (source : g.source = .control e) : s.inflightTag = none := by
  simp [State.inflightTag, flight, source]

/-- Step 5 and the settlement of an own control frame leave the records and the reports, where no RELEASE record is
queued (R85, R87). -/
theorem State.settled_control {e : ControlEntry} (source : g.source = .control e)
    (noRelease : ∀ x ∈ s.pub.queue, x.kind ≠ .release) :
    (s.dropOvertaken.leaveSource g).pub = s.pub ∧ (s.dropOvertaken.leaveSource g).report = s.report := by
  have pub := State.dropOvertaken_pub (no_release_behind noRelease s.keptRecords.length)
  have report := State.dropOvertaken_report (no_release_behind noRelease s.keptRecords.length)
  rw [State.leaveSource_of_control source]
  exact ⟨pub, report⟩

/-- The RELEASE of another station: its removal, and the promotion that may follow (R94, R97). -/
theorem release_of_other_promotes :
    ∀ (s : State) (f : RxFrame) (frame : Frame) (w : Nat) (reason : ReleaseReason) (g : Guard), s.Hears f frame →
      frame.body = .release w reason → (s.status frame.sender = .joined ∨ s.status frame.sender = .active) →
      s.guardOf w = some g → (∀ x ∈ s.pub.queue, x.kind ≠ .release) → (s.claims.map (·.window)).Nodup →
      ∃ t, exec (.verdictWindowEnd allRecessive) s = .next t
        ∧ t = { s with
            line := t.line, rx := t.rx, mirror := t.mirror, sched := t.sched, roster := t.roster
            pub := t.pub, claims := t.claims, report := t.report }
        ∧ (∀ n, t.status n = s.status n) ∧ t.mirror.inbound = s.mirror.inbound
        ∧ (∀ v, v ≠ w → t.guardOf v = s.guardOf v) ∧ t.claimQueue w = g.queue.erase frame.sender
        ∧ (s.ctl.state = .active ∧ g.queue.head? ≠ some s.station
              ∧ (g.queue.erase frame.sender).head? = some s.station →
            t.guardOf w = some
              { g with queue := g.queue.erase frame.sender, hold := .held
                       lease := if (s.entry g.window).lease = 0 then .stopped
                                else .running ((s.entry g.window).lease.toNat * 256) }
            ∧ t.report = (s.post (.granted g.tag g.window)).report)
        ∧ (¬ (s.ctl.state = .active ∧ g.queue.head? ≠ some s.station
              ∧ (g.queue.erase frame.sender).head? = some s.station) →
            t.guardOf w = some { g with queue := g.queue.erase frame.sender } ∧ t.report = s.report) := by
  intro s f frame w reason g hears body present found noRelease windows
  have ends := hears.passed_end (State.passesFilter_of_present present _) (by simp [body, State.acceptBody])
  have here : (s.timedAt frame.sender false).guardOf w = some g := by simpa using found
  have guards {v : Nat} {d : Option Guard}
      (after : ((s.timedAt frame.sender false).removeClaims frame.sender (·.window == w)).guardOf v = d) :
      ((s.timedAt frame.sender false).removeClaims frame.sender
        (·.window == w)).dropOvertaken.offerDue.settleMemory.guardOf v = d :=
    (State.guardOf_of_claims (by simp) v).trans after
  have guard := guards (State.guardOf_removeClaims here frame.sender)
  have report := State.removeClaims_report here (by simpa using windows) frame.sender
  have dropped := State.dropOvertaken_report
    (s := (s.timedAt frame.sender false).removeClaims frame.sender (·.window == w))
    (no_release_behind (by simpa using noRelease) _)
  have posted : ((s.timedAt frame.sender false).post (.granted g.tag g.window)).report =
      (s.post (.granted g.tag g.window)).report := State.post_report (by simp) _
  rw [State.removeFromGuard_eq, State.leaseStart_eq] at guard
  rw [posted] at report
  simp only [State.timedAt_frame, State.timedAt_entry, State.timedAt_station] at guard report
  rw [body, State.acceptBody, State.acceptRelease_received] at ends
  refine ⟨_, ends, by apply State.eq_of_units <;> simp, fun n => ?_, by simp, fun v other => ?_, ?_, fun promoted => ?_,
    fun waiting => ?_⟩
  · exact (State.status_of_roster (by simp) n).trans (s.timedAt_status frame.sender n false)
  · exact guards ((State.guardOf_removeClaims_of_ne other _).trans (s.timedAt_guardOf _ _ _))
  · rw [State.claimQueue_of_guardOf guard]
    split <;> rfl
  · rw [guard, if_pos promoted]
    exact ⟨rfl, by simp only [State.settleMemory_frame, State.offerDue_frame, dropped, report, if_pos promoted]⟩
  · rw [guard, if_neg waiting]
    exact ⟨rfl, by simp only [State.settleMemory_frame, State.offerDue_frame, dropped, report, if_neg waiting]⟩

/-- This station's own RELEASE: its removal, and the end of its hold with CANCELLED (R98, R103). -/
theorem own_release_ends_the_hold :
    ∀ (s : State) (g : InFlight) (w : Nat) (reason : ReleaseReason) (c : Guard), s.Sends g →
      g.frame.body = .release w reason → (s.status s.station = .joined ∨ s.status s.station = .active) →
      s.guardOf w = some c → c.queue.Nodup → (s.claims.map (·.window)).Nodup →
      (g.source = .publication → ∃ r rest, s.pub.queue = r :: rest ∧ ∀ x ∈ rest, x.kind ≠ .release) →
      (g.source = .control (.release w) ∨ g.source = .publication) →
      (g.source ≠ .publication → ∀ x ∈ s.pub.queue, x.kind ≠ .release) →
      ∃ t, exec (.verdictWindowEnd allRecessive) s = .next t
        ∧ t = { s with
            line := t.line, rx := t.rx, mirror := t.mirror, sched := t.sched, roster := t.roster
            pub := t.pub, claims := t.claims, report := t.report }
        ∧ (∀ n, t.status n = s.status n) ∧ t.mirror.inbound = s.mirror.inbound ∧ t.sched.inflight = none
        ∧ (∀ v, v ≠ w → t.guardOf v = s.guardOf v)
        ∧ t.guardOf w = some (if c.hold = .claiming then { c with queue := c.queue.erase s.station }
            else { c with queue := c.queue.erase s.station, hold := .unheld, tag := none, lease := .stopped })
        ∧ (g.source ≠ .publication → t.pub = s.pub
            ∧ t.report = (s.post (.cancelled none w (c.queue.idxOf? s.station))).report)
        ∧ (∀ r rest, g.source = .publication → s.pub.queue = r :: rest → t.pub = { s.pub with queue := rest }
            ∧ t.report = (s.post (.cancelled (some r.tag) w (c.queue.idxOf? s.station))).report) := by
  intro s g w reason c sends body present found nodup windows publication source noRelease
  have here : (s.timedAt s.station true).guardOf w = some c := by simpa using found
  have released : (s.timedAt s.station true).acceptBody s.station true g.frame.body =
      (s.timedAt s.station true).acceptRelease s.station true w := by rw [body]; rfl
  have own := State.removeFromGuard_own (s := s.timedAt s.station true) (c := c) nodup
  rw [State.timedAt_station] at own
  have windowKept (d : Guard) : d.released.window = d.window := by simp
  have guards (v : Nat) : ((((s.timedAt s.station true).acceptRelease s.station true w).dropOvertaken).leaveSource
      g).offerDue.settleMemory.guardOf v =
      (((s.timedAt s.station true).removeClaims s.station (·.window == w)).setGuard w Guard.released).guardOf v :=
    State.guardOf_of_claims (by simp [State.acceptRelease_sent]) v
  have removed := State.removeClaims_report_own here (by simpa using windows) nodup
  rw [State.timedAt_station] at removed
  have report : ((s.timedAt s.station true).acceptRelease s.station true w).report =
      (s.post (.cancelled (s.timedAt s.station true).inflightTag w (c.queue.idxOf? s.station))).report := by
    rw [State.acceptRelease_sent, State.timedAt_claimQueue, State.claimQueue_of_guardOf found]
    exact State.post_report (by simp [removed]) _
  have own_guard := State.guardOf_setGuard windowKept (State.guardOf_removeClaims here s.station)
  rw [own, Guard.released_eq] at own_guard
  have unchanged : ((s.timedAt s.station true).acceptBody s.station true g.frame.body).sched = s.sched ∧
      ((s.timedAt s.station true).acceptBody s.station true g.frame.body).ctl = s.ctl := by
    rw [released]
    simp [State.acceptRelease_sent]
  obtain ⟨sched, ctl⟩ := unchanged
  have ends : exec (.verdictWindowEnd allRecessive) s = .next ((((s.timedAt s.station true).acceptBody s.station true
      g.frame.body).dropOvertaken).leaveSource g).offerDue.settleMemory := by
    rcases source with control | publication
    · exact sends.control_end control (by simp) (State.passesFilter_of_present present _) sched
        (by rw [ctl]; exact ⟨sends.founding, sends.abandoning⟩)
    · exact sends.publication_end publication present (by simp [body]) sched ctl
  rw [released] at ends
  refine ⟨_, ends, ?_, fun n => ?_, ?_, by simp, fun v other => ?_, ?_, fun control => ?_, fun r rest carried queue => ?_⟩
  · apply State.eq_of_units <;> simp [State.acceptRelease_sent]
  · exact (State.status_of_roster (by simp [State.acceptRelease_sent]) n).trans (s.timedAt_status s.station n true)
  · simp [State.acceptRelease_sent]
  · rw [guards, State.guardOf_setGuard_of_ne windowKept other, State.guardOf_removeClaims_of_ne other,
      State.timedAt_guardOf]
  · exact (guards w).trans own_guard
  · rcases source with release | carried
    · obtain ⟨pub, settled⟩ := State.settled_control
        (s := (s.timedAt s.station true).acceptRelease s.station true w) release
        (by simpa [State.acceptRelease_sent] using noRelease control)
      refine ⟨by simpa [State.acceptRelease_sent] using pub, ?_⟩
      rw [State.inflightTag_of_control (by simpa using sends.flight) release] at report
      simpa using settled.trans report
    · exact absurd carried control
  · obtain ⟨_, _, same, noneBehind⟩ := publication carried
    obtain ⟨rfl, rfl⟩ := List.cons.inj (queue.symm.trans same)
    obtain ⟨pub, settled⟩ := State.settled_publication
      (s := (s.timedAt s.station true).acceptRelease s.station true w) (by simpa [State.acceptRelease_sent] using sends.flight)
      sends.driven carried (by simpa [State.acceptRelease_sent] using queue) noneBehind
    refine ⟨by simpa [State.acceptRelease_sent] using pub, ?_⟩
    rw [State.inflightTag_of_publication (by simpa using sends.flight) carried (by simpa using queue)] at report
    simpa using settled.trans report

/-- Settles O33. -/
theorem acceptedReleasePromotesTheNext : Obligations.AcceptedReleasePromotesTheNext :=
  ⟨release_of_other_promotes, own_release_ends_the_hold⟩

end Sys2Proof.Machine
end

