-- ==== Sys2Proof/Proofs/AcceptedPresences.lean ====
section
/-! Acceptance of PRESENCE JOIN, FOUNDED and ANNOUNCE (R115 to R119, R152, R154): the sender's entry, what is taken from it,
and this station's own entry. -/

namespace Sys2Proof.Machine

variable {s t u : State} {f : RxFrame} {g : InFlight} {frame : Frame}

/-- A PRESENCE passes the filter unless its sender is FOREIGN (R37). -/
theorem State.passesFilter_of_known {n : Nat} (known : s.status n ≠ .foreign) : s.passesFilter n true = true := by
  unfold State.passesFilter
  cases status : s.status n with
  | foreign => exact absurd status known
  | absent => rfl
  | joined => rfl
  | active => rfl

/-- Station `n` is recorded at status `st`, its silence timer set from now; the roster stands else (R35, R115, R125). -/
structure State.Recorded (s t : State) (n : Nat) (st : RosterStatus) : Prop where
  status : ∀ m, t.status m = if m = n then st else s.status m
  timer : ∀ m, t.silenceTimer m = if m = n then .running 8192 else s.silenceTimer m

theorem State.Recorded.of_roster {n : Nat} {st : RosterStatus} (h : s.Recorded t n st) (same : u.roster = t.roster) :
    s.Recorded u n st :=
  ⟨fun m => (State.status_of_roster same m).trans (h.status m),
    fun m => (State.silenceTimer_of_roster same m).trans (h.timer m)⟩

/-- A peer heard and given a status has its timer set from now, whatever its status was (R35, R115). -/
theorem State.recorded_setPresent {n : Nat} (other : n ≠ s.station) (within : n < s.roster.entries.length)
    (roster : u.roster = (s.timedAt n false).roster) (station : u.station = s.station) (st : RosterStatus) :
    s.Recorded (u.setPresent n st) n st := by
  have status (m : Nat) : u.status m = s.status m := (State.status_of_roster roster m).trans (s.timedAt_status n m false)
  have timer (m : Nat) : u.silenceTimer m = if m = n ∧ s.status n ≠ .absent then .running 8192 else s.silenceTimer m :=
    (State.silenceTimer_of_roster roster m).trans (State.timedAt_silenceTimer other within m)
  have length : (s.timedAt n false).roster.entries.length = s.roster.entries.length := by
    unfold State.timedAt State.acceptTimers
    dsimp only
    (repeat' split) <;> simp [State.setEntry]
  have inside : n < u.roster.entries.length := by
    rw [roster, length]
    exact within
  refine ⟨fun m => ?_, fun m => ?_⟩
  · rw [State.status_setPresent inside, status]
  · rw [State.silenceTimer_setPresent _ _ _ inside (by rw [station]; exact other), status, timer]
    by_cases here : m = n
    · by_cases absent : s.status n = .absent
      · simp [here, absent]
      · simp [here, absent]
    · simp [here]

/-! ### What is taken from a station (R115, R127) -/

theorem State.strip_claims_queues (s : State) (n : Nat) :
    (s.strip n).claims.map (·.queue) = s.claims.map fun g => g.queue.erase n := by
  simp only [State.strip, State.dropServiceOf, State.removeAllClaims, State.removeClaims, State.postAll_frame, if_true,
    List.map_map]
  exact List.map_congr_left fun g _ => (State.HoldsAgree.removeFromGuard_queue s n g).2

theorem State.strip_service (s : State) (n : Nat) :
    (s.strip n).refresh.service = s.refresh.service.filter fun e => e.requester != n := by
  simp [State.strip, State.dropServiceOf]

@[simp] theorem State.strip_copies (s : State) (n : Nat) : (s.strip n).refresh.copies = s.refresh.copies := by
  simp [State.strip, State.dropServiceOf]

@[simp] theorem State.stripPresent_copies (s : State) (n : Nat) :
    (s.stripPresent n).refresh.copies = s.refresh.copies := by
  unfold State.stripPresent
  split
  · split <;> simp
  · rfl

theorem State.stripPresent_of_present {n : Nat} (other : n ≠ s.station) (present : s.status n = .joined ∨ s.status n = .active) :
    s.stripPresent n = s.strip n := by
  have matching : (s.status n).matching = true := by
    rcases present with joined | active
    · rw [joined]
      rfl
    · rw [active]
      rfl
  rw [State.stripPresent, if_pos matching, if_neg other]

theorem State.stripPresent_of_apart {n : Nat} (apart : ¬ (s.status n = .joined ∨ s.status n = .active)) :
    s.stripPresent n = s := by
  have unmatched : ¬ (s.status n).matching = true := by
    cases status : s.status n with
    | absent => simp [RosterStatus.matching]
    | foreign => simp [RosterStatus.matching]
    | joined => exact absurd (.inl status) apart
    | active => exact absurd (.inr status) apart
  rw [State.stripPresent, if_neg unmatched]

/-! ### Another station's PRESENCE (R116 to R119) -/

/-- A PRESENCE of another layout, and a JOIN, take from their sender what it has before its status changes (R116, R117). -/
theorem State.acceptPresence_stripping {mode : PresenceMode} {sig : Word}
    (strips : sig ≠ s.layout.signature ∨ mode = .join) (n : Nat) : s.acceptPresence n false mode sig =
      (s.stripPresent n).setPresent n (if sig ≠ s.layout.signature then .foreign else .joined) := by
  by_cases apart : sig ≠ s.layout.signature
  · rw [if_pos apart, State.acceptPresence_of_apart apart, State.setApart]
  · rw [if_neg apart, strips.resolve_left apart, not_not.1 apart, State.acceptPresence_join, State.acceptJoin_received]

theorem State.acceptPresence_copies (s : State) (n : Nat) (mode : PresenceMode) (sig : Word) :
    (s.acceptPresence n false mode sig).refresh.copies = s.refresh.copies := by
  by_cases strips : sig ≠ s.layout.signature ∨ mode = .join
  · rw [State.acceptPresence_stripping strips]
    simp
  · obtain ⟨same, notJoin⟩ := not_or.1 strips
    rw [not_not.1 same]
    cases mode with
    | join => exact absurd rfl notJoin
    | founded => rw [State.acceptPresence_founded]; simp
    | announce => rw [State.acceptPresence_announce]

/-- FOUNDED and ANNOUNCE of this layout take nothing from their sender (R118, R119). -/
theorem State.acceptPresence_keeping {mode : PresenceMode} (notJoin : mode ≠ .join) (s : State) (n : Nat) :
    (s.acceptPresence n false mode s.layout.signature).claims = s.claims
      ∧ (s.acceptPresence n false mode s.layout.signature).refresh = s.refresh := by
  cases mode with
  | join => exact absurd rfl notJoin
  | founded => rw [State.acceptPresence_founded]; simp
  | announce => rw [State.acceptPresence_announce]; exact ⟨rfl, rfl⟩

/-- Every PRESENCE but an ANNOUNCE of this layout records its sender (R116, R117, R118). -/
theorem State.recorded_acceptPresence {n : Nat} {mode : PresenceMode} {sig : Word} (other : n ≠ s.station)
    (within : n < s.roster.entries.length) (records : sig ≠ s.layout.signature ∨ mode ≠ .announce) :
    s.Recorded ((s.timedAt n false).acceptPresence n false mode sig) n
      (if sig ≠ s.layout.signature then .foreign else if mode = .join then .joined else .active) := by
  have layout : (s.timedAt n false).layout = s.layout := by simp
  by_cases strips : sig ≠ s.layout.signature ∨ mode = .join
  · have stripped := State.recorded_setPresent (u := (s.timedAt n false).stripPresent n) other within (by simp)
      (by simp [State.station]) (if sig ≠ s.layout.signature then .foreign else .joined)
    rw [State.acceptPresence_stripping (by rw [layout]; exact strips), layout]
    by_cases apart : sig ≠ s.layout.signature
    · rw [if_pos apart] at stripped ⊢
      simpa [apart] using stripped
    · rw [if_neg apart] at stripped ⊢
      simpa [apart, strips.resolve_left apart] using stripped
  · obtain ⟨same, notJoin⟩ := not_or.1 strips
    have founded : mode = .founded := by
      cases mode with
      | join => exact absurd rfl notJoin
      | founded => rfl
      | announce => exact absurd rfl (records.resolve_left same)
    rw [if_neg same, not_not.1 same, founded, ← layout, State.acceptPresence_founded]
    exact State.recorded_setPresent other within rfl (by simp) _

/-- The status a PRESENCE gives its sender (R116 to R119). -/
def State.presenceStatus (s : State) (n : Nat) (mode : PresenceMode) (sig : Word) : RosterStatus :=
  if sig ≠ s.layout.signature then .foreign
  else if mode = .join then .joined
  else if mode = .founded then .active
  else s.status n

theorem State.status_acceptPresence {n : Nat} (other : n ≠ s.station) (within : n < s.roster.entries.length)
    (mode : PresenceMode) (sig : Word) (m : Nat) : ((s.timedAt n false).acceptPresence n false mode sig).status m =
      if m = n then s.presenceStatus n mode sig else s.status m := by
  by_cases records : sig ≠ s.layout.signature ∨ mode ≠ .announce
  · rw [(State.recorded_acceptPresence other within records).status, State.presenceStatus]
    cases mode <;> simp_all
  · obtain ⟨same, announce⟩ := not_or.1 records
    have kept := State.acceptPresence_announce (s.timedAt n false) n false
    rw [show (s.timedAt n false).layout = s.layout by simp, ← not_not.1 same, ← not_not.1 announce] at kept
    rw [kept, State.timedAt_status, State.presenceStatus, if_neg same, not_not.1 announce]
    by_cases here : m = n
    · simp [here]
    · simp [here]

/-- The silence timer of the sender of a PRESENCE is set, but for an ANNOUNCE that makes no entry present (R35, R115,
R119). -/
theorem State.silenceTimer_acceptPresence {n : Nat} (other : n ≠ s.station) (within : n < s.roster.entries.length)
    (mode : PresenceMode) (sig : Word) (m : Nat) :
    ((s.timedAt n false).acceptPresence n false mode sig).silenceTimer m =
      if m = n then
        if s.status n = .absent ∧ sig = s.layout.signature ∧ mode = .announce then s.silenceTimer n else .running 8192
      else s.silenceTimer m := by
  by_cases records : sig ≠ s.layout.signature ∨ mode ≠ .announce
  · have sets : ¬ (s.status n = .absent ∧ sig = s.layout.signature ∧ mode = .announce) :=
      fun ⟨_, same, announce⟩ => records.elim (fun apart => apart same) (fun silent => silent announce)
    rw [(State.recorded_acceptPresence other within records).timer, if_neg sets]
  · obtain ⟨same, announce⟩ := not_or.1 records
    have kept := State.acceptPresence_announce (s.timedAt n false) n false
    rw [show (s.timedAt n false).layout = s.layout by simp, ← not_not.1 same, ← not_not.1 announce] at kept
    rw [kept, State.timedAt_silenceTimer other within]
    by_cases here : m = n
    · by_cases absent : s.status n = .absent
      · simp [here, absent, not_not.1 same, not_not.1 announce]
      · simp [here, absent]
    · simp [here]

/-- This station's own JOIN, accepted while it awaits the census (R117, R152). -/
theorem State.acceptJoin_sent_of_waiting {n : Nat} (absent : s.status n = .absent) (waiting : s.awaitsCensus = true) :
    s.acceptJoin n true = { s.setPresent n .joined with ctl.answer := .running 1024 } := by
  rw [State.acceptJoin, State.stripPresent_of_apart (by simp [absent]), State.startAnswer]
  exact if_pos (by simpa [State.awaitsCensus] using waiting)

/-! ### What the unit offers after a window -/

/-- Step 5 of acceptance only takes control entries from the list (R87). -/
theorem State.dropOvertaken_control_sublist (s : State) : s.dropOvertaken.sched.control.Sublist s.sched.control := by
  simp [State.dropOvertaken]

/-- A control entry carried leaves the list (R85). -/
theorem State.not_mem_leaveSource {e : ControlEntry} (source : g.source = .control e) (nodup : s.sched.control.Nodup) :
    e ∉ (s.dropOvertaken.leaveSource g).sched.control := by
  rw [State.leaveSource_of_control source]
  exact List.Nodup.not_mem_erase (nodup.sublist s.dropOvertaken_control_sublist)

/-- An entry on the list after the offers was on it or its condition stands (R78, R79). -/
theorem State.stands_of_mem_offerDue {e : ControlEntry} (listed : e ∈ s.offerDue.sched.control) :
    s.Stands e ∨ e ∈ s.sched.control := by
  by_cases state : s.ctl.state = .joining ∨ s.ctl.state = .active
  · exact (State.of_mem_foldl_offer s.dueOffers listed).imp_left (State.mem_dueOffers state e).1
  · rw [State.offerDue_of_apart state] at listed
    exact .inr listed

/-- At the acceptance of an own frame in JOINING or ACTIVE the announce timer starts again (R35). -/
theorem State.timedAt_roster_of_sent (state : s.ctl.state = .joining ∨ s.ctl.state = .active) :
    (s.timedAt s.station true).roster = { s.roster with announce := .running 2048 } := by
  rw [State.timedAt, State.acceptTimers, if_pos (by simp [State.station]), if_pos (by simpa using state)]
  simp [Config.announceTicks]

/-- The PRESENCE of another station, of any mode and layout (R116 to R119). -/
theorem presence_of_other_recorded :
    ∀ (s : State) (f : RxFrame) (frame : Frame) (mode : PresenceMode) (signature : Word), s.Hears f frame →
      frame.body = .presence mode signature → frame.sender < s.roster.entries.length →
      s.status frame.sender ≠ .foreign →
      ∃ t, exec (.verdictWindowEnd allRecessive) s = .next t
        ∧ t.status frame.sender = (if signature ≠ s.layout.signature then .foreign
            else match mode with
              | .join => .joined
              | .founded => .active
              | .announce => s.status frame.sender)
        ∧ t = { s with
            line := t.line, rx := t.rx, mirror := t.mirror, sched := t.sched, roster := t.roster
            pub := t.pub, claims := t.claims, refresh := t.refresh, report := t.report }
        ∧ t.silenceTimer frame.sender =
            (if s.status frame.sender = .absent ∧ signature = s.layout.signature ∧ mode = .announce
              then s.silenceTimer frame.sender else .running 8192)
        ∧ (∀ n, n ≠ frame.sender → t.status n = s.status n ∧ t.silenceTimer n = s.silenceTimer n)
        ∧ t.mirror.inbound = s.mirror.inbound ∧ t.refresh.copies = s.refresh.copies
        ∧ ((signature ≠ s.layout.signature ∨ mode = .join) →
            (s.status frame.sender = .joined ∨ s.status frame.sender = .active) →
            (∀ e ∈ t.refresh.service, e.requester ≠ frame.sender)
            ∧ t.claims.map (·.queue) = s.claims.map (fun g => g.queue.erase frame.sender))
        ∧ (signature = s.layout.signature → mode ≠ .join → t.claims = s.claims ∧ t.refresh.service = s.refresh.service) := by
  intro s f frame mode signature hears body within known
  have passes : s.passesFilter frame.sender frame.body.isPresence = true := by
    rw [body]
    exact State.passesFilter_of_known known
  have taken : (s.timedAt frame.sender false).acceptBody frame.sender false frame.body =
      (s.timedAt frame.sender false).acceptPresence frame.sender false mode signature := by rw [body]; rfl
  have stays : (s.timedAt frame.sender false).Stays frame.body := ⟨by simp [body], by simp [body]⟩
  have ends := hears.passed_end passes ((State.acceptBody_ctl stays).trans (by simp))
  have ctl := State.acceptBody_ctl (n := frame.sender) stays
  rw [taken] at ends ctl
  have layout : (s.timedAt frame.sender false).layout = s.layout := by simp
  have roster : ((s.timedAt frame.sender false).acceptPresence frame.sender false mode
      signature).dropOvertaken.offerDue.settleMemory.roster =
      ((s.timedAt frame.sender false).acceptPresence frame.sender false mode signature).roster := by simp
  have status := State.status_acceptPresence hears.other within mode signature
  have timer := State.silenceTimer_acceptPresence hears.other within mode signature
  refine ⟨_, ends, ?_, ?_, ?_, fun n other => ?_, by simp, ?_, fun strips present => ?_, fun same notJoin => ?_⟩
  · rw [State.status_of_roster roster, status, if_pos rfl, State.presenceStatus]
    cases mode <;> simp
  · apply State.eq_of_units <;> simp [ctl]
  · rw [State.silenceTimer_of_roster roster, timer, if_pos rfl]
  · rw [State.status_of_roster roster, State.silenceTimer_of_roster roster, status, timer, if_neg other, if_neg other]
    exact ⟨rfl, rfl⟩
  · simp [State.acceptPresence_copies]
  · rw [State.acceptPresence_stripping (by rw [layout]; exact strips)]
    rw [State.stripPresent_of_present (by simpa [State.station] using hears.other) (by simpa using present)]
    simp [State.strip_service, State.strip_claims_queues]
  · have keeps := State.acceptPresence_keeping notJoin (s.timedAt frame.sender false) frame.sender
    rw [layout, ← same] at keeps
    obtain ⟨claims, refresh⟩ := keeps
    simp [claims, refresh]

/-- This station's own JOIN while it awaits the census (R117, R152). -/
theorem own_join_starts_the_answer_timer :
    ∀ (s : State) (g : InFlight), s.Sends g → s.ctl.state = .joining → s.ctl.censusPending = true →
      g.source = .control (.presence .join) → g.frame.body = .presence .join s.layout.signature →
      s.status s.station = .absent → s.station < s.roster.entries.length →
      ∃ t, exec (.verdictWindowEnd allRecessive) s = .next t
        ∧ t.status s.station = .joined ∧ t.silenceTimer s.station = .stopped ∧ (∀ n, n ≠ s.station → t.status n = s.status n)
        ∧ t.ctl = { s.ctl with answer := .running 1024 } ∧ t.roster.announce = .running 2048
        ∧ t.line.reference = some s.station ∧ t.sched.inflight = none
        ∧ t.claims = s.claims ∧ t.refresh = s.refresh ∧ t.mirror.inbound = s.mirror.inbound := by
  intro s g sends state pending source body absent within
  have status (m : Nat) := s.timedAt_status s.station m true
  have within' : s.station < (s.timedAt s.station true).roster.entries.length := by
    rw [State.timedAt_roster_of_sent (.inl state)]
    exact within
  have layout : (s.timedAt s.station true).layout = s.layout := by simp
  have joins : (s.timedAt s.station true).acceptBody s.station true g.frame.body =
      { (s.timedAt s.station true).setPresent s.station .joined with ctl.answer := .running 1024 } := by
    rw [body, State.acceptBody, ← layout, State.acceptPresence_join]
    exact State.acceptJoin_sent_of_waiting (by rw [status, absent]) ((State.awaitsCensus_iff _).2 (by simp [state, pending]))
  have ends := sends.control_end source (by simp) (by simp [State.passesFilter, absent, body, Body.isPresence])
    (by rw [joins]; simp) (by rw [joins]; simp [sends.founding, sends.abandoning])
  rw [joins] at ends
  refine ⟨_, ends, ?_, ?_, fun n other => ?_, by simp, ?_, by simp, by simp, by simp, by simp, by simp⟩
  · refine (State.status_of_roster (s := (s.timedAt s.station true).setPresent s.station .joined) (by simp) _).trans ?_
    rw [State.status_setPresent within', if_pos rfl]
  · refine (State.silenceTimer_of_roster (s := (s.timedAt s.station true).setPresent s.station .joined) (by simp) _).trans ?_
    rw [State.setPresent, State.silenceTimer_setEntry _ _ _ within', if_pos rfl, if_pos (by rw [status, absent])]
    exact if_pos (by simp)
  · refine (State.status_of_roster (s := (s.timedAt s.station true).setPresent s.station .joined) (by simp) _).trans ?_
    rw [State.status_setPresent within', if_neg other, status]
  · simp [State.setPresent, State.setEntry, State.timedAt_roster_of_sent (.inl state)]

/-- This station's own FOUNDED (R118, R154). -/
theorem own_founded_makes_active :
    ∀ (s : State) (g : InFlight), s.Sends g → s.ctl.state = .active → g.source = .control (.presence .founded) →
      g.frame.body = .presence .founded s.layout.signature → s.status s.station = .joined →
      s.station < s.roster.entries.length → s.sched.control.Nodup →
      ∃ t, exec (.verdictWindowEnd allRecessive) s = .next t
        ∧ t.status s.station = .active ∧ (∀ n, n ≠ s.station → t.status n = s.status n)
        ∧ t.ctl = s.ctl ∧ t.roster.announce = .running 2048 ∧ t.line.reference = some s.station
        ∧ t.sched.inflight = none ∧ .presence .founded ∉ t.sched.control
        ∧ t.claims = s.claims ∧ t.refresh = s.refresh ∧ t.mirror.inbound = s.mirror.inbound := by
  intro s g sends state source body joined within nodup
  have status (m : Nat) := s.timedAt_status s.station m true
  have within' : s.station < (s.timedAt s.station true).roster.entries.length := by
    rw [State.timedAt_roster_of_sent (.inr state)]
    exact within
  have layout : (s.timedAt s.station true).layout = s.layout := by simp
  have founds : (s.timedAt s.station true).acceptBody s.station true g.frame.body =
      (s.timedAt s.station true).setPresent s.station .active := by
    rw [body, State.acceptBody, ← layout, State.acceptPresence_founded]
  have ends := sends.control_end source (by simp) (State.passesFilter_of_present (.inl joined) _)
    (by rw [founds]; simp) (by rw [founds]; simp [sends.founding, sends.abandoning])
  rw [founds] at ends
  have roster : ((((s.timedAt s.station true).setPresent s.station .active).dropOvertaken).leaveSource
      g).offerDue.settleMemory.roster = ((s.timedAt s.station true).setPresent s.station .active).roster := by simp
  have own : ((((s.timedAt s.station true).setPresent s.station .active).dropOvertaken).leaveSource g).status s.station =
      .active := by
    rw [State.status_of_roster (s := (s.timedAt s.station true).setPresent s.station .active) (by simp),
      State.status_setPresent within', if_pos rfl]
  refine ⟨_, ends, ?_, fun n other => ?_, by simp, ?_, by simp, by simp, fun listed => ?_, by simp, by simp, by simp⟩
  · rw [State.status_of_roster roster, State.status_setPresent within', if_pos rfl]
  · rw [State.status_of_roster roster, State.status_setPresent within', if_neg other, status]
  · rw [roster]
    simp [State.setPresent, State.setEntry, State.timedAt_roster_of_sent (.inr state)]
  · have before : .presence .founded ∈ ((((s.timedAt s.station true).setPresent s.station
        .active).dropOvertaken).leaveSource g).offerDue.sched.control := by simpa using listed
    rcases State.stands_of_mem_offerDue before with ⟨-, -, still⟩ | kept
    · have station : ((((s.timedAt s.station true).setPresent s.station .active).dropOvertaken).leaveSource g).station =
          s.station := by simp [State.station]
      rw [station, own] at still
      cases still
    · exact State.not_mem_leaveSource source (by simpa using nodup) kept

/-- Settles O34. -/
theorem presenceRecordsItsSender : Obligations.PresenceRecordsItsSender :=
  ⟨presence_of_other_recorded, own_join_starts_the_answer_timer, own_founded_makes_active⟩

end Sys2Proof.Machine
end

