-- ==== Sys2Proof/Proofs/AcceptedDeparts.lean ====
section
/-! Acceptance of DEPART (R99, R127, R139, R156, R161): its subject removed, and this station's own departure. -/

namespace Sys2Proof.Machine

variable {s t u : State} {f : RxFrame} {g : InFlight} {frame : Frame}

/-! ### Its subject (R99, R127, R139) -/

theorem State.status_setAbsent (s : State) (n m : Nat) :
    (s.setAbsent n).status m = if m = n then .absent else s.status m := by
  simp only [State.setAbsent, State.setEntry, State.status, List.getD_eq_getElem?_getD, List.getElem?_set]
  by_cases same : n = m
  · subst same
    by_cases within : n < s.roster.entries.length
    · simp [within, RosterEntry.reset]
    · simp [within, RosterEntry.reset]
  · simp [same, Ne.symm same]

theorem State.silenceTimer_setAbsent (s : State) (n : Nat) : (s.setAbsent n).silenceTimer n = .stopped := by
  simp only [State.setAbsent, State.setEntry, State.silenceTimer, List.getD_eq_getElem?_getD, List.getElem?_set]
  by_cases within : n < s.roster.entries.length
  · simp [within, RosterEntry.reset]
  · simp [within, RosterEntry.reset]

/-- The departure of another station (R127). -/
theorem State.acceptDepart_of_other {n : Nat} (other : n ≠ s.station) :
    s.acceptDepart n = (s.strip n).setAbsent n :=
  if_neg other

/-! ### This station's own departure (R127, R156, R161) -/

/-- No station is promoted by its own removal (R94). -/
theorem Guard.promotes_own (c : Guard) (n : Nat) : c.promotes n n = false := by
  cases queue : c.queue with
  | nil => simp [Guard.promotes, Guard.without, queue]
  | cons head rest =>
    by_cases first : head = n
    · simp [Guard.promotes, queue, first]
    · simp [Guard.promotes, Guard.without, queue, first]

/-- This station taken out of every claim queue: none is promoted, and the holds stand (R94, R127). -/
theorem State.removeAllClaims_own (s : State) : s.removeAllClaims s.station =
    { s with claims := s.claims.map fun c => { c with queue := c.queue.erase s.station } } := by
  simp [State.removeAllClaims, State.removeClaims, State.removeFromGuard, Guard.promotes_own, Guard.without,
    State.postAll]

/-- This station taken from the roster, the claim queues and the service table (R127). -/
def State.selfRemoved (s : State) : State := (s.strip s.station).setAbsent s.station

theorem State.selfRemoved_eq (s : State) : s.selfRemoved = { s with
    claims := s.claims.map fun c => { c with queue := c.queue.erase s.station }
    refresh.service := s.refresh.service.filter fun e => e.requester != s.station
    roster.entries := s.roster.entries.set s.station RosterEntry.reset } := by
  rw [State.selfRemoved, State.strip, State.removeAllClaims_own]
  rfl

theorem State.selfRemoved_departing (s : State) (abandon : AbandonReason) (loss : LossReason) :
    s.selfRemoved.departing abandon loss = s.departing abandon loss := by
  rw [State.selfRemoved_eq]
  simp [State.departing, List.filter_map, Function.comp_def]

/-- In LEAVING a DEPART of this station takes it to STOPPED (R161). -/
theorem State.acceptDepart_own_of_leaving (leaving : s.ctl.state = .leaving) :
    s.acceptDepart s.station = s.selfRemoved.stop .left := by
  have state : s.selfRemoved.ctl.state = .leaving := by simpa [State.selfRemoved] using leaving
  rw [State.acceptDepart, if_pos rfl, ← State.selfRemoved, State.departSelf, state]

/-- In JOINING and ACTIVE it takes the rejoin path (R156). -/
theorem State.acceptDepart_own_of_joined (joined : s.ctl.state = .joining ∨ s.ctl.state = .active) :
    s.acceptDepart s.station = s.selfRemoved.rejoin .departed := by
  have state : s.selfRemoved.ctl.state = .joining ∨ s.selfRemoved.ctl.state = .active := by
    simpa [State.selfRemoved] using joined
  rw [State.acceptDepart, if_pos rfl, ← State.selfRemoved, State.departSelf]
  rcases state with joining | active
  · rw [joining]
  · rw [active]

/-! ### What follows a transition (R34, R79, R87) -/

/-- With nothing in flight or queued and no control entry overtaken, step 5 drops nothing (R87). -/
theorem State.dropOvertaken_of_none (flight : s.sched.inflight = none) (queue : s.pub.queue = [])
    (control : ∀ e ∈ s.sched.control, s.entryOvertaken e = false) : s.dropOvertaken = s := by
  have line := State.frameOnLine_of_waiting (s := s) (by simp [flight])
  have records : s.keptRecords = [] := by rw [State.keptRecords, line]
  have sorted : s.sortedQueue = ([], []) := by
    rw [State.sortedQueue, records, queue]
    rfl
  have waiting : s.dropWaiting = s := by rw [State.dropWaiting, flight]
  have kept : s.sched.control.filter (fun e => s.keptControl.contains e || !s.entryOvertaken e) = s.sched.control :=
    List.filter_eq_self.2 fun e listed => by simp [control e listed]
  rw [State.dropOvertaken, sorted, waiting, kept]
  simp only [abandonedOutcomes, List.map_nil, State.postAll, List.foldl_nil]
  rw [← queue]

/-- The window's end of a frame of another station whose body puts nothing off (R34, R37). -/
theorem State.Hears.body_end (h : s.Hears f frame) (passes : s.passesFilter frame.sender frame.body.isPresence = true)
    (taken : (s.timedAt frame.sender false).acceptBody frame.sender false frame.body = t)
    (founding : t.ctl.foundingDue = false) (abandoning : t.ctl.abandonDue = false) :
    exec (.verdictWindowEnd allRecessive) s = .next t.dropOvertaken.offerDue.settleMemory := by
  have timed : (s.timedAt frame.sender false).passesFilter frame.sender frame.body.isPresence = true := by
    simpa [State.passesFilter] using passes
  rw [h.window_end, ← State.timedAt, State.acceptEffect, if_pos timed, taken,
    State.afterWindow_eq (by simpa using founding) (by simpa using abandoning)]

theorem State.rejoin_settled (s : State) (reason : Reason) :
    (s.rejoin reason).dropOvertaken.offerDue = s.rejoin reason := by
  rw [State.dropOvertaken_of_none (by simp) (by simp) (by simp [State.entryOvertaken]),
    State.offerDue_of_none (State.not_stands_rejoin _ _)]

/-- A station that has stopped has nothing left on its control list (R79, R87, R90). -/
theorem State.stop_control (s : State) (reason : Reason) :
    (s.stop reason).dropOvertaken.offerDue.sched.control = [] := by
  have none : (s.stop reason).dropOvertaken.sched.control = [] :=
    List.sublist_nil.1 (by simpa using (s.stop reason).dropOvertaken_control_sublist)
  rw [State.offerDue_of_apart (by simp), none]

/-- At the window's end of its own DEPART a LEAVING station goes to STOPPED, whether the filter let the frame through or
not (R43, R161). -/
theorem State.Sends.own_depart_stops (h : s.Sends g) (leaving : s.ctl.state = .leaving)
    (source : g.source = .control (.depart s.station)) (body : g.frame.body = .depart s.station .leaving)
    (queue : s.pub.queue = []) : ∃ v : State,
      exec (.verdictWindowEnd allRecessive) s = .next (v.stop .left).settleMemory
        ∧ v.line.reference = some s.station ∧ v.refresh.copies = s.refresh.copies ∧ v.mirror.mem = s.mirror.mem
        ∧ v.report = s.report := by
  have flight : (s.timedAt s.station true).sched.inflight = some g := by simpa using h.flight
  have state : (s.timedAt s.station true).ctl.state = .leaving := by simpa using leaving
  have ends := h.window_end
  rw [← State.timedAt, body] at ends
  by_cases passes : (s.timedAt s.station true).passesFilter s.station false = true
  · have effect : (s.timedAt s.station true).acceptEffect s.station true (some (.depart s.station .leaving)) =
        ((s.timedAt s.station true).selfRemoved.stop .left).dropOvertaken := by
      have departs := State.acceptDepart_own_of_leaving state
      rw [State.timedAt_station] at departs
      rw [State.acceptEffect]
      exact (if_pos passes).trans (congrArg State.dropOvertaken departs)
    have nothing : ((s.timedAt s.station true).selfRemoved.stop .left).dropOvertaken =
        (s.timedAt s.station true).selfRemoved.stop .left :=
      State.dropOvertaken_of_none (by simp) (by simpa [State.selfRemoved] using queue) (by simp)
    refine ⟨(s.timedAt s.station true).selfRemoved, ?_, ?_⟩
    · rw [ends, effect, nothing, State.settle_of_idle (by simp), State.afterWindow_eq (by simp) (by simp),
        State.offerDue_of_apart (by simp)]
    · simp [State.selfRemoved_eq]
  · have effect : (s.timedAt s.station true).acceptEffect s.station true (some (.depart s.station .leaving)) =
        s.timedAt s.station true := if_neg passes
    refine ⟨(s.timedAt s.station true).leaveSource g, ?_, ?_⟩
    · rw [ends, effect, State.settle_of_ownDepart flight (by simpa using source) state,
        State.afterWindow_eq (by simp) (by simp), State.offerDue_of_apart (by simp)]
    · simp [State.leaveSource_of_control source]

/-- A DEPART of another station removes it (R99, R127, R139). -/
theorem depart_of_other_removed :
    ∀ (s : State) (f : RxFrame) (frame : Frame) (subject : Nat) (reason : DepartReason), s.Hears f frame →
      frame.body = .depart subject reason → (s.status frame.sender = .joined ∨ s.status frame.sender = .active) →
      subject ≠ s.station →
      ∃ t, exec (.verdictWindowEnd allRecessive) s = .next t
        ∧ t.status subject = .absent ∧ t.silenceTimer subject = .stopped ∧ (∀ n, n ≠ subject → t.status n = s.status n)
        ∧ t.claims.map (·.queue) = s.claims.map (fun g => g.queue.erase subject)
        ∧ t.refresh.service = s.refresh.service.filter (fun e => e.requester != subject)
        ∧ t = { s with
            line := t.line, rx := t.rx, mirror := t.mirror, sched := t.sched, roster := t.roster
            pub := t.pub, claims := t.claims, refresh := t.refresh, report := t.report }
        ∧ t.refresh.copies = s.refresh.copies ∧ t.mirror.inbound = s.mirror.inbound := by
  intro s f frame subject reason hears body present other
  have taken : (s.timedAt frame.sender false).acceptBody frame.sender false frame.body =
      ((s.timedAt frame.sender false).strip subject).setAbsent subject := by
    rw [body]
    exact State.acceptDepart_of_other (by simpa using other)
  have ends := hears.body_end (State.passesFilter_of_present present _) taken (by simpa using hears.founding)
    (by simpa using hears.abandoning)
  have roster : (((s.timedAt frame.sender false).strip subject).setAbsent
      subject).dropOvertaken.offerDue.settleMemory.roster =
      (((s.timedAt frame.sender false).strip subject).setAbsent subject).roster := by simp
  have stripped (n : Nat) : ((s.timedAt frame.sender false).strip subject).status n = s.status n :=
    (State.status_of_roster (by simp) n).trans (s.timedAt_status frame.sender n false)
  refine ⟨_, ends, ?_, ?_, fun n apart => ?_, ?_, ?_, by apply State.eq_of_units <;> simp, by simp, by simp⟩
  · rw [State.status_of_roster roster, State.status_setAbsent, if_pos rfl]
  · rw [State.silenceTimer_of_roster roster, State.silenceTimer_setAbsent]
  · rw [State.status_of_roster roster, State.status_setAbsent, if_neg apart, stripped]
  · simp [State.strip_claims_queues]
  · simp [State.strip_service]

/-- A DEPART of this station, sent by another: STOPPED from LEAVING, the rejoin path from JOINING and ACTIVE (R156, R161). -/
theorem depart_of_self_heard :
    ∀ (s : State) (f : RxFrame) (frame : Frame) (reason : DepartReason), s.Hears f frame →
      frame.body = .depart s.station reason → (s.status frame.sender = .joined ∨ s.status frame.sender = .active) →
      ∃ t, exec (.verdictWindowEnd allRecessive) s = .next t
        ∧ t.line.reference = some frame.sender ∧ t.refresh.service = []
        ∧ (∀ n, t.status n = .absent) ∧ (∀ g ∈ t.claims, g.queue = [] ∧ g.hold = .unheld ∧ g.lease = .stopped)
        ∧ (s.ctl.state = .leaving → t.ctl.state = .stopped ∧ t.ctl.reason = .left ∧ t.line.state = .idleGap
            ∧ t.sched.control = [] ∧ t.roster.announce = .stopped)
        ∧ (s.ctl.state = .joining ∨ s.ctl.state = .active → t.ctl.state = .joining ∧ t.ctl.reason = .departed
            ∧ t.ctl.censusPending = true ∧ t.sched.control = [.presence .join] ∧ t.sched.inflight = none
            ∧ t.pub.queue = [] ∧ t.roster.announce = .running 2048
            ∧ t.report = (s.postAll ((s.pub.queue.map fun r => .abandoned r.tag r.window .departed)
              ++ ((s.claims.filter fun g => g.hold == .held).map fun g => .lostHold g.window .departed)
              ++ [.state .joining .departed])).report
            ∧ ∀ w, (t.copy w).fresh = false ∧ (t.copy w).accepted = 0 ∧ (t.copy w).applied = 0) := by
  intro s f frame reason hears body present
  have passes := State.passesFilter_of_present present frame.body.isPresence
  have depart : (s.timedAt frame.sender false).acceptBody frame.sender false frame.body =
      (s.timedAt frame.sender false).acceptDepart (s.timedAt frame.sender false).station := by
    rw [body, State.timedAt_station]
    rfl
  by_cases leaving : s.ctl.state = .leaving
  · have ends := hears.body_end passes (depart.trans (State.acceptDepart_own_of_leaving (by simpa using leaving)))
      (by simp) (by simp)
    refine ⟨_, ends, ?_, by simp, fun n => (State.status_of_cleared (by simp) n).1, fun c held => ?_, fun _ => ?_,
      fun joined => ?_⟩
    · simp [State.selfRemoved, State.timedAt_line]
    · obtain ⟨empty, unheld, stopped, -⟩ := cleared_of_mem (claims := (s.timedAt frame.sender false).selfRemoved.claims)
        (by simpa using held)
      exact ⟨empty, unheld, stopped⟩
    · simp [State.stop_control, Line.reset]
    · rcases joined with joining | active
      · simp [leaving] at joining
      · simp [leaving] at active
  · have joined : s.ctl.state = .joining ∨ s.ctl.state = .active := by
      rcases s.isMember_iff.1 hears.member with joining | active | left
      · exact .inl joining
      · exact .inr active
      · exact absurd left leaving
    have ends := hears.body_end passes (depart.trans (State.acceptDepart_own_of_joined (by simpa using joined)))
      (by simp) (by simp)
    rw [State.rejoin_settled] at ends
    refine ⟨_, ends, ?_, by simp, fun n => (State.status_of_cleared (by simp) n).1, fun c held => ?_,
      fun left => absurd left leaving, fun _ => ?_⟩
    · simp [State.selfRemoved, State.timedAt_line]
    · obtain ⟨empty, unheld, stopped, -⟩ := cleared_of_mem (claims := (s.timedAt frame.sender false).selfRemoved.claims)
        (by simpa using held)
      exact ⟨empty, unheld, stopped⟩
    · have copy (w : Nat) : ((s.timedAt frame.sender false).selfRemoved.rejoin .departed).settleMemory.copy w =
          Copy.reset := State.copy_of_cleared (s := (s.timedAt frame.sender false).selfRemoved) (by simp) w
      refine ⟨by simp, by simp, by simp, by simp, by simp, by simp, by simp, ?_, fun w => ?_⟩
      · have departing := (State.selfRemoved_departing (s.timedAt frame.sender false) .departed .departed).trans
          (State.departing_congr (s := s) (by simp) (by simp) _ _)
        simp only [State.settleMemory_frame, State.rejoin_report, departing]
        exact State.postAll_report (by simp [State.selfRemoved_eq]) _
      · rw [copy]
        exact ⟨rfl, rfl, rfl⟩

/-- This station's own DEPART, accepted in LEAVING (R43, R161). -/
theorem own_depart_carried :
    ∀ (s : State) (g : InFlight), s.Sends g → s.ctl.state = .leaving → g.source = .control (.depart s.station) →
      g.frame.body = .depart s.station .leaving → s.pub.queue = [] →
      ∃ t, exec (.verdictWindowEnd allRecessive) s = .next t
        ∧ t.ctl.state = .stopped ∧ t.ctl.reason = .left ∧ t.line.state = .idleGap ∧ t.line.reference = some s.station
        ∧ t.sched.control = [] ∧ t.sched.inflight = none ∧ t.refresh.service = [] ∧ t.roster.announce = .stopped
        ∧ (∀ n, t.status n = .absent ∧ t.silenceTimer n = .stopped)
        ∧ (∀ c ∈ t.claims, c.queue = [] ∧ c.hold = .unheld ∧ c.lease = .stopped)
        ∧ (∀ e ∈ t.mirror.inbound, e.withdrawn = true)
        ∧ t.refresh.copies = s.refresh.copies.map (fun c => { c.unfetched with accepted := c.applied })
        ∧ (∀ a, Memory.read t.mirror.mem a = Memory.read s.mirror.mem a)
        ∧ t.report = (s.post (.state .stopped .left)).report := by
  intro s g sends leaving source body queue
  obtain ⟨v, ends, reference, copies, mem, report⟩ := sends.own_depart_stops leaving source body queue
  refine ⟨_, ends, by simp, by simp, by simp [Line.reset], by simpa using reference, by simp, by simp, by simp, by simp,
    fun n => State.status_of_cleared (by simp) n, fun c held => ?_, fun e left => ?_, ?_, fun a => ?_, ?_⟩
  · obtain ⟨empty, unheld, stopped, -⟩ := cleared_of_mem (claims := v.claims) (by simpa using held)
    exact ⟨empty, unheld, stopped⟩
  · exact State.stop_withdrawn (s := v) (reason := .left) (by simpa using left)
  · simp [copies, Copy.halted]
  · simp [mem]
  · simp only [State.settleMemory_frame, State.stop_report]
    exact State.post_report report _

/-- Settles O36. -/
theorem departRemovesItsSubject : Obligations.DepartRemovesItsSubject :=
  ⟨depart_of_other_removed, depart_of_self_heard, own_depart_carried⟩

end Sys2Proof.Machine
end

