-- ==== Sys2Proof/Proofs/AcceptedFills.lean ====
section
/-! Acceptance of FILL (R33, R42, R138 to R140): the chunk taken, and the service entry moved on or dropped. -/

namespace Sys2Proof.Machine

variable {s t : State} {f : RxFrame} {g : InFlight} {frame : Frame} {w o : Nat} {data : List Byte}

/-- A copy takes a chunk at its accepted fill point while it is STALE and mirrored, and no census is awaited (R140). -/
theorem State.takesChunk_iff (s : State) (w o : Nat) : s.takesChunk w o = true ↔
    ¬ (s.ctl.state = .joining ∧ s.ctl.censusPending = true) ∧ (s.entry w).enabled = true ∧ (s.entry w).mirrored = true
      ∧ (s.copy w).fresh = false ∧ (s.copy w).accepted = o := by
  rw [← State.awaitsCensus_iff, State.takesChunk, Entry.isMirrored]
  simp [and_assoc]

@[simp] theorem State.timedAt_takesChunk (s : State) (n w o : Nat) (sent : Bool) :
    (s.timedAt n sent).takesChunk w o = s.takesChunk w o := by
  simp [State.takesChunk, State.awaitsCensus]

@[simp] theorem State.dropService_copies (s : State) (w r : Nat) :
    (s.dropService w r).refresh.copies = s.refresh.copies := rfl

/-- A chunk taken moves the accepted fill point and joins the inbound queue (R42, R140). -/
theorem State.takeChunk_taken (room : s.mirror.inbound.length < 4) :
    (s.takeChunk w o data).mirror.inbound = s.mirror.inbound ++
        [{ kind := .fill, window := w, offset := o, data := data, withdrawn := false }]
      ∧ (s.takeChunk w o data).refresh.copies =
        s.refresh.copies.set w { s.copy w with accepted := (s.copy w).accepted + data.length }
      ∧ (s.takeChunk w o data).refresh.service = s.refresh.service := by
  refine ⟨State.enqueue_inbound (by exact room) _, ?_, ?_⟩
  · simp [State.takeChunk, State.setCopy]
  · simp [State.takeChunk, State.setCopy]

theorem State.acceptFill_received (s : State) (w o r : Nat) (data : List Byte) : s.acceptFill false w o r data =
    (if s.takesChunk w o && s.mirror.inbound.length < 4 then s.takeChunk w o data else s).dropService w r := rfl

/-- The FILL of another station drops the service entry of its window and requester (R139). -/
theorem State.acceptFill_service (s : State) (w o r : Nat) (data : List Byte) :
    (s.acceptFill false w o r data).refresh.service =
      s.refresh.service.filter fun e => !(e.window == w && e.requester == r) := by
  rw [State.acceptFill_received]
  split
  · rename_i taken
    obtain ⟨-, room⟩ := Bool.and_eq_true_iff.1 taken
    obtain ⟨-, -, service⟩ := State.takeChunk_taken (w := w) (o := o) (data := data) (of_decide_eq_true room)
    rw [State.dropService, service]
  · rfl

theorem State.acceptFill_of_taken (takes : s.takesChunk w o = true) (room : s.mirror.inbound.length < 4) (r : Nat) :
    (s.acceptFill false w o r data).mirror.inbound = s.mirror.inbound ++
        [{ kind := .fill, window := w, offset := o, data := data, withdrawn := false }]
      ∧ (s.acceptFill false w o r data).refresh.copies =
        s.refresh.copies.set w { s.copy w with accepted := (s.copy w).accepted + data.length } := by
  obtain ⟨inbound, copies, -⟩ := State.takeChunk_taken (w := w) (o := o) (data := data) room
  rw [State.acceptFill_received, if_pos (by simp [takes, room])]
  exact ⟨by simpa using inbound, by simpa using copies⟩

theorem State.acceptFill_of_left (left : ¬ (s.takesChunk w o = true ∧ s.mirror.inbound.length < 4)) (r : Nat) :
    (s.acceptFill false w o r data).mirror.inbound = s.mirror.inbound
      ∧ (s.acceptFill false w o r data).refresh.copies = s.refresh.copies := by
  rw [State.acceptFill_received, if_neg (by simpa using left)]
  exact ⟨rfl, rfl⟩

/-! ### This station's own FILL (R69, R85, R138) -/

/-- The service entry after its FILL: moved on by the chunk, or taken from the table at the window's end (R138). -/
theorem State.advanceService_service (s : State) (w r next : Nat) : (s.advanceService w r next).refresh.service =
    if next < (s.entry w).bytes then s.refresh.service.map fun e =>
        if e.window == w && e.requester == r then { e with next := next } else e
      else s.refresh.service.filter fun e => !(e.window == w && e.requester == r) := by
  unfold State.advanceService
  split <;> rfl

theorem State.advanceService_copies (s : State) (w r next : Nat) :
    (s.advanceService w r next).refresh.copies = s.refresh.copies := by
  unfold State.advanceService
  split <;> rfl

/-- A volunteer's own FILL changes nothing of its copy, which is FRESH (R140). -/
theorem State.acceptFill_sent_of_fresh (fresh : (s.copy w).fresh = true) (o r : Nat) (data : List Byte) :
    s.acceptFill true w o r data = s := by
  have left : s.takesChunk w o = false := by simp [State.takesChunk, fresh]
  simp [State.acceptFill, left]

/-- Settles O38. -/
theorem fillIsTakenAtItsFillPoint : Obligations.FillIsTakenAtItsFillPoint := by
  constructor
  · intro s f frame w o requester data hears body present within
    have taken : (s.timedAt frame.sender false).acceptBody frame.sender false frame.body =
        (s.timedAt frame.sender false).acceptFill false w o requester data := by rw [body]; rfl
    have ends := hears.body_end (State.passesFilter_of_present present _) taken (by simpa using hears.founding)
      (by simpa using hears.abandoning)
    refine ⟨_, ends, by apply State.eq_of_units <;> simp, fun n => ?_, ?_, ?_, fun passed => ?_⟩
    · exact (State.status_of_roster (by simp) n).trans (s.timedAt_status frame.sender n false)
    · simp [State.acceptFill_service]
    · rintro ⟨waiting, enabled, mirrored, stale, here, room⟩
      have takes := (s.takesChunk_iff w o).2 ⟨waiting, enabled, mirrored, stale, here⟩
      obtain ⟨inbound, copies⟩ := State.acceptFill_of_taken (s := s.timedAt frame.sender false) (data := data)
        (by simpa using takes) (by simpa using room) requester
      simp [inbound, copies, here]
    · have left : ¬ (s.takesChunk w o = true ∧ s.mirror.inbound.length < 4) := by
        rw [State.takesChunk_iff]
        rintro ⟨⟨waiting, enabled, mirrored, stale, here⟩, room⟩
        rcases passed with joining | disabled | unmirrored | fresh | elsewhere | full
        · exact waiting joining
        · simp [enabled] at disabled
        · simp [mirrored] at unmirrored
        · simp [stale] at fresh
        · exact elsewhere here
        · exact absurd room (Nat.not_lt.2 full)
      obtain ⟨inbound, copies⟩ := State.acceptFill_of_left (s := s.timedAt frame.sender false) (data := data)
        (by simpa using left) requester
      simp [inbound, copies]
  · intro s g w o r data sends source body present fresh
    have taken : (s.timedAt s.station true).acceptBody s.station true g.frame.body = s.timedAt s.station true := by
      rw [body]
      exact State.acceptFill_sent_of_fresh (by simpa using fresh) o r data
    have flight := sends.flight_after_body (by rw [taken]; simp)
    have settled (rejected : Bool) := State.settle_of_service flight source body rejected
    have ends := sends.passed_end (State.passesFilter_of_present present _)
      (by rw [settled, taken]; simp [sends.founding, sends.abandoning])
    rw [settled, taken, State.leaveSource_of_service source] at ends
    refine ⟨_, ends, ?_, ?_, by simp, ?_, by simp, by simp, fun n => ?_, ?_⟩
    · simp [State.advanceService_service, State.emptyChunk, State.entry]
    · simp [State.advanceService_copies, State.emptyChunk]
    · simp [State.emptyChunk]
    · exact (State.status_of_roster (by simp) n).trans (s.timedAt_status s.station n true)
    · simp [State.emptyChunk, State.discardFillRead]

end Sys2Proof.Machine
end

