-- ==== Sys2Proof/Proofs/AcceptedCensuses.lean ====
section
/-! Acceptance of CENSUS (R102, R116, R120, R121, R133, R155, R159): completion, installation, what a joiner learns of it,
and a census of another layout. -/

namespace Sys2Proof.Machine

variable {s t : State} {f : RxFrame} {frame : Frame}

/-- SENDER of a frame that can be read is a station address (R23). -/
theorem parseFrame_sender_lt {bytes : List Byte} (read : parseFrame bytes = some frame) : frame.sender < 32 := by
  unfold parseFrame at read
  split at read
  · split at read
    · rename_i sound
      obtain ⟨b, -, rfl⟩ := Option.map_eq_some_iff.1 read
      exact Nat.lt_succ_of_le sound.1
    · cases read
  · cases read

theorem State.Hears.sender_lt (h : s.Hears f frame) : frame.sender < 32 := parseFrame_sender_lt h.read

/-! ### Rosters -/

/-- A census completes the JOINED entries but one (R120, R121). -/
theorem State.status_completeJoined (s : State) (kept n : Nat) : (s.completeJoined kept).status n =
    if s.status n = .joined ∧ n ≠ kept then .active else s.status n := by
  simp only [State.completeJoined, State.status, List.getD_eq_getElem?_getD, List.getElem?_mapIdx]
  cases s.roster.entries[n]? with
  | none => simp [RosterEntry.reset]
  | some e =>
    simp only [Option.map_some, Option.getD_some]
    split <;> rfl

@[simp] theorem State.timedAt_roster_length (s : State) (n : Nat) (sent : Bool) :
    (s.timedAt n sent).roster.entries.length = s.roster.entries.length := by
  unfold State.timedAt State.acceptTimers
  dsimp only
  (repeat' split) <;> simp [State.setEntry]

/-- What a joiner learns of a census that does not list it JOINED: its sender and the JOINED entries of others are ACTIVE
(R121). -/
theorem State.status_learnFromCensus {n : Nat} (within : n < s.roster.entries.length) (m : Nat) :
    (s.learnFromCensus n).status m =
      if m = n ∨ (s.status m = .joined ∧ m ≠ s.station) then .active else s.status m := by
  rw [State.learnFromCensus, State.status_setPresent (by simpa [State.completeJoined] using within),
    State.status_completeJoined]
  by_cases here : m = n
  · simp [here]
  · simp [here]

theorem State.silenceTimer_learnFromCensus {n : Nat} (other : n ≠ s.station) (within : n < s.roster.entries.length)
    (m : Nat) : (s.learnFromCensus n).silenceTimer m =
      if m = n ∧ s.status n = .absent then .running 8192 else s.silenceTimer m := by
  have absent : (s.completeJoined s.station).status n = .absent ↔ s.status n = .absent := by
    rw [State.status_completeJoined]
    split
    · rename_i joined
      simp [joined.1]
    · rfl
  rw [State.learnFromCensus, State.silenceTimer_setPresent _ _ _ (by simpa [State.completeJoined] using within)
    (by simpa [State.station] using other), State.silenceTimer_completeJoined]
  simp only [absent]

/-- A station that is not FOREIGN loses its claims where its entry is present (R116). -/
theorem State.stripPresent_claims_queues {n : Nat} (known : s.status n ≠ .foreign) (other : n ≠ s.station) :
    (s.stripPresent n).claims.map (·.queue) =
      s.claims.map fun g => if s.status n = .absent then g.queue else g.queue.erase n := by
  by_cases absent : s.status n = .absent
  · simp [State.stripPresent_of_apart (s := s) (n := n) (by simp [absent]), absent]
  · have present : s.status n = .joined ∨ s.status n = .active := by
      cases status : s.status n with
      | foreign => exact absurd status known
      | absent => exact absurd status absent
      | joined => exact .inl rfl
      | active => exact .inr rfl
    rw [State.stripPresent_of_present other present, State.strip_claims_queues]
    simp [absent]

/-! ### Installation (R102, R121, R133, R155) -/

/-- An installed census with no abandonment put off (R121, R147). -/
theorem State.installCensus_eq (quiet : s.ctl.abandonDue = false) (map : List RosterStatus) (groups : List (List Nat)) :
    s.installCensus map groups = (State.moveTo { s with
      roster.entries := (List.range 32).map (s.installedEntry map)
      claims := s.claims.mapIdx fun i (g : Guard) => { g with queue := groups.getD i [] } } .active .census).requestAll := by
  simp [State.installCensus, State.dropAbandoned, quiet, Config.stations]

@[simp] theorem State.installCensus_ctl (s : State) (map : List RosterStatus) (groups : List (List Nat)) :
    (s.installCensus map groups).ctl = ⟨.active, .census, false, .stopped, false, false⟩ := by
  simp [State.installCensus]

/-- The entry a census gives a station (R121, R125). -/
theorem State.installed_entry (quiet : s.ctl.abandonDue = false) (map : List RosterStatus) (groups : List (List Nat))
    {n : Nat} (within : n < 32) : (s.installCensus map groups).status n =
        (if map.getD n .absent = .joined then .active else map.getD n .absent)
      ∧ (s.installCensus map groups).silenceTimer n =
        (if n = s.station ∨ map.getD n .absent = .absent then .stopped else .running 8192) := by
  have roster : (s.installCensus map groups).roster.entries = (List.range 32).map (s.installedEntry map) := by
    rw [State.installCensus_eq quiet]
    simp
  have entry : (s.installCensus map groups).roster.entries.getD n RosterEntry.reset = s.installedEntry map n := by
    rw [roster, List.getD_eq_getElem?_getD]
    simp [within]
  refine ⟨(congrArg RosterEntry.status entry).trans rfl, (congrArg RosterEntry.timer entry).trans ?_⟩
  by_cases own : n = s.station
  · simp [State.installedEntry, State.silenceStart, own]
  · simp only [State.installedEntry, State.silenceStart, own, if_false, false_or, Config.lostTicks]
    cases map.getD n .absent <;> rfl

/-- The claim queues are those of the census in guard position order; the holds stand (R102). -/
theorem State.installCensus_claims (quiet : s.ctl.abandonDue = false) (map : List RosterStatus)
    (groups : List (List Nat)) : (s.installCensus map groups).claims.map (·.queue) =
        (List.range s.claims.length).map (fun i => groups.getD i [])
      ∧ (s.installCensus map groups).claims.map (·.hold) = s.claims.map (·.hold) := by
  rw [State.installCensus_eq quiet]
  simp only [State.requestAll_frame, State.moveTo_frame]
  exact ⟨List.ext_getElem (by simp) (by simp), List.ext_getElem (by simp) (by simp)⟩

/-- A fetch request for every mirrored window (R133). -/
theorem State.installCensus_copy (quiet : s.ctl.abandonDue = false) (map : List RosterStatus) (groups : List (List Nat))
    {w : Nat} (within : w < s.refresh.copies.length) : (s.installCensus map groups).copy w =
      if (s.entry w).enabled = true ∧ (s.entry w).mirrored = true then
        { s.copy w with request := true, timer := .running 4096, expiries := 0 }
      else s.copy w := by
  rw [State.installCensus_eq quiet, State.requestAll, State.copy_mapMirrored]
  simp [State.copy, State.entry, Entry.isMirrored, within, Config.fetchTicks]

theorem State.installCensus_refresh_service (quiet : s.ctl.abandonDue = false) (map : List RosterStatus)
    (groups : List (List Nat)) : (s.installCensus map groups).refresh.service = s.refresh.service
      ∧ (s.installCensus map groups).mirror = s.mirror ∧ (s.installCensus map groups).sched = s.sched := by
  rw [State.installCensus_eq quiet]
  simp [State.requestAll, State.mapMirrored]

/-! ### Which census (R121) -/

theorem State.acceptCensus_of_listed (waiting : s.awaitsCensus = true) {map : List RosterStatus}
    (listed : map.getD s.station .absent = .joined) (n : Nat) (groups : List (List Nat)) :
    s.acceptCensus n s.layout.signature map groups = s.installCensus map groups := by
  rw [State.acceptCensus, if_neg (fun apart => apart rfl), if_pos waiting, if_pos listed]

theorem State.acceptCensus_of_unlisted (waiting : s.awaitsCensus = true) {map : List RosterStatus}
    (unlisted : map.getD s.station .absent ≠ .joined) (n : Nat) (groups : List (List Nat)) :
    s.acceptCensus n s.layout.signature map groups = s.learnFromCensus n := by
  rw [State.acceptCensus, if_neg (fun apart => apart rfl), if_pos waiting, if_neg unlisted]

theorem State.acceptCensus_of_incompatible {sig : Word} (apart : sig ≠ s.layout.signature)
    (waiting : s.awaitsCensus = true) (n : Nat) (map : List RosterStatus) (groups : List (List Nat)) :
    s.acceptCensus n sig map groups = s.enterIncompatible .signature := by
  rw [State.acceptCensus, if_pos apart, if_pos waiting]

@[simp] theorem State.timedAt_awaitsCensus (s : State) (n : Nat) (sent : Bool) :
    (s.timedAt n sent).awaitsCensus = s.awaitsCensus := by
  simp [State.awaitsCensus]

/-- The silence timer of a frame's sender is set where its entry is present, in the roster or not (R35). -/
theorem State.Hears.timed_silenceTimer (h : s.Hears f frame) (length : s.roster.entries.length = 32) (m : Nat) :
    (s.timedAt frame.sender false).silenceTimer m =
      if m = frame.sender ∧ s.status m ≠ .absent then .running 8192 else s.silenceTimer m := by
  rw [State.timedAt_silenceTimer h.other (by rw [length]; exact h.sender_lt)]
  by_cases here : m = frame.sender
  · simp [here]
  · simp [here]

/-- A census of this layout: completed, installed, or learnt from (R120, R121). -/
theorem census_of_layout_taken :
    ∀ (s : State) (f : RxFrame) (frame : Frame) (map : List RosterStatus) (groups : List (List Nat)), s.Hears f frame →
      frame.body = .census s.layout.signature map groups → s.status frame.sender ≠ .foreign →
      s.roster.entries.length = 32 → s.refresh.copies.length = 16 →
      ∃ t, exec (.verdictWindowEnd allRecessive) s = .next t 
        ∧ t = { s with
            line := t.line, rx := t.rx, mirror := t.mirror, sched := t.sched, roster := t.roster, pub := t.pub
            claims := t.claims, refresh := t.refresh, ctl := t.ctl, report := t.report }
        ∧ t.mirror.inbound = s.mirror.inbound ∧ t.refresh.service = s.refresh.service
        ∧ (s.awaitsCensus = false → t.ctl = s.ctl ∧ t.claims = s.claims ∧ t.refresh.copies = s.refresh.copies
            ∧ ∀ n, (t.status n = if s.status n = .joined ∧ n ≠ frame.sender then .active else s.status n)
              ∧ t.silenceTimer n = if n = frame.sender ∧ s.status n ≠ .absent then .running 8192 else s.silenceTimer n)
        ∧ (s.awaitsCensus = true → map.getD s.station .absent = .joined →
            t.ctl.state = .active ∧ t.ctl.reason = .census ∧ t.ctl.censusPending = false ∧ t.ctl.answer = .stopped
            ∧ (∀ n, n < 32 → (t.status n = if map.getD n .absent = .joined then .active else map.getD n .absent)
              ∧ t.silenceTimer n = if n = s.station ∨ map.getD n .absent = .absent then .stopped else .running 8192)
            ∧ t.claims.map (·.queue) = (List.range s.claims.length).map (fun i => groups.getD i [])
            ∧ t.claims.map (·.hold) = s.claims.map (·.hold)
            ∧ (.presence .founded ∉ s.sched.control → .presence .founded ∉ t.sched.control)
            ∧ ∀ w, w < 16 → t.copy w = if (s.entry w).enabled = true ∧ (s.entry w).mirrored = true
                then { s.copy w with request := true, timer := .running 4096, expiries := 0 } else s.copy w)
        ∧ (s.awaitsCensus = true → map.getD s.station .absent ≠ .joined →
            t.ctl = s.ctl ∧ t.claims = s.claims ∧ t.refresh.copies = s.refresh.copies
            ∧ ∀ n, (t.status n = if n = frame.sender ∨ (s.status n = .joined ∧ n ≠ s.station) then .active else s.status n)
              ∧ t.silenceTimer n = if n = frame.sender then .running 8192 else s.silenceTimer n) := by
  intro s f frame map groups hears body known length copies
  have passes : s.passesFilter frame.sender frame.body.isPresence = true := by
    rw [body]
    exact State.passesFilter_of_known known
  have layout : (s.timedAt frame.sender false).layout = s.layout := by simp
  have census : (s.timedAt frame.sender false).acceptBody frame.sender false frame.body =
      (s.timedAt frame.sender false).acceptCensus frame.sender (s.timedAt frame.sender false).layout.signature map
        groups := by rw [body, layout]; rfl
  have quiet : (s.timedAt frame.sender false).ctl.abandonDue = false := by simpa using hears.abandoning
  by_cases waiting : s.awaitsCensus = true
  · have timedWaits : (s.timedAt frame.sender false).awaitsCensus = true := by simpa using waiting
    by_cases listed : map.getD s.station .absent = .joined
    · have installs := census.trans (State.acceptCensus_of_listed timedWaits (by simpa using listed) _ groups)
      have ends := hears.body_end passes installs (by simp) (by simp)
      obtain ⟨service, mirror, sched⟩ := State.installCensus_refresh_service quiet map groups
      have queues := State.installCensus_claims quiet map groups
      obtain ⟨queue, hold⟩ := State.installCensus_claims quiet map groups
      have roster : ((s.timedAt frame.sender false).installCensus map groups).dropOvertaken.offerDue.settleMemory.roster =
          ((s.timedAt frame.sender false).installCensus map groups).roster := by simp
      refine ⟨_, ends, by apply State.eq_of_units <;> simp, by simp [mirror], by simpa using service,
        fun settled => ?_, fun _ _ => ⟨by simp, by simp, by simp, by simp, fun n within => ?_, by simpa using queue,
          by simpa using hold, fun unoffered offered => ?_, fun w within => ?_⟩, fun _ unlisted => absurd listed unlisted⟩
      · simp [waiting] at settled
      · rw [State.status_of_roster roster, State.silenceTimer_of_roster roster]
        simpa using State.installed_entry quiet map groups within
      · rcases State.stands_of_mem_offerDue (by simpa using offered) with ⟨-, founded, -⟩ | before
        · simp at founded
        · have control : .presence .founded ∈ s.sched.control := by
            simpa [sched] using (State.dropOvertaken_control_sublist _).mem before
          exact unoffered control
      · have copy := State.installCensus_copy quiet map groups (w := w) (by simpa [copies] using within)
        rw [State.copy_of_refresh (s := (s.timedAt frame.sender false).installCensus map groups) (by simp), copy]
        simp
    · have learns := census.trans (State.acceptCensus_of_unlisted timedWaits (by simpa using listed) frame.sender groups)
      have ends := hears.body_end passes learns (by simpa using hears.founding) (by simpa using hears.abandoning)
      have roster : ((s.timedAt frame.sender false).learnFromCensus frame.sender).dropOvertaken.offerDue.settleMemory.roster =
          ((s.timedAt frame.sender false).learnFromCensus frame.sender).roster := by simp
      have within : frame.sender < (s.timedAt frame.sender false).roster.entries.length := by
        simpa [length] using hears.sender_lt
      refine ⟨_, ends, by apply State.eq_of_units <;> simp, by simp, by simp, fun settled => ?_,
        fun _ joined => absurd joined listed, fun _ _ => ⟨by simp, by simp, by simp, fun n => ?_⟩⟩
      · simp [waiting] at settled
      · rw [State.status_of_roster roster, State.silenceTimer_of_roster roster, State.status_learnFromCensus within,
          State.silenceTimer_learnFromCensus (by simpa using hears.other) within, hears.timed_silenceTimer length]
        refine ⟨by simp, ?_⟩
        by_cases here : n = frame.sender
        · by_cases absent : s.status frame.sender = .absent
          · simp [here, absent]
          · simp [here, absent]
        · simp [here]
  · have settled : (s.timedAt frame.sender false).awaitsCensus = false := by simpa using waiting
    have completes := census.trans (State.acceptCensus_of_settled settled frame.sender map groups)
    have ends := hears.body_end passes completes (by simpa using hears.founding) (by simpa using hears.abandoning)
    have roster : ((s.timedAt frame.sender false).completeJoined frame.sender).dropOvertaken.offerDue.settleMemory.roster =
        ((s.timedAt frame.sender false).completeJoined frame.sender).roster := by simp
    refine ⟨_, ends, by apply State.eq_of_units <;> simp, by simp, by simp,
      fun _ => ⟨by simp, by simp, by simp, fun n => ?_⟩, fun awaits => absurd awaits waiting,
      fun awaits => absurd awaits waiting⟩
    rw [State.status_of_roster roster, State.silenceTimer_of_roster roster, State.status_completeJoined,
      State.silenceTimer_completeJoined, hears.timed_silenceTimer length]
    exact ⟨by simp, rfl⟩

/-- A census of another layout: INCOMPATIBLE for the joiner that awaits one, FOREIGN for its sender elsewhere (R116, R159). -/
theorem census_of_other_layout_parts :
    ∀ (s : State) (f : RxFrame) (frame : Frame) (signature : Word) (map : List RosterStatus) (groups : List (List Nat)),
      s.Hears f frame → frame.body = .census signature map groups → signature ≠ s.layout.signature →
      s.status frame.sender ≠ .foreign →
      ∃ t, exec (.verdictWindowEnd allRecessive) s = .next t
        ∧ t.line.reference = some frame.sender
        ∧ (s.awaitsCensus = true → t.ctl.state = .incompatible ∧ t.ctl.reason = .signature ∧ t.ctl.censusPending = false
            ∧ t.ctl.answer = .stopped ∧ t.roster.announce = .stopped ∧ (∀ n, t.status n = .absent) ∧ t.pub.queue = []
            ∧ t.sched.control = [] ∧ t.sched.inflight = none ∧ t.refresh.service = []
            ∧ (∀ g ∈ t.claims, g.queue = [] ∧ g.hold = .unheld) ∧ (∀ e ∈ t.mirror.inbound, e.withdrawn = true)
            ∧ (∀ w, (t.copy w).fresh = false) ∧ (∀ bit, t.drivesAt bit = false)
            ∧ t.report = (s.postAll ((s.pub.queue.map fun r => .abandoned r.tag r.window .departed)
              ++ ((s.claims.filter fun g => g.hold == .held).map fun g => .lostHold g.window .departed)
              ++ [.state .incompatible .signature])).report)
        ∧ (s.awaitsCensus = false → frame.sender < s.roster.entries.length → t.ctl = s.ctl
            ∧ t.status frame.sender = .foreign ∧ t.silenceTimer frame.sender = .running 8192
            ∧ (∀ n, n ≠ frame.sender → t.status n = s.status n ∧ t.silenceTimer n = s.silenceTimer n)
            ∧ t.refresh.copies = s.refresh.copies ∧ t.mirror.inbound = s.mirror.inbound
            ∧ t.claims.map (·.queue) = s.claims.map (fun g =>
                if s.status frame.sender = .absent then g.queue else g.queue.erase frame.sender)) := by
  intro s f frame signature map groups hears body apart known
  have passes : s.passesFilter frame.sender frame.body.isPresence = true := by
    rw [body]
    exact State.passesFilter_of_known known
  have foreign : signature ≠ (s.timedAt frame.sender false).layout.signature := by simpa using apart
  have census : (s.timedAt frame.sender false).acceptBody frame.sender false frame.body =
      (s.timedAt frame.sender false).acceptCensus frame.sender signature map groups := by rw [body]; rfl
  by_cases waiting : s.awaitsCensus = true
  · have leaves := census.trans (State.acceptCensus_of_incompatible foreign (by simpa using waiting) frame.sender map groups)
    have ends := hears.body_end passes leaves (by simp) (by simp)
    rw [State.dropOvertaken_of_none (by simp) (by simp) (by simp), State.offerDue_of_apart (by simp)] at ends
    have copy (w : Nat) : ((s.timedAt frame.sender false).enterIncompatible .signature).settleMemory.copy w =
        Copy.reset := State.copy_of_cleared (s := s.timedAt frame.sender false) (by simp) w
    refine ⟨_, ends, by simp, fun _ => ⟨by simp, by simp, by simp, by simp, by simp,
      fun n => (State.status_of_cleared (by simp) n).1, by simp, by simp, by simp, by simp, fun c held => ?_,
      fun e left => ?_, fun w => by rw [copy]; rfl, fun bit => ?_, ?_⟩, fun settled => ?_⟩
    · obtain ⟨empty, unheld, -, -⟩ := cleared_of_mem (claims := s.claims) (by simpa using held)
      exact ⟨empty, unheld⟩
    · exact State.enterIncompatible_withdrawn (s := s.timedAt frame.sender false) (reason := .signature)
        (by simpa using left)
    · exact State.drivesAt_of_not_member (by simp [State.isMember, StationState.isMember]) bit
    · have departing := State.departing_congr (s := s) (t := s.timedAt frame.sender false) (by simp) (by simp)
        .departed .departed
      simp only [State.settleMemory_frame, State.enterIncompatible_report, departing]
      exact State.postAll_report (by simp) _
    · simp [waiting] at settled
  · have settled : (s.timedAt frame.sender false).awaitsCensus = false := by simpa using waiting
    have sets := census.trans (State.acceptCensus_of_apart foreign settled frame.sender map groups)
    have ends := hears.body_end passes sets (by simpa using hears.founding) (by simpa using hears.abandoning)
    have roster : ((s.timedAt frame.sender false).setApart frame.sender).dropOvertaken.offerDue.settleMemory.roster =
        ((s.timedAt frame.sender false).setApart frame.sender).roster := by simp
    refine ⟨_, ends, by simp, fun awaits => absurd awaits waiting, fun _ within => ?_⟩
    have recorded := (State.recorded_setPresent (u := (s.timedAt frame.sender false).stripPresent frame.sender)
      hears.other within (by simp) (by simp [State.station]) .foreign).of_roster roster
    refine ⟨by simp, ?_, ?_, fun n other => ?_, ?_, by simp, ?_⟩
    · rw [recorded.status, if_pos rfl]
    · rw [recorded.timer, if_pos rfl]
    · rw [recorded.status, recorded.timer, if_neg other, if_neg other]
      exact ⟨rfl, rfl⟩
    · simp [State.setApart]
    · have queues := State.stripPresent_claims_queues (s := s.timedAt frame.sender false) (by simpa using known)
        (by simpa using hears.other)
      simpa [State.setApart] using queues

/-- Settles O35. -/
theorem censusCompletesOrInstalls : Obligations.CensusCompletesOrInstalls :=
  ⟨census_of_layout_taken, census_of_other_layout_parts⟩

end Sys2Proof.Machine
end

