-- ==== Sys2Proof/Proofs/Founding.lean ====
section
/-! The founding test and what it leads to (R70, R152 to R154). -/

namespace Sys2Proof.Machine

variable {s t : State} {f : RxFrame} {frame : Frame}

/-! ### The zero-fill is applying (R66, R70) -/

theorem State.requestFill_zeroPending (s : State) : s.requestFill.mirror.zeroPending = s.mirror.zeroPending := by
  unfold State.requestFill
  split
  · rfl
  · split <;> rfl

/-- A zero-fill pending is applying, before the memory is granted to it and after (R66). -/
theorem State.engineApplying_arbitrate (pending : s.mirror.zeroPending = true) : s.arbitrate.engineApplying = true := by
  have waits (t : State) (same : t.mirror.zeroPending = true) : t.engineApplying = true := by
    simp [State.engineApplying, State.applicationWaits, same]
  by_cases held : s.mirror.holder.isSome = true
  · rw [State.arbitrate, if_pos held]
    exact waits s pending
  · have free : s.mirror.holder = none := by simpa using held
    by_cases overdue : ∃ q, s.mirror.snapReq = some q ∧ 4 ≤ q.passes
    · obtain ⟨q, request, passes⟩ := overdue
      rw [State.arbitrate_of_overdue free request passes]
      exact waits _ pending
    · rw [State.arbitrate_of_application free
        (fun q request => Nat.lt_of_not_le fun passes => overdue ⟨q, request, passes⟩)
        (by simp [State.applicationWaits, pending]), State.grantApplication, if_pos pending]
      simp [State.engineApplying]

theorem State.engineApplying_settleMemory (pending : s.mirror.zeroPending = true) :
    s.settleMemory.engineApplying = true :=
  State.engineApplying_arbitrate (s.requestFill_zeroPending.trans pending)

/-! ### The founding test (R153, R154) -/

/-- The founding test, as R153 states it. -/
theorem State.mayFound_iff (s : State) : s.mayFound = true ↔
    (∀ n, n < s.station → s.status n ≠ .joined) ∧ ∀ e ∈ s.roster.entries, e.status ≠ .active := by
  simp [State.mayFound]

theorem State.foundingTest_of_pass (passes : s.mayFound = true) : s.foundingTest = s.found := if_pos passes

/-- The answer timer is set again (R152, R153). -/
theorem State.foundingTest_of_fail (fails : ¬ s.mayFound = true) :
    s.foundingTest = { s with ctl.answer := .running 1024, ctl.foundingDue := false } := if_neg fails

@[simp] theorem State.found_ctl (s : State) : s.found.ctl = ⟨.active, .founded, false, .stopped, false, false⟩ := by
  simp [State.found]

@[simp] theorem State.found_zeroPending (s : State) : s.found.mirror.zeroPending = true := by
  simp [State.found]

theorem State.found_report (s : State) : s.found.report = (s.post (.state .active .founded)).report := by
  rw [State.found, State.moveTo_report]
  exact State.post_report (by simp) _

/-- Founding withdraws the inbound queue (R70). -/
theorem State.found_withdrawn {e : Inbound} (left : e ∈ s.found.mirror.inbound) : e.withdrawn = true :=
  State.emptyInbound_withdrawn (s := s.dropAbandoned)
    (by simpa [State.found, State.emptyChunk, State.discardFillRead] using left)

/-- Whatever follows the founding, its zero-fill is applying. -/
theorem State.found_applying (s : State) : s.found.offerDue.settleMemory.engineApplying = true :=
  State.engineApplying_settleMemory (by simp)

/-! ### The answer timer (R153) -/

theorem State.expireAnswer_of_running {left : Nat} (joining : s.ctl.state = .joining) (pending : s.ctl.censusPending = true)
    (running : s.ctl.answer = .running left) : s.expireAnswer =
      if s.lineBusy = true then { s with ctl.answer := .runOut, ctl.foundingDue := true }
      else s.foundingTest.offerDue.settleMemory :=
  if_pos (by simp [State.awaitsCensus, joining, pending, running, Timer.isRunning])

/-- At a window end that made no transition, a founding test put off is made (R153). -/
theorem State.afterWindow_of_foundingDue (due : s.ctl.foundingDue = true) (quiet : s.ctl.abandonDue = false) :
    s.afterWindow = s.foundingTest.offerDue.settleMemory := by
  have still : s.foundingTest.ctl.abandonDue = false := by
    by_cases passes : s.mayFound = true
    · simp [State.foundingTest_of_pass passes]
    · simpa [State.foundingTest_of_fail passes] using quiet
  simp [State.afterWindow, State.deferredFounding, due, State.finishAbandon, still]

/-- The test fails beside an ACTIVE station (R153). -/
theorem State.not_mayFound_of_active {n : Nat} (active : s.status n = .active) : ¬ s.mayFound = true := by
  rw [State.mayFound_iff]
  rintro ⟨-, none⟩
  rw [State.status, List.getD_eq_getElem?_getD] at active
  cases found : s.roster.entries[n]? with
  | none => simp [found, RosterEntry.reset] at active
  | some e => exact none e (List.mem_of_getElem? found) (by simpa [found] using active)

/-- Another station's FOUNDED is accepted (R118). -/
theorem State.accept_founded {n : Nat} (other : n ≠ s.station) (known : s.status n ≠ .foreign) :
    s.gapAccepted.accept n false (some (.presence .founded s.layout.signature)) =
      ((s.timedAt n false).setPresent n .active).dropOvertaken := by
  have station : n ≠ s.gapAccepted.station := by simpa [State.station] using other
  have passes : (s.timedAt n false).passesFilter n true = true :=
    State.passesFilter_of_known (by rw [s.timedAt_status]; exact known)
  have founded := State.acceptPresence_founded (s.timedAt n false) n false
  rw [show (s.timedAt n false).layout = s.layout by simp] at founded
  simp only [State.accept, if_neg fun h : _ ∧ _ => station h.1]
  rw [if_neg (by simp), ← State.timedAt, State.acceptEffect]
  exact (if_pos passes).trans (congrArg State.dropOvertaken founded)

/-- Settles O40. -/
theorem answerTimerMakesTheFoundingTest : Obligations.AnswerTimerMakesTheFoundingTest := by
  refine ⟨fun s left joining pending running => ?_, fun samples s f joining pending window held received voided below due
    quiet => ?_, fun s f frame joining pending window held received unobjected read body other within known due quiet => ?_⟩
  · have ends : exec .answerTimerExpiry s = .next s.expireAnswer := rfl
    rw [State.expireAnswer_of_running joining pending running] at ends
    refine ⟨_, ends, fun busy => ?_, fun free => ?_⟩
    · rw [if_pos (by rcases busy with receiving | transmitting | verdict <;> simp [State.lineBusy, *])]
    · have idle : ¬ s.lineBusy = true := by rcases free with gap | slotting | stuck <;> simp [State.lineBusy, *]
      rw [if_neg idle, ← State.mayFound_iff]
      refine ⟨fun passes => ?_, fun fails => ?_⟩
      · rw [State.foundingTest_of_pass passes]
        refine ⟨by simp, by simp, by simp, by simp, s.found_applying, fun e listed => ?_, ?_, by simp, by simp, by simp,
          fun joined room => ?_⟩
        · exact State.found_withdrawn (s := s) (by simpa using listed)
        · simpa using s.found_report
        · have stands : s.found.Stands (.presence .founded) :=
            ⟨by simp, by simp, (State.status_of_roster (s := s) (by simp) _).trans (by simpa [State.station] using joined)⟩
          simpa using State.mem_offerDue (by simp) stands (by simpa using room)
      · rw [State.foundingTest_of_fail fails]
        simp
  · have ends := exec_window_voided window held voided
    rw [State.windowVoided_of_received (s := s.beginGap true) received below, if_neg (by simp [joining]),
      State.afterWindow_of_foundingDue (by simpa using due) (by simpa using quiet)] at ends
    have roster : (s.beginGap true).mayFound = s.mayFound := by simp [State.mayFound, State.station, State.status]
    refine ⟨_, ends, ?_⟩
    rw [← State.mayFound_iff, ← roster]
    refine ⟨fun passes => ?_, fun fails => ?_⟩
    · rw [State.foundingTest_of_pass passes]
      exact ⟨by simp, by simp, by simp, (s.beginGap true).found_applying⟩
    · rw [State.foundingTest_of_fail fails]
      simp
  · have member : s.isMember = true := by simp [State.isMember, StationState.isMember, joining]
    have length : frame.sender < (s.timedAt frame.sender false).roster.entries.length := by simpa using within
    have ends := exec_window_accepted window held unobjected
    rw [State.windowAccepted_of_member member, read, received, senderOf_read read, Option.map_some, body,
      State.accept_founded other known] at ends
    have roster : ((s.timedAt frame.sender false).setPresent frame.sender .active).dropOvertaken.roster =
        ((s.timedAt frame.sender false).setPresent frame.sender .active).roster := by simp
    have active : ((s.timedAt frame.sender false).setPresent frame.sender .active).dropOvertaken.status frame.sender =
        .active := by
      rw [State.status_of_roster roster, State.status_setPresent length, if_pos rfl]
    rw [State.afterWindow_of_foundingDue (by simpa using due) (by simpa using quiet),
      State.foundingTest_of_fail (State.not_mayFound_of_active active)] at ends
    refine ⟨_, ends, ?_, by simp⟩
    exact (State.status_of_roster (by simp) _).trans active

end Sys2Proof.Machine
end

