-- ==== Sys2Proof/Proofs/FailedAttempts.lean ====
section
/-! What a failed attempt does to the frame, by its source (R85, R86, R88, R134, R139, R151, R161). -/

namespace Sys2Proof.Machine

variable {s t u : State} {g : InFlight}

/-! ### The frame waits again (R69, R81, R85) -/

theorem State.waitAgain_sched (s : State) (g : InFlight) (attempts : Nat) :
    (s.waitAgain g attempts).sched.inflight = some { g with attempts := attempts, onLine := false }
      ∧ ((∀ w r, g.source ≠ .service w r) → (s.waitAgain g attempts).sched.chunk = s.sched.chunk) := by
  refine ⟨by simp [State.waitAgain], fun noFill => ?_⟩
  unfold State.waitAgain State.keepChunk
  cases source : g.source with
  | service w r => exact absurd source (noFill w r)
  | publication => rfl
  | control e => rfl

/-- Below the sixteenth, a failed frame that is not abandoned at its report waits again (R85). -/
theorem State.reportFailed_of_lt (flight : s.sched.inflight = some g) (kept : s.abandonsAtReport g = false)
    (few : g.attempts + 1 < 16) (faulted : Bool) : s.reportFailed faulted = s.waitAgain g (g.attempts + 1) := by
  rw [State.reportFailed, flight]
  simp [kept, few, Config.attemptLimit]

/-- The sixteenth abandons the frame, where it faulted only if it ends no state of the station (R86, R147). -/
theorem State.reportFailed_of_sixteenth (flight : s.sched.inflight = some g) (kept : s.abandonsAtReport g = false)
    (attempts : g.attempts = 15) (faulted : Bool) : s.reportFailed faulted =
      if faulted = true ∧ s.endsState g = true then { s.waitAgain g 16 with ctl.abandonDue := true }
      else s.abandonAttempts g := by
  rw [State.reportFailed, flight]
  simp [kept, attempts, Config.attemptLimit]

/-- In LEAVING a frame is abandoned at its report (R88). -/
theorem State.reportFailed_of_leaving (flight : s.sched.inflight = some g) (abandons : s.abandonsAtReport g = true)
    (faulted : Bool) : s.reportFailed faulted = s.abandonWith g .leaving := by
  rw [State.reportFailed, flight]
  simp [abandons]

theorem State.abandonsAtReport_iff (s : State) (g : InFlight) : s.abandonsAtReport g = true ↔
    s.ctl.state = .leaving ∧ g.source ≠ .control (.depart s.station) := by
  simp [State.abandonsAtReport, State.isOwnDepart]

theorem State.endsState_iff (s : State) (g : InFlight) : s.endsState g = true ↔
    (g.source = .control (.presence .join) ∧ s.ctl.state = .joining)
      ∨ (g.source = .control (.depart s.station) ∧ s.ctl.state = .leaving) := by
  simp [State.endsState, State.isOwnDepart]

/-- A frame that is retried, in LEAVING only the own DEPART, is not abandoned at its report (R88). -/
theorem State.not_abandonsAtReport_of_retried (ctl : t.ctl = s.ctl) (pins : t.pins = s.pins)
    (retried : s.ctl.state ≠ .leaving ∨ g.source = .control (.depart s.station)) : t.abandonsAtReport g = false := by
  have station : t.station = s.station := by rw [State.station, pins, State.station]
  refine Bool.eq_false_iff.2 fun abandons => ?_
  obtain ⟨leaving, other⟩ := (State.abandonsAtReport_iff _ _).1 abandons
  rw [ctl] at leaving
  rw [station] at other
  exact retried.elim (fun state => state leaving) other

/-! ### The bit at which a frame leaves the line (R11, R12) -/

theorem State.withdrawFrame_line (s : State) : s.withdrawFrame.line = { s.line with state := .receiving } := rfl

/-- The frame it goes on receiving is no longer its own (R11, R12). -/
theorem State.withdrawFrame_sending {f : RxFrame} (held : s.withdrawFrame.rx.frame = some f) : f.sending = false := by
  obtain ⟨own, -, rfl⟩ := Option.map_eq_some_iff.1 held
  rfl

/-- Arbitration lost at a bit of SENDER is reported at once (R11, R13). -/
theorem exec_lostArbitration {bit : Nat} (transmitting : s.line.state = .transmitting) (flight : s.sched.inflight = some g)
    (inside : bit < 10) (recessive : g.frame.sentRecessive bit = true) :
    exec (.lostArbitration bit) s = .next s.withdrawFrame.reportLost.offerDue.settleMemory := by
  have loses : s.drivenFrame.any (·.losesAt bit) = true := by
    simp [State.drivenFrame, transmitting, flight, Frame.losesAt, inside, recessive]
  exact congrArg Host.Outcome.next (if_pos loses)

/-- So is a line fault (R12, R13). -/
theorem exec_lineFault {bit : Nat} (transmitting : s.line.state = .transmitting) (flight : s.sched.inflight = some g)
    (inside : bit < 10 * g.frame.bytes.length) (fault : 10 ≤ bit ∨ g.frame.sentRecessive bit = false) :
    exec (.lineFault bit) s = .next (s.withdrawFrame.reportFailed true).offerDue.settleMemory := by
  have faults : g.frame.faultsAt bit = true := by simpa [Frame.faultsAt, inside] using fault
  have driven : s.drivenFrame.any (·.faultsAt bit) = true := by simp [State.drivenFrame, transmitting, flight, faults]
  exact congrArg Host.Outcome.next (if_pos driven)

/-! ### The sixteenth attempt, by source (R86) -/

theorem State.abandonWith_of_control {e : ControlEntry} (source : g.source = .control e) (reason : AbandonReason) :
    s.abandonWith g reason = s.leaveSource g := by
  rw [State.abandonWith, source]

theorem State.abandonWith_of_service {w r : Nat} (source : g.source = .service w r) (reason : AbandonReason) :
    s.abandonWith g reason = s.leaveSource g := by
  rw [State.abandonWith, source]

/-- A publication leaves the queue with ABANDONED (R86, R88, R89). -/
theorem State.abandonWith_of_publication {r : PubRecord} {rest : List PubRecord} (source : g.source = .publication)
    (queue : s.pub.queue = r :: rest) (reason : AbandonReason) :
    s.abandonWith g reason = (s.leaveSource g).post (.abandoned r.tag r.window reason) := by
  rw [State.abandonWith, source, queue]
  rfl

@[simp] theorem State.abandonWith_no_flight (s : State) (g : InFlight) (reason : AbandonReason) :
    (s.abandonWith g reason).sched.inflight = none := by
  unfold State.abandonWith
  split <;> simp

theorem State.leaveSource_control_entry {e : ControlEntry} (source : g.source = .control e) :
    (s.leaveSource g).pub = s.pub ∧ (s.leaveSource g).mirror = s.mirror
      ∧ (s.leaveSource g).sched.control = s.sched.control.erase e := by
  rw [State.leaveSource_of_control source]
  exact ⟨rfl, rfl, rfl⟩

/-- What abandonment leaves of the records, the control list, the chunk and the reports (R69, R86, R88). -/
theorem State.abandonWith_by_source (s : State) (g : InFlight) (reason : AbandonReason) :
    (∀ r rest, g.source = .publication → s.pub.queue = r :: rest →
        (s.abandonWith g reason).pub = { s.pub with queue := rest }
        ∧ (s.abandonWith g reason).sched.control = s.sched.control
        ∧ (s.abandonWith g reason).report = (s.post (.abandoned r.tag r.window reason)).report)
      ∧ (∀ e, g.source = .control e → (s.abandonWith g reason).pub = s.pub
        ∧ (s.abandonWith g reason).sched.control = s.sched.control.erase e
        ∧ (s.abandonWith g reason).report = s.report)
      ∧ (∀ w r, g.source = .service w r → (s.abandonWith g reason).pub = s.pub
        ∧ (s.abandonWith g reason).sched.control = s.sched.control
        ∧ (s.abandonWith g reason).sched.chunk = none ∧ (s.abandonWith g reason).report = s.report) := by
  refine ⟨fun r rest source queue => ?_, fun e source => ?_, fun w r source => ?_⟩
  · rw [State.abandonWith_of_publication source queue]
    exact ⟨by simp [State.leaveSource_of_publication source, queue],
      by simp [State.leaveSource_of_publication source], State.post_report (by simp) _⟩
  · rw [State.abandonWith_of_control source]
    simp [State.leaveSource_of_control source]
  · rw [State.abandonWith_of_service source]
    simp [State.leaveSource_of_service source, State.emptyChunk]

theorem State.abandonAttempts_of_publication {r : PubRecord} {rest : List PubRecord} (source : g.source = .publication)
    (queue : s.pub.queue = r :: rest) : s.abandonAttempts g =
      ((s.leaveSource g).post (.abandoned r.tag r.window .attempts)).unclaim [r] := by
  rw [State.abandonAttempts, source, State.abandonWith_of_publication source queue, queue]
  rfl

/-- Of an abandoned CLAIM record of an ACTIVE station the hold goes from CLAIMING to NONE (R107). -/
theorem State.unclaim_claims (active : s.ctl.state = .active) (r : PubRecord) : (s.unclaim [r]).claims =
    s.claims.map fun c =>
      if r.kind = .claim ∧ c.window = r.window ∧ c.hold = .claiming then { c with hold := .unheld } else c := by
  by_cases claim : r.kind = .claim
  · have unclaims : s.unclaim [r] =
        s.setGuard r.window fun c => if c.hold = .claiming then { c with hold := .unheld } else c :=
      if_pos (by simp [State.isActive, active, claim])
    rw [unclaims, State.setGuard]
    refine List.map_congr_left fun c _ => ?_
    by_cases here : c.window = r.window
    · simp [claim, here]
    · simp [here]
  · have leaves : s.unclaim [r] = s := if_neg (by simp [claim])
    simp [leaves, claim]

/-- A JOIN takes JOINING back to LISTENING (R151). -/
theorem State.abandonAttempts_of_join (source : g.source = .control (.presence .join)) (joining : s.ctl.state = .joining) :
    s.abandonAttempts g = (s.leaveSource g).joinFailed := by
  rw [State.abandonAttempts, source, State.abandonWith_of_control source]
  exact if_pos joining

/-- Its own DEPART takes LEAVING to STOPPED (R161). -/
theorem State.abandonAttempts_of_ownDepart (source : g.source = .control (.depart s.station))
    (leaving : s.ctl.state = .leaving) : s.abandonAttempts g = (s.leaveSource g).stop .departAbandoned := by
  rw [State.abandonAttempts, source, State.abandonWith_of_control source]
  exact if_pos ⟨rfl, leaving⟩

/-- A FETCH counts as an expiry of its timer (R134). -/
theorem State.abandonAttempts_of_fetch {w : Nat} (source : g.source = .control (.fetch w)) :
    s.abandonAttempts g = (s.leaveSource g).abandonFetch w := by
  rw [State.abandonAttempts, source, State.abandonWith_of_control source]

/-- A FILL drops its service entry (R139). -/
theorem State.abandonAttempts_of_service {w r : Nat} (source : g.source = .service w r) :
    s.abandonAttempts g = (s.leaveSource g).dropService w r := by
  rw [State.abandonAttempts, source, State.abandonWith_of_service source]

/-- Any other control entry only leaves the list (R86). -/
theorem State.abandonAttempts_of_control {e : ControlEntry} (source : g.source = .control e) (noFetch : ∀ w, e ≠ .fetch w)
    (stays : s.endsState g = false) : s.abandonAttempts g = s.leaveSource g := by
  have kept : ¬ s.endsState g = true := by simp [stays]
  rw [State.endsState_iff, source] at kept
  rw [State.abandonAttempts, source, State.abandonWith_of_control source]
  cases e with
  | presence mode =>
    cases mode with
    | join => exact if_neg fun joining => kept (.inl ⟨rfl, joining⟩)
    | founded => rfl
    | announce => rfl
  | census => rfl
  | depart p => exact if_neg fun ⟨own, leaving⟩ => kept (.inr ⟨by rw [own], leaving⟩)
  | fetch w => exact absurd rfl (noFetch w)
  | release w => rfl

/-! ### What is offered again (R79) -/

/-- Conditions read from the controller, the roster, the claims, the copies and the pins alone. -/
theorem State.stands_congr (pins : t.pins = s.pins) (ctl : t.ctl = s.ctl) (roster : t.roster = s.roster)
    (claims : t.claims = s.claims) (refresh : t.refresh = s.refresh) (e : ControlEntry) : t.Stands e ↔ s.Stands e := by
  have station : t.station = s.station := by rw [State.station, pins, State.station]
  cases e with
  | presence mode =>
    cases mode <;> simp [State.Stands, ctl, roster, station, State.status_of_roster roster]
  | census => simp [State.Stands, ctl, station, State.status_of_roster roster]
  | depart p => simp [State.Stands, State.silenceTimer_of_roster roster]
  | fetch w => simp [State.Stands, ctl, State.copy_of_refresh refresh]
  | release w => simp [State.Stands, claims]

/-- Offers of entries that are all on the list leave it (R78). -/
theorem State.foldl_offer_of_listed (offers : List ControlEntry) : ∀ {s : State},
    (∀ e ∈ offers, e ∈ s.sched.control) → (offers.foldl State.offer s).sched.control = s.sched.control := by
  induction offers with
  | nil => exact fun _ => rfl
  | cons x rest ih =>
    intro s listed
    have same : s.offer x = s := if_pos (by simpa using listed x List.mem_cons_self)
    rw [List.foldl_cons, same]
    exact ih fun e later => listed e (List.mem_cons_of_mem _ later)

/-- Offers of one entry that is not on the list, among entries that are, admit it at the tail (R78). -/
theorem State.foldl_offer_of_missing (offers : List ControlEntry) {x : ControlEntry} : ∀ {s : State}, x ∈ offers →
    x ∉ s.sched.control → s.sched.control.length < 8 → (∀ e ∈ offers, e = x ∨ e ∈ s.sched.control) →
    (offers.foldl State.offer s).sched.control = s.sched.control ++ [x] := by
  induction offers with
  | nil => exact fun offered => absurd offered List.not_mem_nil
  | cons y rest ih =>
    intro s offered missing room listed
    by_cases first : y = x
    · have admitted : (s.offer y).sched.control = s.sched.control ++ [x] := by
        rw [State.offer_control, first, if_neg missing, if_pos room]
      rw [List.foldl_cons, State.foldl_offer_of_listed rest, admitted]
      intro e later
      rw [admitted]
      rcases listed e (List.mem_cons_of_mem _ later) with rfl | before
      · simp
      · exact List.mem_append_left _ before
    · have same : s.offer y = s := if_pos (by simpa using (listed y List.mem_cons_self).resolve_left first)
      rw [List.foldl_cons, same]
      exact ih (List.mem_of_ne_of_mem (Ne.symm first) offered) missing room
        fun e later => listed e (List.mem_cons_of_mem _ later)

/-- A control entry that has left the list comes back at its tail while its condition stands (R78, R79). -/
theorem State.offerDue_of_erased {e : ControlEntry} {listed : List ControlEntry}
    (state : s.ctl.state = .joining ∨ s.ctl.state = .active) (control : s.sched.control = listed.erase e)
    (standing : ∀ x, s.Stands x → x ∈ listed) (nodup : listed.Nodup) (room : listed.length ≤ 8) :
    (s.Stands e → s.offerDue.sched.control = listed.erase e ++ [e])
      ∧ (¬ s.Stands e → s.offerDue.sched.control = listed.erase e) := by
  have due (x : ControlEntry) : x ∈ s.dueOffers ↔ s.Stands x := State.mem_dueOffers state x
  have others (x : ControlEntry) (stands : s.Stands x) (other : x ≠ e) : x ∈ s.sched.control := by
    rw [control]
    exact (List.mem_erase_of_ne other).2 (standing x stands)
  refine ⟨fun stands => ?_, fun fallen => ?_⟩
  · have member := standing e stands
    have fewer : (listed.erase e).length < 8 := by
      rw [List.length_erase_of_mem member]
      have nonempty := List.length_pos_of_mem member
      omega
    rw [← control]
    exact State.foldl_offer_of_missing s.dueOffers ((due e).2 stands) (by rw [control]; exact nodup.not_mem_erase)
      (by rw [control]; exact fewer) fun x offered => (eq_or_ne x e).imp_right (others x ((due x).1 offered))
  · rw [← control]
    refine State.foldl_offer_of_listed s.dueOffers fun x offered => others x ((due x).1 offered) ?_
    rintro rfl
    exact fallen ((due x).1 offered)

end Sys2Proof.Machine
end

