-- ==== Sys2Proof/Proofs/VoidedFrames.lean ====
section
/-! A voided or faulted own frame (R13, R81, R85, R86, R88, R147), and what was put off to the end of a window. -/

namespace Sys2Proof.Machine

variable {s t u : State} {f : RxFrame} {g : InFlight} {frame : Frame}

/-! ### The report of a failed attempt at the window end and at a line fault -/

/-- At its own window's end a voided frame is reported failed; the units but the line and the receiver are as before. -/
theorem State.Sends.report_of_lt {samples : BitVec 20} (h : s.Sends g) (voided : samples ≠ allRecessive)
    (retried : s.ctl.state ≠ .leaving ∨ g.source = .control (.depart s.station)) (few : g.attempts + 1 < 16) :
    exec (.verdictWindowEnd samples) s =
      .next ((s.beginGap true).waitAgain g (g.attempts + 1)).offerDue.settleMemory := by
  have kept : (s.beginGap true).abandonsAtReport g = false :=
    State.not_abandonsAtReport_of_retried (s := s) (by simp) (by simp) retried
  rw [h.window_voided voided,
    State.reportFailed_of_lt (by simpa using h.flight) kept few,
    State.afterWindow_eq (by simpa using h.founding) (by simpa using h.abandoning)]

/-- The same of a sixteenth attempt whose abandonment leaves nothing put off (R86). -/
theorem State.Sends.report_of_sixteenth {samples : BitVec 20} (h : s.Sends g) (voided : samples ≠ allRecessive)
    (retried : s.ctl.state ≠ .leaving ∨ g.source = .control (.depart s.station)) (attempts : g.attempts = 15)
    (settled : ((s.beginGap true).abandonAttempts g).ctl.foundingDue = false
      ∧ ((s.beginGap true).abandonAttempts g).ctl.abandonDue = false) :
    exec (.verdictWindowEnd samples) s = .next ((s.beginGap true).abandonAttempts g).offerDue.settleMemory := by
  have kept : (s.beginGap true).abandonsAtReport g = false :=
    State.not_abandonsAtReport_of_retried (s := s) (by simp) (by simp) retried
  obtain ⟨founding, abandoning⟩ := settled
  rw [h.window_voided voided,
    State.reportFailed_of_sixteenth (by simpa using h.flight) kept attempts, if_neg (by simp),
    State.afterWindow_eq founding abandoning]

/-- A state that differs in the line and the receiver alone has the other units. -/
theorem State.units_of_line (same : u = { s with line := u.line, rx := u.rx }) : u.pins = s.pins ∧ u.layout = s.layout
    ∧ u.mirror = s.mirror ∧ u.pub = s.pub ∧ u.sched = s.sched ∧ u.claims = s.claims ∧ u.roster = s.roster
    ∧ u.refresh = s.refresh ∧ u.ctl = s.ctl ∧ u.port = s.port ∧ u.report = s.report ∧ u.pending = s.pending := by
  rw [same]
  exact ⟨rfl, rfl, rfl, rfl, rfl, rfl, rfl, rfl, rfl, rfl, rfl, rfl⟩

theorem State.not_abandonsAtReport (state : s.ctl.state ≠ .leaving) (g : InFlight) : s.abandonsAtReport g = false := by
  simp [State.abandonsAtReport, state]

/-- Frames that end no state of the station: none of an ACTIVE one does. -/
theorem State.not_endsState_of_active (active : s.ctl.state = .active) (g : InFlight) : s.endsState g = false := by
  simp [State.endsState, active]

/-! ### Abandonments put off to a window end (R147) -/

/-- An abandonment put off takes effect (R147). -/
theorem State.afterWindow_of_abandonDue (founding : s.ctl.foundingDue = false) (due : s.ctl.abandonDue = true)
    (flight : s.sched.inflight = some g) :
    s.afterWindow = (State.abandonAttempts { s with ctl.abandonDue := false } g).offerDue.settleMemory := by
  simp [State.afterWindow, State.deferredFounding, founding, State.finishAbandon, due, flight]

/-- A joiner whose JOIN is abandoned at the window end is LISTENING (R147, R151). -/
theorem State.afterWindow_joinFailed (founding : s.ctl.foundingDue = false) (due : s.ctl.abandonDue = true)
    (flight : s.sched.inflight = some g) (joining : s.ctl.state = .joining)
    (source : g.source = .control (.presence .join)) :
    s.afterWindow = ((State.leaveSource { s with ctl.abandonDue := false } g).joinFailed).settleMemory := by
  rw [State.afterWindow_of_abandonDue founding due flight, State.abandonAttempts_of_join source (by exact joining),
    State.offerDue_of_apart (by simp)]

/-- A LEAVING station whose DEPART is abandoned at the window end is STOPPED (R147, R161). -/
theorem State.afterWindow_departAbandoned (founding : s.ctl.foundingDue = false) (due : s.ctl.abandonDue = true)
    (flight : s.sched.inflight = some g) (leaving : s.ctl.state = .leaving)
    (source : g.source = .control (.depart s.station)) : s.afterWindow =
      ((State.leaveSource { s with ctl.abandonDue := false } g).stop .departAbandoned).settleMemory := by
  rw [State.afterWindow_of_abandonDue founding due flight,
    State.abandonAttempts_of_ownDepart (by exact source) (by exact leaving), State.offerDue_of_apart (by simp)]

/-! ### A frame of another station that leaves this station where it is -/

/-- The body makes no transition of this station: no DEPART of it, and no census that changes its state. -/
structure State.Unmoved (s : State) (b : Body) : Prop where
  depart : ∀ reason, b ≠ .depart s.station reason
  census : ∀ sig map groups, b = .census sig map groups →
    s.awaitsCensus = false ∨ (sig = s.layout.signature ∧ map.getD s.station .absent ≠ .joined)

/-- A body of another station that makes no transition leaves the frame in flight. -/
theorem State.acceptBody_inflight {n : Nat} {b : Body} (stays : s.Stays b) :
    (s.acceptBody n false b).sched.inflight = s.sched.inflight := by
  cases b with
  | presence mode sig => simp [State.acceptBody]
  | census sig map groups =>
    have settled := stays.census sig map groups rfl
    by_cases own : sig = s.layout.signature
    · rw [own, State.acceptBody, State.acceptCensus_of_settled settled]
      simp
    · rw [State.acceptBody, State.acceptCensus_of_apart own settled]
      simp
  | depart subject reason =>
    rw [State.acceptBody, State.acceptDepart_of_other fun own => stays.depart reason (by rw [own])]
    simp
  | write w o data => simp [State.acceptBody]
  | claim w => simp [State.acceptBody]
  | release w reason => simp [State.acceptBody]
  | fetch w o => simp [State.acceptBody]
  | fill w o r data =>
    rw [State.acceptBody, State.acceptFill_received]
    split
    · simp [State.takeChunk]
    · simp

theorem State.Unmoved.acceptBody {n : Nat} {b : Body} (h : s.Unmoved b) : (s.acceptBody n false b).ctl = s.ctl
    ∧ (s.acceptBody n false b).sched.inflight = s.sched.inflight := by
  by_cases awaited : ∃ sig map groups, b = .census sig map groups ∧ s.awaitsCensus = true
  · obtain ⟨sig, map, groups, rfl, waiting⟩ := awaited
    obtain ⟨rfl, unlisted⟩ := (h.census sig map groups rfl).resolve_left (by simp [waiting])
    rw [State.acceptBody, State.acceptCensus_of_unlisted waiting unlisted]
    simp
  · have stays : s.Stays b := ⟨h.depart, fun sig map groups census => Bool.eq_false_iff.2 fun waiting =>
      awaited ⟨sig, map, groups, census, waiting⟩⟩
    exact ⟨State.acceptBody_ctl stays, State.acceptBody_inflight stays⟩

/-- Step 5 of acceptance leaves a waiting control frame whose entry is not overtaken (R87). -/
theorem State.dropOvertaken_flight_of_control {e : ControlEntry} (flight : s.sched.inflight = some g)
    (source : g.source = .control e) (stands : s.entryOvertaken e = false) :
    s.dropOvertaken.sched.inflight = some g := by
  have kept : s.dropWaiting = s := by
    rw [State.dropWaiting, flight]
    exact if_neg (by simp [State.frameOvertaken, source, stands])
  simp [State.dropOvertaken, kept, flight]

/-- The acceptance of such a frame, read or not, leaves the controller and a waiting JOIN or own DEPART. -/
theorem State.accept_unmoved {n : Nat} {b : Option Body} {e : ControlEntry} (other : n ≠ s.station)
    (unmoved : ∀ body, b = some body → s.Unmoved body) (flight : s.sched.inflight = some g)
    (source : g.source = .control e) (entry : e = .presence .join ∨ e = .depart s.station) :
    (s.gapAccepted.accept n false b).ctl = s.ctl ∧ (s.gapAccepted.accept n false b).sched.inflight = some g := by
  have station : n ≠ s.gapAccepted.station := by simpa [State.station] using other
  have accepted : s.gapAccepted.accept n false b = (s.timedAt n false).acceptEffect n false b := by
    simp only [State.accept, if_neg fun h : _ ∧ _ => station h.1]
    exact if_neg (by simp)
  rw [accepted]
  cases b with
  | none => exact ⟨by simp [State.acceptEffect], by simpa [State.acceptEffect] using flight⟩
  | some body =>
    have timed : (s.timedAt n false).Unmoved body :=
      ⟨by simpa using (unmoved body rfl).depart, by simpa using (unmoved body rfl).census⟩
    obtain ⟨ctl, inflight⟩ := timed.acceptBody (n := n)
    rw [State.acceptEffect]
    split
    · refine ⟨by simpa using ctl, State.dropOvertaken_flight_of_control (inflight.trans (by simpa using flight)) source ?_⟩
      rcases entry with rfl | rfl
      · rfl
      · simp [State.entryOvertaken, State.station]
    · exact ⟨by simp, by simpa using flight⟩

/-- A joiner that the census lists installs it (R121). -/
theorem State.accept_census {n : Nat} {map : List RosterStatus} {groups : List (List Nat)} (other : n ≠ s.station)
    (known : s.status n ≠ .foreign) (waiting : s.awaitsCensus = true) (listed : map.getD s.station .absent = .joined) :
    s.gapAccepted.accept n false (some (.census s.layout.signature map groups)) =
      ((s.timedAt n false).installCensus map groups).dropOvertaken := by
  have station : n ≠ s.gapAccepted.station := by simpa [State.station] using other
  have passes : (s.timedAt n false).passesFilter n true = true :=
    State.passesFilter_of_known (by rw [s.timedAt_status]; exact known)
  have installs := State.acceptCensus_of_listed (s := s.timedAt n false) (by simpa using waiting) (by simpa using listed)
    n groups
  rw [show (s.timedAt n false).layout = s.layout by simp] at installs
  simp only [State.accept, if_neg fun h : _ ∧ _ => station h.1]
  rw [if_neg (by simp), ← State.timedAt, State.acceptEffect]
  exact (if_pos passes).trans (congrArg State.dropOvertaken installs)

/-- Where a census installs, a JOIN whose abandonment was put off leaves its list (R147). -/
theorem State.installCensus_sched_of_due (due : s.ctl.abandonDue = true) (flight : s.sched.inflight = some g)
    (map : List RosterStatus) (groups : List (List Nat)) :
    (s.installCensus map groups).sched = (s.leaveSource g).sched := by
  simp only [State.installCensus, State.dropAbandoned, due, if_true, flight, Option.map_some, Option.getD_some,
    State.requestAll_frame, State.moveTo_frame]
  unfold State.leaveSource
  split <;> rfl

/-- Below the sixteenth attempt the frame waits again (R13, R69, R81, R85). -/
theorem voided_frame_waits_again :
    ∀ (samples : BitVec 20) (s : State) (g : InFlight), s.Sends g → samples ≠ allRecessive →
      (s.ctl.state ≠ .leaving ∨ g.source = .control (.depart s.station)) → g.attempts + 1 < 16 →
      ∃ t, exec (.verdictWindowEnd samples) s = .next t
        ∧ t = { s with line := t.line, rx := t.rx, mirror := t.mirror, sched := t.sched }
        ∧ t.sched.inflight = some { g with attempts := g.attempts + 1, onLine := false }
        ∧ ((∀ w r, g.source ≠ .service w r) → t.sched.chunk = s.sched.chunk)
        ∧ t.line.reference = s.line.reference ∧ t.rx.objectionRun = s.rx.objectionRun
        ∧ ∀ a, Memory.read t.mirror.mem a = Memory.read s.mirror.mem a := by
  intro samples s g sends voided retried few
  refine ⟨_, sends.report_of_lt voided retried few, by apply State.eq_of_units <;> simp, ?_, fun noFill => ?_,
    by simp [State.beginGap], by simp [State.beginGap], fun a => by simp⟩
  · obtain ⟨flight, -⟩ := State.waitAgain_sched (s.beginGap true) g (g.attempts + 1)
    simpa using flight
  · obtain ⟨-, chunk⟩ := State.waitAgain_sched (s.beginGap true) g (g.attempts + 1)
    simpa using chunk noFill

/-- The sixteenth of a publication: ABANDONED, and the hold of a CLAIM NONE (R86, R89, R107). -/
theorem sixteenth_publication_abandoned :
    ∀ (i : Instr) (s : State) (g : InFlight) (r : PubRecord) (rest : List PubRecord),
      s.Fails g i → s.ctl.state = .active → g.attempts = 15 → g.source = .publication → s.pub.queue = r :: rest →
      ∃ t, exec i s = .next t
        ∧ t.sched.inflight = none ∧ t.pub = { s.pub with queue := rest }
        ∧ t.report = (s.post (.abandoned r.tag r.window .attempts)).report
        ∧ t.claims = (s.claims.map fun c =>
            if r.kind = .claim ∧ c.window = r.window ∧ c.hold = .claiming then { c with hold := .unheld } else c)
        ∧ t.roster = s.roster ∧ t.refresh = s.refresh ∧ t.ctl = s.ctl ∧ t.line.reference = s.line.reference := by
  intro i s g r rest fails active attempts source queue
  have abandons (u : State) (same : u.pub = s.pub) := State.abandonAttempts_of_publication (s := u) source (same ▸ queue)
  obtain ⟨u, same, reference, ends⟩ := fails.sixteenth attempts (State.not_abandonsAtReport (by simp [active]) g)
    (State.not_endsState_of_active active g) fun u ctl _ => by
      rw [State.abandonAttempts, source]
      simp [ctl]
  obtain ⟨-, -, -, pub, sched, claims, roster, refresh, ctl, -, report, -⟩ := State.units_of_line same
  rw [abandons u pub] at ends
  refine ⟨_, ends, by simp, by simp [State.leaveSource_of_publication source, pub, queue],
    ?_, ?_, by simp [roster], by simp [refresh], by simp [ctl], by simp [reference]⟩
  · simp only [State.settleMemory_frame, State.offerDue_frame, State.unclaim_frame]
    exact State.post_report (by simp [report]) _
  · simp only [State.settleMemory_frame, State.offerDue_frame]
    rw [State.unclaim_claims (by simp [ctl, active])]
    simp [claims]

/-- The sixteenth of a JOIN in JOINING: LISTENING (R151). -/
theorem sixteenth_join_fails :
    ∀ (samples : BitVec 20) (s : State) (g : InFlight), s.Sends g → samples ≠ allRecessive →
      s.ctl.state = .joining → g.attempts = 15 → g.source = .control (.presence .join) →
      ∃ t, exec (.verdictWindowEnd samples) s = .next t
        ∧ t.ctl.state = .listening ∧ t.ctl.reason = .joinFailed ∧ t.ctl.censusPending = false ∧ t.ctl.answer = .stopped
        ∧ t.sched.control = [] ∧ t.sched.inflight = none ∧ t.roster.announce = .stopped
        ∧ (∀ n, t.status n = .absent ∧ t.silenceTimer n = .stopped)
        ∧ t.line = { s.line with
            state := .idleGap, gapTiming := true, count := 0, reference := none, silence := 0 }
        ∧ t.pub = s.pub ∧ t.refresh = s.refresh ∧ t.mirror.inbound = s.mirror.inbound
        ∧ t.report = (s.post (.state .listening .joinFailed)).report := by
  intro samples s g sends voided joining attempts source
  have failed : (s.beginGap true).abandonAttempts g = _ := State.abandonAttempts_of_join source (by simpa using joining)
  have ends := sends.report_of_sixteenth voided (by simp [joining]) attempts (by rw [failed]; simp)
  rw [failed, State.offerDue_of_apart (by simp)] at ends
  refine ⟨_, ends, by simp, by simp, by simp, by simp, by simp, by simp, by simp,
    fun n => State.status_of_cleared (by simp) n, by simp [State.beginGap], by simp [State.leaveSource_control_entry source],
    by simp, by simp [State.leaveSource_control_entry source], ?_⟩
  simp only [State.settleMemory_frame, State.joinFailed_report]
  exact State.post_report (by simp) _

/-- The sixteenth of the own DEPART in LEAVING: STOPPED (R161). -/
theorem sixteenth_depart_stops :
    ∀ (samples : BitVec 20) (s : State) (g : InFlight), s.Sends g → samples ≠ allRecessive →
      s.ctl.state = .leaving → g.attempts = 15 → g.source = .control (.depart s.station) →
      ∃ t, exec (.verdictWindowEnd samples) s = .next t
        ∧ t.ctl.state = .stopped ∧ t.ctl.reason = .departAbandoned ∧ t.sched.control = [] ∧ t.sched.inflight = none
        ∧ (∀ n, t.status n = .absent) ∧ (∀ c ∈ t.claims, c.queue = []) ∧ (∀ e ∈ t.mirror.inbound, e.withdrawn = true)
        ∧ t.refresh.copies = s.refresh.copies.map (fun c => { c.unfetched with accepted := c.applied })
        ∧ t.line.reference = s.line.reference ∧ t.report = (s.post (.state .stopped .departAbandoned)).report := by
  intro samples s g sends voided leaving attempts source
  have stops : (s.beginGap true).abandonAttempts g = _ :=
    State.abandonAttempts_of_ownDepart (by simpa [State.station] using source) (by simpa using leaving)
  have ends := sends.report_of_sixteenth voided (.inr source) attempts (by rw [stops]; simp)
  rw [stops, State.offerDue_of_apart (by simp)] at ends
  refine ⟨_, ends, by simp, by simp, by simp, by simp, fun n => (State.status_of_cleared (by simp) n).1,
    fun c held => ?_, fun e left => ?_, by simp [Copy.halted], by simp [State.beginGap], ?_⟩
  · obtain ⟨empty, -⟩ := cleared_of_mem (claims := s.claims) (by simpa using held)
    exact empty
  · exact State.stop_withdrawn (reason := .departAbandoned) (by simpa using left)
  · simp only [State.settleMemory_frame, State.stop_report]
    exact State.post_report (by simp) _

/-- The sixteenth of a FETCH: an expiry of its timer (R134). -/
theorem sixteenth_fetch_counts_an_expiry :
    ∀ (i : Instr) (s : State) (g : InFlight) (w : Nat), s.Fails g i →
      s.ctl.state = .active → g.attempts = 15 → g.source = .control (.fetch w) → w < s.refresh.copies.length →
      (s.copy w).fresh = false → (s.copy w).failed = false →
      ∃ t, exec i s = .next t
        ∧ t.sched.inflight = none ∧ t.pub = s.pub ∧ t.claims = s.claims ∧ t.ctl = s.ctl
        ∧ (∀ v, v ≠ w → t.copy v = s.copy v) ∧ t.refresh.service = s.refresh.service
        ∧ ((s.copy w).expiries < 3 → t.report = s.report ∧ t.copy w =
            { s.copy w with expiries := (s.copy w).expiries + 1, timer := .running 4096, request := true })
        ∧ (3 ≤ (s.copy w).expiries → t.report = (s.post (.fetchFailed w)).report ∧ t.copy w =
            { s.copy w with expiries := 4, timer := .stopped, request := false, failed := true }) := by
  intro i s g w fails active attempts source inside stale standing
  have counts (u : State) (ctl : u.ctl = s.ctl) (refresh : u.refresh = s.refresh) :
      u.abandonAttempts g = (u.leaveSource g).countExpiry w := by
    have copy := State.copy_of_refresh (s := s) (t := u.leaveSource g) (by simp [refresh]) w
    rw [State.abandonAttempts_of_fetch source, State.abandonFetch, if_pos]
    exact (State.fetches_iff _ w).2 ⟨by simp [ctl, active], by rw [copy, stale], by rw [copy, standing]⟩
  obtain ⟨u, same, reference, ends⟩ := fails.sixteenth attempts (State.not_abandonsAtReport (by simp [active]) g)
    (State.not_endsState_of_active active g) fun u ctl _ => by
      rw [State.abandonAttempts_of_fetch source]
      simp [ctl]
  obtain ⟨-, -, -, pub, sched, claims, roster, refresh, ctl, -, report, -⟩ := State.units_of_line same
  rw [counts u ctl refresh] at ends
  obtain ⟨service, others, below, fourth⟩ := State.countExpiry_effect (s := u.leaveSource g) (w := w)
    (by simpa [refresh] using inside)
  have before (v : Nat) : (u.leaveSource g).copy v = s.copy v := State.copy_of_refresh (by simp [refresh]) v
  have after (v : Nat) : ((u.leaveSource g).countExpiry w).offerDue.settleMemory.copy v =
      ((u.leaveSource g).countExpiry w).copy v := State.copy_of_refresh (by simp) v
  simp only [before, ← after] at others below fourth
  refine ⟨_, ends, by simp, by simp [State.leaveSource_control_entry source, pub], by simp [claims], by simp [ctl], others,
    by simpa [refresh] using service, fun few => ?_, fun many => ?_⟩
  · obtain ⟨silent, copy⟩ := below few
    exact ⟨by simpa [report] using silent, copy⟩
  · obtain ⟨posted, copy⟩ := fourth many
    refine ⟨?_, copy⟩
    simp only [State.settleMemory_frame, State.offerDue_frame]
    exact posted.trans (State.post_report (by simp [report]) _)

/-- The sixteenth of a FILL: its service entry dropped (R139). -/
theorem sixteenth_fill_drops_its_entry :
    ∀ (i : Instr) (s : State) (g : InFlight) (w r : Nat), s.Fails g i →
      s.ctl.state = .active → g.attempts = 15 → g.source = .service w r →
      ∃ t, exec i s = .next t
        ∧ t.sched.inflight = none ∧ t.sched.chunk = none ∧ t.pub = s.pub ∧ t.claims = s.claims ∧ t.report = s.report
        ∧ t.refresh.copies = s.refresh.copies
        ∧ t.refresh.service = s.refresh.service.filter (fun e => !(e.window == w && e.requester == r)) := by
  intro i s g w r fails active attempts source
  obtain ⟨u, same, reference, ends⟩ := fails.sixteenth attempts (State.not_abandonsAtReport (by simp [active]) g)
    (State.not_endsState_of_active active g) fun u ctl _ => by
      rw [State.abandonAttempts_of_service source]
      simpa using ctl
  obtain ⟨-, -, -, pub, sched, claims, roster, refresh, ctl, -, report, -⟩ := State.units_of_line same
  rw [State.abandonAttempts_of_service source] at ends
  exact ⟨_, ends, by simp, by simp [State.leaveSource_of_service source, State.emptyChunk],
    by simp [State.leaveSource_of_service source, pub], by simp [claims], by simp [report], by simp [refresh],
    by simp [State.dropService, refresh]⟩

/-- The sixteenth of any other control entry: off the list, and offered again while its condition stands (R79). -/
theorem sixteenth_control_offered_again :
    ∀ (i : Instr) (s : State) (g : InFlight) (e : ControlEntry), s.Fails g i →
      (s.ctl.state = .joining ∨ s.ctl.state = .active) → g.attempts = 15 → g.source = .control e →
      (∀ w, e ≠ .fetch w) → ¬ (e = .presence .join ∧ s.ctl.state = .joining) →
      ∃ t, exec i s = .next t
        ∧ t = { s with line := t.line, rx := t.rx, mirror := t.mirror, sched := t.sched }
        ∧ t.sched.inflight = none ∧ t.line.reference = s.line.reference
        ∧ s.sched.control.erase e <+: t.sched.control
        ∧ (∀ x ∈ t.sched.control, x ∈ s.sched.control.erase e ∨ s.Stands x)
        ∧ ((∀ x, s.Stands x → x ∈ s.sched.control) → s.sched.control.Nodup → s.sched.control.length ≤ 8 →
            (s.Stands e → t.sched.control = s.sched.control.erase e ++ [e])
            ∧ (¬ s.Stands e → t.sched.control = s.sched.control.erase e)) := by
  intro i s g e fails state attempts source noFetch notJoin
  have stays : ¬ s.endsState g = true := by
    rw [State.endsState_iff, source]
    rintro (⟨join, joining⟩ | ⟨-, leaving⟩)
    · exact notJoin ⟨by simpa using join, joining⟩
    · rcases state with joining | active
      · simp [joining] at leaving
      · simp [active] at leaving
  have unmoved : s.ctl.state ≠ .leaving := by rcases state with joining | active <;> simp [*]
  have leaves (u : State) (ctl : u.ctl = s.ctl) (pins : u.pins = s.pins) := State.abandonAttempts_of_control (s := u) source
    noFetch (by simpa [State.endsState, State.isOwnDepart, State.station, ctl, pins] using stays)
  obtain ⟨u, same, reference, ends⟩ := fails.sixteenth attempts (State.not_abandonsAtReport unmoved g)
    (Bool.eq_false_iff.2 stays) fun u ctl pins => by rw [leaves u ctl pins]; simp [ctl]
  obtain ⟨pins, layout, mirror, pub, sched, claims, roster, refresh, ctl, port, report, pending⟩ :=
    State.units_of_line same
  rw [leaves u ctl pins] at ends
  obtain ⟨left_pub, -, control⟩ := State.leaveSource_control_entry (s := u) source
  have stands (x : ControlEntry) : (u.leaveSource g).Stands x ↔ s.Stands x :=
    State.stands_congr (by simp [pins]) (by simp [ctl]) (by simp [roster]) (by simp [claims]) (by simp [refresh]) x
  rw [sched] at control
  refine ⟨_, ends, ?_, by simp, by simp [reference], ?_, fun x listed => ?_, fun standing nodup room => ?_⟩
  · apply State.eq_of_units <;> simp [pins, layout, pub, claims, roster, refresh, ctl, port, report, pending, left_pub]
  · simpa [control] using State.offerDue_prefix (u.leaveSource g)
  · rcases State.stands_of_mem_offerDue (by simpa using listed) with due | before
    · exact .inr ((stands x).1 due)
    · exact .inl (by simpa [control] using before)
  · have returns := State.offerDue_of_erased (e := e) (listed := s.sched.control) (s := u.leaveSource g)
      (by simpa [ctl] using state) control (fun x due => standing x ((stands x).1 due)) nodup room
    simpa [stands] using returns

/-- In LEAVING any other frame is abandoned at its report (R88). -/
theorem leaving_frame_abandoned :
    ∀ (samples : BitVec 20) (s : State) (g : InFlight), s.Sends g → samples ≠ allRecessive →
      s.ctl.state = .leaving → g.source ≠ .control (.depart s.station) →
      ∃ t, exec (.verdictWindowEnd samples) s = .next t
        ∧ t.sched.inflight = none ∧ t.ctl = s.ctl ∧ t.roster = s.roster ∧ t.claims = s.claims ∧ t.refresh = s.refresh
        ∧ (∀ r rest, g.source = .publication → s.pub.queue = r :: rest → t.pub = { s.pub with queue := rest }
            ∧ t.sched.control = s.sched.control ∧ t.report = (s.post (.abandoned r.tag r.window .leaving)).report)
        ∧ (∀ e, g.source = .control e → t.pub = s.pub ∧ t.sched.control = s.sched.control.erase e
            ∧ t.report = s.report)
        ∧ (∀ w r, g.source = .service w r → t.pub = s.pub ∧ t.sched.control = s.sched.control ∧ t.sched.chunk = none
            ∧ t.report = s.report) := by
  intro samples s g sends voided leaving other
  have abandons : (s.beginGap true).abandonsAtReport g = true :=
    (State.abandonsAtReport_iff _ _).2 ⟨by simpa using leaving, by simpa [State.station] using other⟩
  have ends := sends.window_voided voided
  rw [State.reportFailed_of_leaving (by simpa using sends.flight) abandons,
    State.afterWindow_eq (by simpa using sends.founding) (by simpa using sends.abandoning),
    State.offerDue_of_apart (by simp [leaving])] at ends
  obtain ⟨published, control, service⟩ := State.abandonWith_by_source (s.beginGap true) g .leaving
  refine ⟨_, ends, by simp, by simp, by simp, by simp, by simp, fun r rest source queue => ?_, fun e source => ?_,
    fun w r source => ?_⟩
  · obtain ⟨pub, listed, report⟩ := published r rest source (by simpa using queue)
    exact ⟨by simpa using pub, by simpa using listed, by simpa using report.trans (State.post_report (by simp) _)⟩
  · simpa using control e source
  · simpa using service w r source

/-- A faulted sixteenth attempt that would end the station's state waits for the window end (R147). -/
theorem faulted_transition_put_off :
    ∀ (s : State) (g : InFlight) (bit : Nat), s.line.state = .transmitting → s.sched.inflight = some g →
      g.attempts = 15 →
      (s.ctl.state = .joining ∧ g.source = .control (.presence .join)
        ∨ s.ctl.state = .leaving ∧ g.source = .control (.depart s.station)) →
      bit < 10 * g.frame.bytes.length → (10 ≤ bit ∨ g.frame.sentRecessive bit = false) →
      ∃ t, exec (.lineFault bit) s = .next t ∧ t.line = { s.line with state := .receiving }
        ∧ t.ctl = { s.ctl with abandonDue := true }
        ∧ t.sched.inflight = some { g with attempts := 16, onLine := false } ∧ t.roster = s.roster ∧ t.report = s.report := by
  intro s g bit transmitting flight attempts ends inside fault
  have kept : s.withdrawFrame.abandonsAtReport g = false :=
    State.not_abandonsAtReport_of_retried (s := s) (by simp) (by simp)
      (ends.imp (fun ⟨joining, _⟩ => by simp [joining]) fun ⟨_, own⟩ => own)
  have put : s.withdrawFrame.endsState g = true := by
    rw [State.endsState_iff]
    exact ends.imp (fun ⟨joining, join⟩ => ⟨join, by simpa using joining⟩)
      fun ⟨leaving, own⟩ => ⟨by simpa [State.station] using own, by simpa using leaving⟩
  have effect := exec_lineFault transmitting flight inside fault
  rw [State.reportFailed_of_sixteenth (by simpa using flight) kept attempts, if_pos ⟨rfl, put⟩] at effect
  refine ⟨_, effect, by simp [State.withdrawFrame], by simp, ?_, by simp, by simp⟩
  obtain ⟨waits, -⟩ := State.waitAgain_sched s.withdrawFrame g 16
  simpa using waits

/-- At the end of the window of a frame that makes no transition the abandonment takes effect (R147). -/
theorem put_off_abandonment_at_window_end :
    ∀ (samples : BitVec 20) (s : State) (f : RxFrame) (g : InFlight) (voided : Bool),
      s.line.state = .verdict → s.rx.frame = some f → f.sending = false → s.ctl.foundingDue = false →
      s.ctl.abandonDue = true → s.sched.inflight = some g → g.onLine = false →
      (s.ctl.state = .joining ∧ g.source = .control (.presence .join)
        ∨ s.ctl.state = .leaving ∧ g.source = .control (.depart s.station)) →
      (voided = true → (f.objects = true ∨ samples ≠ allRecessive) ∧ ¬ (f.objects = true ∧ 8 ≤ s.rx.objectionRun)) →
      (voided = false → f.objects = false ∧ samples = allRecessive ∧ senderOf f.chars ≠ s.station
        ∧ ∀ frame, parseFrame (f.chars.map RxChar.data) = some frame →
            (∀ reason, frame.body ≠ .depart s.station reason)
            ∧ ∀ signature map groups, frame.body = .census signature map groups → s.ctl.state = .leaving
                ∨ (signature = s.layout.signature ∧ map.getD s.station .absent ≠ .joined)) →
      ∃ t, exec (.verdictWindowEnd samples) s = .next t
        ∧ t.ctl.abandonDue = false ∧ t.sched.control = [] ∧ t.sched.inflight = none ∧ (∀ n, t.status n = .absent)
        ∧ (s.ctl.state = .joining → t.ctl.state = .listening ∧ t.ctl.reason = .joinFailed ∧ t.line.reference = none
            ∧ (voided = true → t.report = (s.post (.state .listening .joinFailed)).report))
        ∧ (s.ctl.state = .leaving → t.ctl.state = .stopped ∧ t.ctl.reason = .departAbandoned ∧ t.line.state = .idleGap
            ∧ (voided = true → t.line.reference = s.line.reference
              ∧ t.report = (s.post (.state .stopped .departAbandoned)).report)
            ∧ (voided = false → t.line.reference = some (senderOf f.chars))) := by
  intro samples s f g voided window held received founding due flight waiting state dominant recessive
  have effect : ∃ v : State, exec (.verdictWindowEnd samples) s = .next v.afterWindow ∧ v.ctl = s.ctl
      ∧ v.station = s.station ∧ v.sched.inflight = some g ∧ v.line.state = .idleGap
      ∧ (voided = true → v.line.reference = s.line.reference ∧ v.report = s.report)
      ∧ (voided = false → v.line.reference = some (senderOf f.chars)) := by
    cases voided with
    | true =>
      obtain ⟨dominates, below⟩ := dominant rfl
      have unmuted : (s.beginGap true).ctl.state ≠ .muted := by
        rcases state with ⟨joining, -⟩ | ⟨leaving, -⟩ <;> simp [*]
      have ends := exec_window_voided window held dominates
      rw [State.windowVoided_of_received (s := s.beginGap true) received below, if_neg unmuted] at ends
      exact ⟨_, ends, by simp, by simp [State.station], by simpa using flight, rfl, fun _ => ⟨rfl, by simp⟩,
        fun recessive => by cases recessive⟩
    | false =>
      obtain ⟨unobjected, rfl, other, settled⟩ := recessive rfl
      have member : s.isMember = true := by
        rcases state with ⟨joining, -⟩ | ⟨leaving, -⟩ <;> simp [State.isMember, StationState.isMember, *]
      have unmoved : ∀ body, (parseFrame (f.chars.map RxChar.data)).map (·.body) = some body → s.Unmoved body := by
        intro body read
        obtain ⟨frame, parsed, rfl⟩ := Option.map_eq_some_iff.1 read
        obtain ⟨depart, census⟩ := settled frame parsed
        refine ⟨depart, fun sig map groups same => (census sig map groups same).imp_left fun leaving => ?_⟩
        simp [State.awaitsCensus, leaving]
      have entry : ∃ e, g.source = .control e ∧ (e = .presence .join ∨ e = .depart s.station) :=
        state.elim (fun ⟨_, join⟩ => ⟨_, join, .inl rfl⟩) fun ⟨_, depart⟩ => ⟨_, depart, .inr rfl⟩
      obtain ⟨e, source, which⟩ := entry
      obtain ⟨ctl, inflight⟩ := State.accept_unmoved other unmoved flight source which
      have gap := State.GapKept.accept s.gapAccepted (senderOf f.chars) false
        ((parseFrame (f.chars.map RxChar.data)).map (·.body))
      have ends := exec_window_accepted window held unobjected
      rw [State.windowAccepted_of_member member, received] at ends
      exact ⟨_, ends, ctl, by simp [State.station], inflight, gap.idle (congrArg Line.state (s.timedAt_line _ _)),
        fun dominates => absurd dominates Bool.false_ne_true, fun _ => gap.reference.trans (s.timedAt_reference _ _)⟩
  obtain ⟨v, ends, ctl, station, inflight, idle, silent, heard⟩ := effect
  rcases state with ⟨joining, join⟩ | ⟨leaving, depart⟩
  · rw [State.afterWindow_joinFailed (by rw [ctl]; exact founding) (by rw [ctl]; exact due) inflight
      (by rw [ctl]; exact joining) join] at ends
    refine ⟨_, ends, by simp, by simp, by simp, fun n => (State.status_of_cleared (by simp) n).1,
      fun _ => ⟨by simp, by simp, by simp, fun dominates => ?_⟩, fun leaving => by simp [joining] at leaving⟩
    simp only [State.settleMemory_frame, State.joinFailed_report]
    obtain ⟨-, report⟩ := silent dominates
    exact State.post_report (by simpa [State.leaveSource_of_control join] using report) _
  · rw [State.afterWindow_departAbandoned (by rw [ctl]; exact founding) (by rw [ctl]; exact due) inflight
      (by rw [ctl]; exact leaving) (by rw [station]; exact depart)] at ends
    refine ⟨_, ends, by simp, by simp, by simp, fun n => (State.status_of_cleared (by simp) n).1,
      fun joining => by simp [leaving] at joining, fun _ => ⟨by simp, by simp, by simp [Line.reset], fun dominates => ?_,
        fun recessive => by simpa using heard recessive⟩⟩
    obtain ⟨reference, report⟩ := silent dominates
    refine ⟨by simpa using reference, ?_⟩
    simp only [State.settleMemory_frame, State.stop_report]
    exact State.post_report (by simpa using report) _

/-- Where a census installs at that window's end, the JOIN leaves without a transition of its own (R147). -/
theorem put_off_join_leaves_at_installation :
    ∀ (s : State) (f : RxFrame) (g : InFlight) (frame : Frame) (map : List RosterStatus) (groups : List (List Nat)),
      s.ctl.state = .joining → s.ctl.censusPending = true → s.line.state = .verdict → s.rx.frame = some f →
      f.sending = false → f.objects = false → parseFrame (f.chars.map RxChar.data) = some frame →
      frame.body = .census s.layout.signature map groups → frame.sender ≠ s.station →
      s.status frame.sender ≠ .foreign → map.getD s.station .absent = .joined → s.ctl.foundingDue = false →
      s.ctl.abandonDue = true → s.sched.inflight = some g → g.source = .control (.presence .join) → g.onLine = false →
      s.sched.control.Nodup →
      ∃ t, exec (.verdictWindowEnd allRecessive) s = .next t
        ∧ t.ctl.state = .active ∧ t.ctl.reason = .census ∧ t.ctl.abandonDue = false
        ∧ t.sched.inflight = none ∧ .presence .join ∉ t.sched.control := by
  intro s f g frame map groups joining pending window held received unobjected read body other known listed founding due
    flight join waiting nodup
  have member : s.isMember = true := by simp [State.isMember, StationState.isMember, joining]
  have timed : (s.timedAt frame.sender false).sched.inflight = some g := by simpa using flight
  have ends := exec_window_accepted window held unobjected
  rw [State.windowAccepted_of_member member, read, received, senderOf_read read, Option.map_some, body,
    State.accept_census other known ((State.awaitsCensus_iff s).2 ⟨joining, pending⟩) listed,
    State.afterWindow_eq (by simp) (by simp)] at ends
  have sched := State.installCensus_sched_of_due (s := s.timedAt frame.sender false) (by simpa using due) timed map groups
  refine ⟨_, ends, by simp, by simp, by simp, ?_, fun back => ?_⟩
  · have gone : ((s.timedAt frame.sender false).installCensus map groups).sched.inflight = none := by simp [sched]
    simp [State.dropOvertaken, State.dropWaiting, gone]
  · rcases State.stands_of_mem_offerDue (by simpa using back) with never | before
    · exact never
    · have left := (State.dropOvertaken_control_sublist _).mem before
      rw [sched, State.leaveSource_of_control join] at left
      exact List.Nodup.not_mem_erase (by simpa using nodup) left

/-- Settles O18. -/
theorem voidedOwnFrameCountsAnAttempt : Obligations.VoidedOwnFrameCountsAnAttempt :=
  ⟨voided_frame_waits_again, sixteenth_publication_abandoned, sixteenth_join_fails,
    sixteenth_depart_stops, sixteenth_fetch_counts_an_expiry, sixteenth_fill_drops_its_entry,
    sixteenth_control_offered_again, leaving_frame_abandoned, faulted_transition_put_off,
    put_off_abandonment_at_window_end, put_off_join_leaves_at_installation⟩

end Sys2Proof.Machine
end

