-- ==== Sys2Proof/Proofs/LostAndFaulted.lean ====
section
/-! The loss of arbitration and the line fault (R11 to R13, R69, R85, R88). -/

namespace Sys2Proof.Machine

variable {s t u : State} {g : InFlight}

/-- A station that receives drives nothing (R1). -/
theorem State.drivesAt_of_receiving (receiving : s.line.state = .receiving) (bit : Nat) : s.drivesAt bit = false := by
  simp [State.drivesAt, State.drivenFrame, receiving]

theorem State.reportLost_of_kept (flight : s.sched.inflight = some g) (kept : s.abandonsAtReport g = false) :
    s.reportLost = s.waitAgain g g.attempts := by
  simp [State.reportLost, flight, kept]

theorem State.reportLost_of_leaving (flight : s.sched.inflight = some g) (abandons : s.abandonsAtReport g = true) :
    s.reportLost = s.abandonWith g .leaving := by
  simp [State.reportLost, flight, abandons]

theorem State.withdrawFrame_keeps (retried : s.ctl.state ≠ .leaving ∨ g.source = .control (.depart s.station)) :
    s.withdrawFrame.abandonsAtReport g = false :=
  State.not_abandonsAtReport_of_retried (s := s) (by simp) (by simp) retried

/-- Settles O28. -/
theorem lostCountsNoAttemptAndFaultedOne : Obligations.LostCountsNoAttemptAndFaultedOne := by
  refine ⟨fun s g bit retried transmitting flight inside recessive => ?_,
    fun s g bit retried transmitting flight few inside fault => ?_, fun s g i bit leaving transmitting flight other event => ?_⟩
  · have effect := exec_lostArbitration transmitting flight inside recessive
    rw [State.reportLost_of_kept (by simpa using flight) (State.withdrawFrame_keeps retried)] at effect
    obtain ⟨waits, chunk⟩ := State.waitAgain_sched s.withdrawFrame g g.attempts
    refine ⟨_, effect, ?_, by simpa using waits, State.drivesAt_of_receiving (by simp [State.withdrawFrame_line]),
      fun noFill => by simpa using chunk noFill, fun f held => State.withdrawFrame_sending (s := s) (by simpa using held),
      fun a => by simp⟩
    apply State.eq_of_units <;> simp [State.withdrawFrame_line]
  · have effect := exec_lineFault transmitting flight inside fault
    rw [State.reportFailed_of_lt (by simpa using flight) (State.withdrawFrame_keeps retried) few] at effect
    obtain ⟨waits, chunk⟩ := State.waitAgain_sched s.withdrawFrame g (g.attempts + 1)
    refine ⟨_, effect, ?_, by simpa using waits, State.drivesAt_of_receiving (by simp [State.withdrawFrame_line]),
      fun noFill => by simpa using chunk noFill, fun f held => State.withdrawFrame_sending (s := s) (by simpa using held),
      fun a => by simp⟩
    apply State.eq_of_units <;> simp [State.withdrawFrame_line]
  · have flown : s.withdrawFrame.sched.inflight = some g := by simpa using flight
    have abandons : s.withdrawFrame.abandonsAtReport g = true :=
      (State.abandonsAtReport_iff _ _).2 ⟨by simpa using leaving, by simpa [State.station] using other⟩
    have effect : exec i s = .next (s.withdrawFrame.abandonWith g .leaving).offerDue.settleMemory := by
      rcases event with ⟨rfl, inside, recessive⟩ | ⟨rfl, inside, fault⟩
      · rw [exec_lostArbitration transmitting flight inside recessive, State.reportLost_of_leaving flown abandons]
      · rw [exec_lineFault transmitting flight inside fault, State.reportFailed_of_leaving flown abandons]
    rw [State.offerDue_of_apart (by simp [leaving])] at effect
    obtain ⟨published, control, service⟩ := State.abandonWith_by_source s.withdrawFrame g .leaving
    refine ⟨_, effect, by simp [State.withdrawFrame_line], by simp, by simp, fun r rest source queue => ?_, fun e source => ?_,
      fun w r source => ?_⟩
    · obtain ⟨pub, listed, report⟩ := published r rest source (by simpa using queue)
      exact ⟨by simpa using pub, by simpa using listed, by simpa using report.trans (State.post_report (by simp) _)⟩
    · simpa using control e source
    · simpa using service w r source

end Sys2Proof.Machine
end

