-- ==== Sys2Proof/Proofs/Opportunity.lean ====
section
/-! The transmit opportunity (R10, R69, R77, R78, R81 to R84, R87, R122, R138): what is supplied in this station's slot. -/

namespace Sys2Proof.Machine

variable {s t : State} {g : InFlight}

/-! ### The slot (R10, R82) -/

/-- The station at the start of its slot, the opportunity offered (R10). -/
def State.atSlot (s : State) : State := { s with line.slot := s.ownSlot.getD 0, line.offered := true }

@[simp] theorem State.atSlot_frame (s : State) : s.atSlot.pins = s.pins ∧ s.atSlot.rx = s.rx ∧ s.atSlot.layout = s.layout
    ∧ s.atSlot.mirror = s.mirror ∧ s.atSlot.pub = s.pub ∧ s.atSlot.sched = s.sched ∧ s.atSlot.claims = s.claims
    ∧ s.atSlot.roster = s.roster ∧ s.atSlot.refresh = s.refresh ∧ s.atSlot.ctl = s.ctl ∧ s.atSlot.port = s.port
    ∧ s.atSlot.report = s.report ∧ s.atSlot.pending = s.pending :=
  ⟨rfl, rfl, rfl, rfl, rfl, rfl, rfl, rfl, rfl, rfl, rfl, rfl, rfl⟩

theorem State.atSlot_line (s : State) : s.atSlot.line = { s.line with slot := s.ownSlot.getD 0, offered := true } := rfl

theorem exec_transmitOpportunity (may : s.mayTransmit = true) :
    exec .transmitOpportunity s = .next s.atSlot.atOpportunity.offerDue.settleMemory :=
  congrArg Host.Outcome.next (if_pos may)

/-- A full inbound queue bars every frame (R82). -/
theorem State.atOpportunity_of_full (full : 4 ≤ s.mirror.inbound.length) : s.atOpportunity = s := if_pos full

/-- A waiting frame that is not overtaken is supplied again (R82). -/
theorem State.Offered.resupply (h : s.Offered) (flight : s.sched.inflight = some g) (stands : s.frameOvertaken g = false) :
    exec .transmitOpportunity s = .next (s.atSlot.resupply g).offerDue.settleMemory := by
  have room : ¬ 4 ≤ s.atSlot.mirror.inbound.length := Nat.not_le.2 h.room
  have again : s.atSlot.atOpportunity = s.atSlot.resupply g := by
    rw [State.atOpportunity]
    refine (if_neg room).trans ?_
    rw [show s.atSlot.sched = s.sched from rfl, flight]
    exact if_neg (by exact Bool.eq_false_iff.1 stands)
  rw [exec_transmitOpportunity h.may, again]

/-- With nothing in flight a frame is selected (R82, R83). -/
theorem State.Offered.select (h : s.Offered) (idle : s.sched.inflight = none) :
    exec .transmitOpportunity s = .next s.atSlot.select.offerDue.settleMemory := by
  have room : ¬ 4 ≤ s.atSlot.mirror.inbound.length := Nat.not_le.2 h.room
  have selects : s.atSlot.atOpportunity = s.atSlot.select := by
    rw [State.atOpportunity]
    refine (if_neg room).trans ?_
    rw [show s.atSlot.sched = s.sched from rfl, idle]
  rw [exec_transmitOpportunity h.may, selects]

/-! ### Frames supplied (R10, R81) -/

theorem State.supply_inflight (s : State) (source : Source) (frame : Frame) (attempts : Nat) :
    (s.supply source frame attempts).sched.inflight =
      some { source := source, frame := frame, attempts := attempts, onLine := true } := rfl

theorem State.supply_line (s : State) (source : Source) (frame : Frame) (attempts : Nat) :
    (s.supply source frame attempts).line = { s.line with state := .transmitting, count := 0 } := rfl

/-- What follows the opportunity leaves the frame on the line (R79, R84). -/
theorem State.supplied_kept (s : State) : s.offerDue.settleMemory.line = s.line
    ∧ s.offerDue.settleMemory.sched.inflight = s.sched.inflight ∧ s.offerDue.settleMemory.sched.chunk = s.sched.chunk
    ∧ s.offerDue.settleMemory.sched.turn = s.sched.turn := by
  simp

/-- A publication, or a control frame that is no CENSUS, goes again exactly as built (R77, R78, R82). -/
theorem State.resupply_of_frozen
    (frozen : g.source = .publication ∨ ∃ e, g.source = .control e ∧ e ≠ .census) :
    s.resupply g = s.supply g.source g.frame g.attempts := by
  unfold State.resupply
  rcases frozen with source | ⟨e, source, other⟩
  · rw [source]
  · rw [source]
    cases e with
    | census => exact absurd rfl other
    | presence mode => rfl
    | depart p => rfl
    | fetch w => rfl
    | release w => rfl

/-- A CENSUS is built anew (R122). -/
theorem State.resupply_of_census (source : g.source = .control .census) : s.resupply g = s.supply (.control .census)
    { sender := s.station, body := s.controlBody .census } g.attempts := by
  rw [State.resupply, source]

/-! ### FILLs (R69, R83, R84, R138) -/

theorem State.resupply_of_service {w r : Nat} {e : Service} (source : g.source = .service w r)
    (entry : s.serviceOf w r = some e) :
    s.resupply g = if s.fillReady e = true then s.supplyFill e g.attempts else s := by
  rw [State.resupply, source]
  dsimp only
  rw [entry]

/-- The entry found is that of the window and requester (R136). -/
theorem State.serviceOf_names {w r : Nat} {e : Service} (entry : s.serviceOf w r = some e) :
    e.window = w ∧ e.requester = r := by
  simpa using List.find?_some entry

theorem State.chunkFor_of_current {e : Service} {c : Chunk} (held : s.sched.chunk = some c) (current : c.current = true)
    (window : c.window = e.window) (offset : c.offset = e.next) : s.chunkFor e = some c := by
  simp [State.chunkFor, held, Option.filter, current, window, offset]

theorem State.chunkFor_of_stale {e : Service} (stale : ∀ c, s.sched.chunk = some c → c.current = false) :
    s.chunkFor e = none := by
  rw [State.chunkFor, Option.filter_eq_none_iff]
  exact fun c held => by simp [stale c held]

theorem State.fillReady_iff (s : State) (e : Service) : s.fillReady e = true ↔
    s.ctl.state = .active ∧ s.mirror.inbound = [] ∧ ((s.chunkFor e).isSome = true ∨ s.readableNow e = true) := by
  simp [State.fillReady, State.isActive, and_assoc]

theorem State.readableNow_iff (s : State) (e : Service) : s.readableNow e = true ↔ s.mirror.holder = none
    ∧ s.mirror.snapReq = none ∧ (s.entry e.window).localBase + e.next + (s.entry e.window).chunk ≤ 16384 := by
  simp [State.readableNow, and_assoc, Config.mirrorBytes]

/-- A FILL goes from the current chunk (R84). -/
theorem State.supplyFill_of_chunk {e : Service} {c : Chunk} (held : s.chunkFor e = some c) (attempts : Nat) :
    s.supplyFill e attempts = s.supply (.service e.window e.requester)
      { sender := s.station, body := .fill e.window e.next e.requester c.data } attempts := by
  rw [State.supplyFill, held]

/-- With no current chunk it goes from one read at once (R84, R138). -/
theorem State.supplyFill_of_none {e : Service} (none : s.chunkFor e = none) (attempts : Nat) :
    s.supplyFill e attempts = (s.grantFillRead ⟨e.window, e.next, false, false⟩).supply (.service e.window e.requester)
      { sender := s.station, body := .fill e.window e.next e.requester (s.chunkBytes e.window e.next) } attempts := by
  rw [State.supplyFill, none]

/-- A memory held stays held (R65, R66). -/
theorem State.settleMemory_holder_of_held (held : s.mirror.holder.isSome = true) :
    s.settleMemory.mirror.holder = s.mirror.holder := by
  have same : s.requestFill.mirror.holder = s.mirror.holder := by
    unfold State.requestFill
    split
    · rfl
    · split <;> rfl
  rw [State.settleMemory, State.arbitrate, if_pos (by rw [same]; exact held), same]

/-- Settles O25. -/
theorem waitingFrameGoesAgainUnlessBarred : Obligations.WaitingFrameGoesAgainUnlessBarred := by
  refine ⟨fun s may full => ?_, fun s g offered flight _ frozen waiting stands => ?_,
    fun s g offered flight _ source waiting => ?_, fun s g w r e offered flight active source waiting entry => ?_⟩
  · have effect := exec_transmitOpportunity may
    rw [State.atOpportunity_of_full (by exact full)] at effect
    exact ⟨_, effect, by apply State.eq_of_units <;> simp, by simp [State.atSlot_line], by simp, by simp, by simp, by simp⟩
  · have effect := offered.resupply flight stands
    rw [State.resupply_of_frozen frozen] at effect
    exact ⟨_, effect, by apply State.eq_of_units <;> simp, by simp [State.supply_line], by simp [State.supply_inflight]⟩
  · have effect := offered.resupply flight (by simp [State.frameOvertaken, source, State.entryOvertaken])
    rw [State.resupply_of_census source] at effect
    refine ⟨_, effect, by apply State.eq_of_units <;> simp, by simp [State.supply_line], ?_⟩
    simp only [State.settleMemory_frame, State.offerDue_inflight, State.supply_inflight, source]
    rfl
  · obtain ⟨rfl, rfl⟩ := State.serviceOf_names entry
    have effect := offered.resupply flight (by simp [State.frameOvertaken, source, entry])
    rw [State.resupply_of_service source (by exact entry)] at effect
    refine ⟨_, effect, ?_, fun c empty held current window offset => ?_, fun empty stale free noSnapshot within => ?_,
      fun unready => ?_⟩
    · split
      · apply State.eq_of_units <;> simp
      · apply State.eq_of_units <;> simp
    · have chunk : s.atSlot.chunkFor e = some c := State.chunkFor_of_current held current window offset
      have ready : s.atSlot.fillReady e = true := (State.fillReady_iff _ _).2 ⟨active, empty, .inl (by simp [chunk])⟩
      rw [if_pos ready, State.supplyFill_of_chunk chunk]
      refine ⟨by simp [State.supply_line], by simp [State.supply], ?_⟩
      simp only [State.settleMemory_frame, State.offerDue_inflight, State.supply_inflight, source]
      rfl
    · have chunk : s.atSlot.chunkFor e = none := State.chunkFor_of_stale stale
      have ready : s.atSlot.fillReady e = true := (State.fillReady_iff _ _).2
        ⟨active, empty, .inr ((State.readableNow_iff _ _).2 ⟨free, noSnapshot, within⟩)⟩
      rw [if_pos ready, State.supplyFill_of_none chunk]
      refine ⟨by simp [State.supply_line], ?_, ?_⟩
      · exact (State.settleMemory_holder_of_held (by simp [State.grantFillRead])).trans (by simp [State.grantFillRead])
      · simp only [State.settleMemory_frame, State.offerDue_inflight, State.supply_inflight, source]
        rfl
    · have barred : ¬ s.atSlot.fillReady e = true := by
        rw [State.fillReady_iff]
        rintro ⟨-, empty, ready⟩
        obtain ⟨stale, held⟩ := unready.resolve_left (not_not.2 empty)
        rcases ready with chunk | readable
        · rw [State.chunkFor_of_stale (by exact stale)] at chunk
          cases chunk
        · exact held ((State.readableNow_iff _ _).1 readable).1
      rw [if_neg barred]
      simp [State.atSlot_line, flight]

end Sys2Proof.Machine
end

