-- ==== Sys2Proof/Proofs/Selection.lean ====
section
/-! Selection at the slot (R69, R77, R78, R81, R83, R84, R87, R122, R138): the control list head, then a publication or a FILL
by the turn flag. -/

namespace Sys2Proof.Machine

variable {s t : State} {g : InFlight}

/-! ### The control list (R83, R87) -/

/-- The head goes first, unless it is overtaken (R83). -/
theorem State.select_of_head {e : ControlEntry} {rest : List ControlEntry} (state : s.ctl.state ≠ .leaving)
    (control : s.sched.control = e :: rest) (stands : s.entryOvertaken e = false) :
    s.select = s.supply (.control e) { sender := s.station, body := s.controlBody e } 0 := by
  have tested : s.sched.control.dropWhile s.entryOvertaken = s.sched.control := by
    rw [control]
    exact List.dropWhile_cons_of_neg (by simp [stands])
  rw [State.select, tested, control]
  simp only [state, false_and, if_false]
  rw [← control]

/-- A list whose entries are all overtaken is emptied, and a publication or a FILL may go (R83, R87). -/
theorem State.select_of_overtaken (state : s.ctl.state ≠ .leaving)
    (overtaken : ∀ e ∈ s.sched.control, s.entryOvertaken e = true) :
    s.select = State.selectByTurn { s with sched.control := [] } := by
  have tested : s.sched.control.dropWhile s.entryOvertaken = [] := by
    rw [List.dropWhile_eq_nil_iff]
    exact overtaken
  rw [State.select, tested]
  exact if_neg state

/-- Settles O26. -/
theorem controlHeadGoesFirst : Obligations.ControlHeadGoesFirst := by
  intro s e rest offered state idle control stands
  have effect := offered.select idle
  rw [State.select_of_head (s := s.atSlot) (by exact state) (by exact control) (by exact stands)] at effect
  have listed : (s.atSlot.supply (.control e) { sender := s.atSlot.station, body := s.atSlot.controlBody e }
      0).sched.control = e :: rest := control
  refine ⟨_, effect, by apply State.eq_of_units <;> simp, by simp [State.supply_line], ?_, ?_, ?_, ?_⟩
  · simp [State.supply_line, State.atSlot_line]
  · simp only [State.settleMemory_frame, State.offerDue_inflight, State.supply_inflight]
    cases e <;> rfl
  · obtain ⟨more, same⟩ := State.offerDue_prefix (s.atSlot.supply (.control e)
      { sender := s.atSlot.station, body := s.atSlot.controlBody e } 0)
    simp only [State.settleMemory_frame, ← same, listed]
    rfl
  · simp [State.supply]

/-! ### The turn flag (R83) -/

/-- At the turn PUBLICATIONS the head record is selected, whether a FILL is ready or not (R83). -/
theorem State.selectByTurn_of_publications {r : PubRecord} {rest : List PubRecord} (queue : s.pub.queue = r :: rest)
    (turn : s.sched.turn = .publications) : s.selectByTurn = s.selectPublication r rest := by
  unfold State.selectByTurn
  rw [queue]
  cases s.refresh.service.head?.filter s.fillReady with
  | none => rfl
  | some e => exact if_pos turn

/-- At the turn SERVICE a FILL that is ready is selected (R83). -/
theorem State.selectByTurn_of_service {e : Service} {others : List Service} (service : s.refresh.service = e :: others)
    (ready : s.fillReady e = true) (turn : s.sched.turn = .service) : s.selectByTurn = s.selectFill e := by
  have head : s.refresh.service.head?.filter s.fillReady = some e := by simp [service, Option.filter, ready]
  unfold State.selectByTurn
  rw [head]
  cases s.pub.queue with
  | nil => rfl
  | cons r rest => exact if_neg (by simp [turn])

/-- Behind a publication in flight, where nothing is due in the control list, the chunk of the oldest service entry is asked
for, and a free memory is granted to its read (R66, R69, R84). -/
theorem State.settleMemory_reads_ahead {e : Service} {others : List Service} (active : s.ctl.state = .active)
    (flight : s.sched.inflight = some g) (source : g.source = .publication) (control : s.sched.control = [])
    (turn : s.sched.turn = .service) (service : s.refresh.service = e :: others) (fresh : (s.copy e.window).fresh = true)
    (empty : s.mirror.inbound = []) (settled : s.mirror.zeroPending = false) (free : s.mirror.holder = none)
    (noFill : s.mirror.fillReq = none) (noSnapshot : s.mirror.snapReq = none) (noChunk : s.sched.chunk = none) :
    s.settleMemory.mirror.fillReq = none
      ∧ s.settleMemory.mirror.holder = some (.fillRead ⟨e.window, e.next, false, false⟩) := by
  have next : s.nextFill = some e := by
    simp [State.nextFill, State.isActive, active, flight, source, State.fillAmong, control, turn, service]
  have asks : s.requestFill = { s with mirror.fillReq := some ⟨e.window, e.next, false, false⟩ } := by
    rw [State.requestFill, next]
    exact if_pos (by simp [empty, State.chunkFor, noChunk, State.fillReadIdle, noFill, free, fresh])
  rw [State.settleMemory, asks, State.arbitrate_of_fillRead (by exact free) (by simp [noSnapshot])
    (by simp [State.applicationWaits, settled, empty]) rfl]
  exact ⟨rfl, rfl⟩

/-- Settles O27. -/
theorem turnFlagChoosesPublicationOrFill : Obligations.TurnFlagChoosesPublicationOrFill := by
  refine ⟨fun s r rest offered state idle overtaken queue turn => ?_,
    fun s e others c offered active idle overtaken turn empty service held current window offset => ?_⟩
  · have effect := offered.select idle
    rw [State.select_of_overtaken (s := s.atSlot) (by exact state) (by exact overtaken),
      State.selectByTurn_of_publications (r := r) (rest := rest) (by exact queue) (by exact turn)] at effect
    refine ⟨_, effect, by apply State.eq_of_units <;> simp, by simp [State.selectPublication, State.supply_line],
      by simp [State.selectPublication, State.supply], by simp [State.selectPublication],
      fun e others active service fresh empty settled free noFill noSnapshot noChunk noOffer => ?_, ?_⟩
    · have silent (x : ControlEntry) : ¬ s.Stands x := fun stands => by
        have due := (State.mem_dueOffers (.inr active) x).2 stands
        rw [noOffer] at due
        cases due
      rw [State.offerDue_of_none fun x stands => silent x
        ((State.stands_congr (s := s) (by simp) (by simp) (by simp) (by simp) (by simp) x).1 stands)]
      exact State.settleMemory_reads_ahead (by simpa using active) rfl rfl rfl rfl (by simpa using service)
        ((congrArg Copy.fresh (State.copy_of_refresh (by simp) e.window)).trans fresh) (by simpa using empty)
        (by simpa using settled) (by simpa using free) (by simpa using noFill) (by simpa using noSnapshot) noChunk
    · simp only [State.settleMemory_frame, State.offerDue_inflight, State.selectPublication, State.supply_inflight,
        PubRecord.body]
      cases r.kind <;> rfl
  · have chunk : State.chunkFor { s.atSlot with sched.control := [] } e = some c :=
      State.chunkFor_of_current held current window offset
    have ready : State.fillReady { s.atSlot with sched.control := [] } e = true :=
      (State.fillReady_iff _ _).2 ⟨active, empty, .inl (by rw [chunk]; rfl)⟩
    have effect := offered.select idle
    rw [State.select_of_overtaken (s := s.atSlot) (by simp [active]) (by exact overtaken),
      State.selectByTurn_of_service (by exact service) ready (by exact turn), State.selectFill,
      State.supplyFill_of_chunk (by exact chunk)] at effect
    exact ⟨_, effect, by apply State.eq_of_units <;> simp, by simp [State.supply_line], by simp [State.supply],
      by simp [State.supply], by simp [State.supply_inflight, State.station]⟩

end Sys2Proof.Machine
end

