-- ==== Sys2Proof/Proofs/CharacterTime.lean ====
section
/-! One character time: what every timer counts (R104, R124, R125, R134, R152), and what it leaves of the line. -/

namespace Sys2Proof.Machine

variable {s t u : State} {g : Guard}

/-! ### Folds over the stations and the windows -/

/-- In a fold over distinct indices, what only the step of one index changes is changed once. -/
theorem foldl_once {step : State → Nat → State} {before after : State → Prop} {x : Nat} :
    ∀ {l : List Nat} {s : State}, l.Nodup → x ∈ l → (∀ s y, y ≠ x → before s → before (step s y)) →
      (∀ s, before s → after (step s x)) → (∀ s y, y ≠ x → after s → after (step s y)) → before s →
      after (l.foldl step s) := by
  intro l
  induction l with
  | nil => exact fun _ member => absurd member List.not_mem_nil
  | cons y rest ih =>
    intro s nodup member keeps changes stays start
    obtain ⟨fresh, nodup⟩ := List.nodup_cons.1 nodup
    by_cases here : y = x
    · subst here
      have done : ∀ (l : List Nat) (s : State), y ∉ l → after s → after (l.foldl step s) := by
        intro l
        induction l with
        | nil => exact fun _ _ reached => reached
        | cons z later ih =>
          intro s apart reached
          obtain ⟨other, apart⟩ := List.ne_and_not_mem_of_not_mem_cons apart
          exact ih _ apart (stays s z (Ne.symm other) reached)
      exact done rest _ fresh (changes s start)
    · exact ih nodup (List.mem_of_ne_of_mem (Ne.symm here) member) keeps changes stays (keeps s y here start)

/-! ### Each timer (R104, R124, R125, R134, R152) -/

/-- A timer with more than one ct to run has one less, and does not run out. -/
theorem Timer.tick_running (left : Nat) : (Timer.running (left + 2)).tick = (.running (left + 1), false) := rfl

theorem State.tickAnnounce_of_running {left : Nat} (running : s.roster.announce = .running (left + 2)) :
    s.tickAnnounce = { s with roster.announce := .running (left + 1) } := by
  simp [State.tickAnnounce, running, Timer.tick_running]

@[simp] theorem State.tickAnnounce_entries (s : State) : s.tickAnnounce.roster.entries = s.roster.entries := by
  unfold State.tickAnnounce State.expireAnnounce
  (repeat' split) <;> simp

@[simp] theorem State.tickSilence_announce (s : State) (n : Nat) :
    (s.tickSilence n).roster.announce = s.roster.announce := by
  unfold State.tickSilence State.expireSilence
  (repeat' split) <;> simp [State.setEntry]

theorem State.silenceTimer_setEntry_of_ne {n m : Nat} (other : m ≠ n) (e : RosterEntry) :
    (s.setEntry n e).silenceTimer m = s.silenceTimer m := by
  simp [State.setEntry, State.silenceTimer, Ne.symm other]

theorem State.tickSilence_of_ne {n m : Nat} (other : m ≠ n) :
    (s.tickSilence n).silenceTimer m = s.silenceTimer m := by
  unfold State.tickSilence State.expireSilence
  (repeat' split) <;> simp [State.silenceTimer_setEntry_of_ne other]

theorem State.tickSilence_of_running {n left : Nat} (member : s.isMember = true)
    (running : s.silenceTimer n = .running (left + 2)) : (s.tickSilence n).silenceTimer n = .running (left + 1) := by
  have counts : s.tickSilence n = s.setEntry n { status := s.status n, timer := .running (left + 1) } := by
    simp [State.tickSilence, member, running, Timer.tick_running]
  rw [counts, State.silenceTimer_setEntry _ _ _ (State.lt_of_silenceTimer_running running), if_pos rfl]

theorem State.tickAnswer_of_running {left : Nat} (running : s.ctl.answer = .running (left + 2)) :
    s.tickAnswer = { s with ctl.answer := .running (left + 1) } := by
  simp [State.tickAnswer, running, Timer.tick_running]

theorem State.tickLease_of_ne {w v : Nat} (other : w ≠ v) : (s.tickLease v).guardOf w = s.guardOf w := by
  unfold State.tickLease
  split
  · rfl
  · split
    · unfold State.expireLease
      split
      · rfl
      · split
        · have claims : (((s.setGuard v Guard.expired).post (.lostHold v .lease)).offerDue).claims =
              (s.setGuard v Guard.expired).claims := by simp
          exact (State.guardOf_of_claims claims w).trans
            (State.guardOf_setGuard_of_ne (f := Guard.expired) (fun _ => rfl) other)
        · rfl
    · exact State.guardOf_setGuard_of_ne (f := fun g => { g with lease := g.lease.tick.1 }) (fun _ => rfl) other

theorem State.tickLease_of_running {w left : Nat} (found : s.guardOf w = some g)
    (running : g.lease = .running (left + 2)) :
    (s.tickLease w).guardOf w = some { g with lease := .running (left + 1) } := by
  have counts : s.tickLease w = s.setGuard w fun g => { g with lease := g.lease.tick.1 } := by
    rw [State.tickLease, found]
    exact if_neg (by simp [running, Timer.tick_running])
  rw [counts, State.guardOf_setGuard (f := fun g => { g with lease := g.lease.tick.1 }) (fun _ => rfl) found]
  simp only [running, Timer.tick_running]

/-- A running fetch timer is a copy record's. -/
theorem State.lt_of_fetchTimer_running {w left : Nat} (running : (s.copy w).timer = .running left) :
    w < s.refresh.copies.length := by
  by_contra past
  rw [State.copy, List.getD_eq_default _ _ (Nat.le_of_not_lt past)] at running
  cases running

theorem State.copy_setCopy_of_ne {w v : Nat} (other : v ≠ w) (f : Copy → Copy) : (s.setCopy w f).copy v = s.copy v := by
  simp [State.setCopy, State.copy, Ne.symm other]

theorem State.countExpiry_copy_of_ne {w v : Nat} (other : v ≠ w) : (s.countExpiry w).copy v = s.copy v := by
  have posted (u : State) (o : OutcomeRecord) : (u.post o).copy v = u.copy v := State.copy_of_refresh (by simp) v
  by_cases few : (s.copy w).expiries < 3
  · rw [State.countExpiry_of_lt few, State.copy_setCopy_of_ne other]
  · rw [State.countExpiry_of_le (Nat.not_lt.1 few), posted, State.copy_setCopy_of_ne other]

theorem State.tickFetch_of_ne {w v : Nat} (other : v ≠ w) : (s.tickFetch w).copy v = s.copy v := by
  unfold State.tickFetch State.expireFetch
  split
  · split
    · exact (State.copy_of_refresh (by simp) v).trans (State.countExpiry_copy_of_ne other)
    · rfl
  · exact State.copy_setCopy_of_ne other _

theorem State.tickFetch_of_running {w left : Nat} (running : (s.copy w).timer = .running (left + 2)) :
    (s.tickFetch w).copy w = { s.copy w with timer := .running (left + 1) } := by
  have counts : s.tickFetch w = s.setCopy w fun c => { c with timer := c.timer.tick.1 } :=
    if_neg (by simp [running, Timer.tick_running])
  rw [counts, State.copy_setCopy_of_lt (State.lt_of_fetchTimer_running running), if_pos rfl]
  simp only [running, Timer.tick_running]

/-! ### All timers of one ct -/

/-- The timers before the answer timer: announce, then silence by station. -/
def State.rosterTicked (s : State) : State := (List.range Config.stations).foldl State.tickSilence s.tickAnnounce

/-- The timers up to the leases. -/
def State.leasesTicked (s : State) : State := (List.range Config.windows).foldl State.tickLease s.rosterTicked.tickAnswer

theorem State.tickTimers_eq (s : State) :
    s.tickTimers = (List.range Config.windows).foldl State.tickFetch s.leasesTicked := rfl

@[simp] theorem State.rosterTicked_frame (s : State) : s.rosterTicked.pins = s.pins ∧ s.rosterTicked.line = s.line
    ∧ s.rosterTicked.rx = s.rx ∧ s.rosterTicked.claims = s.claims ∧ s.rosterTicked.refresh = s.refresh
    ∧ s.rosterTicked.ctl = s.ctl ∧ s.rosterTicked.roster.announce = s.tickAnnounce.roster.announce
    ∧ s.rosterTicked.sched.inflight = s.sched.inflight := by
  have keeps {α : Type} (read : State → α) (h : ∀ s n, read (s.tickSilence n) = read s) :
      read s.rosterTicked = read s.tickAnnounce := foldl_keeps State.tickSilence read h _ _
  refine ⟨(keeps State.pins (by simp)).trans (by simp), (keeps State.line (by simp)).trans (by simp),
    (keeps State.rx (by simp)).trans (by simp), (keeps State.claims (by simp)).trans (by simp),
    (keeps State.refresh (by simp)).trans (by simp), (keeps State.ctl (by simp)).trans (by simp),
    keeps (fun s => s.roster.announce) (by simp), (keeps (fun s => s.sched.inflight) (by simp)).trans (by simp)⟩

@[simp] theorem State.leasesTicked_frame (s : State) : s.leasesTicked.pins = s.pins ∧ s.leasesTicked.line = s.line
    ∧ s.leasesTicked.rx = s.rx ∧ s.leasesTicked.refresh = s.refresh ∧ s.leasesTicked.roster = s.rosterTicked.roster
    ∧ s.leasesTicked.ctl = s.rosterTicked.tickAnswer.ctl
    ∧ s.leasesTicked.sched.inflight = s.rosterTicked.tickAnswer.sched.inflight := by
  have keeps {α : Type} (read : State → α) (h : ∀ s w, read (s.tickLease w) = read s) :
      read s.leasesTicked = read s.rosterTicked.tickAnswer := foldl_keeps State.tickLease read h _ _
  refine ⟨(keeps State.pins (by simp)).trans (by simp), (keeps State.line (by simp)).trans (by simp),
    (keeps State.rx (by simp)).trans (by simp), (keeps State.refresh (by simp)).trans (by simp),
    (keeps State.roster (by simp)).trans (by simp), keeps State.ctl (by simp),
    keeps (fun s => s.sched.inflight) (by simp)⟩

/-- What the timers leave: the line, the receiver, the roster and the claims past their own timers (R104, R125). -/
@[simp] theorem State.tickTimers_keeps (s : State) : s.tickTimers.line = s.line ∧ s.tickTimers.rx = s.rx
    ∧ s.tickTimers.roster = s.rosterTicked.roster ∧ s.tickTimers.claims = s.leasesTicked.claims
    ∧ s.tickTimers.ctl = s.rosterTicked.tickAnswer.ctl
    ∧ s.tickTimers.sched.inflight = s.rosterTicked.tickAnswer.sched.inflight := by
  have keeps {α : Type} (read : State → α) (h : ∀ s w, read (s.tickFetch w) = read s) :
      read s.tickTimers = read s.leasesTicked := foldl_keeps State.tickFetch read h _ _
  refine ⟨(keeps State.line (by simp)).trans (by simp), (keeps State.rx (by simp)).trans (by simp),
    (keeps State.roster (by simp)).trans (by simp), keeps State.claims (by simp),
    (keeps State.ctl (by simp)).trans (by simp), (keeps (fun s => s.sched.inflight) (by simp)).trans (by simp)⟩

theorem State.tickTimers_announce {left : Nat} (running : s.roster.announce = .running (left + 2)) :
    s.tickTimers.roster.announce = .running (left + 1) := by
  have counted : s.tickAnnounce.roster.announce = .running (left + 1) := by rw [State.tickAnnounce_of_running running]
  simpa using counted

theorem State.tickTimers_silence {n left : Nat} (member : s.isMember = true) (inside : n < 32)
    (running : s.silenceTimer n = .running (left + 2)) : s.tickTimers.silenceTimer n = .running (left + 1) := by
  rw [State.silenceTimer_of_roster (s := s.rosterTicked) (by simp)]
  refine foldl_once (before := fun u => u.isMember = true ∧ u.silenceTimer n = .running (left + 2))
    (after := fun u => u.silenceTimer n = .running (left + 1)) List.nodup_range (List.mem_range.2 inside)
    (fun u m other ⟨still, timer⟩ => ⟨?_, ?_⟩) (fun u ⟨still, timer⟩ => State.tickSilence_of_running still timer)
    (fun u m other timer => ?_) ⟨?_, ?_⟩
  · simpa [State.isMember] using still
  · rw [State.tickSilence_of_ne (Ne.symm other), timer]
  · rw [State.tickSilence_of_ne (Ne.symm other), timer]
  · simpa [State.isMember] using member
  · simpa [State.silenceTimer] using running

theorem State.tickTimers_answer {left : Nat} (running : s.ctl.answer = .running (left + 2)) :
    s.tickTimers.ctl = { s.ctl with answer := .running (left + 1) } := by
  have counted := State.tickAnswer_of_running (s := s.rosterTicked) (left := left) (by simpa using running)
  have ctl : s.rosterTicked.tickAnswer.ctl = { s.rosterTicked.ctl with answer := .running (left + 1) } := by rw [counted]
  simpa using ctl

theorem State.tickTimers_lease {w left : Nat} (inside : w < 16) (found : s.guardOf w = some g)
    (running : g.lease = .running (left + 2)) :
    s.tickTimers.guardOf w = some { g with lease := .running (left + 1) } := by
  rw [State.guardOf_of_claims (s := s.leasesTicked) (by simp)]
  refine foldl_once (before := fun u => u.guardOf w = some g)
    (after := fun u => u.guardOf w = some { g with lease := .running (left + 1) }) List.nodup_range
    (List.mem_range.2 inside) (fun u v other before => (State.tickLease_of_ne (Ne.symm other)).trans before)
    (fun u before => State.tickLease_of_running before running)
    (fun u v other after => (State.tickLease_of_ne (Ne.symm other)).trans after) ?_
  exact (State.guardOf_of_claims (by simp) w).trans found

theorem State.tickTimers_fetch {w left : Nat} (inside : w < 16) (running : (s.copy w).timer = .running (left + 2)) :
    s.tickTimers.copy w = { s.copy w with timer := .running (left + 1) } := by
  rw [State.tickTimers_eq]
  refine foldl_once (before := fun u => u.copy w = s.copy w)
    (after := fun u => u.copy w = { s.copy w with timer := .running (left + 1) }) List.nodup_range
    (List.mem_range.2 inside) (fun u v other before => (State.tickFetch_of_ne (Ne.symm other)).trans before)
    (fun u before => ?_) (fun u v other after => (State.tickFetch_of_ne (Ne.symm other)).trans after) ?_
  · rw [State.tickFetch_of_running (left := left) (by rw [before]; exact running), before]
  · have refresh : s.leasesTicked.refresh = s.refresh := by simp
    exact State.copy_of_refresh refresh w

/-- With a frame on the line the founding test waits (R153). -/
theorem State.tickAnswer_sched_of_busy (busy : s.lineBusy = true) : s.tickAnswer.sched = s.sched := by
  unfold State.tickAnswer State.expireAnswer
  rw [if_pos busy]
  (repeat' split) <;> rfl

/-- Until its window ends the frame on the line stays in flight. -/
theorem State.tickTimers_inflight_of_busy (busy : s.lineBusy = true) :
    s.tickTimers.sched.inflight = s.sched.inflight := by
  have still : s.rosterTicked.lineBusy = true := by simpa [State.lineBusy] using busy
  simp [State.tickAnswer_sched_of_busy still]

end Sys2Proof.Machine
end

