-- ==== Sys2Proof/Proofs/LineTime.lean ====
section
/-! One character time of the line (R2, R7 to R9, R16, R18, R19): the gap, the slots, an own frame and the verdict window. -/

namespace Sys2Proof.Machine

variable {s t : State} {g : InFlight}

/-! ### The gap after a window (R6, R8, R18) -/

/-- The line interface is in IDLE-GAP and the receiver holds no frame. -/
structure State.InGap (s : State) : Prop where
  idle : s.line.state = .idleGap
  free : s.rx.frame = none

namespace State.InGap

theorem of_units (h : s.InGap) (line : t.line.state = s.line.state) (frame : t.rx.frame = s.rx.frame) : t.InGap :=
  ⟨line.trans h.idle, frame.trans h.free⟩

theorem beginGap (s : State) (voided : Bool) : (s.beginGap voided).InGap := ⟨rfl, rfl⟩

theorem stop (s : State) (reason : Reason) : (s.stop reason).InGap := ⟨by simp [Line.reset], by simp⟩

theorem joinFailed (h : s.InGap) : s.joinFailed.InGap := h.of_units (by simp) (by simp)

theorem of_gapKept (h : s.InGap) (kept : s.GapKept t) : t.InGap := ⟨kept.idle h.idle, kept.frame h.free⟩

theorem abandonAttempts (h : s.InGap) (f : InFlight) : (s.abandonAttempts f).InGap := by
  have gone : (s.abandonWith f .attempts).InGap := h.of_units (by simp) (by simp)
  unfold State.abandonAttempts
  dsimp only
  split
  · exact gone.of_units (by simp) (by simp)
  · split
    · exact gone.joinFailed
    · exact gone
  · split
    · exact stop _ _
    · exact gone
  · exact gone.of_units (by simp) (by simp)
  · exact gone
  · exact gone
  · exact gone
  · exact gone
  · exact gone.of_units (by simp) (by simp)

theorem reportFailed (h : s.InGap) (faulted : Bool) : (s.reportFailed faulted).InGap := by
  unfold State.reportFailed
  split
  · exact h
  · rename_i f _
    split
    · exact h.of_units (by simp) (by simp)
    · split
      · exact h.of_units (by simp) (by simp)
      · split
        · exact h.of_units (by simp) (by simp)
        · exact h.abandonAttempts f

theorem windowVoided (h : s.InGap) (f : RxFrame) : (s.windowVoided f).InGap := by
  have reported : (if f.sending then s.reportFailed false else s).InGap := by
    split
    · exact h.reportFailed false
    · exact h
  have counted : (if s.ctl.state = .muted then { (if f.sending then s.reportFailed false else s) with rx.cleanRun := 0 }
      else if f.sending then s.reportFailed false else s).InGap := by
    split
    · exact reported.of_units rfl rfl
    · exact reported
  unfold State.windowVoided
  dsimp only
  split
  · exact counted.of_units (by simp) (by simp)
  · exact counted

theorem windowAccepted (h : s.InGap) (f : RxFrame) : (s.windowAccepted f).InGap := by
  have heard : (State.hearReference { s with rx.objectionRun := 0 } f).InGap := h.of_units rfl rfl
  unfold State.windowAccepted
  dsimp only
  split
  · have timed : (State.acceptTimers { s with rx.objectionRun := 0 } (senderOf f.chars) f.sending).InGap :=
      h.of_units (by simp) (by simp)
    exact timed.of_gapKept (GapKept.accept _ _ _ _)
  · unfold State.overhear
    dsimp only
    split
    · split
      · exact heard.of_units (by simp) (by simp)
      · exact heard
    · split
      · exact heard.of_units rfl rfl
      · split
        · exact heard.of_units rfl rfl
        · exact heard.of_units (by simp) (by simp)
    all_goals exact heard

theorem finishAbandon (h : s.InGap) : s.finishAbandon.InGap := by
  have cleared : State.InGap { s with ctl.abandonDue := false } := h.of_units rfl rfl
  unfold State.finishAbandon
  split
  · split
    · exact cleared.abandonAttempts _
    · exact cleared
  · exact h

theorem afterWindow (h : s.InGap) : s.afterWindow.InGap := by
  rw [State.afterWindow]
  exact (h.of_gapKept (GapKept.deferredFounding s)).finishAbandon.of_units (by simp) (by simp)

/-- At the end of every verdict window the gap begins (R8, R18). -/
theorem endWindow (s : State) (f : RxFrame) (samples : BitVec 20) : (s.endWindow f samples).InGap := by
  unfold State.endWindow
  dsimp only
  split
  · exact ((beginGap s _).windowVoided f).afterWindow
  · exact ((beginGap s _).windowAccepted f).afterWindow

end State.InGap

/-! ### IDLE-GAP (R7, R8, R16) -/

/-- The ct counted, the synchronisation condition is met (R7). -/
def State.countedIdle (s : State) : State :=
  { s with line := { s.line with count := s.line.count + 1, silence := s.line.silence + 1, awaitSync := false } }

theorem State.tickIdle_eq (running : s.ctl.state ≠ .stopped) (idle : s.line.state = .idleGap) : s.tickIdle =
    (let gapped := if 2 ≤ s.line.count + 1 then s.countedIdle.completeGap else s.countedIdle
    if 40 ≤ gapped.line.silence then gapped.reachSilence else gapped) := by
  have counted : State.meetSync { s with line.count := s.line.count + 1, line.silence := s.line.silence + 1 } =
      s.countedIdle := by
    unfold State.meetSync
    cases sync : s.line.awaitSync <;> simp [State.follows, running, idle, sync, State.countedIdle]
  rw [State.tickIdle, counted]
  rfl

/-- While neither the gap nor the silence limit is reached the ct are counted (R7, R8, R16). -/
theorem State.tickIdle_counts (running : s.ctl.state ≠ .stopped) (idle : s.line.state = .idleGap)
    (gap : s.line.gapTiming = false ∨ s.line.count + 1 < 2)
    (silence : s.line.reference.isSome = true ∨ s.line.silence + 1 < 40) : s.tickIdle.line = s.countedIdle.line := by
  have gapped : (if 2 ≤ s.line.count + 1 then s.countedIdle.completeGap else s.countedIdle) = s.countedIdle := by
    split
    · rename_i past
      exact if_neg (by simp [State.countedIdle, gap.resolve_right (Nat.not_lt.2 past)])
    · rfl
  rw [State.tickIdle_eq running idle, gapped]
  dsimp only
  split
  · rename_i limit
    have known := silence.resolve_right (Nat.not_lt.2 limit)
    have stays : s.countedIdle.reachSilence = s.countedIdle := if_neg (by
      have some : s.countedIdle.line.reference.isSome = true := known
      simp [Option.isNone_iff_eq_none, Option.isSome_iff_ne_none.1 some])
    rw [stays]
  · rfl

/-- A gap complete with L known begins the slots (R8, R9). -/
theorem State.tickIdle_completes (running : s.ctl.state ≠ .stopped) (idle : s.line.state = .idleGap)
    (timing : s.line.gapTiming = true) (past : 2 ≤ s.line.count + 1) (known : s.line.reference.isSome = true) :
    s.tickIdle.line = s.countedIdle.line.beginSlots := by
  have gapped : (if 2 ≤ s.line.count + 1 then s.countedIdle.completeGap else s.countedIdle) =
      { s.countedIdle with line := s.countedIdle.line.beginSlots } := by
    rw [if_pos past, State.completeGap, if_pos (by simp [State.follows, State.countedIdle, running, idle, timing])]
    exact congrArg (fun l => { s.countedIdle with line := l }) (if_pos known)
  rw [State.tickIdle_eq running idle, gapped]
  dsimp only
  split
  · have stays : State.reachSilence { s.countedIdle with line := s.countedIdle.line.beginSlots } =
        { s.countedIdle with line := s.countedIdle.line.beginSlots } := if_neg (by simp [Line.beginSlots])
    rw [stays]
  · rfl

/-- The silence limit with L UNKNOWN: L is 31 and the slots begin (R16). -/
theorem State.tickIdle_silent (running : s.ctl.state ≠ .stopped) (idle : s.line.state = .idleGap)
    (unknown : s.line.reference = none) (limit : 40 ≤ s.line.silence + 1) : s.tickIdle.line.state = .slotting
      ∧ s.tickIdle.line.slot = 0 ∧ s.tickIdle.line.reference = some 31 := by
  have gapped : ∃ u : State, (if 2 ≤ s.line.count + 1 then s.countedIdle.completeGap else s.countedIdle) = u
      ∧ u.ctl.state = s.ctl.state ∧ u.line.state = .idleGap ∧ u.line.reference = none ∧ 40 ≤ u.line.silence := by
    refine ⟨_, rfl, ?_⟩
    split
    · unfold State.completeGap
      split
      · simp [State.countedIdle, unknown, idle, limit]
      · exact ⟨rfl, idle, unknown, limit⟩
    · exact ⟨rfl, idle, unknown, limit⟩
  obtain ⟨u, same, state, gap, none, reached⟩ := gapped
  rw [State.tickIdle_eq running idle, same]
  dsimp only
  rw [if_pos reached, State.reachSilence, if_pos (by simp [State.follows, state, running, gap, none])]
  dsimp only
  split
  · simp [Line.beginSlots, Config.silentReference]
  · exact ⟨rfl, rfl, rfl⟩

/-! ### The slots (R9) -/

/-- A slot in which nothing is offered passes, and the thirty-second begins a new cycle (R9). -/
theorem State.tickSlot_passes (running : s.ctl.state ≠ .stopped) (slotting : s.line.state = .slotting)
    (passed : s.line.offered = true ∨ s.ownSlot ≠ some s.line.slot) : s.tickSlot.line =
      if s.line.slot + 1 < 32 then { s.line with slot := s.line.slot + 1 }
      else { s.line with slot := 0, offered := false } := by
  have nothing : (if !s.line.offered && s.ownSlot == some s.line.slot then s.takeOpportunity else s) = s := by
    refine if_neg fun offers => ?_
    obtain ⟨fresh, own⟩ := Bool.and_eq_true_iff.1 offers
    rcases passed with taken | other
    · simp [taken] at fresh
    · exact other (beq_iff_eq.1 own)
  rw [State.tickSlot, nothing]
  dsimp only
  rw [if_neg (by simp [slotting])]
  by_cases more : s.line.slot + 1 < 32
  · rw [if_neg (Nat.not_le.2 more), if_pos more]
  · rw [if_pos (Nat.not_lt.1 more), if_neg more, State.restartCycle, if_pos (by simp [State.follows, running, slotting])]

/-! ### An own frame and the verdict window (R2, R4, R18) -/

/-- A character more of the own frame, or the verdict window with its last (R2, R4). -/
theorem State.tickFrame_line (transmitting : s.line.state = .transmitting) (flight : s.sched.inflight = some g) :
    s.tickFrame.line = if s.line.count + 1 < g.frame.bytes.length then { s.line with count := s.line.count + 1 }
      else { s.line with state := .verdict, count := 0 } := by
  rw [State.tickFrame, flight]
  dsimp only
  by_cases more : s.line.count + 1 < g.frame.bytes.length
  · rw [if_neg (Nat.not_le.2 more), if_pos more]
  · rw [if_pos (Nat.not_lt.1 more), if_neg more, State.endFrame, if_neg (by simp [transmitting]), if_pos transmitting]
    simp [flight, State.beginVerdict]

theorem State.tickVerdict_counts (early : s.line.count + 1 < 2) : s.tickVerdict =
    { s with line := { s.line with count := s.line.count + 1, silence := s.line.silence + 1 } } :=
  if_neg (Nat.not_le.2 early)

/-- The second ct ends the window (R18). -/
theorem State.tickVerdict_ends {f : RxFrame} (verdict : s.line.state = .verdict) (held : s.rx.frame = some f)
    (past : 2 ≤ s.line.count + 1) : s.tickVerdict.InGap := by
  have ends : s.tickVerdict = State.endWindow
      { s with line := { s.line with count := s.line.count + 1, silence := s.line.silence + 1 } } f allRecessive := by
    rw [State.tickVerdict]
    refine (if_pos past).trans ?_
    rw [State.endVerdict, if_pos (by exact verdict)]
    simp only [held]
  rw [ends]
  exact State.InGap.endWindow _ f allRecessive

/-! ### STUCK (R19) -/

theorem State.tickStuck_counts (early : s.line.count + 1 < 2) : s.tickStuck =
    { s with line := { s.line with count := s.line.count + 1, silence := s.line.silence + 1 } } :=
  if_neg (Nat.not_le.2 early)

/-- The line come free is SLOTTING with L known, else IDLE-GAP (R19). -/
theorem State.tickStuck_frees (running : s.ctl.state ≠ .stopped) (stuck : s.line.state = .stuck)
    (past : 2 ≤ s.line.count + 1) : s.tickStuck.line.state =
      if s.line.reference.isSome = true then .slotting else .idleGap := by
  rw [State.tickStuck]
  refine (congrArg (fun u : State => u.line.state) (if_pos past)).trans ?_
  rw [State.freeLine, if_pos (by simp [State.follows, running, stuck])]
  dsimp only
  split <;> rfl

/-! ### What a ct of the line leaves of the units -/

/-- The silence limit moves a LISTENING station alone (R16, R150). -/
theorem State.tickIdle_of_known (known : s.ctl.state ≠ .listening) :
    s.tickIdle.roster = s.roster ∧ s.tickIdle.ctl = s.ctl := by
  have limited (u : State) (state : u.ctl.state ≠ .listening) :
      (if Config.silenceTicks ≤ u.line.silence then u.reachSilence else u).roster = u.roster
        ∧ (if Config.silenceTicks ≤ u.line.silence then u.reachSilence else u).ctl = u.ctl := by
    unfold State.reachSilence
    split
    · split
      · simp
      · exact ⟨rfl, rfl⟩
    · exact ⟨rfl, rfl⟩
  have gapped (u : State) : (if Config.gapTicks ≤ u.line.count then u.completeGap else u).roster = u.roster
      ∧ (if Config.gapTicks ≤ u.line.count then u.completeGap else u).ctl = u.ctl := by
    split <;> simp
  obtain ⟨roster, ctl⟩ := gapped
    (State.meetSync { s with line.count := s.line.count + 1, line.silence := s.line.silence + 1 })
  obtain ⟨lateRoster, lateCtl⟩ := limited _ (by rw [ctl]; simpa using known)
  exact ⟨lateRoster.trans (roster.trans (by simp)), lateCtl.trans (ctl.trans (by simp))⟩

/-- Where it ends no verdict window, a ct of the line leaves the claims and the copies, and past LISTENING the roster and the
controller (R9, R16, R150). -/
theorem State.tickLine_keeps (early : s.line.state = .verdict → s.line.count + 1 < 2) :
    s.tickLine.claims = s.claims ∧ s.tickLine.refresh = s.refresh
      ∧ (s.ctl.state ≠ .listening → s.tickLine.roster = s.roster ∧ s.tickLine.ctl = s.ctl) := by
  cases state : s.line.state with
  | idleGap =>
    rw [State.tickLine, state]
    exact ⟨by simp, by simp, State.tickIdle_of_known⟩
  | slotting => rw [State.tickLine, state]; simp
  | receiving => rw [State.tickLine, state]; simp
  | transmitting => rw [State.tickLine, state]; simp
  | verdict => rw [State.tickLine, state]; simp [State.tickVerdict_counts (early state)]
  | stuck => rw [State.tickLine, state]; simp

/-- The timers take no station to STOPPED or LISTENING, nor out of them (R147, R153). -/
theorem State.tickTimers_state (s : State) : s.tickTimers.ctl.state = s.ctl.state
    ∨ (s.ctl.state = .joining ∧ s.tickTimers.ctl.state = .active) := by
  have answer (u : State) : u.tickAnswer.ctl.state = u.ctl.state
      ∨ (u.ctl.state = .joining ∧ u.tickAnswer.ctl.state = .active) := by
    unfold State.tickAnswer State.expireAnswer
    split
    · split
      · rename_i waits
        obtain ⟨awaits, -⟩ := Bool.and_eq_true_iff.1 waits
        obtain ⟨joining, -⟩ := (State.awaitsCensus_iff u).1 awaits
        split
        · exact .inl rfl
        · by_cases passes : u.mayFound = true
          · exact .inr ⟨joining, by simp [State.foundingTest_of_pass passes]⟩
          · exact .inl (by simp [State.foundingTest_of_fail passes])
      · exact .inl rfl
    · exact .inl rfl
  simpa using answer s.rosterTicked

theorem State.tickTimers_state_ne {state : StationState} (other : s.ctl.state ≠ state) (inactive : state ≠ .active) :
    s.tickTimers.ctl.state ≠ state := by
  rcases s.tickTimers_state with same | ⟨-, active⟩
  · rw [same]
    exact other
  · rw [active]
    exact Ne.symm inactive

/-- Settles O2. -/
theorem emptyQueueLetsOneCharacterTimePass : Obligations.EmptyQueueLetsOneCharacterTimePass := by
  intro s empty
  have stepped : step s = .next s.tick := by rw [step, empty]
  by_cases stopped : s.ctl.state = .stopped
  · have still : s.tick = s := if_neg (by simp [State.follows, stopped])
    rw [still] at stepped
    exact ⟨s, stepped, empty, rfl, rfl, rfl, fun _ => rfl, fun _ => rfl, fun running => absurd stopped running,
      fun running => absurd stopped running, fun running => absurd stopped running,
      fun _ running => absurd stopped running, fun running => absurd stopped running, fun running => absurd stopped running⟩
  · have ticks : s.tick = s.tickTimers.tickLine := if_pos (by simp [State.follows, stopped])
    have line : s.tickTimers.line = s.line := by simp
    have ran : s.tickTimers.ctl.state ≠ .stopped := State.tickTimers_state_ne stopped (by simp)
    have known (member : s.ctl.state ≠ .listening) : s.tickTimers.ctl.state ≠ .listening :=
      State.tickTimers_state_ne member (by simp)
    refine ⟨_, stepped, by simpa using empty, by simp, by simp, by simp, fun a => by simp, fun halted => absurd halted stopped,
      fun _ early => ?_, fun _ idle => ?_, fun _ slotting passed => ?_, fun g _ transmitting flight => ?_,
      fun _ verdict => ?_, fun _ stuck => ?_⟩
    · rw [ticks]
      obtain ⟨claims, refresh, units⟩ := State.tickLine_keeps (s := s.tickTimers) (by rw [line]; exact early)
      refine ⟨fun left state timer => ?_, fun n left member inside timer => ?_, fun left waits timer => ?_,
        fun w left g inside found timer => ?_, fun w left inside timer => ?_⟩
      · obtain ⟨roster, -⟩ := units (known (by rcases state with joining | active <;> simp [*]))
        rw [roster, State.tickTimers_announce timer]
      · obtain ⟨roster, -⟩ := units (known fun listening => by
          simp [State.isMember, StationState.isMember, listening] at member)
        rw [State.silenceTimer_of_roster roster, State.tickTimers_silence member inside timer]
      · obtain ⟨joining, -⟩ := (State.awaitsCensus_iff s).1 waits
        obtain ⟨-, ctl⟩ := units (known (by simp [joining]))
        rw [ctl, State.tickTimers_answer timer]
      · rw [State.guardOf_of_claims claims, State.tickTimers_lease inside found timer]
      · rw [State.copy_of_refresh refresh, State.tickTimers_fetch inside timer]
    · have ticked : s.tickTimers.tickLine = s.tickTimers.tickIdle := by rw [State.tickLine, line, idle]
      rw [ticks, ticked]
      refine ⟨fun gap silence => ?_, fun timing past reference => ?_, fun reference limit => ?_⟩
      · rw [State.tickIdle_counts ran (by rw [line]; exact idle) (by rw [line]; exact gap) (by rw [line]; exact silence)]
        simp [State.countedIdle]
      · rw [State.tickIdle_completes ran (by rw [line]; exact idle) (by rw [line]; exact timing) (by rw [line]; exact past)
          (by rw [line]; exact reference)]
        simp [State.countedIdle, Line.beginSlots]
      · exact State.tickIdle_silent ran (by rw [line]; exact idle) (by rw [line]; exact reference) (by rw [line]; exact limit)
    · have ticked : s.tickTimers.tickLine = s.tickTimers.tickSlot := by rw [State.tickLine, line, slotting]
      rw [ticks, ticked, State.tickSlot_passes ran (by rw [line]; exact slotting), line]
      simpa [State.ownSlot, State.station] using passed
    · have ticked : s.tickTimers.tickLine = s.tickTimers.tickFrame := by rw [State.tickLine, line, transmitting]
      have busy : s.lineBusy = true := by simp [State.lineBusy, transmitting]
      rw [ticks, ticked, State.tickFrame_line (by rw [line]; exact transmitting)
        ((State.tickTimers_inflight_of_busy busy).trans flight), line]
    · have ticked : s.tickTimers.tickLine = s.tickTimers.tickVerdict := by rw [State.tickLine, line, verdict]
      rw [ticks, ticked]
      refine ⟨fun early => ?_, fun f held past => ?_⟩
      · rw [State.tickVerdict_counts (by rw [line]; exact early), line]
      · have gap := State.tickVerdict_ends (s := s.tickTimers) (f := f) (by rw [line]; exact verdict) (by simpa using held)
          (by rw [line]; exact past)
        exact ⟨gap.idle, gap.free⟩
    · have ticked : s.tickTimers.tickLine = s.tickTimers.tickStuck := by rw [State.tickLine, line, stuck]
      rw [ticks, ticked]
      refine ⟨fun early => ?_, fun past => ?_⟩
      · rw [State.tickStuck_counts (by rw [line]; exact early), line]
      · rw [State.tickStuck_frees ran (by rw [line]; exact stuck) (by rw [line]; exact past), line]

end Sys2Proof.Machine
end
